-- ==== Sys2Proof/Word.lean ====
section
/-! DEFINITION. The word types of the T1IDWT block (spec/00_scope.md R7 XLEN, R8, R9). -/

namespace Sys2Proof

/-- A 32-bit register, coefficient word or sample word: XLEN is 32 (R7). Bit 0 is the least significant bit (R8). -/
abbrev Word := BitVec 32

/-- One element of the bitstream memory BS (R60). -/
abbrev Byte := BitVec 8

end Sys2Proof
end

