-- ==== Sys2Proof/Config.lean ====
section
/-! DEFINITION. What an implementation fixes (spec/00_scope.md R7) and the values the spec leaves free
(spec/93_implementation_defined.md U3, U5, U11). A constant without a body is OPEN: nothing can be proved of its value. -/

namespace Sys2Proof

/-- `N_CX`, the number of arithmetic-decoder contexts (R7, R24). -/
abbrev Config.nCx : Nat := 19

/-- `N_QE`, the number of rows of the probability-state table (R7, R120). -/
abbrev Config.nQe : Nat := 47

/-- `P_CB_MAX_W` (R7). -/
def Config.cbMaxW : Nat := 1024

/-- `P_CB_MAX_H` (R7). -/
def Config.cbMaxH : Nat := 1024

/-- `P_CB_MAX_AREA`: the largest code-block area, and the number of elements of COEF and of FLAG (R7, R60). -/
def Config.cbMaxArea : Nat := 4096

/-- `P_NL_MAX`, the largest number of decomposition levels (R7). -/
def Config.nlMax : Nat := 32

/-- `P_GUARD_MAX`, the largest guard-bit count (R7). -/
def Config.guardMax : Nat := 7

/-- `P_PREC_MAX`, the largest component precision (R7). -/
def Config.precMax : Nat := 38

/-- By how much `P_BS_BYTES` exceeds its least legal value (R7 OPEN, at least 2; assumption 3). -/
opaque Config.bsBytesExtra : Nat

/-- By how much `P_SAMP_WORDS` exceeds its least legal value (R7 OPEN, at least 1; assumption 3). -/
opaque Config.sampWordsExtra : Nat

/-- `P_BS_BYTES`, the capacity of BS: OPEN, at least 2 (R7). -/
def Config.bsBytes : Nat := Config.bsBytesExtra + 2

/-- `P_SAMP_WORDS`, the capacity of SAMP: OPEN, at least 1 (R7). -/
def Config.sampWords : Nat := Config.sampWordsExtra + 1

/-- The rounded floating-point operations of the irreversible path (R10, R217). -/
inductive FpOp where
  | fadd
  | fsub
  | fmul
deriving DecidableEq, Repr

/-- Where an operation of the irreversible path stands: the number of the command among those that draw free values
(`State.freeCount`), the level, the axis (0 horizontal, 1 vertical), the line, the step of R215 and its index `k`. Two
different operations of a run carry different tags, so each invalid operation draws a NaN of its own (U3). -/
structure FpTag where
  seed : Nat
  lev  : Nat
  axis : Nat
  line : Nat
  step : Nat
  k    : Int
deriving DecidableEq, Repr

/-- FREE VALUE (U3, R217): the sign and the 22 payload bits of the quiet NaN an operation returns (assumption 5). -/
opaque Config.nanBits : FpTag → FpOp → BitVec 23

/-- FREE VALUE (U11, R304): what the fields of `STATUS` other than `BUSY` read while `BUSY` = 1 (assumption 6). -/
opaque Config.busyStatus : Nat → Word

/-- `P_FP` (R7, decision D14): the float operations of the irreversible path as one configuration record.
`Machine.binary32` is the record this spec fixes. -/
structure FpOps where
  fadd : FpTag → Word → Word → Word
  fsub : FpTag → Word → Word → Word
  fmul : FpTag → Word → Word → Word
  fneg : Word → Word
  u2f  : Nat → Word

end Sys2Proof
end

