-- ==== Sys2Proof/Machine/Float32.lean ====
section
/-! DEFINITION. IEEE 754 binary32 arithmetic, rounded to nearest, ties to even (spec/00_scope.md R10,
spec/43_idwt.md R217). Every operation is computed exactly and rounded once. -/

namespace Sys2Proof.Machine

/-- What a binary32 pattern stands for (R217): a NaN, an infinity of a sign, or `±m * 2^e` exactly. -/
inductive FpVal where
  | nan
  | inf (neg : Bool)
  | fin (neg : Bool) (m : Nat) (e : Int)
deriving DecidableEq, Repr

/-- The pattern of +infinity. -/
def fpInf : Nat := 0x7F800000

/-- Sign bit 31 set or clear, and the other bits. -/
def fpWord (neg : Bool) (rest : Nat) : Word := BitVec.ofNat 32 ((if neg then 0x80000000 else 0) + rest)

/-- The value of a pattern: sign bit 31, exponent bits 30 to 23 with bias 127, fraction bits 22 to 0; an exponent field
of 0 is a zero or a subnormal (R217). -/
def fpVal (w : Word) : FpVal :=
  let ex := (w.extractLsb' 23 8).toNat
  let fr := (w.extractLsb' 0 23).toNat
  if ex = 255 then
    if fr = 0 then .inf w.msb else .nan
  else if ex = 0 then .fin w.msb fr (-149)
  else .fin w.msb (0x800000 + fr) ((ex : Int) - 150)

/-- `m / 2^k` rounded to the nearest integer, ties to even. -/
def roundShift (m k : Nat) : Nat :=
  let q := m / 2 ^ k
  let r := m % 2 ^ k
  if 2 ^ k < 2 * r then q + 1
  else if 2 * r = 2 ^ k ∧ q % 2 = 1 then q + 1
  else q

/-- The exponent of the last place a result `m * 2^e` keeps: 24 significant bits, but never below that of a
subnormal. -/
def lastPlace (m : Nat) (e : Int) : Int := max (e + (Nat.log2 m : Int) - 23) (-149)

/-- `m` expressed in units of `2^(q-e)`, rounded. -/
def scaleTo (m : Nat) (e q : Int) : Nat :=
  if e ≤ q then roundShift m (q - e).toNat else m * 2 ^ (e - q).toNat

/-- The binary32 value nearest `±m * 2^e`, ties to even (R217): gradual underflow, and an infinity on overflow. With
`q` the last place and `n` the rounded significand, the pattern below the sign is `(q + 149) * 2^23 + n`. -/
def fpRound (neg : Bool) (m : Nat) (e : Int) : Word :=
  if m = 0 then fpWord neg 0
  else
    let q := lastPlace m e
    let bits := (q + 149).toNat * 0x800000 + scaleTo m e q
    fpWord neg (if fpInf ≤ bits then fpInf else bits)

/-- The quiet NaN an operation returns (R217, U3): exponent field all ones, the top fraction bit 1, and free sign and
payload. -/
def quietNan (t : FpTag) (op : FpOp) : Word :=
  let f := Config.nanBits t op
  fpWord f.msb (0x7FC00000 + (f.extractLsb' 0 22).toNat)

/-- `fneg` (R217): flips bit 31 and nothing else. -/
def fpNeg (a : Word) : Word := a ^^^ 0x80000000

/-- A signed magnitude as an integer. -/
def signedNat (neg : Bool) (m : Nat) : Int := if neg then -(m : Int) else m

/-- The sum of two finite values, rounded once (R217). An exact zero is +0, but −0 where both operands are −0. -/
def fpAddFin (n1 : Bool) (m1 : Nat) (e1 : Int) (n2 : Bool) (m2 : Nat) (e2 : Int) : Word :=
  let e := min e1 e2
  let x := signedNat n1 (m1 * 2 ^ (e1 - e).toNat) + signedNat n2 (m2 * 2 ^ (e2 - e).toNat)
  if x = 0 then fpWord (n1 && n2 && decide (m1 = 0)) 0 else fpRound (decide (x < 0)) x.natAbs e

/-- The sum of two values, where `nan` is the quiet NaN of an invalid operation (R217). -/
def fpSum (nan : Word) (a b : FpVal) : Word :=
  match a, b with
  | .nan, _ => nan
  | .inf _, .nan => nan
  | .inf n1, .inf n2 => if n1 = n2 then fpWord n1 fpInf else nan
  | .inf n1, .fin _ _ _ => fpWord n1 fpInf
  | .fin _ _ _, .nan => nan
  | .fin _ _ _, .inf n2 => fpWord n2 fpInf
  | .fin n1 m1 e1, .fin n2 m2 e2 => fpAddFin n1 m1 e1 n2 m2 e2

/-- The value with its sign flipped. -/
def fpValNeg : FpVal → FpVal
  | .nan => .nan
  | .inf n => .inf (!n)
  | .fin n m e => .fin (!n) m e

/-- The product of two values, where `nan` is the quiet NaN of an invalid operation (R217). -/
def fpProduct (nan : Word) (a b : FpVal) : Word :=
  match a, b with
  | .nan, _ => nan
  | .inf _, .nan => nan
  | .inf n1, .inf n2 => fpWord (xor n1 n2) fpInf
  | .inf n1, .fin n2 m2 _ => if m2 = 0 then nan else fpWord (xor n1 n2) fpInf
  | .fin _ _ _, .nan => nan
  | .fin n1 m1 _, .inf n2 => if m1 = 0 then nan else fpWord (xor n1 n2) fpInf
  | .fin n1 m1 e1, .fin n2 m2 e2 => fpRound (xor n1 n2) (m1 * m2) (e1 + e2)

/-- `fadd(a,b)` (R10, R217). -/
def fpAdd (t : FpTag) (a b : Word) : Word := fpSum (quietNan t .fadd) (fpVal a) (fpVal b)

/-- `fsub(a,b)` (R10, R217). -/
def fpSub (t : FpTag) (a b : Word) : Word := fpSum (quietNan t .fsub) (fpVal a) (fpValNeg (fpVal b))

/-- `fmul(a,b)` (R10, R217). -/
def fpMul (t : FpTag) (a b : Word) : Word := fpProduct (quietNan t .fmul) (fpVal a) (fpVal b)

/-- `u2f(n)` (R217), for an integer below 2^31. -/
def fpOfNat (n : Nat) : Word := fpRound false n 0

/-- The float operations this spec fixes: `P_FP` is binary32 (R7). -/
def binary32 : FpOps where
  fadd := fpAdd
  fsub := fpSub
  fmul := fpMul
  fneg := fpNeg
  u2f  := fpOfNat

/-- `F32(0.5)` (R216). -/
def fpHalf : Word := 0x3F000000

end Sys2Proof.Machine
end

