-- ==== Sys2Proof/Machine/Context.lean ====
section
/-! DEFINITION. The context file of the arithmetic decoder and its initial states (spec/10_state.md R24,
spec/40_mq_decoder.md R121). -/

namespace Sys2Proof.Machine

/-- A context entry (R24): `I[cx]`, an index in `[0, 46]` of the probability-state table, and `MPS[cx]`. -/
structure CtxEntry where
  idx : Fin 47
  mps : Bool
deriving DecidableEq, Repr

/-- The context file: 19 entries, indexed by the context label (R24). -/
abbrev CtxFile := Vector CtxEntry 19

/-- The initial context states (R121, R122): every `I` 0 and every `MPS` 0, but `I[0]` 4, `I[17]` 3, `I[18]` 46. -/
def initialContexts : CtxFile :=
  (((Vector.replicate 19 (CtxEntry.mk 0 false)).set 0 ⟨4, false⟩).set 17 ⟨3, false⟩).set 18 ⟨46, false⟩

end Sys2Proof.Machine
end

