-- ==== Sys2Proof/Machine/State.lean ====
section
/-! DEFINITION. The state of the T1IDWT block as plain data (spec/10_state.md, spec/20_memory.md R60), the reasons a
step can stop, and the state after hardware reset (R34, R300). -/

namespace Sys2Proof.Machine

/-- The five working registers of the arithmetic decoder (R21). -/
structure MqRegs where
  /-- `A`, the interval size, 16 bits. -/
  a  : BitVec 16
  /-- `C`, the code register, 32 bits; `C[31:16]` is `Chigh`. -/
  c  : BitVec 32
  /-- `CT`, the shifts left before the next refill, 4 bits. -/
  ct : BitVec 4
  /-- `BP`, the byte pointer, 32 bits. -/
  bp : BitVec 32
  /-- `D`, the most recent decision, 1 bit. -/
  d  : Bool
deriving DecidableEq, Repr

/-- The fields of `STATUS` (R23, R26). -/
structure StatusFlags where
  busy    : Bool
  done    : Bool
  err     : Bool
  session : Bool
  mqrdy   : Bool
  errcode : BitVec 4
deriving DecidableEq, Repr

/-- The sixteen RW parameter registers (R25, R27), each holding whatever the host last wrote. -/
structure ParamRegs where
  cbW : Word
  cbH : Word
  cbOrient : Word
  cbNpass : Word
  cbZbp : Word
  cbLen : Word
  qGuard : Word
  qStep : Word
  qPrec : Word
  qDx : Word
  qDy : Word
  dwX0 : Word
  dwY0 : Word
  dwX1 : Word
  dwY1 : Word
  dwNl : Word
deriving DecidableEq, Repr

/-- The latched job state (R29): `LW`, `LH`, `LO` and `L`. -/
structure Latches where
  lw  : Word
  lh  : Word
  lo  : BitVec 2
  len : Word
deriving DecidableEq, Repr

/-- One element of FLAG (R30): σ significant, π visited in the current bit-plane, ρ refined at least once. -/
structure CoefFlags where
  sigma : Bool
  pi    : Bool
  rho   : Bool
deriving DecidableEq, Repr

/-- An address space of whole elements (R60): the listed `(index, element)` pairs, indices strictly rising. For BS it
is a list of `Host.Cell`. -/
abbrev Memory (α : Type) := List (Nat × α)

/-- The capacities of BS and SAMP, `P_BS_BYTES` and `P_SAMP_WORDS` (R7): part of the machine, changed by nothing. -/
structure Capacity where
  bsBytes   : Nat
  sampWords : Nat
deriving DecidableEq, Repr

/-- One access by the host agent (R20, R64, R254, R255), or the hardware reset applied from outside (R300). A REG
access has a byte offset and a width in bits; an access to BS, COEF or SAMP has an element index. -/
inductive HostOp where
  | writeReg (off bits : Nat) (v : Word)
  | readReg (off bits : Nat)
  | writeBs (i : Nat) (v : Byte)
  | readBs (i : Nat)
  | writeCoef (i : Nat) (v : Word)
  | readCoef (i : Nat)
  | writeSamp (i : Nat) (v : Word)
  | readSamp (i : Nat)
  | hardReset
deriving DecidableEq, Repr

/-- The machine: the block's state, and the host's accesses still to come. -/
structure State where
  /-- The fields of `STATUS` (R26). -/
  status    : StatusFlags
  /-- `ERRINFO` (R28). -/
  errinfo   : Word
  /-- `T1_PASSDONE` (R28). -/
  passDone  : Word
  /-- The RW parameter registers (R25). -/
  par       : ParamRegs
  /-- `A`, `C`, `CT`, `BP`, `D` (R21). -/
  mq        : MqRegs
  /-- The context file `I[cx]`, `MPS[cx]` (R24). -/
  cx        : CtxFile
  /-- `LW`, `LH`, `LO`, `L` (R29). -/
  lat       : Latches
  /-- The bitstream memory BS (R62). -/
  bs        : Memory Byte
  /-- The coefficient memory COEF (R63). -/
  coef      : Memory Word
  /-- The coefficient flags FLAG (R30). -/
  flag      : Memory CoefFlags
  /-- The sample memory SAMP (R65). -/
  samp      : Memory Word
  /-- The capacities of BS and SAMP (R7). -/
  cap       : Capacity
  /-- The MODEL's own: the accesses the host will make, the next first (R20, R22; assumption 2). -/
  pending   : List HostOp
  /-- The MODEL's own: what the host's last read returned (R255; assumption 2). -/
  hostData  : Word
  /-- The MODEL's own: how many free values have been drawn (assumptions 5 and 6). -/
  freeCount : Nat
deriving DecidableEq, Repr

/-- Why the model stops. None is an error of the block: those are latched in `STATUS` and the machine goes on. -/
inductive Fault where
  /-- Raised by `BSRead`, and by a host read of BS, when the element has not been written since hardware reset: its
  value is unspecified (R70, U1). Safe: the hardware goes on with some value. -/
  | unwrittenBs (i : Nat)
  /-- Raised by a read of COEF, by a command or the host, of an element not written since hardware reset (R70, U1).
  Safe. -/
  | unwrittenCoef (i : Nat)
  /-- Raised by a read of SAMP, by a command or the host, of an element not written since hardware reset (R70, U1).
  Safe. -/
  | unwrittenSamp (i : Nat)
  /-- Raised by `RENORMD` when fifteen shifts have not set bit 15 of `A`: its loop (R126) would shift a zero for ever.
  R130 shows that no run from reset comes here. Safe. -/
  | renormStuck
deriving DecidableEq, Repr

/-- Why the model declines. -/
inductive Refusal where
  /-- Raised by an arm of `exec` whose instruction has no meaning yet; no arm is left so. Safe. -/
  | notModelled (mnemonic : String)
  /-- Raised by a host access, other than a read of `STATUS` or a write to `CMD`, made while `BUSY` = 1: forbidden, its
  results not specified (R304, U2). A command is one atomic step, so no run from reset comes here. Safe. -/
  | accessWhileBusy
deriving DecidableEq, Repr

/-- The parameter registers after reset (R34): all zero. -/
def ParamRegs.zero : ParamRegs :=
  ⟨0, 0, 0, 0, 0, 0, 0, 0, 0, 0, 0, 0, 0, 0, 0, 0⟩

/-- The machine after hardware reset (R34, R300): every register, latch and flag 0, the contexts in their initial
states, and no element of BS, COEF, FLAG, SAMP written. The host has no access to come, and the capacities are the
OPEN parameters of `Config`. -/
def State.reset : State where
  status    := ⟨false, false, false, false, false, 0⟩
  errinfo   := 0
  passDone  := 0
  par       := ParamRegs.zero
  mq        := ⟨0, 0, 0, 0, false⟩
  cx        := initialContexts
  lat       := ⟨0, 0, 0, 0⟩
  bs        := []
  coef      := []
  flag      := []
  samp      := []
  cap       := ⟨Config.bsBytes, Config.sampWords⟩
  pending   := []
  hostData  := 0
  freeCount := 0

end Sys2Proof.Machine
end

