-- ==== Sys2Proof/Machine/Flags.lean ====
section
/-! DEFINITION. `STATUS` as the host reads it, the error kinds and their codes, and how each event of a command writes
the flags (spec/10_state.md R23, R26; spec/60_exceptions.md R270, R275; spec/44_system_commands.md R250, R253). -/

namespace Sys2Proof.Machine

/-- The error kinds (R270). `codestream` and `truncated` belong to other stages and are never raised here. -/
inductive ErrKind where
  | codestream
  | truncated
  | unsupported
  | corruptBitstream
  | geometry
  | sequence
deriving DecidableEq, Repr

/-- The code `STATUS.ERRCODE` shows for a kind (R270). -/
def ErrKind.code : ErrKind → BitVec 4
  | .codestream => 1
  | .truncated => 2
  | .unsupported => 3
  | .corruptBitstream => 4
  | .geometry => 5
  | .sequence => 6

/-- One flag as a bit of a word. -/
def flagBit (b : Bool) (pos : Nat) : Word := if b then (1 : Word) <<< pos else 0

/-- `STATUS` as a word (R26): `BUSY` 0, `DONE` 1, `ERR` 2, `SESSION` 3, `MQRDY` 4, `ERRCODE` 11 to 8, the rest zero. -/
def statusWord (f : StatusFlags) : Word :=
  flagBit f.busy 0 ||| flagBit f.done 1 ||| flagBit f.err 2 ||| flagBit f.session 3 ||| flagBit f.mqrdy 4 |||
    (f.errcode.setWidth 32 <<< 8)

/-- The flags when a command is accepted (R250): `DONE` 0, `BUSY` 1. -/
def StatusFlags.accepted (f : StatusFlags) : StatusFlags := { f with done := false, busy := true }

/-- The flags when a command completes without error (R250): `DONE` 1, `BUSY` 0. -/
def StatusFlags.completed (f : StatusFlags) : StatusFlags := { f with done := true, busy := false }

/-- The flags when an error is raised (R275). `closes` says that the command is one of `MQ.INIT`, `MQ.DECODE`,
`T1.START`, `T1.SP`, `T1.MR`, `T1.CU`, `T1.DECODE`: then `SESSION` and `MQRDY` are cleared too. -/
def StatusFlags.raised (f : StatusFlags) (closes : Bool) (k : ErrKind) : StatusFlags where
  busy    := false
  done    := false
  err     := true
  session := f.session && !closes
  mqrdy   := f.mqrdy && !closes
  errcode := k.code

/-- The flags when an error is acknowledged (R253): `ERR` and `ERRCODE` cleared. -/
def StatusFlags.acknowledged (f : StatusFlags) : StatusFlags := { f with err := false, errcode := 0 }

end Sys2Proof.Machine
end

