-- ==== Sys2Proof/Machine/Ops.lean ====
section
/-! DEFINITION. The named operations over memories and registers, the engine's computations, and raising an error, the
block's exception (spec/00_scope.md R11, spec/20_memory.md, spec/60_exceptions.md R275). -/

namespace Sys2Proof.Machine

/-! ## Memories -/

/-- The element listed at index `i`, if there is one. -/
def Memory.read {α : Type} (m : Memory α) (i : Nat) : Option α :=
  match m with
  | [] => none
  | (j, v) :: r => if j = i then some v else Memory.read r i

/-- List `v` at index `i`, in place of what was listed there, indices rising. -/
def Memory.write {α : Type} (m : Memory α) (i : Nat) (v : α) : Memory α :=
  match m with
  | [] => [(i, v)]
  | (j, w) :: r =>
    if i < j then (i, v) :: (j, w) :: r
    else if i = j then (i, v) :: r
    else (j, w) :: Memory.write r i v

/-- List nothing at index `i`. -/
def Memory.erase {α : Type} (m : Memory α) (i : Nat) : Memory α := m.filter (fun p => decide (p.1 ≠ i))

/-- The canonical form: the listed indices are strictly rising. -/
abbrev Memory.wf {α : Type} (m : Memory α) : Prop := m.Pairwise (fun p q => p.1 < q.1)

/-- Every listed index is below `n`, the number of elements of the space (R60). -/
abbrev Memory.within {α : Type} (m : Memory α) (n : Nat) : Prop := ∀ p ∈ m, p.1 < n

/-- What an index of FLAG that is not listed reads as. No command reads an element of FLAG that was not written
(R70), so the value is never seen (assumption 4). -/
def unlistedFlag : CoefFlags := ⟨false, false, false⟩

/-! ## Elements of the state -/

/-- Write a byte of BS (R62, R254). -/
def writeBs (i : Nat) (v : Byte) (s : State) : State := { s with bs := Memory.write s.bs i v }

/-- Write a coefficient word (R63). -/
def writeCoef (i : Nat) (v : Word) (s : State) : State := { s with coef := Memory.write s.coef i v }

/-- Write a sample word (R65). -/
def writeSamp (i : Nat) (v : Word) (s : State) : State := { s with samp := Memory.write s.samp i v }

/-- The three flags of a coefficient (R30). -/
def flagAt (s : State) (i : Nat) : CoefFlags := (Memory.read s.flag i).getD unlistedFlag

/-- Write the three flags of a coefficient (R30), keeping FLAG canonical: no entry is what an unlisted index reads as. -/
def writeFlag (i : Nat) (f : CoefFlags) (s : State) : State :=
  { s with flag := if f = unlistedFlag then Memory.erase s.flag i else Memory.write s.flag i f }

/-- The context entry of a label (R24). -/
def ctxAt (s : State) (cx : Fin 19) : CtxEntry := s.cx.get cx

/-- Write the context entry of a label (R24). -/
def writeCtx (cx : Fin 19) (e : CtxEntry) (s : State) : State := { s with cx := s.cx.set cx.val e cx.isLt }

/-- Put all 19 contexts into their initial states (R121, R122). -/
def resetContexts (s : State) : State := { s with cx := initialContexts }

/-- Write the working registers (R21). -/
def setMq (m : MqRegs) (s : State) : State := { s with mq := m }

/-- Write the flags of `STATUS` (R26). -/
def setStatus (f : StatusFlags) (s : State) : State := { s with status := f }

/-- Write `SESSION` and `MQRDY` (R23). -/
def setSession (session mqrdy : Bool) (s : State) : State :=
  { s with status := { s.status with session := session, mqrdy := mqrdy } }

/-- Write the latches (R29). -/
def setLatches (l : Latches) (s : State) : State := { s with lat := l }

/-- Write `T1_PASSDONE` (R28). -/
def setPassDone (n : Word) (s : State) : State := { s with passDone := n }

/-- Write the parameter registers (R25). -/
def setPar (p : ParamRegs) (s : State) : State := { s with par := p }

/-- Give the host the data of a read (R255). -/
def setHostData (v : Word) (s : State) : State := { s with hostData := v }

/-- Set what the host does next (assumption 2). -/
def setPending (ops : List HostOp) (s : State) : State := { s with pending := ops }

/-- Pass to the next free value (assumptions 5 and 6). -/
def drawFree (s : State) : State := { s with freeCount := s.freeCount + 1 }

/-! ## The engine -/

/-- What ends a command before its last step: an error of the block (R275), or a stop of the model. -/
inductive Stop where
  | raise (k : ErrKind) (info : Word)
  | fault (f : Fault)
deriving DecidableEq, Repr

/-- A computation of the engine. What it wrote before it stopped stays written (R276). -/
abbrev Eng (α : Type) := EStateM Stop State α

/-- `raise Kind(info)` (R275), from inside a command. -/
def raise {α : Type} (k : ErrKind) (info : Word) : Eng α := throw (.raise k info)

/-- Stop the model. -/
def stopModel {α : Type} (f : Fault) : Eng α := throw (.fault f)

/-- `if c: m` (R11). -/
def onlyIf (c : Bool) (m : Eng Unit) : Eng Unit := if c then m else pure ()

/-- `for x in l, in order: body x` (R11). -/
def forEach {α : Type} (l : List α) (body : α → Eng Unit) : Eng Unit :=
  match l with
  | [] => pure ()
  | x :: r => do
    body x
    forEach r body

/-- The read of one coefficient word by the engine (R63, R70). -/
def readCoef (i : Nat) : Eng Word := do
  let s ← get
  match Memory.read s.coef i with
  | some v => pure v
  | none => stopModel (.unwrittenCoef i)

/-- The read of one sample word by the engine (R65, R70). -/
def readSamp (i : Nat) : Eng Word := do
  let s ← get
  match Memory.read s.samp i with
  | some v => pure v
  | none => stopModel (.unwrittenSamp i)

/-- Read sample words, in order. -/
def readSamps (l : List Nat) : Eng (List Word) :=
  match l with
  | [] => pure []
  | i :: r => do
    let v ← readSamp i
    let vs ← readSamps r
    pure (v :: vs)

/-- Write sample words, in order. -/
def writeSamps (l : List (Nat × Word)) (s : State) : State :=
  match l with
  | [] => s
  | (i, v) :: r => writeSamps r (writeSamp i v s)

/-! ## Commands: acceptance, completion, error, acknowledgement -/

/-- A command is accepted (R250). -/
def accept (s : State) : State := setStatus s.status.accepted s

/-- A command completes without error (R250). -/
def complete (s : State) : State := setStatus s.status.completed s

/-- TAKING AN EXCEPTION: an error is raised inside a command and ends it (R275). No program counter, stack, mode or
vector takes part: `ERRCODE`, `ERRINFO`, `ERR`, `DONE`, `BUSY`, and, for the commands that close the session, `SESSION`
and `MQRDY` are written, and nothing else. -/
def takeError (closes : Bool) (k : ErrKind) (info : Word) (s : State) : State :=
  { setStatus (s.status.raised closes k) s with errinfo := info }

/-- RETURN FROM AN EXCEPTION: the effect of `CLRERR` (R253, R277). -/
def acknowledgeError (s : State) : State :=
  { setStatus s.status.acknowledged s with errinfo := 0 }

/-- Run a command's body to completion or to a raise (R250). -/
def runCommand (closes : Bool) (body : Eng Unit) (s : State) : Host.Outcome State Fault Refusal :=
  match body s with
  | .ok _ t => .next (complete t)
  | .error (.raise k info) t => .next (takeError closes k info t)
  | .error (.fault f) _ => .fault f

/-- An illegal command word (R93, R250): `Unsupported` with the word in `ERRINFO`, and `SESSION`, `MQRDY` kept (R275). -/
def illegalWord (w : Word) (s : State) : State := takeError false .unsupported w s

end Sys2Proof.Machine
end

