-- ==== Sys2Proof/Machine/Operands.lean ====
section
/-! DEFINITION. The register space REG and every operand a command forms from the parameter registers: the check
tables and the derived quantities (spec/10_state.md R25, spec/30_encoding.md R98, spec/41_t1_passes.md R150,
spec/42_dequantizer.md R190, R191, spec/43_idwt.md R210). -/

namespace Sys2Proof.Machine

/-! ## The register space -/

/-- The RW parameter registers by name (R25). -/
inductive ParamName where
  | cbW
  | cbH
  | cbOrient
  | cbNpass
  | cbZbp
  | cbLen
  | qGuard
  | qStep
  | qPrec
  | qDx
  | qDy
  | dwX0
  | dwY0
  | dwX1
  | dwY1
  | dwNl
deriving DecidableEq, Repr

/-- The byte offset of a parameter register (R25). -/
def ParamName.offset : ParamName → Nat
  | .cbW => 0x010
  | .cbH => 0x014
  | .cbOrient => 0x018
  | .cbNpass => 0x01C
  | .cbZbp => 0x020
  | .cbLen => 0x024
  | .qGuard => 0x030
  | .qStep => 0x034
  | .qPrec => 0x038
  | .qDx => 0x03C
  | .qDy => 0x040
  | .dwX0 => 0x050
  | .dwY0 => 0x054
  | .dwX1 => 0x058
  | .dwY1 => 0x05C
  | .dwNl => 0x060

/-- The value of a parameter register. -/
def readParam (p : ParamRegs) : ParamName → Word
  | .cbW => p.cbW
  | .cbH => p.cbH
  | .cbOrient => p.cbOrient
  | .cbNpass => p.cbNpass
  | .cbZbp => p.cbZbp
  | .cbLen => p.cbLen
  | .qGuard => p.qGuard
  | .qStep => p.qStep
  | .qPrec => p.qPrec
  | .qDx => p.qDx
  | .qDy => p.qDy
  | .dwX0 => p.dwX0
  | .dwY0 => p.dwY0
  | .dwX1 => p.dwX1
  | .dwY1 => p.dwY1
  | .dwNl => p.dwNl

/-- Store all 32 bits into a parameter register, with no check (R25, R254). -/
def writeParam (p : ParamRegs) (n : ParamName) (v : Word) : ParamRegs :=
  match n with
  | .cbW => { p with cbW := v }
  | .cbH => { p with cbH := v }
  | .cbOrient => { p with cbOrient := v }
  | .cbNpass => { p with cbNpass := v }
  | .cbZbp => { p with cbZbp := v }
  | .cbLen => { p with cbLen := v }
  | .qGuard => { p with qGuard := v }
  | .qStep => { p with qStep := v }
  | .qPrec => { p with qPrec := v }
  | .qDx => { p with qDx := v }
  | .qDy => { p with qDy := v }
  | .dwX0 => { p with dwX0 := v }
  | .dwY0 => { p with dwY0 := v }
  | .dwX1 => { p with dwX1 := v }
  | .dwY1 => { p with dwY1 := v }
  | .dwNl => { p with dwNl := v }

/-- The registers of REG (R25). -/
inductive Reg where
  | cmd
  | status
  | errinfo
  | passDone
  | param (n : ParamName)
  | mqA
  | mqC
  | mqCt
  | mqBp
  | mqD
  | mqCx (cx : Fin 19)
deriving DecidableEq, Repr

/-- The context whose mirror register `MQ_CX[cx]` is at `0x100 + 4*cx` (R25). -/
def mqCxAt (off : Nat) : Option Reg :=
  if h : 0x100 ≤ off ∧ off % 4 = 0 ∧ (off - 0x100) / 4 < 19 then some (.mqCx ⟨(off - 0x100) / 4, h.2.2⟩) else none

/-- The register at a byte offset of REG, if one is listed there (R25). -/
def regAt (off : Nat) : Option Reg :=
  match off with
  | 0x000 => some .cmd
  | 0x004 => some .status
  | 0x008 => some .errinfo
  | 0x010 => some (.param .cbW)
  | 0x014 => some (.param .cbH)
  | 0x018 => some (.param .cbOrient)
  | 0x01C => some (.param .cbNpass)
  | 0x020 => some (.param .cbZbp)
  | 0x024 => some (.param .cbLen)
  | 0x028 => some .passDone
  | 0x030 => some (.param .qGuard)
  | 0x034 => some (.param .qStep)
  | 0x038 => some (.param .qPrec)
  | 0x03C => some (.param .qDx)
  | 0x040 => some (.param .qDy)
  | 0x050 => some (.param .dwX0)
  | 0x054 => some (.param .dwY0)
  | 0x058 => some (.param .dwX1)
  | 0x05C => some (.param .dwY1)
  | 0x060 => some (.param .dwNl)
  | 0x070 => some .mqA
  | 0x074 => some .mqC
  | 0x078 => some .mqCt
  | 0x07C => some .mqBp
  | 0x080 => some .mqD
  | other => mqCxAt other

/-- The register a REG access of a given width reaches: accesses are 32 bits wide at a listed offset, and any other
reaches nothing (R61, R67). -/
def accessedReg (off bits : Nat) : Option Reg := if bits = 32 then regAt off else none

/-- `MQ_CX[cx]` (R25): `I[cx]` in bits 5 to 0, `MPS[cx]` in bit 7, the rest zero. -/
def ctxWord (e : CtxEntry) : Word := BitVec.ofNat 32 e.idx.val ||| flagBit e.mps 7

/-- What a register reads as (R25, R26, R28, R255). -/
def readReg (s : State) : Reg → Word
  | .cmd => 0
  | .status => statusWord s.status
  | .errinfo => s.errinfo
  | .passDone => s.passDone
  | .param n => readParam s.par n
  | .mqA => s.mq.a.setWidth 32
  | .mqC => s.mq.c
  | .mqCt => s.mq.ct.setWidth 32
  | .mqBp => s.mq.bp
  | .mqD => flagBit s.mq.d 0
  | .mqCx cx => ctxWord (ctxAt s cx)

/-! ## Check tables -/

/-- A row of a check table: whether the check holds, and the register whose offset `ERRINFO` shows if it does not. -/
abbrev Check := Bool × ParamName

/-- The register of the first check that fails, in the table's order. -/
def firstFailure : List Check → Option ParamName
  | [] => none
  | (ok, n) :: r => if ok then firstFailure r else some n

/-- Make the checks of a command, in order; the first that fails raises `Geometry` with its register's offset
(R271, R272, R273). -/
def requireGeometry (checks : List Check) : Eng Unit :=
  match firstFailure checks with
  | none => pure ()
  | some n => raise .geometry (BitVec.ofNat 32 n.offset)

/-- `E = Q_STEP[15:11]`, the step-size exponent (R98, R190). -/
def stepExponent (p : ParamRegs) : Nat := (p.qStep.extractLsb' 11 5).toNat

/-- `M = Q_STEP[10:0]`, the step-size mantissa (R98, R190). -/
def stepMantissa (p : ParamRegs) : Nat := (p.qStep.extractLsb' 0 11).toNat

/-- `Mb = G + E - 1`, the number of magnitude bit-planes, a mathematical integer (R190, R150). -/
def planeCount (p : ParamRegs) : Int := (p.qGuard.toNat : Int) + (stepExponent p : Int) - 1

/-- `shift = 31 - Mb` (R190), used when `0 <= Mb <= 31`. -/
def deqShift (p : ParamRegs) : Nat := (31 - planeCount p).toNat

/-- `PW = DW_X1 - DW_X0` (R65, R190, R210), used when `DW_X0 < DW_X1`. -/
def planeW (p : ParamRegs) : Nat := p.dwX1.toNat - p.dwX0.toNat

/-- `PH = DW_Y1 - DW_Y0` (R65, R190, R210), used when `DW_Y0 < DW_Y1`. -/
def planeH (p : ParamRegs) : Nat := p.dwY1.toNat - p.dwY0.toNat

/-- The size of the code-block: checks 1 to 3 of R150 and of R191. -/
def blockChecks (p : ParamRegs) : List Check :=
  [ (decide (1 ≤ p.cbW.toNat) && decide (p.cbW.toNat ≤ Config.cbMaxW), .cbW),
    (decide (1 ≤ p.cbH.toNat) && decide (p.cbH.toNat ≤ Config.cbMaxH), .cbH),
    (decide (p.cbW.toNat * p.cbH.toNat ≤ Config.cbMaxArea), .cbH) ]

/-- Checks 1 to 4 of R150, those of `T1.START`. -/
def startChecks (p : ParamRegs) : List Check :=
  blockChecks p ++ [ (decide (p.cbOrient.toNat ≤ 3), .cbOrient) ]

/-- Checks 6 to 10 of R150, made when `CB_NPASS > 0`. -/
def passChecks (p : ParamRegs) : List Check :=
  [ (decide (p.qGuard.toNat ≤ Config.guardMax), .qGuard),
    (decide (p.qStep.toNat ≤ 0xFFFF), .qStep),
    (decide (1 ≤ planeCount p) && decide (planeCount p ≤ 31), .qStep),
    (decide ((p.cbZbp.toNat : Int) < planeCount p), .cbZbp),
    (decide ((p.cbNpass.toNat : Int) ≤ 3 * (planeCount p - p.cbZbp.toNat) - 1), .cbNpass) ]

/-- Checks 1 to 10 of R150, those of `T1.DECODE`. -/
def decodeChecks (cap : Capacity) (p : ParamRegs) : List Check :=
  startChecks p ++ [ (decide (p.cbLen.toNat ≤ cap.bsBytes), .cbLen) ] ++
    (if p.cbNpass.toNat = 0 then [] else passChecks p)

/-- The one check of `MQ.INIT` (R125). -/
def initChecks (cap : Capacity) (p : ParamRegs) : List Check :=
  [ (decide (p.cbLen.toNat ≤ cap.bsBytes), .cbLen) ]

/-- The sample plane: checks 8 to 10 of R191, and 1 to 3 of R210. -/
def planeChecks (cap : Capacity) (p : ParamRegs) : List Check :=
  [ (decide (p.dwX0.toNat < p.dwX1.toNat), .dwX1),
    (decide (p.dwY0.toNat < p.dwY1.toNat), .dwY1),
    (decide (planeW p * planeH p ≤ cap.sampWords), .dwY1) ]

/-- Checks 4 to 6 of R191. -/
def quantChecks (p : ParamRegs) : List Check :=
  [ (decide (p.qGuard.toNat ≤ Config.guardMax), .qGuard),
    (decide (p.qStep.toNat ≤ 0xFFFF), .qStep),
    (decide (0 ≤ planeCount p) && decide (planeCount p ≤ 31), .qStep) ]

/-- Check 7 of R191, made by `DEQ.IRR` only. -/
def precChecks (p : ParamRegs) : List Check :=
  [ (decide (1 ≤ p.qPrec.toNat) && decide (p.qPrec.toNat ≤ Config.precMax), .qPrec) ]

/-- Checks 11 and 12 of R191: the code-block's rectangle lies in the plane. -/
def placeChecks (p : ParamRegs) : List Check :=
  [ (decide (p.qDx.toNat + p.cbW.toNat ≤ planeW p), .qDx),
    (decide (p.qDy.toNat + p.cbH.toNat ≤ planeH p), .qDy) ]

/-- The checks of `DEQ.REV`, in the order of R191. -/
def deqRevChecks (cap : Capacity) (p : ParamRegs) : List Check :=
  blockChecks p ++ quantChecks p ++ planeChecks cap p ++ placeChecks p

/-- The checks of `DEQ.IRR`, in the order of R191. -/
def deqIrrChecks (cap : Capacity) (p : ParamRegs) : List Check :=
  blockChecks p ++ quantChecks p ++ precChecks p ++ planeChecks cap p ++ placeChecks p

/-- The checks of `IDWT.FULL.*`, 1 to 4 of R210. -/
def fullChecks (cap : Capacity) (p : ParamRegs) : List Check :=
  planeChecks cap p ++ [ (decide (p.dwNl.toNat ≤ Config.nlMax), .dwNl) ]

end Sys2Proof.Machine
end

