-- ==== Sys2Proof/Machine/Deq.lean ====
section
/-! DEFINITION. The dequantizer, commands DEQ.REV and DEQ.IRR (spec/42_dequantizer.md). -/

namespace Sys2Proof.Machine

/-- The coefficients `(j, i)` of a block of `h` rows and `w` columns, row by row (R192, R194). -/
def rasterOrder (w h : Nat) : List (Nat × Nat) :=
  (List.range h).flatMap (fun j => (List.range w).map (fun i => (j, i)))

/-- The magnitude of a coefficient word, bits 30 to 0 (R97). -/
def magnitude (c : Word) : Nat := (c.extractLsb' 0 31).toNat

/-- The truncated magnitude (R192, R194). -/
def truncMag (shift : Nat) (c : Word) : Nat := magnitude c / 2 ^ shift

/-- The reversible value of a coefficient word (R192). -/
def deqRevWord (shift : Nat) (c : Word) : Word :=
  if c.msb then -(BitVec.ofNat 32 (truncMag shift c)) else BitVec.ofNat 32 (truncMag shift c)

/-- `step = (2048 + M) * 2^(P - E - 11)` as a binary32 value, exact for every legal input (R193). -/
def stepSize (p : ParamRegs) : Word :=
  fpRound false (2048 + stepMantissa p) ((p.qPrec.toNat : Int) - (stepExponent p : Int) - 11)

/-- Where the free NaN of a dequantizer operation would be drawn; none is (R194). -/
def deqTag (s : State) : FpTag := ⟨s.freeCount, 0, 0, 0, 0, 0⟩

/-- The irreversible value of a coefficient word (R194, R195): a truncated magnitude of 0 gives +0.0 whatever the sign
(90_conflicts.md C2). -/
def deqIrrWord (fp : FpOps) (t : FpTag) (shift : Nat) (step : Word) (c : Word) : Word :=
  if truncMag shift c = 0 then 0
  else
    let f := fp.fmul t (fp.fadd t (fp.u2f (truncMag shift c)) fpHalf) step
    if c.msb then fp.fneg f else f

/-- The index in SAMP of coefficient `(j, i)` of the code-block: `(Q_DY + j)*PW + (Q_DX + i)` (R192, R197). -/
def destIndex (p : ParamRegs) (j i : Nat) : Nat := (p.qDy.toNat + j) * planeW p + (p.qDx.toNat + i)

/-- Dequantize one coefficient into its place (R192, R194). -/
def deqOne (p : ParamRegs) (f : Word → Word) (q : Nat × Nat) : Eng Unit := do
  let c ← readCoef (q.1 * p.cbW.toNat + q.2)
  modify (writeSamp (destIndex p q.1 q.2) (f c))

/-- Dequantize the code-block (R192, R194). -/
def deqBlock (p : ParamRegs) (f : Word → Word) : Eng Unit :=
  forEach (rasterOrder p.cbW.toNat p.cbH.toNat) (deqOne p f)

/-- The body of `DEQ.REV` (R192). -/
def deqRevBody : Eng Unit := do
  let s ← get
  requireGeometry (deqRevChecks s.cap s.par)
  deqBlock s.par (deqRevWord (deqShift s.par))

/-- The body of `DEQ.IRR` (R194). -/
def deqIrrBody (fp : FpOps) : Eng Unit := do
  let s ← get
  requireGeometry (deqIrrChecks s.cap s.par)
  deqBlock s.par (deqIrrWord fp (deqTag s) (deqShift s.par) (stepSize s.par))

/-- `DEQ.REV` (R192). -/
def execDeqRev (s : State) : Host.Outcome State Fault Refusal := runCommand false deqRevBody s

/-- `DEQ.IRR` (R194). -/
def execDeqIrr (s : State) : Host.Outcome State Fault Refusal := runCommand false (deqIrrBody binary32) s

end Sys2Proof.Machine
end

