-- ==== Sys2Proof/Syntax.lean ====
section
/-! DEFINITION. The command set T1IDWT-CMD version 1: one constructor per row of spec/opcode_table.json
(spec/30_encoding.md R91). An operand is the 8-bit `ARG` field of the command word, as it stands (R92). -/

namespace Sys2Proof

/-- A command of the block (R91). -/
inductive Instr where
  /-- `NOP`, opcode 0x00 (R251). -/
  | nop
  /-- `RESET`, opcode 0x01 (R252). -/
  | reset
  /-- `CLRERR`, opcode 0x02 (R253). -/
  | clrerr
  /-- `MQ.RESETCX`, opcode 0x10 (R122). -/
  | mqResetcx
  /-- `MQ.INIT`, opcode 0x11 (R125). -/
  | mqInit
  /-- `MQ.DECODE cx`, opcode 0x12, `cx` 0 to 18 (R129). -/
  | mqDecode (cx : BitVec 8)
  /-- `T1.START`, opcode 0x20 (R157). -/
  | t1Start
  /-- `T1.SP b`, opcode 0x21, `b` 0 to 30 (R158). -/
  | t1Sp (b : BitVec 8)
  /-- `T1.MR b`, opcode 0x22, `b` 0 to 30 (R159). -/
  | t1Mr (b : BitVec 8)
  /-- `T1.CU b`, opcode 0x23, `b` 0 to 30 (R160). -/
  | t1Cu (b : BitVec 8)
  /-- `T1.DECODE`, opcode 0x24 (R162). -/
  | t1Decode
  /-- `DEQ.REV`, opcode 0x30 (R192). -/
  | deqRev
  /-- `DEQ.IRR`, opcode 0x31 (R194). -/
  | deqIrr
  /-- `IDWT.LEVEL.R53 lev`, opcode 0x40, `lev` 1 to 32 (R219). -/
  | idwtLevelR53 (lev : BitVec 8)
  /-- `IDWT.LEVEL.I97 lev`, opcode 0x41, `lev` 1 to 32 (R220). -/
  | idwtLevelI97 (lev : BitVec 8)
  /-- `IDWT.FULL.R53`, opcode 0x42 (R221). -/
  | idwtFullR53
  /-- `IDWT.FULL.I97`, opcode 0x43 (R222). -/
  | idwtFullI97
deriving DecidableEq, Repr

end Sys2Proof
end

