-- ==== Sys2Proof/WellFormed.lean ====
section
/-! DEFINITION. Which instructions have a legal operand (spec/30_encoding.md R91, R93). -/

namespace Sys2Proof

/-- `cx` is a context label (R93: `OPC` = 0x12 and `ARG > 18` is illegal). -/
def legalCx (cx : BitVec 8) : Bool := decide (cx.toNat ≤ 18)

/-- `b` is a bit position of the magnitude (R93: `OPC` in 0x21, 0x22, 0x23 and `ARG > 30` is illegal). -/
def legalPlane (b : BitVec 8) : Bool := decide (b.toNat ≤ 30)

/-- `lev` is a level number (R93: `OPC` in 0x40, 0x41 and `ARG = 0` or `ARG > 32` is illegal). -/
def legalLevel (lev : BitVec 8) : Bool := decide (1 ≤ lev.toNat) && decide (lev.toNat ≤ 32)

/-- The operand of the instruction is in the legal range of its row (R91, R93). -/
def Instr.wellFormed : Instr → Bool
  | .nop => true
  | .reset => true
  | .clrerr => true
  | .mqResetcx => true
  | .mqInit => true
  | .mqDecode cx => legalCx cx
  | .t1Start => true
  | .t1Sp b => legalPlane b
  | .t1Mr b => legalPlane b
  | .t1Cu b => legalPlane b
  | .t1Decode => true
  | .deqRev => true
  | .deqIrr => true
  | .idwtLevelR53 lev => legalLevel lev
  | .idwtLevelI97 lev => legalLevel lev
  | .idwtFullR53 => true
  | .idwtFullI97 => true

end Sys2Proof
end

