-- ==== Sys2Proof/Decode.lean ====
section
/-! DEFINITION. The command word CMDW: the decoder, total on every 32-bit word and rejecting by name, and the encoder
(spec/30_encoding.md R90 to R93). -/

namespace Sys2Proof

/-- Why a command word is illegal (R93). -/
inductive DecodeError where
  /-- `RSV`, bits 31 to 16, is not zero. -/
  | reservedNotZero
  /-- `OPC` is not one of the seventeen values of R91. -/
  | opcodeUnassigned
  /-- The command takes no operand and `ARG` is not zero. -/
  | operandNotZero
  /-- `ARG` is outside the legal range of the row. -/
  | operandOutOfRange
deriving DecidableEq, Repr

/-- `RSV`, bits 31 to 16 of the command word (R90). -/
def rsvField (w : Word) : BitVec 16 := w.extractLsb' 16 16

/-- `ARG`, bits 15 to 8 of the command word (R90, R92). -/
def argField (w : Word) : BitVec 8 := w.extractLsb' 8 8

/-- `OPC`, bits 7 to 0 of the command word (R90). -/
def opcField (w : Word) : BitVec 8 := w.extractLsb' 0 8

/-- A command that takes no operand: `ARG` must be zero (R93). -/
def withoutOperand (arg : BitVec 8) (i : Instr) : Except DecodeError Instr :=
  if arg = 0 then .ok i else .error .operandNotZero

/-- A command whose operand has a legal range (R93). -/
def withOperand (i : Instr) : Except DecodeError Instr :=
  if i.wellFormed then .ok i else .error .operandOutOfRange

/-- The opcode map (R91), on the operation code and the operand field. -/
def decodeFields (opc arg : BitVec 8) : Except DecodeError Instr :=
  match opc.toNat with
  | 0x00 => withoutOperand arg .nop
  | 0x01 => withoutOperand arg .reset
  | 0x02 => withoutOperand arg .clrerr
  | 0x10 => withoutOperand arg .mqResetcx
  | 0x11 => withoutOperand arg .mqInit
  | 0x12 => withOperand (.mqDecode arg)
  | 0x20 => withoutOperand arg .t1Start
  | 0x21 => withOperand (.t1Sp arg)
  | 0x22 => withOperand (.t1Mr arg)
  | 0x23 => withOperand (.t1Cu arg)
  | 0x24 => withoutOperand arg .t1Decode
  | 0x30 => withoutOperand arg .deqRev
  | 0x31 => withoutOperand arg .deqIrr
  | 0x40 => withOperand (.idwtLevelR53 arg)
  | 0x41 => withOperand (.idwtLevelI97 arg)
  | 0x42 => withoutOperand arg .idwtFullR53
  | 0x43 => withoutOperand arg .idwtFullI97
  | _ => .error .opcodeUnassigned

/-- The command a word written to `CMD` stands for, or why it is illegal (R90, R91, R93). -/
def decode (w : Word) : Except DecodeError Instr :=
  if rsvField w = 0 then decodeFields (opcField w) (argField w) else .error .reservedNotZero

/-- The word with `RSV` zero and the given `ARG` and `OPC`: `(arg << 8) | OPC` (R90, R100). -/
def cmdWord (opc arg : BitVec 8) : Word := (0 : BitVec 16) ++ arg ++ opc

/-- The command word of an instruction (R91). -/
def encode : Instr → Word
  | .nop => cmdWord 0x00 0
  | .reset => cmdWord 0x01 0
  | .clrerr => cmdWord 0x02 0
  | .mqResetcx => cmdWord 0x10 0
  | .mqInit => cmdWord 0x11 0
  | .mqDecode cx => cmdWord 0x12 cx
  | .t1Start => cmdWord 0x20 0
  | .t1Sp b => cmdWord 0x21 b
  | .t1Mr b => cmdWord 0x22 b
  | .t1Cu b => cmdWord 0x23 b
  | .t1Decode => cmdWord 0x24 0
  | .deqRev => cmdWord 0x30 0
  | .deqIrr => cmdWord 0x31 0
  | .idwtLevelR53 lev => cmdWord 0x40 lev
  | .idwtLevelI97 lev => cmdWord 0x41 lev
  | .idwtFullR53 => cmdWord 0x42 0
  | .idwtFullI97 => cmdWord 0x43 0

/-- The command word that a row's bits make: `nbits` bits of `w`, every bit above them zero. All commands are one
32-bit word (R90, R94). -/
def tableWord (nbits w : Nat) : Word := BitVec.ofNat 32 (w % 2 ^ nbits)

/-- The instruction the decoder reads from the bits of an opcode-table row. -/
def decodeTableWord (nbits w : Nat) : Option Instr :=
  match decode (tableWord nbits w) with
  | .ok i => some i
  | .error _ => none

end Sys2Proof
end

