-- ==== Sys2Proof/Machine/Idwt.lean ====
section
/-! DEFINITION. The inverse wavelet transform: level regions, one-dimensional synthesis with the reversible 5/3 and the
irreversible 9/7 kernels, separable synthesis, and the commands IDWT.LEVEL.* and IDWT.FULL.* (spec/43_idwt.md). -/

namespace Sys2Proof.Machine

/-! ## Geometry -/

/-- `ceil(a / 2^k)`. -/
def ceilShift (a k : Nat) : Nat := (a + (2 ^ k - 1)) / 2 ^ k

/-- `ceil(i1/2) - ceil(i0/2)`, the number of low-pass samples of the interval `[i0, i1)` (R211, R212). -/
def lowCount (i0 i1 : Nat) : Nat := ceilShift i1 1 - ceilShift i0 1

/-- `floor(i1/2) - floor(i0/2)`, the number of high-pass samples of the interval `[i0, i1)` (R211, R212). -/
def highCount (i0 i1 : Nat) : Nat := i1 / 2 - i0 / 2

/-- The region of a level (R211): the rectangle `[x0, x1)` by `[y0, y1)` and the row stride `PW` of the plane. -/
structure Region where
  x0 : Nat
  x1 : Nat
  y0 : Nat
  y1 : Nat
  pw : Nat
deriving DecidableEq, Repr

/-- The region of level `lev >= 1` (R211). -/
def regionOf (p : ParamRegs) (lev : Nat) : Region where
  x0 := ceilShift p.dwX0.toNat (lev - 1)
  x1 := ceilShift p.dwX1.toNat (lev - 1)
  y0 := ceilShift p.dwY0.toNat (lev - 1)
  y1 := ceilShift p.dwY1.toNat (lev - 1)
  pw := planeW p

/-- `wl`, the number of columns of a region (R211). -/
def regionW (g : Region) : Nat := g.x1 - g.x0

/-- `hl`, the number of rows of a region (R211). -/
def regionH (g : Region) : Nat := g.y1 - g.y0

/-- Where the sample of absolute coordinate `i` lies along one axis before synthesis (R212, R218): low-pass samples, at
even coordinates, first, then high-pass samples, at odd coordinates. -/
def splitPos (i0 i1 i : Nat) : Nat :=
  if i % 2 = 0 then i / 2 - ceilShift i0 1 else lowCount i0 i1 + ((i - 1) / 2 - i0 / 2)

/-- The indices in SAMP from which row `r` of a region is read, in the order of the coordinates `x0 .. x1-1` (R218). -/
def rowSources (g : Region) (r : Nat) : List Nat :=
  (List.range (regionW g)).map (fun c => r * g.pw + splitPos g.x0 g.x1 (g.x0 + c))

/-- The indices in SAMP to which row `r` of a region is written (R218). -/
def rowTargets (g : Region) (r : Nat) : List Nat := (List.range (regionW g)).map (fun c => r * g.pw + c)

/-- The indices in SAMP from which column `c` of a region is read, in the order of the coordinates `y0 .. y1-1`
(R218). -/
def colSources (g : Region) (c : Nat) : List Nat :=
  (List.range (regionH g)).map (fun r => splitPos g.y0 g.y1 (g.y0 + r) * g.pw + c)

/-- The indices in SAMP to which column `c` of a region is written (R218). -/
def colTargets (g : Region) (c : Nat) : List Nat := (List.range (regionH g)).map (fun r => r * g.pw + c)

/-! ## One-dimensional synthesis -/

/-- `PSE(i)`, periodic symmetric extension of the interval `[i0, i0 + n)`, `n >= 2` (R213). -/
def pse (i0 n : Nat) (i : Int) : Int :=
  let p : Int := 2 * ((n : Int) - 1)
  let m := (i - i0) % p
  i0 + min m (p - m)

/-- `Y(i)` for a coordinate of the interval; `PSE` gives no other. -/
def sampleAt (i0 : Nat) (ys : List Word) (i : Int) : Word := ys[(i - i0).toNat]?.getD 0

/-- `Yext(i)`, for any integer `i` (R213). -/
def yext (i0 : Nat) (ys : List Word) (i : Int) : Word := sampleAt i0 ys (pse i0 ys.length i)

/-- `Ev(k)`, step 1 of the reversible kernel (R214). -/
def ev53 (y : Int → Word) (k : Int) : Word := y (2 * k) - (y (2 * k - 1) + y (2 * k + 1) + 2).sshiftRight 2

/-- `Od(k)`, step 2 of the reversible kernel (R214). -/
def od53 (y : Int → Word) (k : Int) : Word := y (2 * k + 1) + (ev53 y k + ev53 y (k + 1)).sshiftRight 1

/-- `X(i)` of the reversible kernel (R214). -/
def out53 (y : Int → Word) (i : Int) : Word := if i % 2 = 0 then ev53 y (i / 2) else od53 y ((i - 1) / 2)

/-- `SR1D_53` (R214, R223) on the interleaved samples of `[i0, i0 + ys.length)`. -/
def sr1d53 (i0 : Nat) (ys : List Word) : List Word :=
  match ys with
  | [y] => if i0 % 2 = 0 then [y] else [y.sshiftRight 1]
  | _ => (List.range ys.length).map (fun (j : Nat) => out53 (yext i0 ys) ((i0 : Int) + j))

/-- `cALPHA` (R216). -/
def cAlpha : Word := 0xBFCB0673
/-- `cBETA` (R216). -/
def cBeta : Word := 0xBD5901AE
/-- `cGAMMA` (R216). -/
def cGamma : Word := 0x3F620676
/-- `cDELTA` (R216). -/
def cDelta : Word := 0x3EE31355
/-- `cK` (R216). -/
def cK : Word := 0x3F9D7658
/-- `cIK` (R216). -/
def cIK : Word := 0x3F5019C3

/-- The tag of step `step` at index `k` of a line (U3). -/
def stepTag (t : FpTag) (step : Nat) (k : Int) : FpTag := { t with step := step, k := k }

/-- `s1(k)`: scale low-pass (R215). -/
def s1At (fp : FpOps) (t : FpTag) (y : Int → Word) (k : Int) : Word := fp.fmul (stepTag t 1 k) cK (y (2 * k))

/-- `s2(k)`: scale high-pass (R215). -/
def s2At (fp : FpOps) (t : FpTag) (y : Int → Word) (k : Int) : Word := fp.fmul (stepTag t 2 k) cIK (y (2 * k + 1))

/-- One lifting step (R215): centre minus the constant times the sum of the two neighbours, left first. -/
def lift97 (fp : FpOps) (t : FpTag) (coeff centre left right : Word) : Word :=
  fp.fsub t centre (fp.fmul t coeff (fp.fadd t left right))

/-- `s3(k)` (R215). -/
def s3At (fp : FpOps) (t : FpTag) (y : Int → Word) (k : Int) : Word :=
  lift97 fp (stepTag t 3 k) cDelta (s1At fp t y k) (s2At fp t y (k - 1)) (s2At fp t y k)

/-- `s4(k)` (R215). -/
def s4At (fp : FpOps) (t : FpTag) (y : Int → Word) (k : Int) : Word :=
  lift97 fp (stepTag t 4 k) cGamma (s2At fp t y k) (s3At fp t y k) (s3At fp t y (k + 1))

/-- `s5(k)` (R215). -/
def s5At (fp : FpOps) (t : FpTag) (y : Int → Word) (k : Int) : Word :=
  lift97 fp (stepTag t 5 k) cBeta (s3At fp t y k) (s4At fp t y (k - 1)) (s4At fp t y k)

/-- `s6(k)` (R215). -/
def s6At (fp : FpOps) (t : FpTag) (y : Int → Word) (k : Int) : Word :=
  lift97 fp (stepTag t 6 k) cAlpha (s4At fp t y k) (s5At fp t y k) (s5At fp t y (k + 1))

/-- `X(i)` of the irreversible kernel (R215). -/
def out97 (fp : FpOps) (t : FpTag) (y : Int → Word) (i : Int) : Word :=
  if i % 2 = 0 then s5At fp t y (i / 2) else s6At fp t y ((i - 1) / 2)

/-- `SR1D_97` (R215, R223) on the interleaved samples of `[i0, i0 + ys.length)`. -/
def sr1d97 (fp : FpOps) (t : FpTag) (i0 : Nat) (ys : List Word) : List Word :=
  match ys with
  | [y] => if i0 % 2 = 0 then [y] else [fp.fmul t y fpHalf]
  | _ => (List.range ys.length).map (fun (j : Nat) => out97 fp t (yext i0 ys) ((i0 : Int) + j))

/-! ## Two-dimensional synthesis -/

/-- A one-dimensional kernel, given the axis (0 horizontal, 1 vertical) and the number of the line, its first coordinate
and its interleaved samples. -/
abbrev Kernel := Nat → Nat → Nat → List Word → List Word

/-- The reversible kernel; the same on every line (R214). -/
def kernel53 : Kernel := fun _ _ i0 ys => sr1d53 i0 ys

/-- The irreversible kernel (R215), its operations tagged by command, level, axis and line. -/
def kernel97 (fp : FpOps) (seed lev : Nat) : Kernel := fun axis line i0 ys => sr1d97 fp ⟨seed, lev, axis, line, 0, 0⟩ i0 ys

/-- One line of a pass (R218): it is read completely, then synthesised, then written. -/
def synthLine (sources targets : List Nat) (ker : List Word → List Word) : Eng Unit := do
  let ys ← readSamps sources
  modify (writeSamps (targets.zip (ker ys)))

/-- `SR2D(lev, KER)` on the level's region (R218): every row, then every column. -/
def sr2d (g : Region) (ker : Kernel) : Eng Unit :=
  if regionW g = 0 ∨ regionH g = 0 then pure () else do
    forEach (List.range (regionH g)) (fun r => synthLine (rowSources g r) (rowTargets g r) (ker 0 r g.x0))
    forEach (List.range (regionW g)) (fun c => synthLine (colSources g c) (colTargets g c) (ker 1 c g.y0))

/-- `n, n-1, …, 1` (R221). -/
def levelsDown (n : Nat) : List Nat := (List.range n).map (fun j => n - j)

/-! ## Commands -/

/-- The body of `IDWT.LEVEL.R53` (R219). -/
def levelR53Body (lev : Nat) : Eng Unit := do
  let s ← get
  requireGeometry (planeChecks s.cap s.par)
  sr2d (regionOf s.par lev) kernel53

/-- The body of `IDWT.LEVEL.I97` (R220). -/
def levelI97Body (fp : FpOps) (lev : Nat) : Eng Unit := do
  let s ← get
  requireGeometry (planeChecks s.cap s.par)
  modify drawFree
  sr2d (regionOf s.par lev) (kernel97 fp s.freeCount lev)

/-- The body of `IDWT.FULL.R53` (R221). -/
def fullR53Body : Eng Unit := do
  let s ← get
  requireGeometry (fullChecks s.cap s.par)
  forEach (levelsDown s.par.dwNl.toNat) (fun lev => sr2d (regionOf s.par lev) kernel53)

/-- The body of `IDWT.FULL.I97` (R222). -/
def fullI97Body (fp : FpOps) : Eng Unit := do
  let s ← get
  requireGeometry (fullChecks s.cap s.par)
  modify drawFree
  forEach (levelsDown s.par.dwNl.toNat) (fun lev => sr2d (regionOf s.par lev) (kernel97 fp s.freeCount lev))

/-- `IDWT.LEVEL.R53 lev` (R219); outside the range of `lev` the command word is illegal (R93). -/
def execIdwtLevelR53 (lev : BitVec 8) (s : State) : Host.Outcome State Fault Refusal :=
  if legalLevel lev then runCommand false (levelR53Body lev.toNat) s
  else .next (illegalWord (encode (.idwtLevelR53 lev)) s)

/-- `IDWT.LEVEL.I97 lev` (R220); outside the range of `lev` the command word is illegal (R93). -/
def execIdwtLevelI97 (lev : BitVec 8) (s : State) : Host.Outcome State Fault Refusal :=
  if legalLevel lev then runCommand false (levelI97Body binary32 lev.toNat) s
  else .next (illegalWord (encode (.idwtLevelI97 lev)) s)

/-- `IDWT.FULL.R53` (R221). -/
def execIdwtFullR53 (s : State) : Host.Outcome State Fault Refusal := runCommand false fullR53Body s

/-- `IDWT.FULL.I97` (R222). -/
def execIdwtFullI97 (s : State) : Host.Outcome State Fault Refusal := runCommand false (fullI97Body binary32) s

end Sys2Proof.Machine
end

