-- ==== Sys2Proof/Machine/System.lean ====
section
/-! DEFINITION. The system commands NOP, RESET and CLRERR (spec/44_system_commands.md R251 to R253). -/

namespace Sys2Proof.Machine

/-- The state the `RESET` command leaves, but for its own completion (R34, R252): every register, flag, latch and
context entry as after hardware reset, the memories unchanged. -/
def softReset (s : State) : State :=
  { s with
    status := ⟨false, false, false, false, false, 0⟩
    errinfo := 0
    passDone := 0
    par := ParamRegs.zero
    mq := ⟨0, 0, 0, 0, false⟩
    cx := initialContexts
    lat := ⟨0, 0, 0, 0⟩ }

/-- The machine after hardware reset (R300): `softReset`, and no element of BS, COEF, FLAG, SAMP has a specified
value any more. The capacities are the machine's own, and the host's accesses to come are the host's. -/
def hardReset (s : State) : State := { softReset s with bs := [], coef := [], flag := [], samp := [] }

/-- `NOP` (R251): does nothing and completes. -/
def execNop (s : State) : Host.Outcome State Fault Refusal := runCommand false (pure ()) s

/-- `RESET` (R252). -/
def execReset (s : State) : Host.Outcome State Fault Refusal := runCommand false (modify softReset) s

/-- `CLRERR` (R253). -/
def execClrerr (s : State) : Host.Outcome State Fault Refusal := runCommand false (modify acknowledgeError) s

end Sys2Proof.Machine
end

