-- ==== Sys2Proof/Machine/Mq.lean ====
section
/-! DEFINITION. The arithmetic decoder: the probability-state table, the procedures BSRead, BYTEIN, RENORMD and DECODE,
and the commands MQ.RESETCX, MQ.INIT and MQ.DECODE (spec/40_mq_decoder.md). -/

namespace Sys2Proof.Machine

/-! ## The probability-state table -/

/-- A row of the table QE (R120). -/
structure QeRow where
  qe      : BitVec 16
  nmps    : Fin 47
  nlps    : Fin 47
  switch  : Bool
deriving DecidableEq, Repr

/-- Rows 0 to 23 of the table (R120). -/
def qeRowsLow : List QeRow :=
  [ ⟨0x5601, 1, 1, true⟩,
    ⟨0x3401, 2, 6, false⟩,
    ⟨0x1801, 3, 9, false⟩,
    ⟨0x0AC1, 4, 12, false⟩,
    ⟨0x0521, 5, 29, false⟩,
    ⟨0x0221, 38, 33, false⟩,
    ⟨0x5601, 7, 6, true⟩,
    ⟨0x5401, 8, 14, false⟩,
    ⟨0x4801, 9, 14, false⟩,
    ⟨0x3801, 10, 14, false⟩,
    ⟨0x3001, 11, 17, false⟩,
    ⟨0x2401, 12, 18, false⟩,
    ⟨0x1C01, 13, 20, false⟩,
    ⟨0x1601, 29, 21, false⟩,
    ⟨0x5601, 15, 14, true⟩,
    ⟨0x5401, 16, 14, false⟩,
    ⟨0x5101, 17, 15, false⟩,
    ⟨0x4801, 18, 16, false⟩,
    ⟨0x3801, 19, 17, false⟩,
    ⟨0x3401, 20, 18, false⟩,
    ⟨0x3001, 21, 19, false⟩,
    ⟨0x2801, 22, 19, false⟩,
    ⟨0x2401, 23, 20, false⟩,
    ⟨0x2201, 24, 21, false⟩ ]

/-- Rows 24 to 46 of the table (R120). -/
def qeRowsHigh : List QeRow :=
  [ ⟨0x1C01, 25, 22, false⟩,
    ⟨0x1801, 26, 23, false⟩,
    ⟨0x1601, 27, 24, false⟩,
    ⟨0x1401, 28, 25, false⟩,
    ⟨0x1201, 29, 26, false⟩,
    ⟨0x1101, 30, 27, false⟩,
    ⟨0x0AC1, 31, 28, false⟩,
    ⟨0x09C1, 32, 29, false⟩,
    ⟨0x08A1, 33, 30, false⟩,
    ⟨0x0521, 34, 31, false⟩,
    ⟨0x0441, 35, 32, false⟩,
    ⟨0x02A1, 36, 33, false⟩,
    ⟨0x0221, 37, 34, false⟩,
    ⟨0x0141, 38, 35, false⟩,
    ⟨0x0111, 39, 36, false⟩,
    ⟨0x0085, 40, 37, false⟩,
    ⟨0x0049, 41, 38, false⟩,
    ⟨0x0025, 42, 39, false⟩,
    ⟨0x0015, 43, 40, false⟩,
    ⟨0x0009, 44, 41, false⟩,
    ⟨0x0005, 45, 42, false⟩,
    ⟨0x0001, 45, 43, false⟩,
    ⟨0x5601, 46, 46, false⟩ ]

/-- Row 46, which maps to itself both ways (R120). -/
def qeRow46 : QeRow := ⟨0x5601, 46, 46, false⟩

/-- Row `i` of the table (R120). -/
def qeRow (i : Fin 47) : QeRow := (qeRowsLow ++ qeRowsHigh)[i.val]?.getD qeRow46

/-! ## Bytes -/

/-- `BSRead(i)` (R123): the guarded bitstream read. -/
def bsRead (i : Nat) : Eng Byte := do
  let s ← get
  if i < s.lat.len.toNat then
    match Memory.read s.bs i with
    | some b => pure b
    | none => stopModel (.unwrittenBs i)
  else
    raise .corruptBitstream (BitVec.ofNat 32 i)

/-- What `BYTEIN` does to the registers once both bytes are read (R124): `b` is the byte most recently entered, `b1` the
next one. -/
def enterByte (b b1 : Byte) (m : MqRegs) : MqRegs :=
  if b = 0xFF then
    if 0x8F < b1.toNat then
      { m with c := m.c + 0xFF00, ct := 8 }
    else
      { m with bp := m.bp + 1, c := m.c + (b1.setWidth 32 <<< 9), ct := 7 }
  else
    { m with bp := m.bp + 1, c := m.c + (b1.setWidth 32 <<< 8), ct := 8 }

/-- `BYTEIN` (R124): both reads come before any write. -/
def byteIn : Eng Unit := do
  let s ← get
  let b ← bsRead s.mq.bp.toNat
  let b1 ← bsRead (s.mq.bp.toNat + 1)
  modify (setMq (enterByte b b1 s.mq))

/-! ## Decisions -/

/-- One shift of `RENORMD` (R126). -/
def shiftOnce (m : MqRegs) : MqRegs := { m with a := m.a <<< 1, c := m.c <<< 1, ct := m.ct - 1 }

/-- `RENORMD` (R126), given the number of shifts that may still be made. R130 bounds them by 15. -/
def renormd (fuel : Nat) : Eng Unit :=
  match fuel with
  | 0 => stopModel .renormStuck
  | n + 1 => do
    let s ← get
    onlyIf (decide (s.mq.ct = 0)) byteIn
    let t ← get
    set (setMq (shiftOnce t.mq) t)
    onlyIf (!(shiftOnce t.mq).a.msb) (renormd n)

/-- The bound of R130 on the shifts of one renormalisation. -/
def maxShifts : Nat := 15

/-- A context entry after a less-probable-symbol decision in its row (R128). -/
def lpsEntry (e : CtxEntry) : CtxEntry :=
  { idx := (qeRow e.idx).nlps, mps := if (qeRow e.idx).switch then !e.mps else e.mps }

/-- A context entry after a more-probable-symbol decision that renormalises (R128). -/
def mpsEntry (e : CtxEntry) : CtxEntry := { e with idx := (qeRow e.idx).nmps }

/-- What one decision does before any renormalisation: the new `A`, `C` and context entry, the decision, and whether
`RENORMD` follows (R127, R128). -/
structure Decision where
  a      : BitVec 16
  c      : BitVec 32
  entry  : CtxEntry
  d      : Bool
  renorm : Bool
deriving DecidableEq, Repr

/-- `LPS_EXCHANGE` (R128), on the interval size after the subtraction: the new `A`, the decision, the new entry. -/
def lpsExchange (a qe : BitVec 16) (e : CtxEntry) : BitVec 16 × Bool × CtxEntry :=
  if a.toNat < qe.toNat then (qe, e.mps, mpsEntry e) else (qe, !e.mps, lpsEntry e)

/-- `MPS_EXCHANGE` (R128), on the interval size after the subtraction: the decision and the new entry. -/
def mpsExchange (a qe : BitVec 16) (e : CtxEntry) : Bool × CtxEntry :=
  if a.toNat < qe.toNat then (!e.mps, lpsEntry e) else (e.mps, mpsEntry e)

/-- `Chigh`, bits 31 to 16 of the code register (R21). -/
def chigh (c : BitVec 32) : BitVec 16 := c.extractLsb' 16 16

/-- The decision of R127 as a function of `A`, `C` and the context entry alone. -/
def decisionOf (a : BitVec 16) (c : BitVec 32) (e : CtxEntry) : Decision :=
  let qe := (qeRow e.idx).qe
  let a' := a - qe
  if (chigh c).toNat < qe.toNat then
    let x := lpsExchange a' qe e
    { a := x.1, c := c, entry := x.2.2, d := x.2.1, renorm := true }
  else
    let c' := c - (qe.setWidth 32 <<< 16)
    if a'.msb then
      { a := a', c := c', entry := e, d := e.mps, renorm := false }
    else
      let x := mpsExchange a' qe e
      { a := a', c := c', entry := x.2, d := x.1, renorm := true }

/-- The state after the exchange and before the renormalisation of a decision in context `cx` (R127). -/
def applyDecision (cx : Fin 19) (x : Decision) (s : State) : State :=
  writeCtx cx x.entry (setMq { s.mq with a := x.a, c := x.c } s)

/-- Store the decision (R127). -/
def storeDecision (d : Bool) (s : State) : State := setMq { s.mq with d := d } s

/-- `DECODE(cx)` (R127): one binary decision in context `cx`. -/
def decodeBit (cx : Fin 19) : Eng Bool := do
  let s ← get
  let x := decisionOf s.mq.a s.mq.c (ctxAt s cx)
  set (applyDecision cx x s)
  onlyIf x.renorm (renormd maxShifts)
  modify (storeDecision x.d)
  pure x.d

/-! ## Commands -/

/-- The initialisation of the arithmetic decoder, from `BP <- 0` to `A <- 0x8000` (R125, R162). -/
def initDecoder : Eng Unit := do
  modify (fun s => setMq { s.mq with bp := 0 } s)
  let b0 ← bsRead 0
  modify (fun s => setMq { s.mq with c := b0.setWidth 32 <<< 16 } s)
  byteIn
  modify (fun s => setMq { s.mq with c := s.mq.c <<< 7, ct := s.mq.ct - 7, a := 0x8000 } s)

/-- The body of `MQ.INIT` (R125). -/
def mqInitBody : Eng Unit := do
  let s ← get
  requireGeometry (initChecks s.cap s.par)
  modify (fun s => setSession s.status.session false s)
  modify (fun s => setLatches { s.lat with len := s.par.cbLen } s)
  initDecoder
  modify (fun s => setSession s.status.session true s)

/-- The body of `MQ.DECODE` for a legal label (R129). -/
def mqDecodeBody (word : Word) (cx : Fin 19) : Eng Unit := do
  let s ← get
  if s.status.mqrdy then do
    let _ ← decodeBit cx
    pure ()
  else
    raise .sequence word

/-- `MQ.RESETCX` (R122). -/
def execMqResetcx (s : State) : Host.Outcome State Fault Refusal :=
  runCommand false (modify resetContexts) s

/-- `MQ.INIT` (R125). -/
def execMqInit (s : State) : Host.Outcome State Fault Refusal := runCommand true mqInitBody s

/-- `MQ.DECODE cx` (R129): first the range of `cx`, outside which the command word is illegal (R93), then `MQRDY`. -/
def execMqDecode (cx : BitVec 8) (s : State) : Host.Outcome State Fault Refusal :=
  if h : cx.toNat < 19 then runCommand true (mqDecodeBody (encode (.mqDecode cx)) ⟨cx.toNat, h⟩) s
  else .next (illegalWord (encode (.mqDecode cx)) s)

end Sys2Proof.Machine
end

