-- ==== Sys2Proof/Machine/T1.lean ====
section
/-! DEFINITION. The bit-plane decoder: the scan, the neighbourhood and its contexts, the three coding passes, and the
commands T1.START, T1.SP, T1.MR, T1.CU and T1.DECODE (spec/41_t1_passes.md). -/

namespace Sys2Proof.Machine

/-! ## Scan and neighbourhood -/

/-- The index `y*w + x` of a coefficient, `w` the latched width (R12, R30). -/
def coefIndex (s : State) (y x : Nat) : Nat := y * s.lat.lw.toNat + x

/-- The number of coefficients of the current code-block. -/
def blockArea (s : State) : Nat := s.lat.lw.toNat * s.lat.lh.toNat

/-- The number of stripes of a code-block of `h` rows, `ceil(h/4)` (R151). -/
def stripeCount (h : Nat) : Nat := (h + 3) / 4

/-- The rows of the stripe that begins at row `y0`: `y0` to `min(y0+3, h-1)` (R151). -/
def stripeRows (h y0 : Nat) : List Nat := (List.range (min 4 (h - y0))).map (fun k => y0 + k)

/-- The stripe columns `(y0, x)` of a code-block, in the order of the scan (R151). -/
def stripeColumns (w h : Nat) : List (Nat × Nat) :=
  (List.range (stripeCount h)).flatMap (fun k => (List.range w).map (fun x => (4 * k, x)))

/-- The coefficients `(y, x)` in the order of the scan (R151). -/
def scanOrder (w h : Nat) : List (Nat × Nat) :=
  (stripeColumns w h).flatMap (fun p => (stripeRows h p.1).map (fun y => (y, p.2)))

/-- The point `(y, x)` lies in the code-block. -/
def inBlock (s : State) (y x : Int) : Bool :=
  decide (0 ≤ y) && decide (y < s.lat.lh.toNat) && decide (0 ≤ x) && decide (x < s.lat.lw.toNat)

/-- `sig(y,x)` for any integers (R152): σ inside the code-block, 0 outside. -/
def sigAt (s : State) (y x : Int) : Bool :=
  inBlock s y x && (flagAt s (coefIndex s y.toNat x.toNat)).sigma

/-- `H`, the number of significant horizontal neighbours (R152). -/
def countH (s : State) (y x : Nat) : Nat := (sigAt s y (x - 1)).toNat + (sigAt s y (x + 1)).toNat

/-- `V`, the number of significant vertical neighbours (R152). -/
def countV (s : State) (y x : Nat) : Nat := (sigAt s (y - 1) x).toNat + (sigAt s (y + 1) x).toNat

/-- `Dg`, the number of significant diagonal neighbours (R152). -/
def countD (s : State) (y x : Nat) : Nat :=
  (sigAt s (y - 1) (x - 1)).toNat + (sigAt s (y - 1) (x + 1)).toNat + (sigAt s (y + 1) (x - 1)).toNat +
    (sigAt s (y + 1) (x + 1)).toNat

/-! ## Contexts -/

/-- The significance table for LL and LH, on `(a, b) = (H, V)`; for HL it is used with `(V, H)` (R153). -/
def zcAxis (a b dg : Nat) : Fin 19 :=
  if 2 ≤ a then 8
  else if a = 1 then
    if 1 ≤ b then 7 else if 1 ≤ dg then 6 else 5
  else if 2 ≤ b then 4
  else if b = 1 then 3
  else if 2 ≤ dg then 2
  else if dg = 1 then 1
  else 0

/-- The significance table for HH, on `Dg` and `hv = H + V` (R153). -/
def zcDiagonal (dg hv : Nat) : Fin 19 :=
  if 3 ≤ dg then 8
  else if dg = 2 then
    if 1 ≤ hv then 7 else 6
  else if dg = 1 then
    if 2 ≤ hv then 5 else if hv = 1 then 4 else 3
  else if 2 ≤ hv then 2
  else if hv = 1 then 1
  else 0

/-- The significance context for an orientation (R96, R153): 0 LL, 1 HL, 2 LH, 3 HH. -/
def zcTable (o : BitVec 2) (h v dg : Nat) : Fin 19 :=
  if o = 3 then zcDiagonal dg (h + v) else if o = 1 then zcAxis v h dg else zcAxis h v dg

/-- `ZC(y,x)` (R153). -/
def zc (s : State) (y x : Nat) : Fin 19 := zcTable s.lat.lo (countH s y x) (countV s y x) (countD s y x)

/-- `MRC(y,x)` (R155). -/
def mrc (s : State) (y x : Nat) : Fin 19 :=
  if (flagAt s (coefIndex s y x)).rho then 16
  else if 1 ≤ countH s y x + countV s y x + countD s y x then 15
  else 14

/-- A sign contribution, `min(1, max(-1, …))` of R154. -/
inductive Sgn where
  | neg
  | zero
  | pos
deriving DecidableEq, Repr

/-- `min(1, max(-1, i))` (R154). -/
def sgnOf (i : Int) : Sgn := if 0 < i then .pos else if i < 0 then .neg else .zero

/-- The sign table (R154): from `hc` and `vc`, the context and the inversion bit. -/
def signTable : Sgn → Sgn → Fin 19 × Bool
  | .pos, .pos => (13, false)
  | .pos, .zero => (12, false)
  | .pos, .neg => (11, false)
  | .zero, .pos => (10, false)
  | .zero, .zero => (9, false)
  | .zero, .neg => (10, true)
  | .neg, .pos => (11, true)
  | .neg, .zero => (12, true)
  | .neg, .neg => (13, true)

/-- `chi(y,x)` (R152): 0 for an insignificant point, else +1 or −1 by bit 31 of its coefficient word. -/
def chi (y x : Int) : Eng Int := do
  let s ← get
  if sigAt s y x then
    let c ← readCoef (coefIndex s y.toNat x.toNat)
    pure (if c.msb then -1 else 1)
  else
    pure 0

/-- `DecodeSign(y,x)` (R154): `true` means negative. -/
def decodeSign (y x : Nat) : Eng Bool := do
  let l ← chi y (x - 1)
  let r ← chi y (x + 1)
  let u ← chi (y - 1) x
  let d ← chi (y + 1) x
  let entry := signTable (sgnOf (l + r)) (sgnOf (u + d))
  let bit ← decodeBit entry.1
  pure (xor bit entry.2)

/-- The coefficient word of a sign and a first magnitude bit: `(s << 31) | (1 << b)` (R156). -/
def firstWord (neg : Bool) (b : Nat) : Word := flagBit neg 31 ||| ((1 : Word) <<< b)

/-- What `BecomeSignificant` writes once the sign is decoded (R156). -/
def markSignificant (y x b : Nat) (neg : Bool) (s : State) : State :=
  let i := coefIndex s y x
  writeFlag i { flagAt s i with sigma := true } (writeCoef i (firstWord neg b) s)

/-- `BecomeSignificant(y,x,b)` (R156). -/
def becomeSignificant (y x b : Nat) : Eng Unit := do
  let neg ← decodeSign y x
  modify (markSignificant y x b neg)

/-! ## Passes -/

/-- Set π of a coefficient. -/
def setVisited (y x : Nat) (s : State) : State :=
  writeFlag (coefIndex s y x) { flagAt s (coefIndex s y x) with pi := true } s

/-- Set ρ of a coefficient. -/
def setRefined (y x : Nat) (s : State) : State :=
  writeFlag (coefIndex s y x) { flagAt s (coefIndex s y x) with rho := true } s

/-- Clear π of the coefficient at an index. -/
def clearVisited (i : Nat) (s : State) : State := writeFlag i { flagAt s i with pi := false } s

/-- Add one to `T1_PASSDONE` (R28). -/
def countPass (s : State) : State := setPassDone (s.passDone + 1) s

/-- A coefficient in the significance propagation pass (R158). -/
def spVisit (b : Nat) (p : Nat × Nat) : Eng Unit := do
  let s ← get
  if !(flagAt s (coefIndex s p.1 p.2)).sigma && decide (zc s p.1 p.2 ≠ 0) then do
    let d ← decodeBit (zc s p.1 p.2)
    onlyIf d (becomeSignificant p.1 p.2 b)
    modify (setVisited p.1 p.2)
  else
    pure ()

/-- The significance propagation pass on bit position `b` (R158). -/
def passSp (b : Nat) : Eng Unit := do
  let s ← get
  forEach (scanOrder s.lat.lw.toNat s.lat.lh.toNat) (spVisit b)
  modify countPass

/-- A coefficient word with the next magnitude bit entered: `COEF | (d << b)` (R159). -/
def refinedWord (c : Word) (d : Bool) (b : Nat) : Word := c ||| flagBit d b

/-- A coefficient in the magnitude refinement pass (R159). -/
def mrVisit (b : Nat) (p : Nat × Nat) : Eng Unit := do
  let s ← get
  let i := coefIndex s p.1 p.2
  if (flagAt s i).sigma && !(flagAt s i).pi then do
    let d ← decodeBit (mrc s p.1 p.2)
    let c ← readCoef i
    modify (writeCoef i (refinedWord c d b))
    modify (setRefined p.1 p.2)
  else
    pure ()

/-- The magnitude refinement pass on bit position `b` (R159). -/
def passMr (b : Nat) : Eng Unit := do
  let s ← get
  forEach (scanOrder s.lat.lw.toNat s.lat.lh.toNat) (mrVisit b)
  modify countPass

/-- A coefficient decoded one by one in the cleanup pass (R160). -/
def cuVisit (b x y : Nat) : Eng Unit := do
  let s ← get
  let f := flagAt s (coefIndex s y x)
  if !f.sigma && !f.pi then do
    let d ← decodeBit (zc s y x)
    onlyIf d (becomeSignificant y x b)
  else
    pure ()

/-- The run-length condition on a row of a stripe column (R160). -/
def runRow (s : State) (x y : Nat) : Bool :=
  !(flagAt s (coefIndex s y x)).sigma && !(flagAt s (coefIndex s y x)).pi && decide (zc s y x = 0)

/-- The run-length condition on a stripe column (R160): four rows, each insignificant, unvisited and context-zero. -/
def runColumn (s : State) (y0 x : Nat) : Bool :=
  decide (y0 + 3 < s.lat.lh.toNat) && runRow s x y0 && runRow s x (y0 + 1) && runRow s x (y0 + 2) &&
    runRow s x (y0 + 3)

/-- The run-length shortcut (R160): `none` where the run goes on, else the row where the one-by-one decoding starts. -/
def runLength (b y0 x : Nat) : Eng (Option Nat) := do
  let hit ← decodeBit 17
  if hit then do
    let r1 ← decodeBit 18
    let r0 ← decodeBit 18
    let r := 2 * r1.toNat + r0.toNat
    becomeSignificant (y0 + r) x b
    pure (some (r + 1))
  else
    pure none

/-- A stripe column in the cleanup pass (R160). -/
def cuColumn (b : Nat) (p : Nat × Nat) : Eng Unit := do
  let s ← get
  let rows := stripeRows s.lat.lh.toNat p.1
  if runColumn s p.1 p.2 then do
    let start ← runLength b p.1 p.2
    match start with
    | none => pure ()
    | some k => forEach (rows.drop k) (cuVisit b p.2)
  else
    forEach rows (cuVisit b p.2)

/-- The cleanup pass on bit position `b` (R160). -/
def passCu (b : Nat) : Eng Unit := do
  let s ← get
  forEach (stripeColumns s.lat.lw.toNat s.lat.lh.toNat) (cuColumn b)
  forEach (List.range (blockArea s)) (fun i => modify (clearVisited i))
  modify countPass

/-! ## The pass schedule -/

/-- The type of a coding pass (R161). -/
inductive PassType where
  | sp
  | mr
  | cu
deriving DecidableEq, Repr

/-- `t(p)`, the type of pass number `p` (R161). -/
def passTypeOf (p : Nat) : PassType :=
  if p = 0 then .sp
  else if p = 1 then .cu
  else if (p - 2) % 3 = 0 then .sp
  else if (p - 2) % 3 = 1 then .mr
  else .cu

/-- `k(p)`, the plane number of pass number `p` (R161). -/
def passPlane (p : Nat) : Nat := if p < 2 then 0 else 1 + (p - 2) / 3

/-- `b(p) = 30 - CB_ZBP - k(p)`, the bit position of pass number `p` (R161). Check 10 of R150 keeps it from 0 to 30. -/
def passBit (zbp p : Nat) : Nat := 30 - zbp - passPlane p

/-- The pass of a type on a bit position (R162). -/
def runPass (t : PassType) (b : Nat) : Eng Unit :=
  match t with
  | .sp => passSp b
  | .mr => passMr b
  | .cu => passCu b

/-! ## Commands -/

/-- Clear `COEF[0 .. n-1]` and `FLAG[0 .. n-1]`, in order (R157, R162). -/
def clearGrid (n : Nat) : Eng Unit :=
  forEach (List.range n) (fun i => modify (fun s => writeFlag i ⟨false, false, false⟩ (writeCoef i 0 s)))

/-- Latch the geometry of the job (R29). -/
def latchGeometry (s : State) : State :=
  setLatches { s.lat with lw := s.par.cbW, lh := s.par.cbH, lo := s.par.cbOrient.setWidth 2 } s

/-- The body of `T1.START` (R157). -/
def t1StartBody : Eng Unit := do
  let s ← get
  requireGeometry (startChecks s.par)
  modify (setSession false false)
  modify latchGeometry
  modify (setPassDone 0)
  clearGrid (s.par.cbW.toNat * s.par.cbH.toNat)
  modify resetContexts
  modify (fun t => setSession true t.status.mqrdy t)

/-- The check of a pass command: an open session and an initialised decoder, else `Sequence` (R158). -/
def requireSession (word : Word) : Eng Unit := do
  let s ← get
  if s.status.session && s.status.mqrdy then pure () else raise .sequence word

/-- A pass command with a legal operand (R158, R159, R160). -/
def passBody (word : Word) (pass : Eng Unit) : Eng Unit := do
  requireSession word
  pass

/-- Initialise the arithmetic decoder and run passes 0 to `npass - 1` (R162). -/
def decodePasses (npass zbp : Nat) : Eng Unit := do
  initDecoder
  forEach (List.range npass) (fun p => runPass (passTypeOf p) (passBit zbp p))

/-- The body of `T1.DECODE` (R162). -/
def t1DecodeBody : Eng Unit := do
  let s ← get
  requireGeometry (decodeChecks s.cap s.par)
  modify (setSession false false)
  modify latchGeometry
  modify (fun t => setLatches { t.lat with len := t.par.cbLen } t)
  modify (setPassDone 0)
  clearGrid (s.par.cbW.toNat * s.par.cbH.toNat)
  modify resetContexts
  onlyIf (decide (0 < s.par.cbNpass.toNat)) (decodePasses s.par.cbNpass.toNat s.par.cbZbp.toNat)
  modify (setSession false false)

/-- `T1.START` (R157). -/
def execT1Start (s : State) : Host.Outcome State Fault Refusal := runCommand true t1StartBody s

/-- `T1.SP b` (R158); outside the range of `b` the command word is illegal (R93). -/
def execT1Sp (b : BitVec 8) (s : State) : Host.Outcome State Fault Refusal :=
  if legalPlane b then runCommand true (passBody (encode (.t1Sp b)) (passSp b.toNat)) s
  else .next (illegalWord (encode (.t1Sp b)) s)

/-- `T1.MR b` (R159); outside the range of `b` the command word is illegal (R93). -/
def execT1Mr (b : BitVec 8) (s : State) : Host.Outcome State Fault Refusal :=
  if legalPlane b then runCommand true (passBody (encode (.t1Mr b)) (passMr b.toNat)) s
  else .next (illegalWord (encode (.t1Mr b)) s)

/-- `T1.CU b` (R160); outside the range of `b` the command word is illegal (R93). -/
def execT1Cu (b : BitVec 8) (s : State) : Host.Outcome State Fault Refusal :=
  if legalPlane b then runCommand true (passBody (encode (.t1Cu b)) (passCu b.toNat)) s
  else .next (illegalWord (encode (.t1Cu b)) s)

/-- `T1.DECODE` (R162). -/
def execT1Decode (s : State) : Host.Outcome State Fault Refusal := runCommand true t1DecodeBody s

end Sys2Proof.Machine
end

