-- ==== Sys2Proof/Machine/Dispatch.lean ====
section
/-! DEFINITION. One arm per constructor of Instr: the meaning of each command (spec/30_encoding.md R91). -/

namespace Sys2Proof.Machine

-- The meaning of a command, from its acceptance to its completion or its error (R250).
def exec (i : Instr) (s : State) : Host.Outcome State Fault Refusal :=
  match i with
  | .nop => Sys2Proof.Machine.execNop s
  | .reset => Sys2Proof.Machine.execReset s
  | .clrerr => Sys2Proof.Machine.execClrerr s
  | .mqResetcx => Sys2Proof.Machine.execMqResetcx s
  | .mqInit => Sys2Proof.Machine.execMqInit s
  | .mqDecode cx => Sys2Proof.Machine.execMqDecode cx s
  | .t1Start => Sys2Proof.Machine.execT1Start s
  | .t1Sp b => Sys2Proof.Machine.execT1Sp b s
  | .t1Mr b => Sys2Proof.Machine.execT1Mr b s
  | .t1Cu b => Sys2Proof.Machine.execT1Cu b s
  | .t1Decode => Sys2Proof.Machine.execT1Decode s
  | .deqRev => Sys2Proof.Machine.execDeqRev s
  | .deqIrr => Sys2Proof.Machine.execDeqIrr s
  | .idwtLevelR53 lev => Sys2Proof.Machine.execIdwtLevelR53 lev s
  | .idwtLevelI97 lev => Sys2Proof.Machine.execIdwtLevelI97 lev s
  | .idwtFullR53 => Sys2Proof.Machine.execIdwtFullR53 s
  | .idwtFullI97 => Sys2Proof.Machine.execIdwtFullI97 s

end Sys2Proof.Machine
end

