-- ==== Sys2Proof/Machine/HostAccess.lean ====
section
/-! DEFINITION. What the host does to the block: the issue of a command, register and memory accesses, and hardware
reset (spec/44_system_commands.md R250, R254, R255; spec/70_reset_and_hazards.md R300, R304). -/

namespace Sys2Proof.Machine

/-- The command words accepted while an error is pending: `RESET` and `CLRERR` (R250). -/
def acceptedInError (w : Word) : Bool := decide (w = 0x00000001) || decide (w = 0x00000002)

/-- `Issue(W)` (R250): the write of `w` to `CMD`. -/
def issue (w : Word) (s : State) : Host.Outcome State Fault Refusal :=
  if s.status.busy then .next s
  else if s.status.err && !acceptedInError w then .next s
  else
    match decode w with
    | .ok i => exec i (accept s)
    | .error _ => .next (illegalWord w (accept s))

/-- A host write to a register that is not `CMD` (R25, R254): an RW register stores the value, any other access is
ignored. -/
def storeReg (r : Option Reg) (v : Word) (s : State) : State :=
  match r with
  | some (.param n) => setPar (writeParam s.par n v) s
  | _ => s

/-- What the host reads from REG (R61, R255): 0 where nothing is accessed. -/
def loadReg (r : Option Reg) (s : State) : Word :=
  match r with
  | some x => readReg s x
  | none => 0

/-- `STATUS` read while `BUSY` = 1: only the `BUSY` field is meaningful, the others have a free value (R304, U11). -/
def busyStatusRead (s : State) : State :=
  drawFree (setHostData (Config.busyStatus s.freeCount ||| 1) s)

/-- A host access while `BUSY` = 1 (R304): a write to `CMD` is ignored, `STATUS` may be read, nothing else is
specified (U2). -/
def accessBusy (op : HostOp) (s : State) : Host.Outcome State Fault Refusal :=
  match op with
  | .writeReg off bits v => if accessedReg off bits = some .cmd then issue v s else .refused .accessWhileBusy
  | .readReg off bits => if accessedReg off bits = some .status then .next (busyStatusRead s) else .refused .accessWhileBusy
  | .hardReset => .next (hardReset s)
  | .writeBs _ _ => .refused .accessWhileBusy
  | .readBs _ => .refused .accessWhileBusy
  | .writeCoef _ _ => .refused .accessWhileBusy
  | .readCoef _ => .refused .accessWhileBusy
  | .writeSamp _ _ => .refused .accessWhileBusy
  | .readSamp _ => .refused .accessWhileBusy

/-- A host read of a memory element (R255, R70): 0 outside the space; an element never written is a fault. -/
def loadElement (inSpace : Bool) (v : Option Word) (f : Fault) (s : State) : Host.Outcome State Fault Refusal :=
  if inSpace then
    match v with
    | some w => .next (setHostData w s)
    | none => .fault f
  else .next (setHostData 0 s)

/-- A host access while `BUSY` = 0 (R254, R255); a write to `CMD` issues a command (R250). -/
def accessIdle (op : HostOp) (s : State) : Host.Outcome State Fault Refusal :=
  match op with
  | .writeReg off bits v =>
    if accessedReg off bits = some .cmd then issue v s else .next (storeReg (accessedReg off bits) v s)
  | .readReg off bits => .next (setHostData (loadReg (accessedReg off bits) s) s)
  | .writeBs i v => .next (if i < s.cap.bsBytes then writeBs i v s else s)
  | .readBs i =>
    loadElement (decide (i < s.cap.bsBytes)) ((Memory.read s.bs i).map (fun b => b.setWidth 32)) (.unwrittenBs i) s
  | .writeCoef i v => .next (if i < Config.cbMaxArea then writeCoef i v s else s)
  | .readCoef i => loadElement (decide (i < Config.cbMaxArea)) (Memory.read s.coef i) (.unwrittenCoef i) s
  | .writeSamp i v => .next (if i < s.cap.sampWords then writeSamp i v s else s)
  | .readSamp i => loadElement (decide (i < s.cap.sampWords)) (Memory.read s.samp i) (.unwrittenSamp i) s
  | .hardReset => .next (hardReset s)

/-- One access by the host, or the hardware reset (R20). -/
def hostAccess (op : HostOp) (s : State) : Host.Outcome State Fault Refusal :=
  if s.status.busy then accessBusy op s else accessIdle op s

/-- The host's next access, taken from what it has to do; with none the block is idle and keeps its state (R300,
R284). -/
def hostStep (s : State) : Host.Outcome State Fault Refusal :=
  match s.pending with
  | [] => .next s
  | op :: rest => hostAccess op (setPending rest s)

/-- The host access that issues a command word: a 32-bit write to `CMD`, offset 0x000 (R100). -/
def issueOp (w : Word) : HostOp := .writeReg 0x000 32 w

end Sys2Proof.Machine
end

