-- ==== Sys2Proof/Machine/Step.lean ====
section
/-! DEFINITION. One step of the machine, and where a command comes from. The block has no program counter and no
instruction memory: a command is the word the host writes to CMD (spec/10_state.md R20, R22). -/

namespace Sys2Proof.Machine

/-- One step: the host's next access. A command runs whole, from the write to `CMD` to its end (R250, R304). -/
def step (s : State) : Host.Outcome State Fault Refusal := hostStep s

/-- `s` with the host about to write the instruction's word to `CMD` (assumption 2). -/
def State.withFetchWord (s : State) (nbits w : Nat) : State :=
  setPending (issueOp (tableWord nbits w) :: s.pending) s

end Sys2Proof.Machine
end

