-- ==== Sys2Proof/Safety.lean ====
section
/-! DEFINITION. What a safe run is, in the terms statements use: which states are legal, what a command needs, what a
command keeps, and the reference transforms that runs are compared with. -/

namespace Sys2Proof.Machine

/-! ## Legal states -/

/-- The codes `raise` can leave in `ERRCODE` (R270, U4). -/
def raisedCode (c : BitVec 4) : Bool := c = 3 || c = 4 || c = 5 || c = 6

/-- `STATUS` and `ERRINFO` between two steps (R23, R26, R28, R278, U4): `BUSY` is 0, `DONE` and `ERR` are not both 1,
`ERRCODE` is that of a kind this block raises, or 0, as `ERRINFO` is, when `ERR` is 0. -/
structure StatusLegal (s : State) : Prop where
  idle    : s.status.busy = false
  oneEnd  : ¬ (s.status.done = true ∧ s.status.err = true)
  noError : s.status.err = false → s.status.errcode = 0 ∧ s.errinfo = 0
  error   : s.status.err = true → raisedCode s.status.errcode = true

/-- The element at an index has been written since hardware reset. -/
def Memory.has {α : Type} (m : Memory α) (i : Nat) : Bool := (Memory.read m i).isSome

/-- Every memory is in canonical form and inside its space (R60); FLAG lists no element that reads as an unlisted one. -/
structure MemoriesLegal (s : State) : Prop where
  bsWf     : Memory.wf s.bs
  coefWf   : Memory.wf s.coef
  flagWf   : Memory.wf s.flag
  sampWf   : Memory.wf s.samp
  bsIn     : Memory.within s.bs s.cap.bsBytes
  coefIn   : Memory.within s.coef Config.cbMaxArea
  flagIn   : Memory.within s.flag Config.cbMaxArea
  sampIn   : Memory.within s.samp s.cap.sampWords
  flagShow : ∀ p ∈ s.flag, p.2 ≠ unlistedFlag

/-- An open session has a legal latched geometry, and every coefficient word of its block is written (R150, R157). -/
structure SessionLegal (s : State) : Prop where
  width  : s.status.session = true → 1 ≤ s.lat.lw.toNat ∧ s.lat.lw.toNat ≤ Config.cbMaxW
  height : s.status.session = true → 1 ≤ s.lat.lh.toNat ∧ s.lat.lh.toNat ≤ Config.cbMaxH
  area   : s.status.session = true → blockArea s ≤ Config.cbMaxArea
  grid   : s.status.session = true → ∀ i, i < blockArea s → Memory.has s.coef i = true

/-- The arithmetic decoder's registers while `MQRDY` is 1 (R130): `A` in `[0x8000, 0xFFFF]`, `CT` in `[0, 8]`, and the
byte pointer at a byte below the latched length, which fits BS. -/
structure DecoderLegal (s : State) : Prop where
  interval : s.status.mqrdy = true → 0x8000 ≤ s.mq.a.toNat
  counter  : s.status.mqrdy = true → s.mq.ct.toNat ≤ 8
  pointer  : s.status.mqrdy = true → s.mq.bp.toNat < s.lat.len.toNat
  length   : s.status.mqrdy = true → s.lat.len.toNat ≤ s.cap.bsBytes

/-- The flags of a block match its coefficient words (R32): σ exactly where the magnitude is not zero, a sign and ρ only
where σ. Coefficient words not written are not constrained. -/
def FlagsMatch (s : State) : Prop :=
  ∀ i, i < blockArea s → ∀ c, Memory.read s.coef i = some c →
    ((flagAt s i).sigma = true ↔ magnitude c ≠ 0) ∧ (c.msb = true → (flagAt s i).sigma = true) ∧
      ((flagAt s i).rho = true → (flagAt s i).sigma = true)

/-! ## What a command needs -/

/-- The block is idle with no error pending: it accepts every command word (R250). -/
def Accepting (s : State) : Prop := s.status.busy = false ∧ s.status.err = false

/-- From byte `start` on, the bytes of a bitstream of `len` bytes are written up to an end-of-stream mark, 0xFF followed
by a byte above 0x8F, that lies whole inside the bitstream (R95, R132). -/
def MarkAhead (bs : Memory Byte) (len start : Nat) : Prop :=
  ∃ j, start ≤ j ∧ j + 1 < len ∧ Memory.read bs j = some 0xFF ∧
    (∃ b, Memory.read bs (j + 1) = some b ∧ 0x8F < b.toNat) ∧ ∀ k, start ≤ k → k ≤ j → Memory.has bs k = true

/-- The bytes of a bitstream of `len` bytes at `start` and at the two indices after it are written and inside it. -/
def TwoBytesAhead (bs : Memory Byte) (len start : Nat) : Prop :=
  start + 2 < len ∧ ∀ k, start ≤ k → k ≤ start + 2 → Memory.has bs k = true

/-- The arithmetic decoder is initialised, its interval is as R130 says, and its bitstream cannot run out (R132). -/
structure DecoderFed (s : State) : Prop where
  ready    : s.status.mqrdy = true
  interval : 0x8000 ≤ s.mq.a.toNat
  fed      : MarkAhead s.bs s.lat.len.toNat s.mq.bp.toNat

/-- A pass can run to its end: an open session, a fed decoder, and every coefficient word of the block written. -/
structure PassReady (s : State) : Prop where
  session : s.status.session = true
  decoder : DecoderFed s
  grid    : ∀ i, i < blockArea s → Memory.has s.coef i = true

/-! ## What a command keeps -/

/-- What belongs to the host is kept: the parameter registers, the capacities, what the host has read and what it will
do next. -/
structure HostSideKept (s t : State) : Prop where
  par      : t.par = s.par
  cap      : t.cap = s.cap
  pending  : t.pending = s.pending
  hostData : t.hostData = s.hostData

/-- What a Tier-1 or arithmetic-decoder command keeps: the host's side, BS, SAMP and the free values. -/
structure DecoderSideKept (s t : State) : Prop where
  host : HostSideKept s t
  bs   : t.bs = s.bs
  samp : t.samp = s.samp
  free : t.freeCount = s.freeCount

/-- What a dequantizer or transform command keeps: everything but `STATUS`, `ERRINFO`, SAMP and the free values. -/
structure SampleSideKept (s t : State) : Prop where
  host     : HostSideKept s t
  passDone : t.passDone = s.passDone
  mq       : t.mq = s.mq
  cx       : t.cx = s.cx
  lat      : t.lat = s.lat
  bs       : t.bs = s.bs
  coef     : t.coef = s.coef
  flag     : t.flag = s.flag

/-- The command completed (R250): the flags are as before but for `DONE` 1 and `BUSY` 0, and `ERRINFO` is kept. -/
structure Completed (s t : State) : Prop where
  status  : t.status = s.status.completed
  errinfo : t.errinfo = s.errinfo

/-- COEF and FLAG are kept at every index outside the block (R63, R157). -/
def OutsideBlockKept (s t : State) : Prop :=
  ∀ i, blockArea s ≤ i → Memory.read t.coef i = Memory.read s.coef i ∧ flagAt t i = flagAt s i

/-! ## One decision -/

/-- The code value lies in the lower sub-interval of context `c` (R127). -/
abbrev lowerHalf (s : State) (c : Fin 19) : Prop := s.mq.c.toNat / 65536 < (qeRow (ctxAt s c).idx).qe.toNat

/-- The size of the interval once the decision is made, before any shift (R127, R128). -/
def exchangedA (s : State) (c : Fin 19) : Nat :=
  let qe := (qeRow (ctxAt s c).idx).qe.toNat
  if lowerHalf s c then qe else s.mq.a.toNat - qe

/-- The code register once the decision is made, before any shift (R127). -/
def exchangedC (s : State) (c : Fin 19) : Word :=
  if lowerHalf s c then s.mq.c else s.mq.c - ((qeRow (ctxAt s c).idx).qe.setWidth 32 <<< 16)

/-- The entry of context `c` after a decision that renormalises (R128): the less probable symbol's where the smaller
sub-interval is the more probable symbol's, or the other way round. -/
def movedEntry (s : State) (c : Fin 19) : CtxEntry :=
  let e := ctxAt s c
  let row := qeRow e.idx
  if lowerHalf s c ↔ s.mq.a.toNat - row.qe.toNat < row.qe.toNat then ⟨row.nmps, e.mps⟩
  else ⟨row.nlps, if row.switch then !e.mps else e.mps⟩

/-- The renormalisation of a decision needs a byte (R126): `CT` shifts do not bring bit 15 of `A` up. -/
abbrev RefillDue (s : State) (c : Fin 19) : Prop := exchangedA s c * 2 ^ s.mq.ct.toNat < 0x8000

/-! ## Sequences of commands -/

/-- Issue commands one after another, as long as none stops the model. -/
def execAll (l : List Instr) (s : State) : Host.Outcome State Fault Refusal :=
  match l with
  | [] => .next s
  | i :: r =>
    match exec i s with
    | .next t => execAll r t
    | .fault f => .fault f
    | .refused x => .refused x

/-- The pass command of a type on a bit position. -/
def passInstr (t : PassType) (b : Nat) : Instr :=
  match t with
  | .sp => .t1Sp (BitVec.ofNat 8 b)
  | .mr => .t1Mr (BitVec.ofNat 8 b)
  | .cu => .t1Cu (BitVec.ofNat 8 b)

/-- The commands that decode a code-block by hand (R162): `T1.START`, `MQ.INIT`, then `n` passes of R161. -/
def handDecode (n zbp : Nat) : List Instr :=
  .t1Start :: .mqInit :: (List.range n).map (fun p => passInstr (passTypeOf p) (passBit zbp p))

/-- The commands that synthesise `n` levels one by one with the reversible kernel (R221). -/
def handLevels53 (n : Nat) : List Instr := (levelsDown n).map (fun lev => .idwtLevelR53 (BitVec.ofNat 8 lev))

/-! ## Reference passes

The passes as the tables and the pseudocode of spec/41_t1_passes.md give them, each decision made by issuing `MQ.DECODE`
(R129), and written apart from the meanings of the pass commands. -/

/-- A reference computation: what it answers, or the outcome that ended it. -/
abbrev RefRun (α : Type) := Except (Host.Outcome State Fault Refusal) α

/-- One decision, by the command (R129): the bit and the state, or how the command ended. -/
def decideByCommand (c : Fin 19) (s : State) : RefRun (Bool × State) :=
  match exec (.mqDecode (BitVec.ofNat 8 c.val)) s with
  | .next t => if t.status.done then .ok (t.mq.d, t) else .error (.next t)
  | .fault f => .error (.fault f)
  | .refused x => .error (.refused x)

/-- A row of a context table: the lowest and highest value of each count it is for, and its label. -/
structure CountRow where
  a     : Nat × Nat
  b     : Nat × Nat
  dg    : Nat × Nat
  label : Fin 19
deriving DecidableEq, Repr

/-- The label of the first row that matches (R153). -/
def firstLabel (rows : List CountRow) (a b dg : Nat) : Option (Fin 19) :=
  (rows.find? (fun r => decide (r.a.1 ≤ a ∧ a ≤ r.a.2 ∧ r.b.1 ≤ b ∧ b ≤ r.b.2 ∧ r.dg.1 ≤ dg ∧ dg ≤ r.dg.2))).map
    CountRow.label

/-- The first table of R153, on `a`, `b` and `Dg`, printed row for row. -/
def axisRows : List CountRow :=
  [ ⟨(2, 2), (0, 2), (0, 4), 8⟩,
    ⟨(1, 1), (1, 2), (0, 4), 7⟩,
    ⟨(1, 1), (0, 0), (1, 4), 6⟩,
    ⟨(1, 1), (0, 0), (0, 0), 5⟩,
    ⟨(0, 0), (2, 2), (0, 4), 4⟩,
    ⟨(0, 0), (1, 1), (0, 4), 3⟩,
    ⟨(0, 0), (0, 0), (2, 4), 2⟩,
    ⟨(0, 0), (0, 0), (1, 1), 1⟩,
    ⟨(0, 0), (0, 0), (0, 0), 0⟩ ]

/-- The second table of R153, on `Dg` (first) and `hv` (second), printed row for row. -/
def diagonalRows : List CountRow :=
  [ ⟨(3, 4), (0, 4), (0, 4), 8⟩,
    ⟨(2, 2), (1, 4), (0, 4), 7⟩,
    ⟨(2, 2), (0, 0), (0, 4), 6⟩,
    ⟨(1, 1), (2, 4), (0, 4), 5⟩,
    ⟨(1, 1), (1, 1), (0, 4), 4⟩,
    ⟨(1, 1), (0, 0), (0, 4), 3⟩,
    ⟨(0, 0), (2, 4), (0, 4), 2⟩,
    ⟨(0, 0), (1, 1), (0, 4), 1⟩,
    ⟨(0, 0), (0, 0), (0, 4), 0⟩ ]

/-- `sig(y,x)` of R152, for any integers: σ inside the code-block, 0 outside. -/
def refSig (s : State) (y x : Int) : Bool :=
  decide (0 ≤ y ∧ y < s.lat.lh.toNat ∧ 0 ≤ x ∧ x < s.lat.lw.toNat) &&
    (flagAt s (y.toNat * s.lat.lw.toNat + x.toNat)).sigma

/-- How many of the points at the given offsets `(dy, dx)` from `(y, x)` are significant (R152). -/
def sigCount (s : State) (y x : Nat) (offsets : List (Int × Int)) : Nat :=
  (offsets.filter (fun o => refSig s (y + o.1) (x + o.2))).length

/-- `ZC(y,x)` by the tables of R153, with `H`, `V` and `Dg` of R152. -/
def tableZc (s : State) (y x : Nat) : Fin 19 :=
  let h := sigCount s y x [(0, -1), (0, 1)]
  let v := sigCount s y x [(-1, 0), (1, 0)]
  let dg := sigCount s y x [(-1, -1), (-1, 1), (1, -1), (1, 1)]
  (match s.lat.lo.toNat with
   | 3 => firstLabel diagonalRows dg (h + v) 0
   | 1 => firstLabel axisRows v h dg
   | _ => firstLabel axisRows h v dg).getD 0

/-- `MRC(y,x)` by R155. -/
def tableMrc (s : State) (y x : Nat) : Fin 19 :=
  let near := sigCount s y x [(0, -1), (0, 1), (-1, 0), (1, 0), (-1, -1), (-1, 1), (1, -1), (1, 1)]
  if (flagAt s (coefIndex s y x)).rho = true then 16 else if 1 ≤ near then 15 else 14

/-- The sign table of R154, printed row for row: `(hc, vc)`, then `cx` and `xb`. -/
def signRows : List ((Int × Int) × (Fin 19 × Bool)) :=
  [ ((1, 1), (13, false)),
    ((1, 0), (12, false)),
    ((1, -1), (11, false)),
    ((0, 1), (10, false)),
    ((0, 0), (9, false)),
    ((0, -1), (10, true)),
    ((-1, 1), (11, true)),
    ((-1, 0), (12, true)),
    ((-1, -1), (13, true)) ]

/-- `chi(y,x)` of R152; it reads a coefficient word where the point is significant. -/
def refChi (s : State) (y x : Int) : RefRun Int :=
  if refSig s y x then
    match Memory.read s.coef (coefIndex s y.toNat x.toNat) with
    | some c => .ok (if c.msb then -1 else 1)
    | none => .error (.fault (.unwrittenCoef (coefIndex s y.toNat x.toNat)))
  else .ok 0

/-- `DecodeSign(y,x)` of R154: true means negative. -/
def refSign (s : State) (y x : Nat) : RefRun (Bool × State) := do
  let left ← refChi s y (x - 1)
  let right ← refChi s y (x + 1)
  let up ← refChi s (y - 1) x
  let down ← refChi s (y + 1) x
  let hc := min 1 (max (-1) (left + right))
  let vc := min 1 (max (-1) (up + down))
  let row := (signRows.lookup (hc, vc)).getD (9, false)
  let (d, t) ← decideByCommand row.1 s
  pure (xor d row.2, t)

/-- `BecomeSignificant(y,x,b)` of R156. -/
def refBecome (b y x : Nat) (s : State) : RefRun State := do
  let i := coefIndex s y x
  let (neg, t) ← refSign s y x
  pure (writeFlag i { flagAt t i with sigma := true } (writeCoef i (flagBit neg 31 ||| (1 <<< b)) t))

/-- One coefficient of `T1.SP b` (R158). -/
def refSpVisit (b : Nat) (s : State) (p : Nat × Nat) : RefRun State := do
  let i := coefIndex s p.1 p.2
  if (flagAt s i).sigma = false ∧ tableZc s p.1 p.2 ≠ 0 then
    let (d, t) ← decideByCommand (tableZc s p.1 p.2) s
    let u ← if d then refBecome b p.1 p.2 t else pure t
    pure (writeFlag i { flagAt u i with pi := true } u)
  else pure s

/-- One coefficient of `T1.MR b` (R159). -/
def refMrVisit (b : Nat) (s : State) (p : Nat × Nat) : RefRun State := do
  let i := coefIndex s p.1 p.2
  if (flagAt s i).sigma = true ∧ (flagAt s i).pi = false then
    let (d, t) ← decideByCommand (tableMrc s p.1 p.2) s
    match Memory.read t.coef i with
    | some c => pure (writeFlag i { flagAt t i with rho := true } (writeCoef i (c ||| flagBit d b) t))
    | none => .error (.fault (.unwrittenCoef i))
  else pure s

/-- One coefficient of column `x` in the one-by-one loop of `T1.CU b` (R160). -/
def refCuVisit (b x : Nat) (s : State) (y : Nat) : RefRun State := do
  let i := coefIndex s y x
  if (flagAt s i).sigma = false ∧ (flagAt s i).pi = false then
    let (d, t) ← decideByCommand (tableZc s y x) s
    if d then refBecome b y x t else pure t
  else pure s

/-- One stripe column of `T1.CU b` (R160), the rows from `y0` on that the block has. -/
def refCuColumn (b : Nat) (s : State) (p : Nat × Nat) : RefRun State := do
  let rows := (List.range' p.1 4).filter (fun y => y < s.lat.lh.toNat)
  if p.1 + 3 < s.lat.lh.toNat ∧ ∀ k < 4,
      (flagAt s (coefIndex s (p.1 + k) p.2)).sigma = false ∧ (flagAt s (coefIndex s (p.1 + k) p.2)).pi = false ∧
        tableZc s (p.1 + k) p.2 = 0 then
    let (hit, t) ← decideByCommand 17 s
    if hit then
      let (r1, t1) ← decideByCommand 18 t
      let (r0, t0) ← decideByCommand 18 t1
      let r := 2 * r1.toNat + r0.toNat
      let u ← refBecome b (p.1 + r) p.2 t0
      (rows.drop (r + 1)).foldlM (refCuVisit b p.2) u
    else pure t
  else rows.foldlM (refCuVisit b p.2) s

/-- Every π of the block cleared (R160). -/
def refClearPi (s : State) : State :=
  (List.range (blockArea s)).foldl (fun u i => writeFlag i { flagAt u i with pi := false } u) s

/-- How a pass ends (R28, R250): it has counted itself, or it is the outcome that ended it. -/
def endPass (s : State) (r : RefRun State) : Host.Outcome State Fault Refusal :=
  match r with
  | .ok t => .next (setPassDone (s.passDone + 1) t)
  | .error o => o

/-- The points `(y, x)` and `(y', x')` are two of the same 3 by 3 square (R152). -/
def Neighbours (y x y' x' : Nat) : Prop :=
  (y, x) ≠ (y', x') ∧ y ≤ y' + 1 ∧ y' ≤ y + 1 ∧ x ≤ x' + 1 ∧ x' ≤ x + 1

/-! ## Reference transforms -/

/-- `Od(k)` of the forward transform (R224). -/
def fwdOd (x : Int → Word) (k : Int) : Word := x (2 * k + 1) - (x (2 * k) + x (2 * k + 2)).sshiftRight 1

/-- `Ev(k)` of the forward transform (R224). -/
def fwdEv (x : Int → Word) (k : Int) : Word := x (2 * k) + (fwdOd x (k - 1) + fwdOd x k + 2).sshiftRight 2

/-- `FWD1D_53` on two samples or more (R224), the companion of the reversible kernel; not part of the block. -/
def fwd53 (i0 : Nat) (xs : List Word) : List Word :=
  (List.range xs.length).map (fun (j : Nat) =>
    let i : Int := (i0 : Int) + j
    if i % 2 = 0 then fwdEv (yext i0 xs) (i / 2) else fwdOd (yext i0 xs) ((i - 1) / 2))

/-- The sample word at an index, 0 where none is written; used only where one is. -/
def sampWord (s : State) (i : Nat) : Word := (Memory.read s.samp i).getD 0

/-- Every word of a region is written. -/
def RegionWritten (s : State) (g : Region) : Prop :=
  ∀ r c, r < regionH g → c < regionW g → Memory.has s.samp (r * g.pw + c) = true

/-- Row `r` after the horizontal pass of a level, as a function of the words `f` of the plane before it (R218). -/
def refRow (f : Nat → Word) (g : Region) (ker : Kernel) (r : Nat) : List Word :=
  ker 0 r g.x0 ((List.range (regionW g)).map (fun c => f (r * g.pw + splitPos g.x0 g.x1 (g.x0 + c))))

/-- Column `c` after the vertical pass of a level, as a function of the words `f` of the plane before the level (R218). -/
def refCol (f : Nat → Word) (g : Region) (ker : Kernel) (c : Nat) : List Word :=
  ker 1 c g.y0
    ((List.range (regionH g)).map (fun r => (refRow f g ker (splitPos g.y0 g.y1 (g.y0 + r)))[c]?.getD 0))

/-- The words of the plane after one level (R218): the region's columns, every other word kept. -/
def refPlane (f : Nat → Word) (g : Region) (ker : Kernel) (k : Nat) : Word :=
  if k % g.pw < regionW g ∧ k / g.pw < regionH g then (refCol f g ker (k % g.pw))[k / g.pw]?.getD 0 else f k

/-- The words of the plane after levels `n` down to 1, level `lev` with the kernel `ker lev` (R221, R222). -/
def refLevels (p : ParamRegs) (ker : Nat → Kernel) (n : Nat) (f : Nat → Word) : Nat → Word :=
  match n with
  | 0 => f
  | m + 1 => refLevels p ker m (refPlane f (regionOf p (m + 1)) (ker (m + 1)))

/-- The index lies in the region, in the top-left corner of the plane (R211). -/
def inRegion (g : Region) (i : Nat) : Prop := ∃ r c, r < regionH g ∧ c < regionW g ∧ i = r * g.pw + c

end Sys2Proof.Machine
end

