-- ==== Sys2Proof/Certificates/Slice0/Obligations.lean ====
section
/-! DEFINITION. The statements for the provers, family by family. Each docstring names the rules it comes from. -/

open Sys2Proof Sys2Proof.Machine

/-! ## Encoding and the issue of commands -/

/-- A few command words, one or two for each family, decode to the command R91 gives them; the words are those of
95_test_vectors.md V-SY-1 (its legal neighbours) and R100. -/
def Obligations.CommandWordsDecode : Prop :=
  decode 0x00000002 = .ok .clrerr ∧ decode 0x00001212 = .ok (.mqDecode 18) ∧ decode 0x00000021 = .ok (.t1Sp 0) ∧
    decode 0x00001E23 = .ok (.t1Cu 30) ∧ decode 0x00000024 = .ok .t1Decode ∧ decode 0x00000031 = .ok .deqIrr ∧
    decode 0x00002040 = .ok (.idwtLevelR53 32) ∧ decode 0x00000043 = .ok .idwtFullI97

/-- Decoding the word of a well-formed command gives it back, every operand at every legal value (R91, R92). -/
def Obligations.DecodeInvertsEncode : Prop :=
  ∀ i : Instr, i.wellFormed = true → decode (encode i) = .ok i

/-- A word that decodes is the word of the command it decodes to, and that command is well formed: no two words share a
command, and no illegal operand is accepted (R91, R93). -/
def Obligations.EncodeInvertsDecode : Prop :=
  ∀ (w : Word) (i : Instr), decode w = .ok i → i.wellFormed = true ∧ encode i = w

/-- A write of `w` to `CMD` on an idle block with no error pending: if `w` is illegal by the list of R93, the block raises
`Unsupported` with `w` in `ERRINFO` and changes no other state; if not, `w` is a command. -/
def Obligations.IllegalWordsRaiseUnsupported : Prop :=
  ∀ (s : State) (w : Word) (rest : List HostOp), s.pending = issueOp w :: rest → Accepting s →
    let rsv := w.toNat / 65536
    let arg := w.toNat / 256 % 256
    let opc := w.toNat % 256
    let illegal : Prop :=
      rsv ≠ 0 ∨ opc ∉ [0x00, 0x01, 0x02, 0x10, 0x11, 0x12, 0x20, 0x21, 0x22, 0x23, 0x24, 0x30, 0x31, 0x40, 0x41, 0x42, 0x43] ∨
        (opc ∉ [0x12, 0x21, 0x22, 0x23, 0x40, 0x41] ∧ arg ≠ 0) ∨ (opc = 0x12 ∧ 18 < arg) ∨
        (opc ∈ [0x21, 0x22, 0x23] ∧ 30 < arg) ∨ (opc ∈ [0x40, 0x41] ∧ (arg = 0 ∨ 32 < arg))
    (illegal → step s = .next { s with
      pending := rest
      errinfo := w
      status := { s.status with err := true, errcode := 3, done := false, busy := false } }) ∧
    (¬ illegal → ∃ i, decode w = .ok i ∧ step s = exec i (accept (setPending rest s)))

/-- When the word written to `CMD` decodes to `i` and is accepted, the step is `exec` of `i`, on the state with `DONE` 0,
`BUSY` 1 and the access taken from what the host has to do (R250). -/
def Obligations.StepRunsDecodedCommand : Prop :=
  ∀ (s : State) (w : Word) (rest : List HostOp) (i : Instr), s.pending = issueOp w :: rest → s.status.busy = false →
    (s.status.err = true → w = 0x00000001 ∨ w = 0x00000002) → decode w = .ok i →
      step s = exec i (accept (setPending rest s))

/-- A write to `CMD` is dropped with no state change while `BUSY` = 1, and, unless it is `RESET` or `CLRERR`, while an
error is pending (R250). -/
def Obligations.CommandsDroppedWhileBusyOrInError : Prop :=
  ∀ (s : State) (w : Word) (rest : List HostOp), s.pending = issueOp w :: rest →
    (s.status.busy = true → step s = .next (setPending rest s)) ∧
    (s.status.err = true → w ≠ 0x00000001 → w ≠ 0x00000002 → step s = .next (setPending rest s))

/-- Every command leaves the block idle, and, issued with no error pending, ends with exactly one of `DONE` and `ERR`
(R250). -/
def Obligations.CommandsEndIdleInDoneOrError : Prop :=
  ∀ (i : Instr) (s t : State), exec i s = .next t →
    t.status.busy = false ∧ (s.status.err = false → (t.status.done = true ↔ t.status.err = false))

/-! ## System commands -/

/-- `NOP` (R251): the only state change is `DONE <- 1` (and the access is taken from what the host has to do); it is
ignored while `ERR` = 1. -/
def Obligations.NopOnlySetsDone : Prop :=
  (∀ s : State, exec .nop s = .next { s with status := { s.status with done := true, busy := false } }) ∧
  ∀ (s : State) (rest : List HostOp), s.pending = issueOp 0x00000000 :: rest → s.status.busy = false →
    (s.status.err = false → step s = .next { s with pending := rest, status := { s.status with done := true } }) ∧
    (s.status.err = true → step s = .next { s with pending := rest })

/-- `RESET` (R252, R34): every register, flag, latch and context entry as after reset, with `DONE` 1; BS, COEF, FLAG and
SAMP are not changed. It is accepted with `ERR` = 1. -/
def Obligations.ResetCommandPutsRegistersBack : Prop :=
  ∀ s : State, ∃ t, exec .reset s = .next t ∧
    (∀ rest, s.pending = issueOp 0x00000001 :: rest → s.status.busy = false →
      step s = .next { t with pending := rest }) ∧
    t.status = ⟨false, true, false, false, false, 0⟩ ∧ t.errinfo = 0 ∧ t.passDone = 0 ∧
    (∀ n, readParam t.par n = 0) ∧ t.mq = ⟨0, 0, 0, 0, false⟩ ∧ t.lat = ⟨0, 0, 0, 0⟩ ∧
    (∀ c : Fin 19, ctxAt t c =
      if c = 0 then ⟨4, false⟩ else if c = 17 then ⟨3, false⟩ else if c = 18 then ⟨46, false⟩ else ⟨0, false⟩) ∧
    t.bs = s.bs ∧ t.coef = s.coef ∧ t.flag = s.flag ∧ t.samp = s.samp ∧ t.cap = s.cap ∧ t.pending = s.pending ∧
    t.hostData = s.hostData ∧ t.freeCount = s.freeCount

/-- `CLRERR` (R253): `ERR`, `ERRCODE` and `ERRINFO` are cleared, it completes, and nothing else changes; it is accepted
whether or not an error is pending. -/
def Obligations.ClrerrOnlyClearsTheError : Prop :=
  (∀ s : State, exec .clrerr s = .next { s with
    errinfo := 0
    status := { s.status with err := false, errcode := 0, done := true, busy := false } }) ∧
  ∀ (s : State) (rest : List HostOp), s.pending = issueOp 0x00000002 :: rest → s.status.busy = false →
    step s = .next { s with
      pending := rest
      errinfo := 0
      status := { s.status with err := false, errcode := 0, done := true } }

/-- Right after hardware reset every register, latch and flag is 0, the contexts are in their initial states, no element
of a memory is written, and the block does nothing by itself (R34, R300). Hardware reset leaves this from any state, idle
or busy, and keeps nothing but the capacities, what the host has read and will do, and the count of free values drawn;
that reset is one of the accesses from outside, made between two commands, is the model's choice (assumption 13). -/
def Obligations.HardwareResetState : Prop :=
  let afterReset (s : State) : Prop :=
    s.status = ⟨false, false, false, false, false, 0⟩ ∧ s.errinfo = 0 ∧ s.passDone = 0 ∧ (∀ n, readParam s.par n = 0) ∧
      s.mq = ⟨0, 0, 0, 0, false⟩ ∧ s.lat = ⟨0, 0, 0, 0⟩ ∧
      (∀ c : Fin 19, ctxAt s c =
        if c = 0 then ⟨4, false⟩ else if c = 17 then ⟨3, false⟩ else if c = 18 then ⟨46, false⟩ else ⟨0, false⟩) ∧
      (∀ i, Memory.has s.bs i = false ∧ Memory.has s.coef i = false ∧ Memory.has s.flag i = false ∧
        Memory.has s.samp i = false)
  afterReset State.reset ∧ step State.reset = .next State.reset ∧
    ∀ (s : State) (rest : List HostOp), s.pending = .hardReset :: rest →
      ∃ t, step s = .next t ∧ afterReset t ∧ t.pending = rest ∧ t.cap = s.cap ∧ t.hostData = s.hostData ∧
        t.freeCount = s.freeCount

/-! ## Errors -/

/-- What an error leaves (R272, R275, R276), for every command issued with no error pending that ends in one: `BUSY` and
`DONE` 0 and a code of R270 that this block raises; the host's side, BS and SAMP kept; nothing but `STATUS` and `ERRINFO`
changed unless the error is `CorruptBitstream`; `ERRINFO` the command word, or the byte index that was asked for;
`SESSION` and `MQRDY` cleared by an error of an `MQ.*` or `T1.*` command, and kept by an illegal word and by an error of
a `DEQ.*` or `IDWT.*` command. -/
def Obligations.ErrorsLeaveAPreciseState : Prop :=
  ∀ (i : Instr) (s t : State), s.status.err = false → exec i s = .next t → t.status.err = true →
    t.status.busy = false ∧ t.status.done = false ∧
    (t.status.errcode = 3 ∨ t.status.errcode = 4 ∨ t.status.errcode = 5 ∨ t.status.errcode = 6) ∧
    HostSideKept s t ∧ t.bs = s.bs ∧ t.samp = s.samp ∧ t.freeCount = s.freeCount ∧
    (t.status.errcode ≠ 4 → t = { s with errinfo := t.errinfo, status := t.status }) ∧
    (t.status.errcode = 3 ∨ t.status.errcode = 6 → t.errinfo = encode i) ∧
    (t.status.errcode = 4 → t.lat.len.toNat ≤ t.errinfo.toNat ∧
      (t.errinfo.toNat = t.mq.bp.toNat ∨ t.errinfo.toNat = t.mq.bp.toNat + 1)) ∧
    (t.status.errcode = 5 → ∃ n : ParamName, t.errinfo.toNat = n.offset) ∧
    (match i with
     | .deqRev | .deqIrr | .idwtLevelR53 _ | .idwtLevelI97 _ | .idwtFullR53 | .idwtFullI97 =>
        t.status.session = s.status.session ∧ t.status.mqrdy = s.status.mqrdy
     | _ => if t.status.errcode = 3 then t.status.session = s.status.session ∧ t.status.mqrdy = s.status.mqrdy
        else t.status.session = false ∧ t.status.mqrdy = false)

/-- A command whose operand is outside the legal range of its row raises `Unsupported` with its command word and changes
no other state (R93, R129). No word decodes to such a command: that `exec` ends so is the model's choice (assumption 9). -/
def Obligations.OutOfRangeOperandsAreIllegal : Prop :=
  ∀ (i : Instr) (s : State), i.wellFormed = false →
    exec i s = .next { s with
      errinfo := encode i
      status := { s.status with err := true, errcode := 3, done := false, busy := false } }

/-- A command that reads an element of BS, COEF or SAMP nothing has written stops the model by name. The spec leaves such
a value unspecified and asks for this (R70, U1); that the stop is a fault is the model's form (assumption 4). The clauses
name `MQ.INIT`, `MQ.DECODE`, `T1.DECODE` at its start, `T1.MR`, `DEQ.*` and `IDWT.*`; for `T1.SP` and `T1.CU`, which read
through their decisions and signs, see the pass statements. The last clause is for every command: a fault names an element
that is unwritten, or (assumption 8) the interval register was below 0x8000; no command is refused. -/
def Obligations.UnwrittenElementsStopTheModel : Prop :=
  ∀ s : State,
    (s.par.cbLen.toNat ≤ s.cap.bsBytes →
      (1 ≤ s.par.cbLen.toNat → Memory.read s.bs 0 = none → exec .mqInit s = .fault (.unwrittenBs 0)) ∧
      (2 ≤ s.par.cbLen.toNat → Memory.has s.bs 0 = true → Memory.read s.bs 1 = none →
        exec .mqInit s = .fault (.unwrittenBs 1))) ∧
    (∀ c : Fin 19, s.status.mqrdy = true → 0x8000 ≤ s.mq.a.toNat → RefillDue s c →
      (s.mq.bp.toNat < s.lat.len.toNat → Memory.read s.bs s.mq.bp.toNat = none →
        exec (.mqDecode (BitVec.ofNat 8 c.val)) s = .fault (.unwrittenBs s.mq.bp.toNat)) ∧
      (s.mq.bp.toNat + 1 < s.lat.len.toNat → Memory.has s.bs s.mq.bp.toNat = true →
        Memory.read s.bs (s.mq.bp.toNat + 1) = none →
        exec (.mqDecode (BitVec.ofNat 8 c.val)) s = .fault (.unwrittenBs (s.mq.bp.toNat + 1)))) ∧
    (firstFailure (decodeChecks s.cap s.par) = none → 0 < s.par.cbNpass.toNat →
      (1 ≤ s.par.cbLen.toNat → Memory.read s.bs 0 = none → exec .t1Decode s = .fault (.unwrittenBs 0)) ∧
      (2 ≤ s.par.cbLen.toNat → Memory.has s.bs 0 = true → Memory.read s.bs 1 = none →
        exec .t1Decode s = .fault (.unwrittenBs 1))) ∧
    (∀ (b : BitVec 8) (k : Nat), legalPlane b = true → s.status.session = true → DecoderFed s → k < blockArea s →
      (flagAt s k).sigma = true → (flagAt s k).pi = false → Memory.read s.coef k = none →
        ∃ m, Memory.read s.coef m = none ∧ exec (.t1Mr b) s = .fault (.unwrittenCoef m)) ∧
    (∀ k, k < s.par.cbW.toNat * s.par.cbH.toNat → Memory.read s.coef k = none →
      (firstFailure (deqRevChecks s.cap s.par) = none →
        ∃ m, Memory.read s.coef m = none ∧ exec .deqRev s = .fault (.unwrittenCoef m)) ∧
      (firstFailure (deqIrrChecks s.cap s.par) = none →
        ∃ m, Memory.read s.coef m = none ∧ exec .deqIrr s = .fault (.unwrittenCoef m))) ∧
    (∀ (lev : BitVec 8) (k : Nat), legalLevel lev = true → firstFailure (planeChecks s.cap s.par) = none →
      inRegion (regionOf s.par lev.toNat) k → Memory.read s.samp k = none →
        (∃ m, Memory.read s.samp m = none ∧ exec (.idwtLevelR53 lev) s = .fault (.unwrittenSamp m)) ∧
        (∃ m, Memory.read s.samp m = none ∧ exec (.idwtLevelI97 lev) s = .fault (.unwrittenSamp m))) ∧
    (∀ k, firstFailure (fullChecks s.cap s.par) = none → 0 < s.par.dwNl.toNat → k < planeW s.par * planeH s.par →
      Memory.read s.samp k = none →
        (∃ m, Memory.read s.samp m = none ∧ exec .idwtFullR53 s = .fault (.unwrittenSamp m)) ∧
        (∃ m, Memory.read s.samp m = none ∧ exec .idwtFullI97 s = .fault (.unwrittenSamp m))) ∧
    (∀ i : Instr,
      (∀ f, exec i s = .fault f →
        (f = .renormStuck ∧ s.mq.a.toNat < 0x8000) ∨ (∃ k, f = .unwrittenBs k ∧ Memory.read s.bs k = none) ∨
          (∃ k, f = .unwrittenCoef k ∧ Memory.read s.coef k = none) ∨
          (∃ k, f = .unwrittenSamp k ∧ Memory.read s.samp k = none)) ∧
      (∀ x, exec i s ≠ .refused x))

/-- The engine never writes BS, what the host has read or will do, or a parameter register, but that `RESET` clears the
parameter registers; and only `DEQ.*` and `IDWT.*` write SAMP, only `T1.*` COEF and FLAG (R60, R62, R252). -/
def Obligations.EngineWritesOnlyItsOwnState : Prop :=
  ∀ (i : Instr) (s t : State), exec i s = .next t →
    t.bs = s.bs ∧ t.cap = s.cap ∧ t.pending = s.pending ∧ t.hostData = s.hostData ∧ (i ≠ .reset → t.par = s.par) ∧
    (match i with
     | .deqRev | .deqIrr | .idwtLevelR53 _ | .idwtLevelI97 _ | .idwtFullR53 | .idwtFullI97 =>
        t.coef = s.coef ∧ t.flag = s.flag ∧ t.mq = s.mq ∧ t.cx = s.cx ∧ t.lat = s.lat ∧ t.passDone = s.passDone
     | .t1Start | .t1Sp _ | .t1Mr _ | .t1Cu _ | .t1Decode => t.samp = s.samp
     | _ => t.samp = s.samp ∧ t.coef = s.coef ∧ t.flag = s.flag)

/-- The check table of R150: `T1.START` makes checks 1 to 4, `T1.DECODE` checks 1 to 10, in this order, and the first that
fails raises `Geometry` with the register's offset before any state is changed. -/
def Obligations.TierOneChecksInOrder : Prop :=
  ∀ s : State,
    let p := s.par
    let mb : Int := p.qGuard.toNat + p.qStep.toNat / 2048 % 32 - 1
    let start : Option Word :=
      if ¬ (1 ≤ p.cbW.toNat ∧ p.cbW.toNat ≤ 1024) then some 0x010
      else if ¬ (1 ≤ p.cbH.toNat ∧ p.cbH.toNat ≤ 1024) then some 0x014
      else if ¬ p.cbW.toNat * p.cbH.toNat ≤ 4096 then some 0x014
      else if ¬ p.cbOrient.toNat ≤ 3 then some 0x018
      else none
    let passes : Option Word :=
      if p.cbNpass = 0 then none
      else if ¬ p.qGuard.toNat ≤ 7 then some 0x030
      else if ¬ p.qStep.toNat ≤ 0xFFFF then some 0x034
      else if ¬ (1 ≤ mb ∧ mb ≤ 31) then some 0x034
      else if ¬ (p.cbZbp.toNat : Int) < mb then some 0x020
      else if ¬ (p.cbNpass.toNat : Int) ≤ 3 * (mb - p.cbZbp.toNat) - 1 then some 0x01C
      else none
    let whole : Option Word :=
      start.or ((if ¬ p.cbLen.toNat ≤ s.cap.bsBytes then some 0x024 else none).or passes)
    (∀ off, start = some off → exec .t1Start s = .next (takeError true .geometry off s)) ∧
    (∀ off, whole = some off → exec .t1Decode s = .next (takeError true .geometry off s)) ∧
    (start = none → firstFailure (startChecks p) = none) ∧ (whole = none → firstFailure (decodeChecks s.cap p) = none)

/-- The check table of R191, in its order: the first check that fails raises `Geometry` with the register's offset before
any write; check 7 is made by `DEQ.IRR` only. -/
def Obligations.DequantizerChecksInOrder : Prop :=
  ∀ s : State,
    let p := s.par
    let mb : Int := p.qGuard.toNat + p.qStep.toNat / 2048 % 32 - 1
    let pw : Int := (p.dwX1.toNat : Int) - p.dwX0.toNat
    let ph : Int := (p.dwY1.toNat : Int) - p.dwY0.toNat
    let first (irr : Bool) : Option Word :=
      if ¬ (1 ≤ p.cbW.toNat ∧ p.cbW.toNat ≤ 1024) then some 0x010
      else if ¬ (1 ≤ p.cbH.toNat ∧ p.cbH.toNat ≤ 1024) then some 0x014
      else if ¬ p.cbW.toNat * p.cbH.toNat ≤ 4096 then some 0x014
      else if ¬ p.qGuard.toNat ≤ 7 then some 0x030
      else if ¬ p.qStep.toNat ≤ 0xFFFF then some 0x034
      else if ¬ (0 ≤ mb ∧ mb ≤ 31) then some 0x034
      else if irr = true ∧ ¬ (1 ≤ p.qPrec.toNat ∧ p.qPrec.toNat ≤ 38) then some 0x038
      else if ¬ 0 < pw then some 0x058
      else if ¬ 0 < ph then some 0x05C
      else if ¬ pw * ph ≤ s.cap.sampWords then some 0x05C
      else if ¬ (p.qDx.toNat : Int) + p.cbW.toNat ≤ pw then some 0x03C
      else if ¬ (p.qDy.toNat : Int) + p.cbH.toNat ≤ ph then some 0x040
      else none
    (∀ off, first false = some off → exec .deqRev s = .next (takeError false .geometry off s)) ∧
    (∀ off, first true = some off → exec .deqIrr s = .next (takeError false .geometry off s)) ∧
    (first false = none → firstFailure (deqRevChecks s.cap p) = none) ∧
    (first true = none → firstFailure (deqIrrChecks s.cap p) = none)

/-- The check table of R210, in its order, for the four `IDWT.*` commands; check 4 is made by `IDWT.FULL.*` only. -/
def Obligations.TransformChecksInOrder : Prop :=
  ∀ (s : State) (lev : BitVec 8), legalLevel lev = true →
    let p := s.par
    let pw : Int := (p.dwX1.toNat : Int) - p.dwX0.toNat
    let ph : Int := (p.dwY1.toNat : Int) - p.dwY0.toNat
    let first (full : Bool) : Option Word :=
      if ¬ 0 < pw then some 0x058
      else if ¬ 0 < ph then some 0x05C
      else if ¬ pw * ph ≤ s.cap.sampWords then some 0x05C
      else if full = true ∧ ¬ p.dwNl.toNat ≤ 32 then some 0x060
      else none
    (∀ off, first false = some off →
      exec (.idwtLevelR53 lev) s = .next (takeError false .geometry off s) ∧
      exec (.idwtLevelI97 lev) s = .next (takeError false .geometry off s)) ∧
    (∀ off, first true = some off →
      exec .idwtFullR53 s = .next (takeError false .geometry off s) ∧
      exec .idwtFullI97 s = .next (takeError false .geometry off s)) ∧
    (first false = none → firstFailure (planeChecks s.cap p) = none) ∧
    (first true = none → firstFailure (fullChecks s.cap p) = none)

/-! ## The host -/

/-- A host write to a parameter register stores all 32 bits of any value and changes no other state; a read of it then
returns the value (R25, R254, R255). -/
def Obligations.ParameterRegistersHoldWhatIsWritten : Prop :=
  ∀ (s : State) (n : ParamName) (v : Word) (rest : List HostOp), s.status.busy = false →
    s.pending = .writeReg n.offset 32 v :: .readReg n.offset 32 :: rest →
    ∃ p, readParam p n = v ∧ (∀ m, m ≠ n → readParam p m = readParam s.par m) ∧
      step s = .next { s with pending := .readReg n.offset 32 :: rest, par := p } ∧
      step { s with pending := .readReg n.offset 32 :: rest, par := p } =
        .next { s with pending := rest, par := p, hostData := v }

/-- A REG write that is not 32 bits wide, or at an offset that is no RW register and not `CMD`, changes nothing; a read
that is not 32 bits wide or at an unlisted offset returns 0 (R61, R254, R255). The listed offsets are those of R25. -/
def Obligations.OtherRegisterAccessesAreIgnored : Prop :=
  ∀ (s : State) (off bits : Nat) (v : Word) (rest : List HostOp), s.status.busy = false →
    (s.pending = .writeReg off bits v :: rest →
      (bits ≠ 32 ∨ (off ≠ 0 ∧ ∀ n : ParamName, off ≠ n.offset)) → step s = .next { s with pending := rest }) ∧
    (s.pending = .readReg off bits :: rest →
      (bits ≠ 32 ∨ (off ∉ [0x004, 0x008, 0x028, 0x070, 0x074, 0x078, 0x07C, 0x080] ∧ (∀ n : ParamName, off ≠ n.offset) ∧
        ∀ c : Fin 19, off ≠ 0x100 + 4 * c.val)) →
      step s = .next { s with pending := rest, hostData := 0 })

/-- What the observation registers return (R25, R26, R28): `STATUS` field by field, `ERRINFO`, `T1_PASSDONE`, the mirrors
of `A`, `C`, `CT`, `BP`, `D`, and the context entries; a read changes nothing but what the host has read (R255). -/
def Obligations.ObservationRegistersRead : Prop :=
  ∀ (s : State) (off : Nat) (rest : List HostOp), s.status.busy = false → s.pending = .readReg off 32 :: rest →
    ∃ v : Word, step s = .next { s with pending := rest, hostData := v } ∧
      (off = 0x004 → v.toNat = 2 * s.status.done.toNat + 4 * s.status.err.toNat + 8 * s.status.session.toNat +
        16 * s.status.mqrdy.toNat + 256 * s.status.errcode.toNat) ∧
      (off = 0x008 → v = s.errinfo) ∧ (off = 0x028 → v = s.passDone) ∧ (off = 0x070 → v.toNat = s.mq.a.toNat) ∧
      (off = 0x074 → v = s.mq.c) ∧ (off = 0x078 → v.toNat = s.mq.ct.toNat) ∧ (off = 0x07C → v = s.mq.bp) ∧
      (off = 0x080 → v.toNat = s.mq.d.toNat) ∧
      (∀ c : Fin 19, off = 0x100 + 4 * c.val → v.toNat = (ctxAt s c).idx.val + 128 * (ctxAt s c).mps.toNat)

/-- A host write to BS, COEF or SAMP stores the element and keeps every other element; outside the space it is ignored
(R254). -/
def Obligations.HostWritesStoreOneElement : Prop :=
  ∀ (s : State) (i : Nat) (b : Byte) (v : Word) (rest : List HostOp), s.status.busy = false →
    (s.pending = .writeBs i b :: rest → ∃ m, step s = .next { s with pending := rest, bs := m } ∧
      ∀ k, Memory.read m k = if k = i ∧ i < s.cap.bsBytes then some b else Memory.read s.bs k) ∧
    (s.pending = .writeCoef i v :: rest → ∃ m, step s = .next { s with pending := rest, coef := m } ∧
      ∀ k, Memory.read m k = if k = i ∧ i < 4096 then some v else Memory.read s.coef k) ∧
    (s.pending = .writeSamp i v :: rest → ∃ m, step s = .next { s with pending := rest, samp := m } ∧
      ∀ k, Memory.read m k = if k = i ∧ i < s.cap.sampWords then some v else Memory.read s.samp k)

/-- A host read of BS, COEF or SAMP returns the element, 0 outside the space, and changes nothing else (R255). Two clauses
are the model's choice: that a byte of BS is read zero-extended to 32 bits (assumption 14), and that a read of an element
nothing has written stops the model (R70; assumption 4). -/
def Obligations.HostReadsReturnOneElement : Prop :=
  ∀ (s : State) (i : Nat) (rest : List HostOp), s.status.busy = false →
    (s.pending = .readBs i :: rest →
      (∀ b, i < s.cap.bsBytes → Memory.read s.bs i = some b →
        step s = .next { s with pending := rest, hostData := b.setWidth 32 }) ∧
      (s.cap.bsBytes ≤ i → step s = .next { s with pending := rest, hostData := 0 }) ∧
      (i < s.cap.bsBytes → Memory.read s.bs i = none → step s = .fault (.unwrittenBs i))) ∧
    (s.pending = .readCoef i :: rest →
      (∀ v, i < 4096 → Memory.read s.coef i = some v → step s = .next { s with pending := rest, hostData := v }) ∧
      (4096 ≤ i → step s = .next { s with pending := rest, hostData := 0 }) ∧
      (i < 4096 → Memory.read s.coef i = none → step s = .fault (.unwrittenCoef i))) ∧
    (s.pending = .readSamp i :: rest →
      (∀ v, i < s.cap.sampWords → Memory.read s.samp i = some v →
        step s = .next { s with pending := rest, hostData := v }) ∧
      (s.cap.sampWords ≤ i → step s = .next { s with pending := rest, hostData := 0 }) ∧
      (i < s.cap.sampWords → Memory.read s.samp i = none → step s = .fault (.unwrittenSamp i)))

/-! ## Invariants -/

/-- The reset state satisfies every invariant stated below. -/
def Obligations.ResetStateIsLegal : Prop :=
  StatusLegal State.reset ∧ MemoriesLegal State.reset ∧ SessionLegal State.reset ∧ DecoderLegal State.reset ∧
    FlagsMatch State.reset

/-- Every step keeps `STATUS` and `ERRINFO` legal: never busy between steps, `DONE` and `ERR` not both 1, `ERRCODE` in
{0, 3, 4, 5, 6} and 0, like `ERRINFO`, when no error is pending (R23, R26, R278, U4). That the block is never busy between
two steps is the model's choice: a command is one atomic step (assumption 1, which R250 and R304 allow). -/
def Obligations.StatusStaysLegal : Prop :=
  ∀ s t : State, StatusLegal s → step s = .next t → StatusLegal t

/-- Every step keeps the memories in canonical form and inside their spaces, and an open session's geometry legal and its
grid written (R60, R150, R157). -/
def Obligations.MemoriesStayLegal : Prop :=
  ∀ s t : State, MemoriesLegal s ∧ SessionLegal s → step s = .next t → MemoriesLegal t ∧ SessionLegal t

/-- Every step keeps the arithmetic decoder's registers in range while `MQRDY` is 1: `A` in `[0x8000, 0xFFFF]`, `CT` in
`[0, 8]`, `BP` below `L`, `L` at most `P_BS_BYTES` (R130, R123). -/
def Obligations.DecoderStaysLegal : Prop :=
  ∀ s t : State, DecoderLegal s → step s = .next t → DecoderLegal t

/-- Every step keeps the flags of the block matched with its coefficient words (R32), unless it is a host write to COEF:
every command, whether it completes or raises, every other access of the host, and hardware reset. -/
def Obligations.CommandsKeepFlagsMatched : Prop :=
  (∀ (i : Instr) (s t : State), FlagsMatch s → exec i s = .next t → FlagsMatch t) ∧
    ∀ s t : State, FlagsMatch s → (∀ i v rest, s.pending ≠ .writeCoef i v :: rest) → step s = .next t → FlagsMatch t

/-! ## The arithmetic decoder -/

/-- `MQ.RESETCX` (R122): all 19 contexts in the state of R121, nothing else changed but the completion. -/
def Obligations.MqResetcxOnlyResetsContexts : Prop :=
  ∀ s : State, ∃ x : CtxFile,
    exec .mqResetcx s = .next { s with cx := x, status := { s.status with done := true, busy := false } } ∧
    ∀ c : Fin 19, x.get c =
      if c = 0 then ⟨4, false⟩ else if c = 17 then ⟨3, false⟩ else if c = 18 then ⟨46, false⟩ else ⟨0, false⟩

/-- `MQ.INIT` (R125): its check; the two short bitstreams, with the writes that stay; and, with two bytes to read, the
registers of each branch of the initialisation. -/
def Obligations.MqInitStartsTheDecoder : Prop :=
  ∀ s : State,
    let latched := setLatches { s.lat with len := s.par.cbLen } s
    (s.cap.bsBytes < s.par.cbLen.toNat → exec .mqInit s = .next (takeError true .geometry 0x024 s)) ∧
    (s.par.cbLen.toNat ≤ s.cap.bsBytes →
      (s.par.cbLen = 0 →
        exec .mqInit s = .next (takeError true .corruptBitstream 0 (setMq { s.mq with bp := 0 } latched))) ∧
      (∀ b0 : Byte, s.par.cbLen = 1 → Memory.read s.bs 0 = some b0 →
        exec .mqInit s = .next (takeError true .corruptBitstream 1
          (setMq { s.mq with bp := 0, c := b0.setWidth 32 <<< 16 } latched))) ∧
      (∀ b0 b1 : Byte, 2 ≤ s.par.cbLen.toNat → Memory.read s.bs 0 = some b0 → Memory.read s.bs 1 = some b1 →
        ∃ (c : Word) (ct : BitVec 4) (bp : Word),
          exec .mqInit s = .next (complete (setSession s.status.session true
            (setMq { a := 0x8000, c := c, ct := ct, bp := bp, d := s.mq.d } latched))) ∧
          (b0 = 0xFF → 0x90 ≤ b1.toNat → c = (0x00FF0000 + 0xFF00) <<< 7 ∧ ct = 1 ∧ bp = 0) ∧
          (b0 = 0xFF → b1.toNat < 0x90 → c = (0x00FF0000 + (b1.setWidth 32 <<< 9)) <<< 7 ∧ ct = 0 ∧ bp = 1) ∧
          (b0 ≠ 0xFF → c = ((b0.setWidth 32 <<< 16) + (b1.setWidth 32 <<< 8)) <<< 7 ∧ ct = 1 ∧ bp = 1)))

/-- `MQ.DECODE cx` (R127, R128, R129) with an initialised decoder completes where its bitstream holds an end-of-stream
mark ahead (R132), where it holds two bytes after the one at `BP` (R130: a decision refills at most twice), where it holds
one and one refill is enough, and where `CT` shifts are enough: the decision of the exchanges, the context entry moved only
when the decision renormalises, every other context, COEF, FLAG and the rest kept. `A` is back in `[0x8000, 0xFFFF]` by the
least number `k` of shifts (R126). With no byte needed, `A`, `C` and `CT` are those of `k` shifts; with one, `BYTEIN`
enters by R124 after `CT` shifts, and the other `k - CT` follow. -/
def Obligations.MqDecodeMakesOneDecision : Prop :=
  ∀ (s : State) (c : Fin 19),
    let e := ctxAt s c
    let row := qeRow e.idx
    let lower : Prop := s.mq.c.toNat / 65536 < row.qe.toNat
    let rest : Nat := s.mq.a.toNat - row.qe.toNat
    let ct : Nat := s.mq.ct.toNat
    let bp : Nat := s.mq.bp.toNat
    s.status.mqrdy = true → 0x8000 ≤ s.mq.a.toNat →
    (MarkAhead s.bs s.lat.len.toNat bp ∨ TwoBytesAhead s.bs s.lat.len.toNat bp ∨
      (bp + 1 < s.lat.len.toNat ∧ Memory.has s.bs bp = true ∧ Memory.has s.bs (bp + 1) = true ∧
        0x8000 ≤ exchangedA s c * 2 ^ (ct + 7)) ∨
      0x8000 ≤ exchangedA s c * 2 ^ ct) →
    ∃ t, exec (.mqDecode (BitVec.ofNat 8 c.val)) s = .next t ∧ Completed s t ∧ DecoderSideKept s t ∧ t.lat = s.lat ∧
      t.coef = s.coef ∧ t.flag = s.flag ∧ t.passDone = s.passDone ∧ 0x8000 ≤ t.mq.a.toNat ∧
      t.mq.bp.toNat ≤ s.mq.bp.toNat + 2 ∧ (∀ k : Fin 19, k ≠ c → ctxAt t k = ctxAt s k) ∧
      (¬ lower → 0x8000 ≤ rest → t.mq.d = e.mps ∧ ctxAt t c = e ∧ t.mq.a.toNat = rest ∧
        t.mq.c = s.mq.c - (row.qe.setWidth 32 <<< 16) ∧ t.mq.ct = s.mq.ct ∧ t.mq.bp = s.mq.bp) ∧
      (lower ∧ rest < row.qe.toNat ∨ ¬ lower ∧ rest < 0x8000 ∧ row.qe.toNat ≤ rest →
        t.mq.d = e.mps ∧ ctxAt t c = ⟨row.nmps, e.mps⟩) ∧
      (lower ∧ row.qe.toNat ≤ rest ∨ ¬ lower ∧ rest < 0x8000 ∧ rest < row.qe.toNat →
        t.mq.d = !e.mps ∧ ctxAt t c = ⟨row.nlps, if row.switch then !e.mps else e.mps⟩) ∧
      ∀ k : Nat, 0x8000 ≤ exchangedA s c * 2 ^ k → (k = 0 ∨ exchangedA s c * 2 ^ (k - 1) < 0x8000) →
        t.mq.a.toNat = exchangedA s c * 2 ^ k ∧
        (k ≤ ct → t.mq.c = exchangedC s c <<< k ∧ t.mq.ct.toNat = ct - k ∧ t.mq.bp = s.mq.bp) ∧
        (∀ b b1 : Byte, ct < k → bp + 1 < s.lat.len.toNat → Memory.read s.bs bp = some b →
          Memory.read s.bs (bp + 1) = some b1 →
          let entered (x : Word) (n : Nat) (after : Word) : Prop :=
            k ≤ ct + n → t.mq.c = (exchangedC s c <<< ct + x) <<< (k - ct) ∧ t.mq.ct.toNat = ct + n - k ∧ t.mq.bp = after
          (b = 0xFF → 0x8F < b1.toNat → entered 0xFF00 8 s.mq.bp) ∧
          (b = 0xFF → b1.toNat ≤ 0x8F → entered (b1.setWidth 32 <<< 9) 7 (s.mq.bp + 1)) ∧
          (b ≠ 0xFF → entered (b1.setWidth 32 <<< 8) 8 (s.mq.bp + 1)))

/-- Once the byte pointer is at an end-of-stream mark, a decision completes and the pointer stays: the decoder never reads
beyond the mark (R132). -/
def Obligations.EndOfStreamMarkHoldsThePointer : Prop :=
  ∀ (s : State) (c : Fin 19) (b1 : Byte), s.status.mqrdy = true → 0x8000 ≤ s.mq.a.toNat →
    s.mq.bp.toNat + 1 < s.lat.len.toNat → Memory.read s.bs s.mq.bp.toNat = some 0xFF →
    Memory.read s.bs (s.mq.bp.toNat + 1) = some b1 → 0x90 ≤ b1.toNat →
    ∃ t, exec (.mqDecode (BitVec.ofNat 8 c.val)) s = .next t ∧ Completed s t ∧ t.mq.bp = s.mq.bp

/-- A decision that needs a byte past the declared length raises, precisely (R123, R276). When the renormalisation needs a
byte and `BP`, or, with the byte at `BP` written, `BP + 1`, is not below `L`: `CorruptBitstream` with that byte index, the
context entry moved, `A` and `C` after the exchange and the `CT` shifts before the byte, `CT` 0, and `BP`, `D`, COEF, FLAG
and the rest kept. So does `T1.DECODE` with fewer than two bytes. And whatever decision raises, on its first byte or its
second, leaves this: the byte index is `BP` or `BP + 1` and not below `L`. -/
def Obligations.DecodePastTheEndIsPrecise : Prop :=
  (∀ (s : State) (c : Fin 19) (idx : Word), s.status.mqrdy = true → 0x8000 ≤ s.mq.a.toNat → RefillDue s c →
    (s.lat.len.toNat ≤ s.mq.bp.toNat ∧ idx = s.mq.bp ∨
      s.mq.bp.toNat < s.lat.len.toNat ∧ s.lat.len.toNat ≤ s.mq.bp.toNat + 1 ∧
        Memory.has s.bs s.mq.bp.toNat = true ∧ idx = s.mq.bp + 1) →
    ∃ t, exec (.mqDecode (BitVec.ofNat 8 c.val)) s = .next t ∧
      t.status = ⟨false, false, true, false, false, 4⟩ ∧ t.errinfo = idx ∧ DecoderSideKept s t ∧
      t.mq.a.toNat = exchangedA s c * 2 ^ s.mq.ct.toNat ∧ t.mq.c = exchangedC s c <<< s.mq.ct.toNat ∧ t.mq.ct = 0 ∧
      t.mq.bp = s.mq.bp ∧ t.mq.d = s.mq.d ∧ t.lat = s.lat ∧ t.coef = s.coef ∧ t.flag = s.flag ∧
      t.passDone = s.passDone ∧ ctxAt t c = movedEntry s c ∧ ∀ k : Fin 19, k ≠ c → ctxAt t k = ctxAt s k) ∧
  (∀ s : State, firstFailure (decodeChecks s.cap s.par) = none → 0 < s.par.cbNpass.toNat →
    s.par.cbLen = 0 ∨ s.par.cbLen = 1 ∧ Memory.has s.bs 0 = true →
    ∃ t, exec .t1Decode s = .next t ∧ t.status = ⟨false, false, true, false, false, 4⟩ ∧ t.errinfo = s.par.cbLen ∧
      t.passDone = 0 ∧ t.mq.bp = 0 ∧ t.mq.a = s.mq.a ∧ t.mq.ct = s.mq.ct ∧ t.mq.d = s.mq.d ∧ DecoderSideKept s t) ∧
  ∀ (s t : State) (c : Fin 19), s.status.err = false → s.status.mqrdy = true →
    exec (.mqDecode (BitVec.ofNat 8 c.val)) s = .next t → t.status.err = true →
    t.status.errcode = 4 ∧ (t.errinfo = t.mq.bp ∨ t.errinfo.toNat = t.mq.bp.toNat + 1) ∧
      s.lat.len.toNat ≤ t.errinfo.toNat ∧ t.mq.ct = 0 ∧ t.mq.d = s.mq.d ∧ t.lat = s.lat ∧ t.coef = s.coef ∧
      t.flag = s.flag ∧ t.passDone = s.passDone ∧
      ctxAt t c = (decisionOf s.mq.a s.mq.c (ctxAt s c)).entry ∧ (∀ k : Fin 19, k ≠ c → ctxAt t k = ctxAt s k) ∧
      (0x8000 ≤ s.mq.a.toNat → t.mq.bp = s.mq.bp →
        t.mq.a.toNat = exchangedA s c * 2 ^ s.mq.ct.toNat ∧ t.mq.c = exchangedC s c <<< s.mq.ct.toNat)

/-! ## The bit-plane decoder -/

/-- The scan of R151: it visits every coefficient of the block, and no other point, each once, stripe by stripe of four
rows, column by column inside a stripe, row by row inside a column. -/
def Obligations.ScanVisitsEveryCoefficientInOrder : Prop :=
  ∀ w h : Nat,
    (∀ y x : Nat, (y, x) ∈ scanOrder w h ↔ y < h ∧ x < w) ∧
    (scanOrder w h).Pairwise (fun p q => p.1 / 4 < q.1 / 4 ∨
      (p.1 / 4 = q.1 / 4 ∧ (p.2 < q.2 ∨ (p.2 = q.2 ∧ p.1 < q.1))))

/-- `T1.START` with legal geometry (R157): the geometry latched, the grid and the flags of the block cleared, the rest of
COEF and FLAG kept, the contexts reset, a session open and the decoder not initialised. -/
def Obligations.TierOneStartOpensASession : Prop :=
  ∀ s : State, firstFailure (startChecks s.par) = none →
    ∃ t, exec .t1Start s = .next t ∧
      t.status = { s.status with session := true, mqrdy := false, done := true, busy := false } ∧
      t.errinfo = s.errinfo ∧ t.passDone = 0 ∧ t.mq = s.mq ∧ DecoderSideKept s t ∧
      t.lat.lw = s.par.cbW ∧ t.lat.lh = s.par.cbH ∧ t.lat.lo.toNat = s.par.cbOrient.toNat ∧ t.lat.len = s.lat.len ∧
      (∀ c : Fin 19, ctxAt t c =
        if c = 0 then ⟨4, false⟩ else if c = 17 then ⟨3, false⟩ else if c = 18 then ⟨46, false⟩ else ⟨0, false⟩) ∧
      (∀ i, i < s.par.cbW.toNat * s.par.cbH.toNat → Memory.read t.coef i = some 0 ∧ flagAt t i = ⟨false, false, false⟩) ∧
      (∀ i, s.par.cbW.toNat * s.par.cbH.toNat ≤ i →
        Memory.read t.coef i = Memory.read s.coef i ∧ flagAt t i = flagAt s i)

/-- `MQ.DECODE` without an initialised decoder, and a pass command without an open session and an initialised decoder,
raise `Sequence` with the command word (R129, R158, R159, R160): the session is closed and no other state changes. -/
def Obligations.CommandsOutOfSequenceAreRefused : Prop :=
  ∀ (s : State) (arg : BitVec 8) (i : Instr), i.wellFormed = true →
    (i = .mqDecode arg ∧ s.status.mqrdy = false ∨
      (i = .t1Sp arg ∨ i = .t1Mr arg ∨ i = .t1Cu arg) ∧ (s.status.session = false ∨ s.status.mqrdy = false)) →
    exec i s = .next { s with
      errinfo := encode i
      status := ⟨false, false, true, false, false, 6⟩ }

/-- With no significant coefficient the significance propagation pass makes no decision, but counts as a pass (R158,
R161). -/
def Obligations.FirstSignificancePassMakesNoDecision : Prop :=
  ∀ (s : State) (b : BitVec 8), legalPlane b = true → s.status.session = true → s.status.mqrdy = true →
    (∀ i, i < blockArea s → (flagAt s i).sigma = false) →
    exec (.t1Sp b) s = .next { s with
      passDone := s.passDone + 1
      status := { s.status with done := true, busy := false } }

/-- `T1.SP b` (R158). In an open session with an initialised decoder it does exactly what the pass written out from R152
to R156 and R158 does: which coefficients it tests, in which contexts, what each decision writes, and how it ends, be it in
an error. On a session whose bitstream cannot run out it completes. It counts a pass; significant coefficients keep their
words and flags; a coefficient that becomes significant holds its sign and bit `b` and is visited; every insignificant
coefficient with a significant neighbour before the pass is visited, and one not visited before is visited only if it has a
significant neighbour after; ρ, and every context but 1 to 13, is kept. -/
def Obligations.SignificancePassCompletes : Prop :=
  (∀ (s : State) (b : BitVec 8), legalPlane b = true → s.status.session = true → s.status.mqrdy = true →
    exec (.t1Sp b) s =
      endPass s ((scanOrder s.lat.lw.toNat s.lat.lh.toNat).foldlM (refSpVisit b.toNat) (complete s))) ∧
  ∀ (s : State) (b : BitVec 8), legalPlane b = true → PassReady s →
    ∃ t, exec (.t1Sp b) s = .next t ∧ Completed s t ∧ t.passDone = s.passDone + 1 ∧ t.lat = s.lat ∧ DecoderSideKept s t ∧
      OutsideBlockKept s t ∧ PassReady t ∧ (∀ c : Fin 19, c = 0 ∨ 14 ≤ c → ctxAt t c = ctxAt s c) ∧
      ∀ i, i < blockArea s →
        (flagAt t i).rho = (flagAt s i).rho ∧
        ((flagAt s i).sigma = true → flagAt t i = flagAt s i ∧ Memory.read t.coef i = Memory.read s.coef i) ∧
        ((flagAt t i).sigma = false → Memory.read t.coef i = Memory.read s.coef i) ∧
        ((flagAt s i).sigma = false → (flagAt t i).sigma = true → (flagAt t i).pi = true ∧
          ∃ neg, Memory.read t.coef i = some (flagBit neg 31 ||| (1 <<< b.toNat))) ∧
        ∀ y x, y < s.lat.lh.toNat → x < s.lat.lw.toNat → i = coefIndex s y x → (flagAt s i).sigma = false →
          (∀ y' x', Neighbours y x y' x' → y' < s.lat.lh.toNat → x' < s.lat.lw.toNat →
            (flagAt s (coefIndex s y' x')).sigma = true → (flagAt t i).pi = true) ∧
          ((flagAt s i).pi = false → (flagAt t i).pi = true →
            ∃ y' x', Neighbours y x y' x' ∧ y' < s.lat.lh.toNat ∧ x' < s.lat.lw.toNat ∧
              (flagAt t (coefIndex s y' x')).sigma = true)

/-- `T1.MR b` (R159). In an open session with an initialised decoder it does exactly what the pass written out from R155
and R159 does: which coefficients, in which contexts, that the bit entered is the decision, and how it ends, be it in an
error. On a session whose bitstream cannot run out it completes. It counts a pass; it enters a bit at position `b` of every
coefficient that is significant and not visited, and marks it refined; σ, π, the other coefficients, and every context but
14 to 16, are kept. -/
def Obligations.RefinementPassCompletes : Prop :=
  (∀ (s : State) (b : BitVec 8), legalPlane b = true → s.status.session = true → s.status.mqrdy = true →
    exec (.t1Mr b) s =
      endPass s ((scanOrder s.lat.lw.toNat s.lat.lh.toNat).foldlM (refMrVisit b.toNat) (complete s))) ∧
  ∀ (s : State) (b : BitVec 8), legalPlane b = true → PassReady s →
    ∃ t, exec (.t1Mr b) s = .next t ∧ Completed s t ∧ t.passDone = s.passDone + 1 ∧ t.lat = s.lat ∧ DecoderSideKept s t ∧
      OutsideBlockKept s t ∧ PassReady t ∧ (∀ c : Fin 19, c < 14 ∨ 16 < c → ctxAt t c = ctxAt s c) ∧
      ∀ i, i < blockArea s →
        (flagAt t i).sigma = (flagAt s i).sigma ∧ (flagAt t i).pi = (flagAt s i).pi ∧
        ((flagAt s i).sigma = true ∧ (flagAt s i).pi = false → (flagAt t i).rho = true ∧
          ∃ c, Memory.read s.coef i = some c ∧
            (Memory.read t.coef i = some c ∨ Memory.read t.coef i = some (c ||| (1 <<< b.toNat)))) ∧
        (¬ ((flagAt s i).sigma = true ∧ (flagAt s i).pi = false) →
          (flagAt t i).rho = (flagAt s i).rho ∧ Memory.read t.coef i = Memory.read s.coef i)

/-- `T1.CU b` (R160). In an open session with an initialised decoder it does exactly what the pass written out from R152
to R156 and R160 does, run-length shortcut and all, and ends as it ends, be it in an error. On a session whose bitstream
cannot run out it completes. It counts a pass and clears every π; a coefficient that was significant or visited keeps its word and σ; one that becomes significant holds its sign and bit
`b`; ρ, and contexts 14 to 16, are kept. -/
def Obligations.CleanupPassCompletes : Prop :=
  (∀ (s : State) (b : BitVec 8), legalPlane b = true → s.status.session = true → s.status.mqrdy = true →
    exec (.t1Cu b) s =
      endPass s (((stripeColumns s.lat.lw.toNat s.lat.lh.toNat).foldlM (refCuColumn b.toNat) (complete s)).map
        refClearPi)) ∧
  ∀ (s : State) (b : BitVec 8), legalPlane b = true → PassReady s →
    ∃ t, exec (.t1Cu b) s = .next t ∧ Completed s t ∧ t.passDone = s.passDone + 1 ∧ t.lat = s.lat ∧ DecoderSideKept s t ∧
      OutsideBlockKept s t ∧ PassReady t ∧ (∀ c : Fin 19, 14 ≤ c ∧ c ≤ 16 → ctxAt t c = ctxAt s c) ∧
      ∀ i, i < blockArea s →
        (flagAt t i).pi = false ∧ (flagAt t i).rho = (flagAt s i).rho ∧
        ((flagAt s i).sigma = true ∨ (flagAt s i).pi = true →
          (flagAt t i).sigma = (flagAt s i).sigma ∧ Memory.read t.coef i = Memory.read s.coef i) ∧
        ((flagAt t i).sigma = false → Memory.read t.coef i = Memory.read s.coef i) ∧
        ((flagAt s i).sigma = false → (flagAt t i).sigma = true →
          ∃ neg, Memory.read t.coef i = some (flagBit neg 31 ||| (1 <<< b.toNat)))

/-- No pass writes a magnitude bit below its own position: if the words of COEF have bits `b-1` to 0 zero before, they
have after, whether the pass completes or raises (R167). -/
def Obligations.PassesKeepLowBitsZero : Prop :=
  ∀ (s t : State) (b : BitVec 8) (i : Instr), legalPlane b = true → i = .t1Sp b ∨ i = .t1Mr b ∨ i = .t1Cu b →
    (∀ k c, Memory.read s.coef k = some c → c.toNat % 2 ^ b.toNat = 0) → exec i s = .next t →
    ∀ k c, Memory.read t.coef k = some c → c.toNat % 2 ^ b.toNat = 0

/-- `T1.DECODE` with no pass declared (R163): an all-zero grid, no byte read and none needed, the working registers
kept, the session closed. -/
def Obligations.ZeroPassesGiveAZeroGrid : Prop :=
  ∀ s : State, firstFailure (decodeChecks s.cap s.par) = none → s.par.cbNpass = 0 →
    ∃ t, exec .t1Decode s = .next t ∧
      t.status = { s.status with session := false, mqrdy := false, done := true, busy := false } ∧
      t.errinfo = s.errinfo ∧ t.passDone = 0 ∧ t.mq = s.mq ∧ DecoderSideKept s t ∧
      (∀ i, i < s.par.cbW.toNat * s.par.cbH.toNat → Memory.read t.coef i = some 0) ∧
      (∀ i, s.par.cbW.toNat * s.par.cbH.toNat ≤ i → Memory.read t.coef i = Memory.read s.coef i)

/-- `T1.DECODE` with legal parameters on a bitstream that holds an end-of-stream mark (R132, R162) completes: all declared
passes done, the session closed, the grid written and matched by its flags, the rest of COEF and FLAG kept. -/
def Obligations.WholeBlockDecodeCompletes : Prop :=
  ∀ s : State, firstFailure (decodeChecks s.cap s.par) = none → MarkAhead s.bs s.par.cbLen.toNat 0 →
    ∃ t, exec .t1Decode s = .next t ∧
      t.status = { s.status with session := false, mqrdy := false, done := true, busy := false } ∧
      t.errinfo = s.errinfo ∧ t.passDone = s.par.cbNpass ∧ DecoderSideKept s t ∧
      t.lat = ⟨s.par.cbW, s.par.cbH, s.par.cbOrient.setWidth 2, s.par.cbLen⟩ ∧ FlagsMatch t ∧
      (∀ i, i < s.par.cbW.toNat * s.par.cbH.toNat → Memory.has t.coef i = true) ∧
      (∀ i, s.par.cbW.toNat * s.par.cbH.toNat ≤ i →
        Memory.read t.coef i = Memory.read s.coef i ∧ flagAt t i = flagAt s i)

/-- `T1.DECODE` equals the host issuing `T1.START`, `MQ.INIT` and the pass commands of R161 one after another, except for
the final `SESSION` and `MQRDY` (R162). If it completes, so do they, with the same state; if one of them, after all before
it completed, raises an error or stops the model, `T1.DECODE` ends in the same state or stop. -/
def Obligations.WholeBlockDecodeEqualsHandDecode : Prop :=
  (∀ s t : State, 0 < s.par.cbNpass.toNat → exec .t1Decode s = .next t → t.status.done = true →
    execAll (handDecode s.par.cbNpass.toNat s.par.cbZbp.toNat) s = .next (setSession true true t)) ∧
  ∀ (s u : State) (l r : List Instr) (i : Instr), firstFailure (decodeChecks s.cap s.par) = none →
    0 < s.par.cbNpass.toNat → handDecode s.par.cbNpass.toNat s.par.cbZbp.toNat = l ++ i :: r →
    execAll l s = .next u → (l = [] ∨ u.status.done = true) →
    (∀ e, exec i u = .next e → e.status.done = false → exec .t1Decode s = .next e) ∧
      ∀ f, exec i u = .fault f → exec .t1Decode s = .fault f

/-- The result of `T1.DECODE` depends only on the parameter registers and the bytes below `CB_LEN`, not on what was
decoded before (R166): two states that agree on these, whatever their sessions and decoders, end alike. (`ERR` and
`ERRCODE`, which a command that completes keeps, must agree too; so does `ERRINFO` then keep its own value.) -/
def Obligations.WholeBlockDecodeIsIndependent : Prop :=
  ∀ s₁ s₂ t₁ : State, s₁.par = s₂.par → s₁.cap = s₂.cap → s₁.status.err = s₂.status.err →
    s₁.status.errcode = s₂.status.errcode →
    (∀ k, k < s₁.par.cbLen.toNat → Memory.read s₁.bs k = Memory.read s₂.bs k) →
    firstFailure (decodeChecks s₁.cap s₁.par) = none → exec .t1Decode s₁ = .next t₁ →
    ∃ t₂, exec .t1Decode s₂ = .next t₂ ∧ t₂.status = t₁.status ∧
      (t₁.status.done = true → t₁.errinfo = s₁.errinfo ∧ t₂.errinfo = s₂.errinfo) ∧
      (t₁.status.done = false → t₂.errinfo = t₁.errinfo) ∧ t₂.passDone = t₁.passDone ∧ t₂.cx = t₁.cx ∧ t₂.lat = t₁.lat ∧
      ∀ i, i < s₁.par.cbW.toNat * s₁.par.cbH.toNat →
        Memory.read t₂.coef i = Memory.read t₁.coef i ∧ flagAt t₂ i = flagAt t₁ i

/-! ## The dequantizer -/

/-- `DEQ.REV` (R190, R192, R197) with legal parameters and a written grid completes: each coefficient's signed truncated
magnitude at its place in the plane, every other word of SAMP and all other state kept. -/
def Obligations.ReversibleDequantizerPlacesIntegers : Prop :=
  ∀ s : State, firstFailure (deqRevChecks s.cap s.par) = none →
    (∀ k, k < s.par.cbW.toNat * s.par.cbH.toNat → Memory.has s.coef k = true) →
    ∃ t, exec .deqRev s = .next t ∧ Completed s t ∧ SampleSideKept s t ∧ t.freeCount = s.freeCount ∧
      (∀ j i, j < s.par.cbH.toNat → i < s.par.cbW.toNat →
        ∃ c v, Memory.read s.coef (j * s.par.cbW.toNat + i) = some c ∧
          Memory.read t.samp (destIndex s.par j i) = some v ∧
          v.toInt = (if c.msb then -1 else 1) * ((c.toNat % 2 ^ 31 / 2 ^ (31 - planeCount s.par).toNat : Nat) : Int)) ∧
      (∀ k, (∀ j i, j < s.par.cbH.toNat → i < s.par.cbW.toNat → k ≠ destIndex s.par j i) →
        Memory.read t.samp k = Memory.read s.samp k)

/-- `DEQ.IRR` (R190, R194, R195, R197) with legal parameters and a written grid completes: at each coefficient's place,
+0.0 for a truncated magnitude of 0, else convert, add one half, multiply by the step size, apply the sign; every other
word of SAMP and all other state kept. -/
def Obligations.IrreversibleDequantizerPlacesFloats : Prop :=
  ∀ s : State, firstFailure (deqIrrChecks s.cap s.par) = none →
    (∀ k, k < s.par.cbW.toNat * s.par.cbH.toNat → Memory.has s.coef k = true) →
    ∃ t, exec .deqIrr s = .next t ∧ Completed s t ∧ SampleSideKept s t ∧ t.freeCount = s.freeCount ∧
      (∀ j i, j < s.par.cbH.toNat → i < s.par.cbW.toNat →
        ∃ c, Memory.read s.coef (j * s.par.cbW.toNat + i) = some c ∧
          let tm := c.toNat % 2 ^ 31 / 2 ^ (31 - planeCount s.par).toNat
          let f := fpMul (deqTag s) (fpAdd (deqTag s) (fpOfNat tm) 0x3F000000) (stepSize s.par)
          Memory.read t.samp (destIndex s.par j i) =
            some (if tm = 0 then 0x00000000 else if c.msb then f ^^^ 0x80000000 else f)) ∧
      (∀ k, (∀ j i, j < s.par.cbH.toNat → i < s.par.cbW.toNat → k ≠ destIndex s.par j i) →
        Memory.read t.samp k = Memory.read s.samp k)

/-- The step size is exactly `(2048 + M) * 2^(P - E - 11)` for every legal input: no rounding happens in forming it
(R193). -/
def Obligations.StepSizeIsExact : Prop :=
  ∀ p : ParamRegs, 1 ≤ p.qPrec.toNat → p.qPrec.toNat ≤ 38 → p.qStep.toNat ≤ 0xFFFF →
    let e := p.qStep.toNat / 2048
    let m := p.qStep.toNat % 2048
    fpVal (stepSize p) = .fin false ((2048 + m) * 2 ^ 12) ((p.qPrec.toNat : Int) - (e : Int) - 11 - 12)

/-- `DEQ.IRR` produces no infinity and no NaN, whatever the coefficient word (R194). -/
def Obligations.IrreversibleDequantizerIsFinite : Prop :=
  ∀ (cap : Capacity) (p : ParamRegs) (tag : FpTag) (c : Word), firstFailure (deqIrrChecks cap p) = none →
    ∃ n m e, fpVal (deqIrrWord binary32 tag (deqShift p) (stepSize p) c) = .fin n m e

/-! ## The inverse transform -/

/-- Positions and sizes (R211, R212, R225): an even coordinate `i` lies at `i/2 - ceil(i0/2)`, in the low-pass half, an odd
one at `floor(i/2) - floor(i0/2)` of the high-pass half, which follows it; the halves fill the interval, and the place of
each coordinate lies inside it, different coordinates in different places. -/
def Obligations.SubbandSplitFillsTheInterval : Prop :=
  ∀ i0 i1 : Nat, i0 ≤ i1 → lowCount i0 i1 + highCount i0 i1 = i1 - i0 ∧
    lowCount i0 i1 = (i1 + 1) / 2 - (i0 + 1) / 2 ∧
    (∀ i, i0 ≤ i → i < i1 → splitPos i0 i1 i < i1 - i0 ∧
      (i % 2 = 0 → splitPos i0 i1 i + (i0 + 1) / 2 = i / 2 ∧ splitPos i0 i1 i < lowCount i0 i1) ∧
      (i % 2 = 1 → splitPos i0 i1 i + i0 / 2 = lowCount i0 i1 + (i - 1) / 2 ∧ lowCount i0 i1 ≤ splitPos i0 i1 i)) ∧
    (∀ i j, i0 ≤ i → i < i1 → i0 ≤ j → j < i1 → splitPos i0 i1 i = splitPos i0 i1 j → i = j)

/-- Whole-sample symmetric extension (R213), for every length of two or more: inside the interval the samples themselves;
at every distance reflected about both end samples; and periodic, with twice the length less two, at every integer. -/
def Obligations.ExtensionReflectsAboutTheEnds : Prop :=
  ∀ (i0 : Nat) (ys : List Word), 2 ≤ ys.length →
    let i1 : Int := (i0 : Int) + ys.length
    (∀ k : Nat, k < ys.length → some (yext i0 ys ((i0 : Int) + k)) = ys[k]?) ∧
    (∀ k : Nat, yext i0 ys ((i0 : Int) - k) = yext i0 ys ((i0 : Int) + k) ∧
      yext i0 ys (i1 - 1 + k) = yext i0 ys (i1 - 1 - k)) ∧
    ∀ i : Int, yext i0 ys (i + 2 * ((ys.length : Int) - 1)) = yext i0 ys i

/-- The reversible kernel undoes its forward counterpart exactly, in wrapping 32-bit arithmetic, on every signal of two
samples or more at every origin (R224). R224 claims it for every signal; the restriction to two samples is assumption 15.
With one sample it holds at an even coordinate, where the sample is copied, and at an odd one for a sample whose double,
which the forward step stores there, is in range. -/
def Obligations.ReversibleKernelIsLossless : Prop :=
  (∀ (i0 : Nat) (xs : List Word), 2 ≤ xs.length → sr1d53 i0 (fwd53 i0 xs) = xs) ∧
    ∀ (i0 : Nat) (x : Word), (i0 % 2 = 0 → sr1d53 i0 [x] = [x]) ∧
      (i0 % 2 = 1 → -(2 ^ 30) ≤ x.toInt → x.toInt < 2 ^ 30 → sr1d53 i0 [2 * x] = [x])

/-- Signals of length one (R223): copied at an even coordinate; at an odd one halved with floor by the reversible kernel,
and multiplied by 0.5, with no scaling, by the irreversible one. -/
def Obligations.LengthOneSignals : Prop :=
  ∀ (i0 : Nat) (y : Word) (t : FpTag),
    (i0 % 2 = 0 → sr1d53 i0 [y] = [y] ∧ sr1d97 binary32 t i0 [y] = [y]) ∧
    (i0 % 2 = 1 → (∃ z, sr1d53 i0 [y] = [z] ∧ z.toInt = y.toInt / 2) ∧
      sr1d97 binary32 t i0 [y] = [fpMul t y 0x3F000000])

/-- `IDWT.LEVEL.R53 lev` (R218, R219) with a legal plane whose level region is written completes: the region holds the
columns of the rows of the samples before, every word outside it and all other state kept. -/
def Obligations.ReversibleLevelSynthesisesItsRegion : Prop :=
  ∀ (s : State) (lev : BitVec 8), legalLevel lev = true → firstFailure (planeChecks s.cap s.par) = none →
    RegionWritten s (regionOf s.par lev.toNat) →
    let g := regionOf s.par lev.toNat
    ∃ t, exec (.idwtLevelR53 lev) s = .next t ∧ Completed s t ∧ SampleSideKept s t ∧ t.freeCount = s.freeCount ∧
      (∀ r c, r < regionH g → c < regionW g → Memory.read t.samp (r * g.pw + c) = (refCol (sampWord s) g kernel53 c)[r]?) ∧
      (∀ k, ¬ inRegion g k → Memory.read t.samp k = Memory.read s.samp k)

/-- `IDWT.LEVEL.I97 lev` (R218, R220) with a legal plane whose level region is written completes, as the reversible one
with the irreversible kernel. That it draws one free value, for the NaNs of its invalid operations, is the model's form of
U3 (assumption 5). -/
def Obligations.IrreversibleLevelSynthesisesItsRegion : Prop :=
  ∀ (s : State) (lev : BitVec 8), legalLevel lev = true → firstFailure (planeChecks s.cap s.par) = none →
    RegionWritten s (regionOf s.par lev.toNat) →
    let g := regionOf s.par lev.toNat
    let ker := kernel97 binary32 s.freeCount lev.toNat
    ∃ t, exec (.idwtLevelI97 lev) s = .next t ∧ Completed s t ∧ SampleSideKept s t ∧ t.freeCount = s.freeCount + 1 ∧
      (∀ r c, r < regionH g → c < regionW g → Memory.read t.samp (r * g.pw + c) = (refCol (sampWord s) g ker c)[r]?) ∧
      (∀ k, ¬ inRegion g k → Memory.read t.samp k = Memory.read s.samp k)

/-- `IDWT.FULL.R53` equals the sequence `IDWT.LEVEL.R53 DW_NL`, ..., `IDWT.LEVEL.R53 1`; with `DW_NL` = 0 nothing is done
and the command completes (R221). -/
def Obligations.ReversibleFullTransformIsItsLevels : Prop :=
  ∀ s : State, firstFailure (fullChecks s.cap s.par) = none →
    (s.par.dwNl = 0 → exec .idwtFullR53 s = .next (complete s)) ∧
    (0 < s.par.dwNl.toNat → exec .idwtFullR53 s = execAll (handLevels53 s.par.dwNl.toNat) s)

/-- `IDWT.FULL.R53` with legal parameters on a plane that is written whole completes (R221): only words of the plane
change, and all are written. -/
def Obligations.ReversibleFullTransformCompletes : Prop :=
  ∀ s : State, firstFailure (fullChecks s.cap s.par) = none →
    (∀ k, k < planeW s.par * planeH s.par → Memory.has s.samp k = true) →
    ∃ t, exec .idwtFullR53 s = .next t ∧ Completed s t ∧ SampleSideKept s t ∧ t.freeCount = s.freeCount ∧
      (∀ k, k < planeW s.par * planeH s.par → Memory.has t.samp k = true) ∧
      (∀ k, planeW s.par * planeH s.par ≤ k → Memory.read t.samp k = Memory.read s.samp k)

/-- `IDWT.FULL.I97` with legal parameters on a plane that is written whole completes (R222): the plane holds what levels
`DW_NL`, ..., 1, one after another in this order, make of it; only words of the plane change, and all are written; with
`DW_NL` = 0 SAMP is kept, and with `DW_NL` = 1 the command is `IDWT.LEVEL.I97 1`. That it draws one free value, for the
NaNs of all its levels, is the model's form of U3 (assumption 5). -/
def Obligations.IrreversibleFullTransformCompletes : Prop :=
  ∀ s : State, firstFailure (fullChecks s.cap s.par) = none →
    (∀ k, k < planeW s.par * planeH s.par → Memory.has s.samp k = true) →
    ∃ t, exec .idwtFullI97 s = .next t ∧ Completed s t ∧ SampleSideKept s t ∧ t.freeCount = s.freeCount + 1 ∧
      (∀ k, k < planeW s.par * planeH s.par → Memory.read t.samp k =
        some (refLevels s.par (kernel97 binary32 s.freeCount) s.par.dwNl.toNat (sampWord s) k)) ∧
      (∀ k, k < planeW s.par * planeH s.par → Memory.has t.samp k = true) ∧
      (∀ k, planeW s.par * planeH s.par ≤ k → Memory.read t.samp k = Memory.read s.samp k) ∧
      (s.par.dwNl = 0 → t.samp = s.samp) ∧ (s.par.dwNl = 1 → exec (.idwtLevelI97 1) s = .next t)

/-! ## Floating point -/

/-- Every rounding is to the nearest, ties to even (R217): a nonzero magnitude `m * 2^e` becomes an infinity exactly when it
is at least half a unit above the largest finite value; else it becomes `n` units of the last place `q`, where `q` keeps
24 significant bits or is that of a subnormal, and `n` is nearest. And every operation on finite operands rounds its exact
result once: the product, the sum, the difference, and an integer's conversion; a sum or difference that is exactly zero is
+0, but −0 where both terms are negative. The threshold of overflow, the last place of a subnormal and the zeros are those
of IEEE 754, which R217 names and does not print: they are the model's (assumption 21). -/
def Obligations.RoundingIsToNearestEven : Prop :=
  (∀ (neg : Bool) (m : Nat) (e : Int), m ≠ 0 →
    let q : Int := max (e + (Nat.log2 m : Int) - 23) (-149)
    (fpVal (fpRound neg m e) = .inf neg ↔ (2 ^ 25 - 1) * 2 ^ 103 * 2 ^ (-e).toNat ≤ m * 2 ^ e.toNat) ∧
    (m * 2 ^ e.toNat < (2 ^ 25 - 1) * 2 ^ 103 * 2 ^ (-e).toNat →
      ∃ n n' : Nat, ∃ q' : Int, q ≤ q' ∧ fpVal (fpRound neg m e) = .fin neg n' q' ∧ n' * 2 ^ (q' - q).toNat = n ∧
        (q ≤ e → n = m * 2 ^ (e - q).toNat) ∧
        (e < q → 2 * ((n : Int) * 2 ^ (q - e).toNat - m).natAbs ≤ 2 ^ (q - e).toNat ∧
          (2 * ((n : Int) * 2 ^ (q - e).toNat - m).natAbs = 2 ^ (q - e).toNat → n % 2 = 0)))) ∧
  (∀ (t : FpTag) (a b : Word) (n₁ n₂ : Bool) (m₁ m₂ : Nat) (e₁ e₂ : Int), fpVal a = .fin n₁ m₁ e₁ →
    fpVal b = .fin n₂ m₂ e₂ →
    let e : Int := min e₁ e₂
    let exact (neg₂ : Bool) : Int :=
      (if n₁ then -1 else 1) * (m₁ * 2 ^ (e₁ - e).toNat) + (if neg₂ then -1 else 1) * (m₂ * 2 ^ (e₂ - e).toNat)
    let rounded (neg₂ : Bool) : Word :=
      if exact neg₂ = 0 then (if n₁ = true ∧ neg₂ = true then 0x80000000 else 0x00000000)
      else fpRound (decide (exact neg₂ < 0)) (exact neg₂).natAbs e
    fpMul t a b = fpRound (xor n₁ n₂) (m₁ * m₂) (e₁ + e₂) ∧ fpAdd t a b = rounded n₂ ∧ fpSub t a b = rounded (!n₂)) ∧
  ∀ n : Nat, fpOfNat n = fpRound false n 0

/-- Signed zeros, signs of products, and NaNs (R217): `x - x` is +0 for a finite `x`, `(+0) + (-0)` is +0, a product's
sign is the exclusive-or of the operand signs unless it is a NaN, and an operation with a NaN operand returns a NaN. -/
def Obligations.FloatSignsAndNans : Prop :=
  (∀ (t : FpTag) (a : Word) (n : Bool) (m : Nat) (e : Int), fpVal a = .fin n m e → fpSub t a a = 0) ∧
  (∀ t : FpTag, fpAdd t 0x00000000 0x80000000 = 0x00000000) ∧
  (∀ (t : FpTag) (a b : Word), fpVal (fpMul t a b) ≠ .nan → (fpMul t a b).msb = xor a.msb b.msb) ∧
  (∀ (t : FpTag) (a b : Word), fpVal a = .nan ∨ fpVal b = .nan →
    fpVal (fpAdd t a b) = .nan ∧ fpVal (fpSub t a b) = .nan ∧ fpVal (fpMul t a b) = .nan)
end

