-- ==== Sys2Proof/Laws/State.lean ====
section
/-! SUPPORT. One lemma per field per update of the state, true by rfl: no later proof unfolds a record update. -/

namespace Sys2Proof.Machine

@[simp] theorem writeBs_status (i : Nat) (v : Byte) (s : State) : (writeBs i v s).status = s.status := rfl
@[simp] theorem writeBs_errinfo (i : Nat) (v : Byte) (s : State) : (writeBs i v s).errinfo = s.errinfo := rfl
@[simp] theorem writeBs_passDone (i : Nat) (v : Byte) (s : State) : (writeBs i v s).passDone = s.passDone := rfl
@[simp] theorem writeBs_par (i : Nat) (v : Byte) (s : State) : (writeBs i v s).par = s.par := rfl
@[simp] theorem writeBs_mq (i : Nat) (v : Byte) (s : State) : (writeBs i v s).mq = s.mq := rfl
@[simp] theorem writeBs_cx (i : Nat) (v : Byte) (s : State) : (writeBs i v s).cx = s.cx := rfl
@[simp] theorem writeBs_lat (i : Nat) (v : Byte) (s : State) : (writeBs i v s).lat = s.lat := rfl
@[simp] theorem writeBs_bs (i : Nat) (v : Byte) (s : State) : (writeBs i v s).bs = Memory.write s.bs i v := rfl
@[simp] theorem writeBs_coef (i : Nat) (v : Byte) (s : State) : (writeBs i v s).coef = s.coef := rfl
@[simp] theorem writeBs_flag (i : Nat) (v : Byte) (s : State) : (writeBs i v s).flag = s.flag := rfl
@[simp] theorem writeBs_samp (i : Nat) (v : Byte) (s : State) : (writeBs i v s).samp = s.samp := rfl
@[simp] theorem writeBs_cap (i : Nat) (v : Byte) (s : State) : (writeBs i v s).cap = s.cap := rfl
@[simp] theorem writeBs_pending (i : Nat) (v : Byte) (s : State) : (writeBs i v s).pending = s.pending := rfl
@[simp] theorem writeBs_hostData (i : Nat) (v : Byte) (s : State) : (writeBs i v s).hostData = s.hostData := rfl
@[simp] theorem writeBs_freeCount (i : Nat) (v : Byte) (s : State) : (writeBs i v s).freeCount = s.freeCount := rfl

@[simp] theorem writeCoef_status (i : Nat) (v : Word) (s : State) : (writeCoef i v s).status = s.status := rfl
@[simp] theorem writeCoef_errinfo (i : Nat) (v : Word) (s : State) : (writeCoef i v s).errinfo = s.errinfo := rfl
@[simp] theorem writeCoef_passDone (i : Nat) (v : Word) (s : State) : (writeCoef i v s).passDone = s.passDone := rfl
@[simp] theorem writeCoef_par (i : Nat) (v : Word) (s : State) : (writeCoef i v s).par = s.par := rfl
@[simp] theorem writeCoef_mq (i : Nat) (v : Word) (s : State) : (writeCoef i v s).mq = s.mq := rfl
@[simp] theorem writeCoef_cx (i : Nat) (v : Word) (s : State) : (writeCoef i v s).cx = s.cx := rfl
@[simp] theorem writeCoef_lat (i : Nat) (v : Word) (s : State) : (writeCoef i v s).lat = s.lat := rfl
@[simp] theorem writeCoef_bs (i : Nat) (v : Word) (s : State) : (writeCoef i v s).bs = s.bs := rfl
@[simp] theorem writeCoef_coef (i : Nat) (v : Word) (s : State) : (writeCoef i v s).coef = Memory.write s.coef i v := rfl
@[simp] theorem writeCoef_flag (i : Nat) (v : Word) (s : State) : (writeCoef i v s).flag = s.flag := rfl
@[simp] theorem writeCoef_samp (i : Nat) (v : Word) (s : State) : (writeCoef i v s).samp = s.samp := rfl
@[simp] theorem writeCoef_cap (i : Nat) (v : Word) (s : State) : (writeCoef i v s).cap = s.cap := rfl
@[simp] theorem writeCoef_pending (i : Nat) (v : Word) (s : State) : (writeCoef i v s).pending = s.pending := rfl
@[simp] theorem writeCoef_hostData (i : Nat) (v : Word) (s : State) : (writeCoef i v s).hostData = s.hostData := rfl
@[simp] theorem writeCoef_freeCount (i : Nat) (v : Word) (s : State) : (writeCoef i v s).freeCount = s.freeCount := rfl

@[simp] theorem writeSamp_status (i : Nat) (v : Word) (s : State) : (writeSamp i v s).status = s.status := rfl
@[simp] theorem writeSamp_errinfo (i : Nat) (v : Word) (s : State) : (writeSamp i v s).errinfo = s.errinfo := rfl
@[simp] theorem writeSamp_passDone (i : Nat) (v : Word) (s : State) : (writeSamp i v s).passDone = s.passDone := rfl
@[simp] theorem writeSamp_par (i : Nat) (v : Word) (s : State) : (writeSamp i v s).par = s.par := rfl
@[simp] theorem writeSamp_mq (i : Nat) (v : Word) (s : State) : (writeSamp i v s).mq = s.mq := rfl
@[simp] theorem writeSamp_cx (i : Nat) (v : Word) (s : State) : (writeSamp i v s).cx = s.cx := rfl
@[simp] theorem writeSamp_lat (i : Nat) (v : Word) (s : State) : (writeSamp i v s).lat = s.lat := rfl
@[simp] theorem writeSamp_bs (i : Nat) (v : Word) (s : State) : (writeSamp i v s).bs = s.bs := rfl
@[simp] theorem writeSamp_coef (i : Nat) (v : Word) (s : State) : (writeSamp i v s).coef = s.coef := rfl
@[simp] theorem writeSamp_flag (i : Nat) (v : Word) (s : State) : (writeSamp i v s).flag = s.flag := rfl
@[simp] theorem writeSamp_samp (i : Nat) (v : Word) (s : State) : (writeSamp i v s).samp = Memory.write s.samp i v := rfl
@[simp] theorem writeSamp_cap (i : Nat) (v : Word) (s : State) : (writeSamp i v s).cap = s.cap := rfl
@[simp] theorem writeSamp_pending (i : Nat) (v : Word) (s : State) : (writeSamp i v s).pending = s.pending := rfl
@[simp] theorem writeSamp_hostData (i : Nat) (v : Word) (s : State) : (writeSamp i v s).hostData = s.hostData := rfl
@[simp] theorem writeSamp_freeCount (i : Nat) (v : Word) (s : State) : (writeSamp i v s).freeCount = s.freeCount := rfl

@[simp] theorem writeFlag_status (i : Nat) (f : CoefFlags) (s : State) : (writeFlag i f s).status = s.status := rfl
@[simp] theorem writeFlag_errinfo (i : Nat) (f : CoefFlags) (s : State) : (writeFlag i f s).errinfo = s.errinfo := rfl
@[simp] theorem writeFlag_passDone (i : Nat) (f : CoefFlags) (s : State) : (writeFlag i f s).passDone = s.passDone := rfl
@[simp] theorem writeFlag_par (i : Nat) (f : CoefFlags) (s : State) : (writeFlag i f s).par = s.par := rfl
@[simp] theorem writeFlag_mq (i : Nat) (f : CoefFlags) (s : State) : (writeFlag i f s).mq = s.mq := rfl
@[simp] theorem writeFlag_cx (i : Nat) (f : CoefFlags) (s : State) : (writeFlag i f s).cx = s.cx := rfl
@[simp] theorem writeFlag_lat (i : Nat) (f : CoefFlags) (s : State) : (writeFlag i f s).lat = s.lat := rfl
@[simp] theorem writeFlag_bs (i : Nat) (f : CoefFlags) (s : State) : (writeFlag i f s).bs = s.bs := rfl
@[simp] theorem writeFlag_coef (i : Nat) (f : CoefFlags) (s : State) : (writeFlag i f s).coef = s.coef := rfl
@[simp] theorem writeFlag_flag (i : Nat) (f : CoefFlags) (s : State) : (writeFlag i f s).flag = (if f = unlistedFlag then Memory.erase s.flag i else Memory.write s.flag i f) := rfl
@[simp] theorem writeFlag_samp (i : Nat) (f : CoefFlags) (s : State) : (writeFlag i f s).samp = s.samp := rfl
@[simp] theorem writeFlag_cap (i : Nat) (f : CoefFlags) (s : State) : (writeFlag i f s).cap = s.cap := rfl
@[simp] theorem writeFlag_pending (i : Nat) (f : CoefFlags) (s : State) : (writeFlag i f s).pending = s.pending := rfl
@[simp] theorem writeFlag_hostData (i : Nat) (f : CoefFlags) (s : State) : (writeFlag i f s).hostData = s.hostData := rfl
@[simp] theorem writeFlag_freeCount (i : Nat) (f : CoefFlags) (s : State) : (writeFlag i f s).freeCount = s.freeCount := rfl

@[simp] theorem writeCtx_status (c : Fin 19) (e : CtxEntry) (s : State) : (writeCtx c e s).status = s.status := rfl
@[simp] theorem writeCtx_errinfo (c : Fin 19) (e : CtxEntry) (s : State) : (writeCtx c e s).errinfo = s.errinfo := rfl
@[simp] theorem writeCtx_passDone (c : Fin 19) (e : CtxEntry) (s : State) : (writeCtx c e s).passDone = s.passDone := rfl
@[simp] theorem writeCtx_par (c : Fin 19) (e : CtxEntry) (s : State) : (writeCtx c e s).par = s.par := rfl
@[simp] theorem writeCtx_mq (c : Fin 19) (e : CtxEntry) (s : State) : (writeCtx c e s).mq = s.mq := rfl
@[simp] theorem writeCtx_cx (c : Fin 19) (e : CtxEntry) (s : State) : (writeCtx c e s).cx = s.cx.set c.val e c.isLt := rfl
@[simp] theorem writeCtx_lat (c : Fin 19) (e : CtxEntry) (s : State) : (writeCtx c e s).lat = s.lat := rfl
@[simp] theorem writeCtx_bs (c : Fin 19) (e : CtxEntry) (s : State) : (writeCtx c e s).bs = s.bs := rfl
@[simp] theorem writeCtx_coef (c : Fin 19) (e : CtxEntry) (s : State) : (writeCtx c e s).coef = s.coef := rfl
@[simp] theorem writeCtx_flag (c : Fin 19) (e : CtxEntry) (s : State) : (writeCtx c e s).flag = s.flag := rfl
@[simp] theorem writeCtx_samp (c : Fin 19) (e : CtxEntry) (s : State) : (writeCtx c e s).samp = s.samp := rfl
@[simp] theorem writeCtx_cap (c : Fin 19) (e : CtxEntry) (s : State) : (writeCtx c e s).cap = s.cap := rfl
@[simp] theorem writeCtx_pending (c : Fin 19) (e : CtxEntry) (s : State) : (writeCtx c e s).pending = s.pending := rfl
@[simp] theorem writeCtx_hostData (c : Fin 19) (e : CtxEntry) (s : State) : (writeCtx c e s).hostData = s.hostData := rfl
@[simp] theorem writeCtx_freeCount (c : Fin 19) (e : CtxEntry) (s : State) : (writeCtx c e s).freeCount = s.freeCount := rfl

@[simp] theorem resetContexts_status (s : State) : (resetContexts s).status = s.status := rfl
@[simp] theorem resetContexts_errinfo (s : State) : (resetContexts s).errinfo = s.errinfo := rfl
@[simp] theorem resetContexts_passDone (s : State) : (resetContexts s).passDone = s.passDone := rfl
@[simp] theorem resetContexts_par (s : State) : (resetContexts s).par = s.par := rfl
@[simp] theorem resetContexts_mq (s : State) : (resetContexts s).mq = s.mq := rfl
@[simp] theorem resetContexts_cx (s : State) : (resetContexts s).cx = initialContexts := rfl
@[simp] theorem resetContexts_lat (s : State) : (resetContexts s).lat = s.lat := rfl
@[simp] theorem resetContexts_bs (s : State) : (resetContexts s).bs = s.bs := rfl
@[simp] theorem resetContexts_coef (s : State) : (resetContexts s).coef = s.coef := rfl
@[simp] theorem resetContexts_flag (s : State) : (resetContexts s).flag = s.flag := rfl
@[simp] theorem resetContexts_samp (s : State) : (resetContexts s).samp = s.samp := rfl
@[simp] theorem resetContexts_cap (s : State) : (resetContexts s).cap = s.cap := rfl
@[simp] theorem resetContexts_pending (s : State) : (resetContexts s).pending = s.pending := rfl
@[simp] theorem resetContexts_hostData (s : State) : (resetContexts s).hostData = s.hostData := rfl
@[simp] theorem resetContexts_freeCount (s : State) : (resetContexts s).freeCount = s.freeCount := rfl

@[simp] theorem setMq_status (m : MqRegs) (s : State) : (setMq m s).status = s.status := rfl
@[simp] theorem setMq_errinfo (m : MqRegs) (s : State) : (setMq m s).errinfo = s.errinfo := rfl
@[simp] theorem setMq_passDone (m : MqRegs) (s : State) : (setMq m s).passDone = s.passDone := rfl
@[simp] theorem setMq_par (m : MqRegs) (s : State) : (setMq m s).par = s.par := rfl
@[simp] theorem setMq_mq (m : MqRegs) (s : State) : (setMq m s).mq = m := rfl
@[simp] theorem setMq_cx (m : MqRegs) (s : State) : (setMq m s).cx = s.cx := rfl
@[simp] theorem setMq_lat (m : MqRegs) (s : State) : (setMq m s).lat = s.lat := rfl
@[simp] theorem setMq_bs (m : MqRegs) (s : State) : (setMq m s).bs = s.bs := rfl
@[simp] theorem setMq_coef (m : MqRegs) (s : State) : (setMq m s).coef = s.coef := rfl
@[simp] theorem setMq_flag (m : MqRegs) (s : State) : (setMq m s).flag = s.flag := rfl
@[simp] theorem setMq_samp (m : MqRegs) (s : State) : (setMq m s).samp = s.samp := rfl
@[simp] theorem setMq_cap (m : MqRegs) (s : State) : (setMq m s).cap = s.cap := rfl
@[simp] theorem setMq_pending (m : MqRegs) (s : State) : (setMq m s).pending = s.pending := rfl
@[simp] theorem setMq_hostData (m : MqRegs) (s : State) : (setMq m s).hostData = s.hostData := rfl
@[simp] theorem setMq_freeCount (m : MqRegs) (s : State) : (setMq m s).freeCount = s.freeCount := rfl

@[simp] theorem setStatus_status (f : StatusFlags) (s : State) : (setStatus f s).status = f := rfl
@[simp] theorem setStatus_errinfo (f : StatusFlags) (s : State) : (setStatus f s).errinfo = s.errinfo := rfl
@[simp] theorem setStatus_passDone (f : StatusFlags) (s : State) : (setStatus f s).passDone = s.passDone := rfl
@[simp] theorem setStatus_par (f : StatusFlags) (s : State) : (setStatus f s).par = s.par := rfl
@[simp] theorem setStatus_mq (f : StatusFlags) (s : State) : (setStatus f s).mq = s.mq := rfl
@[simp] theorem setStatus_cx (f : StatusFlags) (s : State) : (setStatus f s).cx = s.cx := rfl
@[simp] theorem setStatus_lat (f : StatusFlags) (s : State) : (setStatus f s).lat = s.lat := rfl
@[simp] theorem setStatus_bs (f : StatusFlags) (s : State) : (setStatus f s).bs = s.bs := rfl
@[simp] theorem setStatus_coef (f : StatusFlags) (s : State) : (setStatus f s).coef = s.coef := rfl
@[simp] theorem setStatus_flag (f : StatusFlags) (s : State) : (setStatus f s).flag = s.flag := rfl
@[simp] theorem setStatus_samp (f : StatusFlags) (s : State) : (setStatus f s).samp = s.samp := rfl
@[simp] theorem setStatus_cap (f : StatusFlags) (s : State) : (setStatus f s).cap = s.cap := rfl
@[simp] theorem setStatus_pending (f : StatusFlags) (s : State) : (setStatus f s).pending = s.pending := rfl
@[simp] theorem setStatus_hostData (f : StatusFlags) (s : State) : (setStatus f s).hostData = s.hostData := rfl
@[simp] theorem setStatus_freeCount (f : StatusFlags) (s : State) : (setStatus f s).freeCount = s.freeCount := rfl

@[simp] theorem setSession_status (a b : Bool) (s : State) : (setSession a b s).status = { s.status with session := a, mqrdy := b } := rfl
@[simp] theorem setSession_errinfo (a b : Bool) (s : State) : (setSession a b s).errinfo = s.errinfo := rfl
@[simp] theorem setSession_passDone (a b : Bool) (s : State) : (setSession a b s).passDone = s.passDone := rfl
@[simp] theorem setSession_par (a b : Bool) (s : State) : (setSession a b s).par = s.par := rfl
@[simp] theorem setSession_mq (a b : Bool) (s : State) : (setSession a b s).mq = s.mq := rfl
@[simp] theorem setSession_cx (a b : Bool) (s : State) : (setSession a b s).cx = s.cx := rfl
@[simp] theorem setSession_lat (a b : Bool) (s : State) : (setSession a b s).lat = s.lat := rfl
@[simp] theorem setSession_bs (a b : Bool) (s : State) : (setSession a b s).bs = s.bs := rfl
@[simp] theorem setSession_coef (a b : Bool) (s : State) : (setSession a b s).coef = s.coef := rfl
@[simp] theorem setSession_flag (a b : Bool) (s : State) : (setSession a b s).flag = s.flag := rfl
@[simp] theorem setSession_samp (a b : Bool) (s : State) : (setSession a b s).samp = s.samp := rfl
@[simp] theorem setSession_cap (a b : Bool) (s : State) : (setSession a b s).cap = s.cap := rfl
@[simp] theorem setSession_pending (a b : Bool) (s : State) : (setSession a b s).pending = s.pending := rfl
@[simp] theorem setSession_hostData (a b : Bool) (s : State) : (setSession a b s).hostData = s.hostData := rfl
@[simp] theorem setSession_freeCount (a b : Bool) (s : State) : (setSession a b s).freeCount = s.freeCount := rfl

@[simp] theorem setLatches_status (l : Latches) (s : State) : (setLatches l s).status = s.status := rfl
@[simp] theorem setLatches_errinfo (l : Latches) (s : State) : (setLatches l s).errinfo = s.errinfo := rfl
@[simp] theorem setLatches_passDone (l : Latches) (s : State) : (setLatches l s).passDone = s.passDone := rfl
@[simp] theorem setLatches_par (l : Latches) (s : State) : (setLatches l s).par = s.par := rfl
@[simp] theorem setLatches_mq (l : Latches) (s : State) : (setLatches l s).mq = s.mq := rfl
@[simp] theorem setLatches_cx (l : Latches) (s : State) : (setLatches l s).cx = s.cx := rfl
@[simp] theorem setLatches_lat (l : Latches) (s : State) : (setLatches l s).lat = l := rfl
@[simp] theorem setLatches_bs (l : Latches) (s : State) : (setLatches l s).bs = s.bs := rfl
@[simp] theorem setLatches_coef (l : Latches) (s : State) : (setLatches l s).coef = s.coef := rfl
@[simp] theorem setLatches_flag (l : Latches) (s : State) : (setLatches l s).flag = s.flag := rfl
@[simp] theorem setLatches_samp (l : Latches) (s : State) : (setLatches l s).samp = s.samp := rfl
@[simp] theorem setLatches_cap (l : Latches) (s : State) : (setLatches l s).cap = s.cap := rfl
@[simp] theorem setLatches_pending (l : Latches) (s : State) : (setLatches l s).pending = s.pending := rfl
@[simp] theorem setLatches_hostData (l : Latches) (s : State) : (setLatches l s).hostData = s.hostData := rfl
@[simp] theorem setLatches_freeCount (l : Latches) (s : State) : (setLatches l s).freeCount = s.freeCount := rfl

@[simp] theorem setPassDone_status (n : Word) (s : State) : (setPassDone n s).status = s.status := rfl
@[simp] theorem setPassDone_errinfo (n : Word) (s : State) : (setPassDone n s).errinfo = s.errinfo := rfl
@[simp] theorem setPassDone_passDone (n : Word) (s : State) : (setPassDone n s).passDone = n := rfl
@[simp] theorem setPassDone_par (n : Word) (s : State) : (setPassDone n s).par = s.par := rfl
@[simp] theorem setPassDone_mq (n : Word) (s : State) : (setPassDone n s).mq = s.mq := rfl
@[simp] theorem setPassDone_cx (n : Word) (s : State) : (setPassDone n s).cx = s.cx := rfl
@[simp] theorem setPassDone_lat (n : Word) (s : State) : (setPassDone n s).lat = s.lat := rfl
@[simp] theorem setPassDone_bs (n : Word) (s : State) : (setPassDone n s).bs = s.bs := rfl
@[simp] theorem setPassDone_coef (n : Word) (s : State) : (setPassDone n s).coef = s.coef := rfl
@[simp] theorem setPassDone_flag (n : Word) (s : State) : (setPassDone n s).flag = s.flag := rfl
@[simp] theorem setPassDone_samp (n : Word) (s : State) : (setPassDone n s).samp = s.samp := rfl
@[simp] theorem setPassDone_cap (n : Word) (s : State) : (setPassDone n s).cap = s.cap := rfl
@[simp] theorem setPassDone_pending (n : Word) (s : State) : (setPassDone n s).pending = s.pending := rfl
@[simp] theorem setPassDone_hostData (n : Word) (s : State) : (setPassDone n s).hostData = s.hostData := rfl
@[simp] theorem setPassDone_freeCount (n : Word) (s : State) : (setPassDone n s).freeCount = s.freeCount := rfl

@[simp] theorem setPar_status (p : ParamRegs) (s : State) : (setPar p s).status = s.status := rfl
@[simp] theorem setPar_errinfo (p : ParamRegs) (s : State) : (setPar p s).errinfo = s.errinfo := rfl
@[simp] theorem setPar_passDone (p : ParamRegs) (s : State) : (setPar p s).passDone = s.passDone := rfl
@[simp] theorem setPar_par (p : ParamRegs) (s : State) : (setPar p s).par = p := rfl
@[simp] theorem setPar_mq (p : ParamRegs) (s : State) : (setPar p s).mq = s.mq := rfl
@[simp] theorem setPar_cx (p : ParamRegs) (s : State) : (setPar p s).cx = s.cx := rfl
@[simp] theorem setPar_lat (p : ParamRegs) (s : State) : (setPar p s).lat = s.lat := rfl
@[simp] theorem setPar_bs (p : ParamRegs) (s : State) : (setPar p s).bs = s.bs := rfl
@[simp] theorem setPar_coef (p : ParamRegs) (s : State) : (setPar p s).coef = s.coef := rfl
@[simp] theorem setPar_flag (p : ParamRegs) (s : State) : (setPar p s).flag = s.flag := rfl
@[simp] theorem setPar_samp (p : ParamRegs) (s : State) : (setPar p s).samp = s.samp := rfl
@[simp] theorem setPar_cap (p : ParamRegs) (s : State) : (setPar p s).cap = s.cap := rfl
@[simp] theorem setPar_pending (p : ParamRegs) (s : State) : (setPar p s).pending = s.pending := rfl
@[simp] theorem setPar_hostData (p : ParamRegs) (s : State) : (setPar p s).hostData = s.hostData := rfl
@[simp] theorem setPar_freeCount (p : ParamRegs) (s : State) : (setPar p s).freeCount = s.freeCount := rfl

@[simp] theorem setHostData_status (v : Word) (s : State) : (setHostData v s).status = s.status := rfl
@[simp] theorem setHostData_errinfo (v : Word) (s : State) : (setHostData v s).errinfo = s.errinfo := rfl
@[simp] theorem setHostData_passDone (v : Word) (s : State) : (setHostData v s).passDone = s.passDone := rfl
@[simp] theorem setHostData_par (v : Word) (s : State) : (setHostData v s).par = s.par := rfl
@[simp] theorem setHostData_mq (v : Word) (s : State) : (setHostData v s).mq = s.mq := rfl
@[simp] theorem setHostData_cx (v : Word) (s : State) : (setHostData v s).cx = s.cx := rfl
@[simp] theorem setHostData_lat (v : Word) (s : State) : (setHostData v s).lat = s.lat := rfl
@[simp] theorem setHostData_bs (v : Word) (s : State) : (setHostData v s).bs = s.bs := rfl
@[simp] theorem setHostData_coef (v : Word) (s : State) : (setHostData v s).coef = s.coef := rfl
@[simp] theorem setHostData_flag (v : Word) (s : State) : (setHostData v s).flag = s.flag := rfl
@[simp] theorem setHostData_samp (v : Word) (s : State) : (setHostData v s).samp = s.samp := rfl
@[simp] theorem setHostData_cap (v : Word) (s : State) : (setHostData v s).cap = s.cap := rfl
@[simp] theorem setHostData_pending (v : Word) (s : State) : (setHostData v s).pending = s.pending := rfl
@[simp] theorem setHostData_hostData (v : Word) (s : State) : (setHostData v s).hostData = v := rfl
@[simp] theorem setHostData_freeCount (v : Word) (s : State) : (setHostData v s).freeCount = s.freeCount := rfl

@[simp] theorem setPending_status (ops : List HostOp) (s : State) : (setPending ops s).status = s.status := rfl
@[simp] theorem setPending_errinfo (ops : List HostOp) (s : State) : (setPending ops s).errinfo = s.errinfo := rfl
@[simp] theorem setPending_passDone (ops : List HostOp) (s : State) : (setPending ops s).passDone = s.passDone := rfl
@[simp] theorem setPending_par (ops : List HostOp) (s : State) : (setPending ops s).par = s.par := rfl
@[simp] theorem setPending_mq (ops : List HostOp) (s : State) : (setPending ops s).mq = s.mq := rfl
@[simp] theorem setPending_cx (ops : List HostOp) (s : State) : (setPending ops s).cx = s.cx := rfl
@[simp] theorem setPending_lat (ops : List HostOp) (s : State) : (setPending ops s).lat = s.lat := rfl
@[simp] theorem setPending_bs (ops : List HostOp) (s : State) : (setPending ops s).bs = s.bs := rfl
@[simp] theorem setPending_coef (ops : List HostOp) (s : State) : (setPending ops s).coef = s.coef := rfl
@[simp] theorem setPending_flag (ops : List HostOp) (s : State) : (setPending ops s).flag = s.flag := rfl
@[simp] theorem setPending_samp (ops : List HostOp) (s : State) : (setPending ops s).samp = s.samp := rfl
@[simp] theorem setPending_cap (ops : List HostOp) (s : State) : (setPending ops s).cap = s.cap := rfl
@[simp] theorem setPending_pending (ops : List HostOp) (s : State) : (setPending ops s).pending = ops := rfl
@[simp] theorem setPending_hostData (ops : List HostOp) (s : State) : (setPending ops s).hostData = s.hostData := rfl
@[simp] theorem setPending_freeCount (ops : List HostOp) (s : State) : (setPending ops s).freeCount = s.freeCount := rfl

@[simp] theorem drawFree_status (s : State) : (drawFree s).status = s.status := rfl
@[simp] theorem drawFree_errinfo (s : State) : (drawFree s).errinfo = s.errinfo := rfl
@[simp] theorem drawFree_passDone (s : State) : (drawFree s).passDone = s.passDone := rfl
@[simp] theorem drawFree_par (s : State) : (drawFree s).par = s.par := rfl
@[simp] theorem drawFree_mq (s : State) : (drawFree s).mq = s.mq := rfl
@[simp] theorem drawFree_cx (s : State) : (drawFree s).cx = s.cx := rfl
@[simp] theorem drawFree_lat (s : State) : (drawFree s).lat = s.lat := rfl
@[simp] theorem drawFree_bs (s : State) : (drawFree s).bs = s.bs := rfl
@[simp] theorem drawFree_coef (s : State) : (drawFree s).coef = s.coef := rfl
@[simp] theorem drawFree_flag (s : State) : (drawFree s).flag = s.flag := rfl
@[simp] theorem drawFree_samp (s : State) : (drawFree s).samp = s.samp := rfl
@[simp] theorem drawFree_cap (s : State) : (drawFree s).cap = s.cap := rfl
@[simp] theorem drawFree_pending (s : State) : (drawFree s).pending = s.pending := rfl
@[simp] theorem drawFree_hostData (s : State) : (drawFree s).hostData = s.hostData := rfl
@[simp] theorem drawFree_freeCount (s : State) : (drawFree s).freeCount = s.freeCount + 1 := rfl

@[simp] theorem accept_status (s : State) : (accept s).status = s.status.accepted := rfl
@[simp] theorem accept_errinfo (s : State) : (accept s).errinfo = s.errinfo := rfl
@[simp] theorem accept_passDone (s : State) : (accept s).passDone = s.passDone := rfl
@[simp] theorem accept_par (s : State) : (accept s).par = s.par := rfl
@[simp] theorem accept_mq (s : State) : (accept s).mq = s.mq := rfl
@[simp] theorem accept_cx (s : State) : (accept s).cx = s.cx := rfl
@[simp] theorem accept_lat (s : State) : (accept s).lat = s.lat := rfl
@[simp] theorem accept_bs (s : State) : (accept s).bs = s.bs := rfl
@[simp] theorem accept_coef (s : State) : (accept s).coef = s.coef := rfl
@[simp] theorem accept_flag (s : State) : (accept s).flag = s.flag := rfl
@[simp] theorem accept_samp (s : State) : (accept s).samp = s.samp := rfl
@[simp] theorem accept_cap (s : State) : (accept s).cap = s.cap := rfl
@[simp] theorem accept_pending (s : State) : (accept s).pending = s.pending := rfl
@[simp] theorem accept_hostData (s : State) : (accept s).hostData = s.hostData := rfl
@[simp] theorem accept_freeCount (s : State) : (accept s).freeCount = s.freeCount := rfl

@[simp] theorem complete_status (s : State) : (complete s).status = s.status.completed := rfl
@[simp] theorem complete_errinfo (s : State) : (complete s).errinfo = s.errinfo := rfl
@[simp] theorem complete_passDone (s : State) : (complete s).passDone = s.passDone := rfl
@[simp] theorem complete_par (s : State) : (complete s).par = s.par := rfl
@[simp] theorem complete_mq (s : State) : (complete s).mq = s.mq := rfl
@[simp] theorem complete_cx (s : State) : (complete s).cx = s.cx := rfl
@[simp] theorem complete_lat (s : State) : (complete s).lat = s.lat := rfl
@[simp] theorem complete_bs (s : State) : (complete s).bs = s.bs := rfl
@[simp] theorem complete_coef (s : State) : (complete s).coef = s.coef := rfl
@[simp] theorem complete_flag (s : State) : (complete s).flag = s.flag := rfl
@[simp] theorem complete_samp (s : State) : (complete s).samp = s.samp := rfl
@[simp] theorem complete_cap (s : State) : (complete s).cap = s.cap := rfl
@[simp] theorem complete_pending (s : State) : (complete s).pending = s.pending := rfl
@[simp] theorem complete_hostData (s : State) : (complete s).hostData = s.hostData := rfl
@[simp] theorem complete_freeCount (s : State) : (complete s).freeCount = s.freeCount := rfl

@[simp] theorem takeError_status (b : Bool) (k : ErrKind) (info : Word) (s : State) : (takeError b k info s).status = s.status.raised b k := rfl
@[simp] theorem takeError_errinfo (b : Bool) (k : ErrKind) (info : Word) (s : State) : (takeError b k info s).errinfo = info := rfl
@[simp] theorem takeError_passDone (b : Bool) (k : ErrKind) (info : Word) (s : State) : (takeError b k info s).passDone = s.passDone := rfl
@[simp] theorem takeError_par (b : Bool) (k : ErrKind) (info : Word) (s : State) : (takeError b k info s).par = s.par := rfl
@[simp] theorem takeError_mq (b : Bool) (k : ErrKind) (info : Word) (s : State) : (takeError b k info s).mq = s.mq := rfl
@[simp] theorem takeError_cx (b : Bool) (k : ErrKind) (info : Word) (s : State) : (takeError b k info s).cx = s.cx := rfl
@[simp] theorem takeError_lat (b : Bool) (k : ErrKind) (info : Word) (s : State) : (takeError b k info s).lat = s.lat := rfl
@[simp] theorem takeError_bs (b : Bool) (k : ErrKind) (info : Word) (s : State) : (takeError b k info s).bs = s.bs := rfl
@[simp] theorem takeError_coef (b : Bool) (k : ErrKind) (info : Word) (s : State) : (takeError b k info s).coef = s.coef := rfl
@[simp] theorem takeError_flag (b : Bool) (k : ErrKind) (info : Word) (s : State) : (takeError b k info s).flag = s.flag := rfl
@[simp] theorem takeError_samp (b : Bool) (k : ErrKind) (info : Word) (s : State) : (takeError b k info s).samp = s.samp := rfl
@[simp] theorem takeError_cap (b : Bool) (k : ErrKind) (info : Word) (s : State) : (takeError b k info s).cap = s.cap := rfl
@[simp] theorem takeError_pending (b : Bool) (k : ErrKind) (info : Word) (s : State) : (takeError b k info s).pending = s.pending := rfl
@[simp] theorem takeError_hostData (b : Bool) (k : ErrKind) (info : Word) (s : State) : (takeError b k info s).hostData = s.hostData := rfl
@[simp] theorem takeError_freeCount (b : Bool) (k : ErrKind) (info : Word) (s : State) : (takeError b k info s).freeCount = s.freeCount := rfl

@[simp] theorem acknowledgeError_status (s : State) : (acknowledgeError s).status = s.status.acknowledged := rfl
@[simp] theorem acknowledgeError_errinfo (s : State) : (acknowledgeError s).errinfo = 0 := rfl
@[simp] theorem acknowledgeError_passDone (s : State) : (acknowledgeError s).passDone = s.passDone := rfl
@[simp] theorem acknowledgeError_par (s : State) : (acknowledgeError s).par = s.par := rfl
@[simp] theorem acknowledgeError_mq (s : State) : (acknowledgeError s).mq = s.mq := rfl
@[simp] theorem acknowledgeError_cx (s : State) : (acknowledgeError s).cx = s.cx := rfl
@[simp] theorem acknowledgeError_lat (s : State) : (acknowledgeError s).lat = s.lat := rfl
@[simp] theorem acknowledgeError_bs (s : State) : (acknowledgeError s).bs = s.bs := rfl
@[simp] theorem acknowledgeError_coef (s : State) : (acknowledgeError s).coef = s.coef := rfl
@[simp] theorem acknowledgeError_flag (s : State) : (acknowledgeError s).flag = s.flag := rfl
@[simp] theorem acknowledgeError_samp (s : State) : (acknowledgeError s).samp = s.samp := rfl
@[simp] theorem acknowledgeError_cap (s : State) : (acknowledgeError s).cap = s.cap := rfl
@[simp] theorem acknowledgeError_pending (s : State) : (acknowledgeError s).pending = s.pending := rfl
@[simp] theorem acknowledgeError_hostData (s : State) : (acknowledgeError s).hostData = s.hostData := rfl
@[simp] theorem acknowledgeError_freeCount (s : State) : (acknowledgeError s).freeCount = s.freeCount := rfl

@[simp] theorem applyDecision_status (c : Fin 19) (x : Decision) (s : State) : (applyDecision c x s).status = s.status := rfl
@[simp] theorem applyDecision_errinfo (c : Fin 19) (x : Decision) (s : State) : (applyDecision c x s).errinfo = s.errinfo := rfl
@[simp] theorem applyDecision_passDone (c : Fin 19) (x : Decision) (s : State) : (applyDecision c x s).passDone = s.passDone := rfl
@[simp] theorem applyDecision_par (c : Fin 19) (x : Decision) (s : State) : (applyDecision c x s).par = s.par := rfl
@[simp] theorem applyDecision_mq (c : Fin 19) (x : Decision) (s : State) : (applyDecision c x s).mq = { s.mq with a := x.a, c := x.c } := rfl
@[simp] theorem applyDecision_cx (c : Fin 19) (x : Decision) (s : State) : (applyDecision c x s).cx = s.cx.set c.val x.entry c.isLt := rfl
@[simp] theorem applyDecision_lat (c : Fin 19) (x : Decision) (s : State) : (applyDecision c x s).lat = s.lat := rfl
@[simp] theorem applyDecision_bs (c : Fin 19) (x : Decision) (s : State) : (applyDecision c x s).bs = s.bs := rfl
@[simp] theorem applyDecision_coef (c : Fin 19) (x : Decision) (s : State) : (applyDecision c x s).coef = s.coef := rfl
@[simp] theorem applyDecision_flag (c : Fin 19) (x : Decision) (s : State) : (applyDecision c x s).flag = s.flag := rfl
@[simp] theorem applyDecision_samp (c : Fin 19) (x : Decision) (s : State) : (applyDecision c x s).samp = s.samp := rfl
@[simp] theorem applyDecision_cap (c : Fin 19) (x : Decision) (s : State) : (applyDecision c x s).cap = s.cap := rfl
@[simp] theorem applyDecision_pending (c : Fin 19) (x : Decision) (s : State) : (applyDecision c x s).pending = s.pending := rfl
@[simp] theorem applyDecision_hostData (c : Fin 19) (x : Decision) (s : State) : (applyDecision c x s).hostData = s.hostData := rfl
@[simp] theorem applyDecision_freeCount (c : Fin 19) (x : Decision) (s : State) : (applyDecision c x s).freeCount = s.freeCount := rfl

@[simp] theorem storeDecision_status (d : Bool) (s : State) : (storeDecision d s).status = s.status := rfl
@[simp] theorem storeDecision_errinfo (d : Bool) (s : State) : (storeDecision d s).errinfo = s.errinfo := rfl
@[simp] theorem storeDecision_passDone (d : Bool) (s : State) : (storeDecision d s).passDone = s.passDone := rfl
@[simp] theorem storeDecision_par (d : Bool) (s : State) : (storeDecision d s).par = s.par := rfl
@[simp] theorem storeDecision_mq (d : Bool) (s : State) : (storeDecision d s).mq = { s.mq with d := d } := rfl
@[simp] theorem storeDecision_cx (d : Bool) (s : State) : (storeDecision d s).cx = s.cx := rfl
@[simp] theorem storeDecision_lat (d : Bool) (s : State) : (storeDecision d s).lat = s.lat := rfl
@[simp] theorem storeDecision_bs (d : Bool) (s : State) : (storeDecision d s).bs = s.bs := rfl
@[simp] theorem storeDecision_coef (d : Bool) (s : State) : (storeDecision d s).coef = s.coef := rfl
@[simp] theorem storeDecision_flag (d : Bool) (s : State) : (storeDecision d s).flag = s.flag := rfl
@[simp] theorem storeDecision_samp (d : Bool) (s : State) : (storeDecision d s).samp = s.samp := rfl
@[simp] theorem storeDecision_cap (d : Bool) (s : State) : (storeDecision d s).cap = s.cap := rfl
@[simp] theorem storeDecision_pending (d : Bool) (s : State) : (storeDecision d s).pending = s.pending := rfl
@[simp] theorem storeDecision_hostData (d : Bool) (s : State) : (storeDecision d s).hostData = s.hostData := rfl
@[simp] theorem storeDecision_freeCount (d : Bool) (s : State) : (storeDecision d s).freeCount = s.freeCount := rfl

@[simp] theorem countPass_status (s : State) : (countPass s).status = s.status := rfl
@[simp] theorem countPass_errinfo (s : State) : (countPass s).errinfo = s.errinfo := rfl
@[simp] theorem countPass_passDone (s : State) : (countPass s).passDone = s.passDone + 1 := rfl
@[simp] theorem countPass_par (s : State) : (countPass s).par = s.par := rfl
@[simp] theorem countPass_mq (s : State) : (countPass s).mq = s.mq := rfl
@[simp] theorem countPass_cx (s : State) : (countPass s).cx = s.cx := rfl
@[simp] theorem countPass_lat (s : State) : (countPass s).lat = s.lat := rfl
@[simp] theorem countPass_bs (s : State) : (countPass s).bs = s.bs := rfl
@[simp] theorem countPass_coef (s : State) : (countPass s).coef = s.coef := rfl
@[simp] theorem countPass_flag (s : State) : (countPass s).flag = s.flag := rfl
@[simp] theorem countPass_samp (s : State) : (countPass s).samp = s.samp := rfl
@[simp] theorem countPass_cap (s : State) : (countPass s).cap = s.cap := rfl
@[simp] theorem countPass_pending (s : State) : (countPass s).pending = s.pending := rfl
@[simp] theorem countPass_hostData (s : State) : (countPass s).hostData = s.hostData := rfl
@[simp] theorem countPass_freeCount (s : State) : (countPass s).freeCount = s.freeCount := rfl

end Sys2Proof.Machine
end

