-- ==== Sys2Proof/Laws/Memory.lean ====
section
/-! SUPPORT. The laws of the memories: a read after a write, and that every memory operation keeps the canonical form
and stays inside the space. -/

namespace Sys2Proof.Machine

variable {α : Type}

/-! ## Reads after writes -/

@[simp] theorem Memory.read_nil (i : Nat) : Memory.read ([] : Memory α) i = none := rfl

theorem Memory.read_cons (j : Nat) (v : α) (r : Memory α) (i : Nat) :
    Memory.read ((j, v) :: r) i = if j = i then some v else Memory.read r i := rfl

theorem Memory.read_write_same (m : Memory α) (i : Nat) (v : α) : Memory.read (Memory.write m i v) i = some v := by
  induction m with
  | nil => simp [Memory.write, Memory.read]
  | cons p r ih =>
    obtain ⟨j, w⟩ := p
    simp only [Memory.write]
    split
    · simp [Memory.read]
    · split
      · simp [Memory.read]
      · rename_i _ h
        simp [Memory.read, ih, Ne.symm h]

theorem Memory.read_write_other (m : Memory α) (i k : Nat) (v : α) (h : k ≠ i) :
    Memory.read (Memory.write m i v) k = Memory.read m k := by
  induction m with
  | nil => simp [Memory.write, Memory.read, Ne.symm h]
  | cons p r ih =>
    obtain ⟨j, w⟩ := p
    simp only [Memory.write]
    split
    · simp [Memory.read, Ne.symm h]
    · split
      · rename_i _ hij
        subst hij
        simp [Memory.read, Ne.symm h]
      · simp [Memory.read, ih]

/-- A read after a write, at any index. -/
theorem Memory.read_write (m : Memory α) (i k : Nat) (v : α) :
    Memory.read (Memory.write m i v) k = if k = i then some v else Memory.read m k := by
  split
  · subst k; exact Memory.read_write_same m i v
  · exact Memory.read_write_other m i k v ‹_›

/-- A read after an erasure, at any index. -/
theorem Memory.read_erase (m : Memory α) (i k : Nat) :
    Memory.read (Memory.erase m i) k = if k = i then none else Memory.read m k := by
  induction m with
  | nil => simp [Memory.erase]
  | cons p r ih =>
    obtain ⟨j, w⟩ := p
    simp only [Memory.erase] at ih ⊢
    by_cases hj : j = i
    · subst hj
      by_cases hk : k = j
      · subst hk; simpa using ih
      · simp [hk, Memory.read_cons, Ne.symm hk] at ih ⊢; exact ih
    · by_cases hk : j = k
      · subst hk; simp [hj, Memory.read_cons]
      · simp [hj, hk, Memory.read_cons] at ih ⊢; exact ih

/-- Below every listed index nothing is read. -/
theorem Memory.read_none_of_lt (m : Memory α) (i : Nat) (h : ∀ p ∈ m, i < p.1) : Memory.read m i = none := by
  induction m with
  | nil => rfl
  | cons p r ih =>
    obtain ⟨j, w⟩ := p
    have hj : i < j := h (j, w) (by simp)
    simp [Memory.read, Nat.ne_of_gt hj, ih (fun q hq => h q (by simp [hq]))]

/-! ## What an operation lists -/

theorem Memory.mem_write {m : Memory α} {i : Nat} {v : α} {p : Nat × α} (h : p ∈ Memory.write m i v) :
    p = (i, v) ∨ p ∈ m := by
  induction m with
  | nil => simp [Memory.write] at h; simp [h]
  | cons q r ih =>
    obtain ⟨j, w⟩ := q
    simp only [Memory.write] at h
    split at h
    · simpa using h
    · split at h
      · rcases List.mem_cons.mp h with h | h
        · exact .inl h
        · exact .inr (by simp [h])
      · rcases List.mem_cons.mp h with h | h
        · exact .inr (by simp [h])
        · rcases ih h with h | h
          · exact .inl h
          · exact .inr (by simp [h])

theorem Memory.mem_erase {m : Memory α} {i : Nat} {p : Nat × α} (h : p ∈ Memory.erase m i) : p ∈ m :=
  (List.mem_filter.mp h).1

/-! ## The canonical form -/

theorem Memory.wf_nil : Memory.wf ([] : Memory α) := List.Pairwise.nil

theorem Memory.wf_write (m : Memory α) (i : Nat) (v : α) (hw : Memory.wf m) : Memory.wf (Memory.write m i v) := by
  induction m with
  | nil => simp [Memory.write]
  | cons q r ih =>
    obtain ⟨j, w⟩ := q
    obtain ⟨hlt, hr⟩ := List.pairwise_cons.mp hw
    simp only [Memory.write]
    split
    · rename_i hij
      refine List.pairwise_cons.mpr ⟨?_, hw⟩
      intro p hp
      rcases List.mem_cons.mp hp with rfl | hp
      · exact hij
      · exact Nat.lt_trans hij (hlt p hp)
    · split
      · rename_i hij
        subst hij
        exact List.pairwise_cons.mpr ⟨hlt, hr⟩
      · rename_i h1 h2
        refine List.pairwise_cons.mpr ⟨?_, ih hr⟩
        intro p hp
        rcases Memory.mem_write hp with rfl | hp
        · show j < i
          omega
        · exact hlt p hp

theorem Memory.wf_erase (m : Memory α) (i : Nat) (hw : Memory.wf m) : Memory.wf (Memory.erase m i) :=
  List.Pairwise.filter _ hw

theorem Memory.within_write (m : Memory α) (i n : Nat) (v : α) (h : Memory.within m n) (hi : i < n) :
    Memory.within (Memory.write m i v) n := by
  intro p hp
  rcases Memory.mem_write hp with rfl | hp
  · exact hi
  · exact h p hp

theorem Memory.within_erase (m : Memory α) (i n : Nat) (h : Memory.within m n) : Memory.within (Memory.erase m i) n :=
  fun p hp => h p (Memory.mem_erase hp)

/-! ## Elements of the state -/

theorem Memory.has_write (m : Memory α) (i k : Nat) (v : α) (h : Memory.has m k = true) :
    Memory.has (Memory.write m i v) k = true := by
  simp only [Memory.has, Memory.read_write] at *
  split <;> simp_all

/-- The flags of a coefficient after a write of FLAG, at any index. -/
theorem flagAt_writeFlag (s : State) (i k : Nat) (f : CoefFlags) :
    flagAt (writeFlag i f s) k = if k = i then f else flagAt s k := by
  simp only [flagAt, writeFlag_flag]
  split
  · rename_i h
    rw [Memory.read_erase]
    split <;> simp [h]
  · rw [Memory.read_write]
    split <;> simp

theorem wf_writeFlag (s : State) (i : Nat) (f : CoefFlags) (hw : Memory.wf s.flag) :
    Memory.wf (writeFlag i f s).flag := by
  rw [writeFlag_flag]
  split
  · exact Memory.wf_erase _ _ hw
  · exact Memory.wf_write _ _ _ hw

theorem flagShow_writeFlag (s : State) (i : Nat) (f : CoefFlags) (h : ∀ p ∈ s.flag, p.2 ≠ unlistedFlag) :
    ∀ p ∈ (writeFlag i f s).flag, p.2 ≠ unlistedFlag := by
  rw [writeFlag_flag]
  split
  · exact fun p hp => h p (Memory.mem_erase hp)
  · intro p hp
    rcases Memory.mem_write hp with rfl | hp
    · assumption
    · exact h p hp

/-- Two canonical memories that read alike are the same list. -/
theorem Memory.ext_of_wf {m n : Memory α} (hm : Memory.wf m) (hn : Memory.wf n)
    (h : ∀ i, Memory.read m i = Memory.read n i) : m = n := by
  induction m generalizing n with
  | nil =>
    cases n with
    | nil => rfl
    | cons q r => obtain ⟨j, w⟩ := q; simpa [Memory.read_cons] using h j
  | cons p r ih =>
    obtain ⟨i, v⟩ := p
    cases n with
    | nil => simpa [Memory.read_cons] using h i
    | cons q t =>
      obtain ⟨j, w⟩ := q
      obtain ⟨hi, hr⟩ := List.pairwise_cons.mp hm
      obtain ⟨hj, ht⟩ := List.pairwise_cons.mp hn
      have hij : i = j := by
        rcases Nat.lt_trichotomy i j with hlt | heq | hgt
        · have h1 := h i
          rw [Memory.read_none_of_lt ((j, w) :: t) i (fun p hp => by
            rcases List.mem_cons.mp hp with rfl | hp
            · exact hlt
            · exact Nat.lt_trans hlt (hj p hp))] at h1
          simp [Memory.read_cons] at h1
        · exact heq
        · have h1 := h j
          rw [Memory.read_none_of_lt ((i, v) :: r) j (fun p hp => by
            rcases List.mem_cons.mp hp with rfl | hp
            · exact hgt
            · exact Nat.lt_trans hgt (hi p hp))] at h1
          simp [Memory.read_cons] at h1
      subst hij
      have hvw : v = w := by simpa [Memory.read_cons] using h i
      subst hvw
      rw [ih hr ht]
      intro k
      have hk := h k
      by_cases hik : i = k
      · subst hik
        rw [Memory.read_none_of_lt r i hi, Memory.read_none_of_lt t i hj]
      · simpa [Memory.read_cons, hik] using hk

end Sys2Proof.Machine
end

