-- ==== Sys2Proof/Laws/Engine.lean ====
section
/-! SUPPORT. How the engine's computations run: the laws of their parts, what they keep, when they complete, and what a
command makes of them. -/

namespace Sys2Proof.Machine

variable {α β : Type}

/-! ## Running the parts -/

theorem eng_bind (m : Eng α) (f : α → Eng β) (s : State) :
    (m >>= f) s = match m s with
      | .ok a t => f a t
      | .error e t => .error e t := by
  show EStateM.bind m f s = _
  rw [EStateM.bind]
  cases m s <;> rfl

@[simp] theorem eng_pure (a : α) (s : State) : (pure a : Eng α) s = .ok a s := rfl
@[simp] theorem eng_get (s : State) : (get : Eng State) s = .ok s s := rfl
@[simp] theorem eng_set (t s : State) : (set t : Eng PUnit) s = .ok ⟨⟩ t := rfl
@[simp] theorem eng_modify (f : State → State) (s : State) : (modify f : Eng PUnit) s = .ok ⟨⟩ (f s) := rfl
@[simp] theorem eng_raise (k : ErrKind) (info : Word) (s : State) :
    (raise k info : Eng α) s = .error (.raise k info) s := rfl
@[simp] theorem eng_stopModel (f : Fault) (s : State) : (stopModel f : Eng α) s = .error (.fault f) s := rfl

theorem eng_bind_ok {m : Eng α} {f : α → Eng β} {s t : State} {a : α} (h : m s = .ok a t) : (m >>= f) s = f a t := by
  rw [eng_bind, h]

theorem eng_bind_error {m : Eng α} {f : α → Eng β} {s t : State} {e : Stop} (h : m s = .error e t) :
    (m >>= f) s = .error e t := by
  rw [eng_bind, h]

/-- A sequence completes exactly when both parts do. -/
theorem eng_bind_eq_ok {m : Eng α} {f : α → Eng β} {s u : State} {b : β} :
    (m >>= f) s = .ok b u ↔ ∃ a t, m s = .ok a t ∧ f a t = .ok b u := by
  rw [eng_bind]
  cases m s with
  | ok a t => simp
  | error e t => simp

/-- A sequence stops when its first part does, or when that completes and the second stops. -/
theorem eng_bind_eq_error {m : Eng α} {f : α → Eng β} {s u : State} {e : Stop} :
    (m >>= f) s = .error e u ↔ m s = .error e u ∨ ∃ a t, m s = .ok a t ∧ f a t = .error e u := by
  rw [eng_bind]
  cases m s with
  | ok a t => simp
  | error e t => simp

@[simp] theorem onlyIf_true (m : Eng Unit) : onlyIf true m = m := rfl
@[simp] theorem onlyIf_false (m : Eng Unit) : onlyIf false m = (pure () : Eng Unit) := rfl

@[simp] theorem forEach_nil (body : α → Eng Unit) (s : State) : forEach [] body s = .ok () s := rfl

theorem forEach_cons (x : α) (r : List α) (body : α → Eng Unit) :
    forEach (x :: r) body = (do body x; forEach r body) := rfl

theorem forEach_append (l r : List α) (body : α → Eng Unit) (s : State) :
    forEach (l ++ r) body s = (do forEach l body; forEach r body : Eng Unit) s := by
  induction l generalizing s with
  | nil => rfl
  | cons x l ih =>
    show forEach (x :: (l ++ r)) body s = _
    simp only [forEach_cons, eng_bind]
    cases h : body x s with
    | ok a t => simpa [eng_bind] using ih t
    | error e t => rfl

/-! ## What a computation keeps -/

/-- The state a computation ends in, whether it completes or stops. -/
def endState : EStateM.Result Stop State α → State
  | .ok _ t => t
  | .error _ t => t

@[simp] theorem endState_ok (a : α) (t : State) : endState (.ok a t : EStateM.Result Stop State α) = t := rfl
@[simp] theorem endState_error (e : Stop) (t : State) :
    endState (.error e t : EStateM.Result Stop State α) = t := rfl

/-- `P`, true at the start, is true where the computation ends, completed or stopped. -/
def Keeps (P : State → Prop) (m : Eng α) : Prop := ∀ s, P s → P (endState (m s))

theorem keeps_pure (P : State → Prop) (a : α) : Keeps P (pure a : Eng α) := fun _ h => h
theorem keeps_get (P : State → Prop) : Keeps P (get : Eng State) := fun _ h => h
theorem keeps_raise (P : State → Prop) (k : ErrKind) (i : Word) : Keeps P (raise k i : Eng α) := fun _ h => h
theorem keeps_stop (P : State → Prop) (f : Fault) : Keeps P (stopModel f : Eng α) := fun _ h => h

theorem keeps_modify {P : State → Prop} {f : State → State} (h : ∀ s, P s → P (f s)) :
    Keeps P (modify f : Eng PUnit) := fun s hs => h s hs

theorem keeps_bind {P : State → Prop} {m : Eng α} {f : α → Eng β} (hm : Keeps P m) (hf : ∀ a, Keeps P (f a)) :
    Keeps P (m >>= f) := by
  intro s hs
  have h := hm s hs
  rw [eng_bind]
  cases hms : m s with
  | ok a t => exact hf a t (by simpa [hms] using h)
  | error e t => simpa [hms] using h

/-- As `keeps_bind`, where what follows a read of the state may use that it is the state. -/
theorem keeps_get_bind {P : State → Prop} {f : State → Eng β} (hf : ∀ s, P s → P (endState (f s s))) :
    Keeps P ((get : Eng State) >>= f) := fun s hs => by
  rw [eng_bind]
  exact hf s hs

theorem keeps_ite {P : State → Prop} {c : Prop} [Decidable c] {m n : Eng α} (hm : Keeps P m) (hn : Keeps P n) :
    Keeps P (if c then m else n) := by
  split <;> assumption

theorem keeps_onlyIf {P : State → Prop} {c : Bool} {m : Eng Unit} (hm : Keeps P m) : Keeps P (onlyIf c m) := by
  rw [onlyIf]
  exact keeps_ite hm (keeps_pure P ())

theorem keeps_set {P : State → Prop} {t : State} (h : P t) : Keeps P (set t : Eng PUnit) := fun _ _ => h

theorem keeps_forEach {P : State → Prop} {l : List α} {body : α → Eng Unit} (h : ∀ x ∈ l, Keeps P (body x)) :
    Keeps P (forEach l body) := by
  induction l with
  | nil => exact keeps_pure P ()
  | cons x r ih =>
    exact keeps_bind (h x (by simp)) (fun _ => ih (fun y hy => h y (by simp [hy])))

/-! ## Computations that ignore `STATUS` -/

/-- Change the state a computation ends in. -/
def onEnd (g : State → State) : EStateM.Result Stop State α → EStateM.Result Stop State α
  | .ok a t => .ok a (g t)
  | .error e t => .error e (g t)

@[simp] theorem onEnd_ok (g : State → State) (a : α) (t : State) :
    onEnd g (.ok a t : EStateM.Result Stop State α) = .ok a (g t) := rfl
@[simp] theorem onEnd_error (g : State → State) (e : Stop) (t : State) :
    onEnd g (.error e t : EStateM.Result Stop State α) = .error e (g t) := rfl

/-- The computation neither reads nor writes `STATUS`: with other flags it runs the same, and keeps them. -/
def IgnoresStatus (m : Eng α) : Prop := ∀ f s, m (setStatus f s) = onEnd (setStatus f) (m s)

theorem ignores_pure (a : α) : IgnoresStatus (pure a : Eng α) := fun _ _ => rfl

theorem ignores_modify {g : State → State} (h : ∀ f s, g (setStatus f s) = setStatus f (g s)) :
    IgnoresStatus (modify g : Eng PUnit) := fun f s => by
  rw [eng_modify, eng_modify, h, onEnd_ok]

theorem ignores_bind {m : Eng α} {k : α → Eng β} (hm : IgnoresStatus m) (hk : ∀ a, IgnoresStatus (k a)) :
    IgnoresStatus (m >>= k) := by
  intro f s
  rw [eng_bind, eng_bind, hm f s]
  cases m s with
  | ok a t => exact hk a f t
  | error e t => rfl

theorem ignores_onlyIf {c : Bool} {m : Eng Unit} (hm : IgnoresStatus m) : IgnoresStatus (onlyIf c m) := by
  cases c
  · exact ignores_pure ()
  · exact hm

theorem ignores_forEach {l : List α} {body : α → Eng Unit} (h : ∀ x ∈ l, IgnoresStatus (body x)) :
    IgnoresStatus (forEach l body) := by
  induction l with
  | nil => exact ignores_pure ()
  | cons x r ih => exact ignores_bind (h x (by simp)) (fun _ => ih (fun y hy => h y (by simp [hy])))

/-! ## When a computation completes -/

/-- From every state with `P` the computation completes, in a state with `Q`. -/
def Completes (P : State → Prop) (m : Eng α) (Q : α → State → Prop) : Prop :=
  ∀ s, P s → ∃ a t, m s = .ok a t ∧ Q a t

theorem completes_pure {P : State → Prop} (a : α) : Completes P (pure a : Eng α) (fun b t => b = a ∧ P t) :=
  fun s h => ⟨a, s, rfl, rfl, h⟩

theorem completes_bind {P : State → Prop} {m : Eng α} {f : α → Eng β} {Q : α → State → Prop} {R : β → State → Prop}
    (hm : Completes P m Q) (hf : ∀ a, Completes (Q a) (f a) R) : Completes P (m >>= f) R := by
  intro s hs
  obtain ⟨a, t, h1, h2⟩ := hm s hs
  obtain ⟨b, u, h3, h4⟩ := hf a t h2
  exact ⟨b, u, by rw [eng_bind_ok h1, h3], h4⟩

/-- A loop whose body completes and keeps `P` completes and keeps `P`. -/
theorem completes_forEach {P : State → Prop} {l : List α} {body : α → Eng Unit}
    (h : ∀ x ∈ l, Completes P (body x) (fun _ t => P t)) : Completes P (forEach l body) (fun _ t => P t) := by
  induction l with
  | nil => exact fun s hs => ⟨(), s, rfl, hs⟩
  | cons x r ih =>
    exact completes_bind (h x (by simp)) (fun _ => ih (fun y hy => h y (by simp [hy])))

/-! ## Commands -/

/-- What a command answers, by how its body ends. -/
theorem runCommand_ok {closes : Bool} {body : Eng Unit} {s t : State} (h : body s = .ok () t) :
    runCommand closes body s = .next (complete t) := by
  rw [runCommand, h]

theorem runCommand_raise {closes : Bool} {body : Eng Unit} {s t : State} {k : ErrKind} {i : Word}
    (h : body s = .error (.raise k i) t) : runCommand closes body s = .next (takeError closes k i t) := by
  rw [runCommand, h]

theorem runCommand_fault {closes : Bool} {body : Eng Unit} {s t : State} {f : Fault}
    (h : body s = .error (.fault f) t) : runCommand closes body s = .fault f := by
  rw [runCommand, h]

/-- A command that answers a next state completed there, or raised an error. -/
theorem runCommand_next {closes : Bool} {body : Eng Unit} {s u : State} (h : runCommand closes body s = .next u) :
    (∃ t, body s = .ok () t ∧ u = complete t) ∨
      ∃ k i t, body s = .error (.raise k i) t ∧ u = takeError closes k i t := by
  rw [runCommand] at h
  split at h
  · cases h; exact .inl ⟨_, ‹_›, rfl⟩
  · cases h; exact .inr ⟨_, _, _, ‹_›, rfl⟩
  · cases h

theorem runCommand_ne_refused (closes : Bool) (body : Eng Unit) (s : State) (r : Refusal) :
    runCommand closes body s ≠ .refused r := by
  rw [runCommand]
  split <;> simp

/-- What `takeError` and `complete` keep: everything but `STATUS` and `ERRINFO`. -/
theorem runCommand_keeps {closes : Bool} {body : Eng Unit} {s u : State} {P : State → Prop} (hb : Keeps P body)
    (hc : ∀ t, P t → P (complete t)) (he : ∀ k i t, P t → P (takeError closes k i t)) (hs : P s)
    (h : runCommand closes body s = .next u) : P u := by
  have hend := hb s hs
  rcases runCommand_next h with ⟨t, h1, rfl⟩ | ⟨k, i, t, h1, rfl⟩
  · exact hc t (by simpa [h1] using hend)
  · exact he k i t (by simpa [h1] using hend)

/-! ## Checks -/

theorem firstFailure_none {l : List Check} : firstFailure l = none ↔ ∀ c ∈ l, c.1 = true := by
  induction l with
  | nil => simp [firstFailure]
  | cons c r ih =>
    obtain ⟨ok, n⟩ := c
    cases ok <;> simp [firstFailure, ih]

theorem requireGeometry_ok {l : List Check} (h : firstFailure l = none) (s : State) :
    requireGeometry l s = .ok () s := by
  rw [requireGeometry, h]; rfl

theorem requireGeometry_fails {l : List Check} {n : ParamName} (h : firstFailure l = some n) (s : State) :
    requireGeometry l s = .error (.raise .geometry (BitVec.ofNat 32 n.offset)) s := by
  rw [requireGeometry, h]; rfl

theorem keeps_requireGeometry (P : State → Prop) (l : List Check) : Keeps P (requireGeometry l) := by
  rw [requireGeometry]
  split
  · exact keeps_pure P ()
  · exact keeps_raise P _ _

/-! ## Reads and writes of words -/

theorem readCoef_ok {s : State} {i : Nat} {v : Word} (h : Memory.read s.coef i = some v) : readCoef i s = .ok v s := by
  simp only [readCoef, eng_bind, eng_get, h, eng_pure]

theorem readSamp_ok {s : State} {i : Nat} {v : Word} (h : Memory.read s.samp i = some v) : readSamp i s = .ok v s := by
  simp only [readSamp, eng_bind, eng_get, h, eng_pure]

/-- A read of COEF changes nothing. -/
theorem readCoef_state (i : Nat) (s : State) : endState (readCoef i s) = s := by
  simp only [readCoef, eng_bind, eng_get]
  cases Memory.read s.coef i <;> rfl

/-- A read of SAMP changes nothing. -/
theorem readSamp_state (i : Nat) (s : State) : endState (readSamp i s) = s := by
  simp only [readSamp, eng_bind, eng_get]
  cases Memory.read s.samp i <;> rfl

theorem keeps_readCoef (P : State → Prop) (i : Nat) : Keeps P (readCoef i) := fun s h => by
  rw [readCoef_state]; exact h

theorem keeps_readSamp (P : State → Prop) (i : Nat) : Keeps P (readSamp i) := fun s h => by
  rw [readSamp_state]; exact h

theorem keeps_readSamps (P : State → Prop) (l : List Nat) : Keeps P (readSamps l) := by
  induction l with
  | nil => exact keeps_pure P _
  | cons i r ih =>
    exact keeps_bind (keeps_readSamp P i) (fun _ => keeps_bind ih (fun _ => keeps_pure P _))

/-- Reading written words answers them, in order, and changes nothing. -/
theorem readSamps_ok {s : State} {l : List Nat} (h : ∀ i ∈ l, Memory.has s.samp i = true) :
    readSamps l s = .ok (l.map (sampWord s)) s := by
  induction l with
  | nil => rfl
  | cons i r ih =>
    obtain ⟨v, hv⟩ := Option.isSome_iff_exists.mp (h i (by simp))
    have hr := ih (fun j hj => h j (by simp [hj]))
    have hw : sampWord s i = v := by simp [sampWord, hv]
    show (readSamp i >>= fun v => readSamps r >>= fun vs => pure (v :: vs)) s = _
    rw [eng_bind_ok (readSamp_ok hv), eng_bind_ok hr, List.map_cons, hw]
    rfl

/-- Writing words changes SAMP alone. -/
theorem writeSamps_eq (l : List (Nat × Word)) (s : State) :
    writeSamps l s = { s with samp := l.foldl (fun m p => Memory.write m p.1 p.2) s.samp } := by
  induction l generalizing s with
  | nil => rfl
  | cons p r ih => exact ih (writeSamp p.1 p.2 s)

/-- What SAMP holds where nothing is written. -/
theorem writeSamps_read_other (l : List (Nat × Word)) (s : State) (i : Nat) (h : ∀ p ∈ l, p.1 ≠ i) :
    Memory.read (writeSamps l s).samp i = Memory.read s.samp i := by
  induction l generalizing s with
  | nil => rfl
  | cons p r ih =>
    show Memory.read (writeSamps r (writeSamp p.1 p.2 s)).samp i = _
    rw [ih _ (fun q hq => h q (by simp [hq])), writeSamp_samp,
      Memory.read_write_other _ _ _ _ (Ne.symm (h p (by simp)))]

/-- What SAMP holds where one word is written. -/
theorem writeSamps_read (l : List (Nat × Word)) (s : State) (i : Nat) (v : Word) (hn : (l.map Prod.fst).Nodup)
    (h : (i, v) ∈ l) : Memory.read (writeSamps l s).samp i = some v := by
  induction l generalizing s with
  | nil => simp at h
  | cons p r ih =>
    rw [List.map_cons, List.nodup_cons] at hn
    show Memory.read (writeSamps r (writeSamp p.1 p.2 s)).samp i = _
    rcases List.mem_cons.mp h with rfl | h
    · rw [writeSamps_read_other _ _ _ (fun q hq he => hn.1 (by rw [← he]; exact List.mem_map.mpr ⟨q, hq, rfl⟩)), writeSamp_samp,
        Memory.read_write_same]
    · exact ih _ hn.2 h

end Sys2Proof.Machine
end

