-- ==== Sys2Proof/Laws/Deq.lean ====
section
/-! SUPPORT. Commands that write SAMP alone: the dequantizer's placement, one line of a transform, and what a whole
dequantizer or transform command keeps. -/

namespace Sys2Proof.Machine

variable {α : Type}

/-! ## Writing SAMP alone -/

/-- Nothing but SAMP differs. -/
def SampOnly (s t : State) : Prop := t = { s with samp := t.samp }

theorem SampOnly.refl (s : State) : SampOnly s s := rfl

theorem SampOnly.trans {s t u : State} (h : SampOnly s t) (k : SampOnly t u) : SampOnly s u := by
  rw [SampOnly] at *
  rw [k, h]

theorem SampOnly.writeSamp (i : Nat) (v : Word) (s : State) : SampOnly s (writeSamp i v s) := rfl

theorem SampOnly.writeSamps (l : List (Nat × Word)) (s : State) : SampOnly s (writeSamps l s) := by
  rw [writeSamps_eq]; rfl

theorem SampOnly.par {s t : State} (h : SampOnly s t) : t.par = s.par := by rw [h]
theorem SampOnly.coef {s t : State} (h : SampOnly s t) : t.coef = s.coef := by rw [h]
theorem SampOnly.free {s t : State} (h : SampOnly s t) : t.freeCount = s.freeCount := by rw [h]

theorem SampOnly.kept {s t : State} (h : SampOnly s t) : SampleSideKept s t := by
  rw [h]
  exact ⟨⟨rfl, rfl, rfl, rfl⟩, rfl, rfl, rfl, rfl, rfl, rfl, rfl⟩

/-! ## The dequantizer -/

theorem mem_rasterOrder {w h : Nat} {q : Nat × Nat} : q ∈ rasterOrder w h ↔ q.1 < h ∧ q.2 < w := by
  obtain ⟨j, i⟩ := q
  simp only [rasterOrder, List.mem_flatMap, List.mem_map, List.mem_range, Prod.mk.injEq]
  constructor
  · rintro ⟨j', hj, i', hi, rfl, rfl⟩; exact ⟨hj, hi⟩
  · rintro ⟨hj, hi⟩; exact ⟨j, hj, i, hi, rfl, rfl⟩

theorem deqOne_ok {p : ParamRegs} {f : Word → Word} {q : Nat × Nat} {s : State} {c : Word}
    (h : Memory.read s.coef (q.1 * p.cbW.toNat + q.2) = some c) :
    deqOne p f q s = .ok () (writeSamp (destIndex p q.1 q.2) (f c) s) := by
  show (readCoef (q.1 * p.cbW.toNat + q.2) >>= fun c => (modify (writeSamp (destIndex p q.1 q.2) (f c)) : Eng Unit)) s = _
  rw [eng_bind_ok (readCoef_ok h)]
  rfl

theorem keeps_deqOne (s0 : State) (p : ParamRegs) (f : Word → Word) (q : Nat × Nat) :
    Keeps (SampOnly s0) (deqOne p f q) :=
  keeps_bind (keeps_readCoef _ _) fun _ => keeps_modify fun _ hs => hs.trans (SampOnly.writeSamp _ _ _)

/-- Dequantizing a code-block writes SAMP alone, completed or stopped. -/
theorem keeps_deqBlock (s0 : State) (p : ParamRegs) (f : Word → Word) : Keeps (SampOnly s0) (deqBlock p f) :=
  keeps_forEach (fun q _ => keeps_deqOne s0 p f q)

/-- Dequantizing a written code-block completes. -/
theorem deqBlock_completes (p : ParamRegs) (f : Word → Word) {s : State}
    (h : ∀ j i, j < p.cbH.toNat → i < p.cbW.toNat → Memory.has s.coef (j * p.cbW.toNat + i) = true) :
    ∃ t, deqBlock p f s = .ok () t ∧ SampOnly s t := by
  have hc : Completes (SampOnly s) (deqBlock p f) (fun _ t => SampOnly s t) := by
    refine completes_forEach (fun q hq t ht => ?_)
    obtain ⟨hj, hi⟩ := mem_rasterOrder.mp hq
    obtain ⟨c, hcr⟩ := Option.isSome_iff_exists.mp (h q.1 q.2 hj hi)
    rw [← ht.coef] at hcr
    exact ⟨(), _, deqOne_ok hcr, ht.trans (SampOnly.writeSamp _ _ _)⟩
  obtain ⟨_, t, h1, h2⟩ := hc s (SampOnly.refl s)
  exact ⟨t, h1, h2⟩

/-- Two coefficients placed by the checks of the plane go to the same word only when they are the same. -/
theorem destIndex_inj {p : ParamRegs} (hp : firstFailure (placeChecks p) = none) {j i j' i' : Nat}
    (hi : i < p.cbW.toNat) (hi' : i' < p.cbW.toNat) (h : destIndex p j i = destIndex p j' i') : j = j' ∧ i = i' := by
  have hx := (firstFailure_none.mp hp) _ (List.mem_cons_self ..)
  simp only [decide_eq_true_eq] at hx
  have hw : 0 < planeW p := by omega
  have e : ∀ a b, p.qDx.toNat + b < planeW p → ((p.qDy.toNat + a) * planeW p + (p.qDx.toNat + b)) / planeW p = p.qDy.toNat + a := by
    intro a b hb
    rw [Nat.mul_comm, Nat.mul_add_div hw, Nat.div_eq_of_lt hb, Nat.add_zero]
  have h1 := e j i (by omega)
  have h2 := e j' i' (by omega)
  rw [destIndex, destIndex] at h
  rw [h, h2] at h1
  have hj : j = j' := by omega
  subst hj
  exact ⟨rfl, by omega⟩

/-- A coefficient placed by the checks of the plane lies inside the plane. -/
theorem destIndex_lt {p : ParamRegs} (hp : firstFailure (placeChecks p) = none) {j i : Nat} (hj : j < p.cbH.toNat)
    (hi : i < p.cbW.toNat) : destIndex p j i < planeW p * planeH p := by
  have hc := firstFailure_none.mp hp
  have hx := hc (decide (p.qDx.toNat + p.cbW.toNat ≤ planeW p), .qDx) (by simp [placeChecks])
  have hy := hc (decide (p.qDy.toNat + p.cbH.toNat ≤ planeH p), .qDy) (by simp [placeChecks])
  simp only [decide_eq_true_eq] at hx hy
  have hm : (p.qDy.toNat + j + 1) * planeW p ≤ planeH p * planeW p := Nat.mul_le_mul_right _ (by omega)
  rw [Nat.add_mul, Nat.one_mul, Nat.mul_comm (planeH p)] at hm
  rw [destIndex]
  omega

/-! ## The transform -/

/-- One line: read completely, synthesised, then written. -/
theorem synthLine_ok {sources targets : List Nat} {ker : List Word → List Word} {s : State}
    (h : ∀ i ∈ sources, Memory.has s.samp i = true) :
    synthLine sources targets ker s = .ok () (writeSamps (targets.zip (ker (sources.map (sampWord s)))) s) := by
  show (readSamps sources >>= fun ys => (modify (writeSamps (targets.zip (ker ys))) : Eng Unit)) s = _
  rw [eng_bind_ok (readSamps_ok h)]
  rfl

theorem keeps_synthLine (s0 : State) (sources targets : List Nat) (ker : List Word → List Word) :
    Keeps (SampOnly s0) (synthLine sources targets ker) :=
  keeps_bind (keeps_readSamps _ _) fun _ => keeps_modify fun _ hs => hs.trans (SampOnly.writeSamps _ _)

/-- One level of synthesis writes SAMP alone, completed or stopped. -/
theorem keeps_sr2d (s0 : State) (g : Region) (ker : Kernel) : Keeps (SampOnly s0) (sr2d g ker) := by
  rw [sr2d]
  refine keeps_ite (keeps_pure _ _) (keeps_bind ?_ fun _ => ?_) <;>
    exact keeps_forEach (fun _ _ => keeps_synthLine _ _ _ _)

/-- The one-dimensional kernels answer as many samples as they are given. -/
theorem sr1d53_length (i0 : Nat) (ys : List Word) : (sr1d53 i0 ys).length = ys.length := by
  unfold sr1d53
  split
  · split <;> rfl
  · rw [List.length_map, List.length_range]

theorem sr1d97_length (fp : FpOps) (t : FpTag) (i0 : Nat) (ys : List Word) :
    (sr1d97 fp t i0 ys).length = ys.length := by
  unfold sr1d97
  split
  · split <;> rfl
  · rw [List.length_map, List.length_range]

end Sys2Proof.Machine
end

