-- ==== Sys2Proof/Laws/Host.lean ====
section
/-! SUPPORT. What one step is, by the host's access: the issue of a command, and accesses to an idle block. -/

namespace Sys2Proof.Machine

/-! ## The register space -/

theorem regAt_param (n : ParamName) : regAt n.offset = some (.param n) := by
  cases n <;> rfl

theorem mqCxAt_some {off : Nat} {r : Reg} (h : mqCxAt off = some r) : ∃ c : Fin 19, r = .mqCx c ∧ off = 0x100 + 4 * c.val := by
  rw [mqCxAt] at h
  split at h
  · rename_i hc
    cases h
    exact ⟨_, rfl, by dsimp only; omega⟩
  · cases h

theorem mqCxAt_context (c : Fin 19) : mqCxAt (0x100 + 4 * c.val) = some (.mqCx c) := by
  have hc := c.isLt
  have h : 0x100 ≤ 0x100 + 4 * c.val ∧ (0x100 + 4 * c.val) % 4 = 0 ∧ (0x100 + 4 * c.val - 0x100) / 4 < 19 := by omega
  rw [mqCxAt, dif_pos h]
  congr 2
  exact Fin.ext (by dsimp only; omega)

theorem readParam_writeParam_same (p : ParamRegs) (n : ParamName) (v : Word) : readParam (writeParam p n v) n = v := by
  cases n <;> rfl

theorem readParam_writeParam_other (p : ParamRegs) {n m : ParamName} (v : Word) (h : m ≠ n) :
    readParam (writeParam p n v) m = readParam p m := by
  cases n <;> cases m <;> first | rfl | exact absurd rfl h

theorem accessedReg_narrow {off bits : Nat} (h : bits ≠ 32) : accessedReg off bits = none := if_neg h

theorem accessedReg_word (off : Nat) : accessedReg off 32 = regAt off := rfl

/-! ## Steps -/

theorem step_idle {s : State} (h : s.pending = []) : step s = .next s := by
  rw [step, hostStep, h]

theorem step_access {s : State} {op : HostOp} {rest : List HostOp} (h : s.pending = op :: rest) :
    step s = hostAccess op (setPending rest s) := by
  rw [step, hostStep, h]

theorem hostAccess_idle {s : State} (op : HostOp) (h : s.status.busy = false) : hostAccess op s = accessIdle op s := by
  rw [hostAccess, h]; rfl

/-- A write to `CMD` is the issue of a command, whether the block is busy or not. -/
theorem hostAccess_issue (w : Word) (s : State) : hostAccess (issueOp w) s = issue w s := by
  rw [hostAccess]
  split <;> rfl

theorem step_issue {s : State} {w : Word} {rest : List HostOp} (h : s.pending = issueOp w :: rest) :
    step s = issue w (setPending rest s) := by
  rw [step_access h, hostAccess_issue]

/-! ## The issue of a command -/

theorem issue_busy {w : Word} {s : State} (h : s.status.busy = true) : issue w s = .next s := by
  rw [issue, h]; rfl

theorem issue_dropped {w : Word} {s : State} (he : s.status.err = true) (hw : acceptedInError w = false) :
    issue w s = .next s := by
  rw [issue]
  split
  · rfl
  · rw [he, hw]; rfl

theorem issue_accepted {w : Word} {s : State} {i : Instr} (hb : s.status.busy = false)
    (he : s.status.err = true → acceptedInError w = true) (hd : decode w = .ok i) : issue w s = exec i (accept s) := by
  have h : (s.status.err && !acceptedInError w) = false := by
    cases hs : s.status.err
    · rfl
    · rw [he hs]; rfl
  rw [issue, hb, h, hd]
  rfl

theorem issue_illegal {w : Word} {s : State} {e : DecodeError} (hb : s.status.busy = false)
    (he : s.status.err = true → acceptedInError w = true) (hd : decode w = .error e) :
    issue w s = .next (illegalWord w (accept s)) := by
  have h : (s.status.err && !acceptedInError w) = false := by
    cases hs : s.status.err
    · rfl
    · rw [he hs]; rfl
  rw [issue, hb, h, hd]
  rfl

end Sys2Proof.Machine
end

