-- ==== Sys2Proof/Laws/Mq.lean ====
section
/-! SUPPORT. The arithmetic decoder's procedures: what BSRead, BYTEIN, RENORMD and DECODE can do, what they keep, and
that a fed decoder decodes. -/

namespace Sys2Proof.Machine

/-! ## The table -/

theorem qeRow_bounds : ∀ i : Fin 47, 1 ≤ (qeRow i).qe.toNat ∧ (qeRow i).qe.toNat ≤ 0x5601 := by decide +kernel

theorem qeRow_switch : ∀ i : Fin 47, (qeRow i).switch = true ↔ i = 0 ∨ i = 6 ∨ i = 14 := by decide +kernel

theorem qeRow_last : (qeRow 46).nmps = 46 ∧ (qeRow 46).nlps = 46 := by decide +kernel

/-! ## Bytes -/

theorem bsRead_ok {s : State} {i : Nat} {b : Byte} (hi : i < s.lat.len.toNat) (h : Memory.read s.bs i = some b) :
    bsRead i s = .ok b s := by
  simp only [bsRead, eng_bind, eng_get, hi, if_true, h, eng_pure]

theorem bsRead_past {s : State} {i : Nat} (hi : s.lat.len.toNat ≤ i) :
    bsRead i s = .error (.raise .corruptBitstream (BitVec.ofNat 32 i)) s := by
  simp only [bsRead, eng_bind, eng_get, Nat.not_lt.mpr hi, if_false, eng_raise]

theorem bsRead_unwritten {s : State} {i : Nat} (hi : i < s.lat.len.toNat) (h : Memory.read s.bs i = none) :
    bsRead i s = .error (.fault (.unwrittenBs i)) s := by
  simp only [bsRead, eng_bind, eng_get, hi, if_true, h, eng_stopModel]

/-- A read of the bitstream changes nothing. -/
theorem bsRead_state (i : Nat) (s : State) : endState (bsRead i s) = s := by
  by_cases hi : i < s.lat.len.toNat
  · cases h : Memory.read s.bs i with
    | some b => rw [bsRead_ok hi h]; rfl
    | none => rw [bsRead_unwritten hi h]; rfl
  · rw [bsRead_past (Nat.not_lt.mp hi)]; rfl

/-- A read of the bitstream that completes answers a written byte below `L`, and changes nothing. -/
theorem bsRead_eq_ok {s t : State} {i : Nat} {b : Byte} (h : bsRead i s = .ok b t) :
    t = s ∧ i < s.lat.len.toNat ∧ Memory.read s.bs i = some b := by
  by_cases hi : i < s.lat.len.toNat
  · cases hr : Memory.read s.bs i with
    | some c =>
      rw [bsRead_ok hi hr] at h
      cases h
      exact ⟨rfl, hi, rfl⟩
    | none => rw [bsRead_unwritten hi hr] at h; cases h
  · rw [bsRead_past (Nat.not_lt.mp hi)] at h; cases h

theorem keeps_bsRead (P : State → Prop) (i : Nat) : Keeps P (bsRead i) := fun s h => by
  rw [bsRead_state]; exact h

/-- `BYTEIN` with both bytes below `L` and written. -/
theorem byteIn_ok {s : State} {b b1 : Byte} (hi : s.mq.bp.toNat + 1 < s.lat.len.toNat)
    (h : Memory.read s.bs s.mq.bp.toNat = some b) (h1 : Memory.read s.bs (s.mq.bp.toNat + 1) = some b1) :
    byteIn s = .ok () (setMq (enterByte b b1 s.mq) s) := by
  show (get >>= fun s => bsRead s.mq.bp.toNat >>= fun b => bsRead (s.mq.bp.toNat + 1) >>= fun b1 =>
    (modify (setMq (enterByte b b1 s.mq)) : Eng Unit)) s = _
  rw [eng_bind_ok (eng_get s), eng_bind_ok (bsRead_ok (by omega) h), eng_bind_ok (bsRead_ok hi h1)]
  rfl

/-- `BYTEIN` that completes entered the byte after the current one, or met an end-of-stream mark. -/
theorem byteIn_eq_ok {s t : State} (h : byteIn s = .ok () t) :
    ∃ b b1, s.mq.bp.toNat + 1 < s.lat.len.toNat ∧ Memory.read s.bs s.mq.bp.toNat = some b ∧
      Memory.read s.bs (s.mq.bp.toNat + 1) = some b1 ∧ t = setMq (enterByte b b1 s.mq) s := by
  change (get >>= fun s => bsRead s.mq.bp.toNat >>= fun b => bsRead (s.mq.bp.toNat + 1) >>= fun b1 =>
    (modify (setMq (enterByte b b1 s.mq)) : Eng Unit)) s = _ at h
  rw [eng_bind_ok (eng_get s)] at h
  obtain ⟨b, t1, h1, h⟩ := eng_bind_eq_ok.mp h
  obtain ⟨rfl, _, hb⟩ := bsRead_eq_ok h1
  obtain ⟨b1, t2, h2, h⟩ := eng_bind_eq_ok.mp h
  obtain ⟨rfl, hi, hb1⟩ := bsRead_eq_ok h2
  exact ⟨b, b1, hi, hb, hb1, by cases h; rfl⟩

/-- A `BYTEIN` that stops changes nothing. -/
theorem byteIn_eq_error {s t : State} {e : Stop} (h : byteIn s = .error e t) : t = s := by
  change (get >>= fun s => bsRead s.mq.bp.toNat >>= fun b => bsRead (s.mq.bp.toNat + 1) >>= fun b1 =>
    (modify (setMq (enterByte b b1 s.mq)) : Eng Unit)) s = _ at h
  rw [eng_bind_ok (eng_get s)] at h
  rcases eng_bind_eq_error.mp h with h | ⟨b, t1, h1, h⟩
  · simpa [h] using bsRead_state s.mq.bp.toNat s
  · obtain ⟨rfl, _, _⟩ := bsRead_eq_ok h1
    rcases eng_bind_eq_error.mp h with h | ⟨b1, t2, h2, h⟩
    · simpa [h] using bsRead_state (t1.mq.bp.toNat + 1) t1
    · cases h

/-- The byte pointer after a byte is entered, and the counter. -/
theorem enterByte_ct (b b1 : Byte) (m : MqRegs) : (enterByte b b1 m).ct = 8 ∨ (enterByte b b1 m).ct = 7 := by
  unfold enterByte
  split
  · split <;> simp
  · simp

@[simp] theorem enterByte_a (b b1 : Byte) (m : MqRegs) : (enterByte b b1 m).a = m.a := by
  unfold enterByte
  split
  · split <;> rfl
  · rfl

@[simp] theorem enterByte_d (b b1 : Byte) (m : MqRegs) : (enterByte b b1 m).d = m.d := by
  unfold enterByte
  split
  · split <;> rfl
  · rfl

theorem enterByte_bp (b b1 : Byte) (m : MqRegs) :
    (enterByte b b1 m).bp = if b = 0xFF ∧ 0x8F < b1.toNat then m.bp else m.bp + 1 := by
  unfold enterByte
  split
  · split <;> simp_all
  · simp_all

/-- What the arithmetic decoder's procedures may write: the working registers and the contexts. -/
structure DecoderOnly (s t : State) : Prop where
  status   : t.status = s.status
  errinfo  : t.errinfo = s.errinfo
  passDone : t.passDone = s.passDone
  lat      : t.lat = s.lat
  coef     : t.coef = s.coef
  flag     : t.flag = s.flag
  kept     : DecoderSideKept s t

theorem DecoderOnly.refl (s : State) : DecoderOnly s s :=
  ⟨rfl, rfl, rfl, rfl, rfl, rfl, ⟨⟨rfl, rfl, rfl, rfl⟩, rfl, rfl, rfl⟩⟩

theorem DecoderOnly.trans {s t u : State} (h : DecoderOnly s t) (k : DecoderOnly t u) : DecoderOnly s u :=
  ⟨k.status.trans h.status, k.errinfo.trans h.errinfo, k.passDone.trans h.passDone, k.lat.trans h.lat,
    k.coef.trans h.coef, k.flag.trans h.flag,
    ⟨⟨k.kept.host.par.trans h.kept.host.par, k.kept.host.cap.trans h.kept.host.cap,
      k.kept.host.pending.trans h.kept.host.pending, k.kept.host.hostData.trans h.kept.host.hostData⟩,
      k.kept.bs.trans h.kept.bs, k.kept.samp.trans h.kept.samp, k.kept.free.trans h.kept.free⟩⟩

theorem DecoderOnly.setMq (m : MqRegs) (s : State) : DecoderOnly s (setMq m s) :=
  ⟨rfl, rfl, rfl, rfl, rfl, rfl, ⟨⟨rfl, rfl, rfl, rfl⟩, rfl, rfl, rfl⟩⟩

theorem DecoderOnly.writeCtx (c : Fin 19) (e : CtxEntry) (s : State) : DecoderOnly s (writeCtx c e s) :=
  ⟨rfl, rfl, rfl, rfl, rfl, rfl, ⟨⟨rfl, rfl, rfl, rfl⟩, rfl, rfl, rfl⟩⟩

theorem keeps_byteIn_only (s0 : State) : Keeps (DecoderOnly s0) byteIn := by
  intro s hs
  cases h : byteIn s with
  | ok a t =>
    obtain ⟨b, b1, _, _, _, rfl⟩ := byteIn_eq_ok h
    exact hs.trans (DecoderOnly.setMq _ _)
  | error e t => rw [byteIn_eq_error h]; exact hs

/-! ## Renormalisation -/

/-- One round of `RENORMD`, by whether a byte is needed. -/
theorem renormd_succ (n : Nat) (s : State) :
    renormd (n + 1) s = (do
      onlyIf (decide (s.mq.ct = 0)) byteIn
      let t ← get
      set (setMq (shiftOnce t.mq) t)
      onlyIf (!(shiftOnce t.mq).a.msb) (renormd n) : Eng Unit) s := rfl

theorem keeps_renormd_only (s0 : State) (n : Nat) : Keeps (DecoderOnly s0) (renormd n) := by
  induction n with
  | zero => exact keeps_stop _ _
  | succ n ih =>
    refine keeps_get_bind (fun s hs => ?_)
    refine keeps_bind (keeps_onlyIf (keeps_byteIn_only s0)) (fun _ => ?_) s hs
    refine keeps_get_bind (fun t ht => ?_)
    rw [eng_bind_ok (eng_set _ t)]
    have h2 : DecoderOnly s0 (setMq (shiftOnce t.mq) t) := ht.trans (DecoderOnly.setMq _ _)
    exact keeps_onlyIf ih _ h2

/-- `RENORMD` leaves the contexts and the stored decision. -/
theorem keeps_renormd_cx (x : CtxFile) (d : Bool) (n : Nat) :
    Keeps (fun t => t.cx = x ∧ t.mq.d = d) (renormd n) := by
  have hb : Keeps (fun t => t.cx = x ∧ t.mq.d = d) byteIn := by
    intro s hs
    cases h : byteIn s with
    | ok a t =>
      obtain ⟨b, b1, _, _, _, rfl⟩ := byteIn_eq_ok h
      simpa using hs
    | error e t => rw [byteIn_eq_error h]; exact hs
  induction n with
  | zero => exact keeps_stop _ _
  | succ n ih =>
    refine keeps_get_bind (fun s hs => ?_)
    refine keeps_bind (keeps_onlyIf hb) (fun _ => ?_) s hs
    refine keeps_get_bind (fun t ht => ?_)
    rw [eng_bind_ok (eng_set _ t)]
    have h2 : (setMq (shiftOnce t.mq) t).cx = x ∧ (setMq (shiftOnce t.mq) t).mq.d = d := by simpa [shiftOnce] using ht
    exact keeps_onlyIf ih _ h2

/-- `MarkAhead` holds after a byte is entered, and the byte can be. -/
theorem markAhead_byteIn {s : State} (h : MarkAhead s.bs s.lat.len.toNat s.mq.bp.toNat) :
    ∃ t, byteIn s = .ok () t ∧ MarkAhead t.bs t.lat.len.toNat t.mq.bp.toNat ∧ t.mq.a = s.mq.a ∧ t.mq.ct ≠ 0 := by
  obtain ⟨j, hj, hl, hff, ⟨b1, hb1, hgt⟩, hw⟩ := h
  by_cases hbp : s.mq.bp.toNat = j
  · have hlen : s.mq.bp.toNat + 1 < s.lat.len.toNat := by omega
    refine ⟨_, byteIn_ok hlen (by rw [hbp]; exact hff) (by rw [hbp]; exact hb1), ?_, ?_, ?_⟩
    · refine ⟨j, ?_, hl, hff, ⟨b1, hb1, hgt⟩, ?_⟩
      · simp [enterByte_bp, hgt]; omega
      · intro k hk hkj
        refine hw k ?_ hkj
        simp [enterByte_bp, hgt] at hk; omega
    · simp
    · simp only [setMq_mq]
      rcases enterByte_ct 0xFF b1 s.mq with h | h <;> rw [h] <;> decide
  · have hlt : s.mq.bp.toNat + 1 ≤ j := by omega
    obtain ⟨b, hb⟩ := Option.isSome_iff_exists.mp (hw s.mq.bp.toNat (by omega) (by omega))
    obtain ⟨c, hc⟩ := Option.isSome_iff_exists.mp (hw (s.mq.bp.toNat + 1) (by omega) (by omega))
    have hlen : s.mq.bp.toNat + 1 < s.lat.len.toNat := by omega
    have hsz : s.lat.len.toNat < 2 ^ 32 := s.lat.len.isLt
    have hadd : (s.mq.bp + 1).toNat = s.mq.bp.toNat + 1 := by
      rw [BitVec.toNat_add]; simp; omega
    refine ⟨_, byteIn_ok hlen hb hc, ⟨j, ?_, hl, hff, ⟨b1, hb1, hgt⟩, ?_⟩, ?_, ?_⟩
    · simp only [setMq_mq, enterByte_bp]
      split <;> omega
    · intro k hk hkj
      refine hw k ?_ hkj
      simp only [setMq_mq, enterByte_bp] at hk
      split at hk <;> omega
    · simp
    · simp only [setMq_mq]
      rcases enterByte_ct b c s.mq with h | h <;> simp [h]

/-- Doubling an interval below 0x8000. -/
theorem shl_one_toNat {a : BitVec 16} (h : a.toNat < 0x8000) : (a <<< 1).toNat = 2 * a.toNat := by
  rw [BitVec.toNat_shiftLeft, Nat.shiftLeft_eq]; omega

theorem msb_iff_le {a : BitVec 16} : a.msb = true ↔ 0x8000 ≤ a.toNat := by
  rw [BitVec.msb_eq_decide]; simp

/-- A renormalisation of a fed decoder completes within `n` shifts when `n` doublings set bit 15 (R130). -/
theorem renormd_completes (n : Nat) {s : State} (hf : MarkAhead s.bs s.lat.len.toNat s.mq.bp.toNat)
    (ha : s.mq.a.toNat < 0x8000) (hn : 0x8000 ≤ s.mq.a.toNat * 2 ^ n) :
    ∃ t, renormd n s = .ok () t ∧ MarkAhead t.bs t.lat.len.toNat t.mq.bp.toNat ∧ 0x8000 ≤ t.mq.a.toNat := by
  induction n generalizing s with
  | zero => omega
  | succ n ih =>
    rw [renormd_succ]
    obtain ⟨u, hu, hfu, hau⟩ : ∃ u, onlyIf (decide (s.mq.ct = 0)) byteIn s = .ok () u ∧
        MarkAhead u.bs u.lat.len.toNat u.mq.bp.toNat ∧ u.mq.a = s.mq.a := by
      cases decide (s.mq.ct = 0)
      · exact ⟨s, rfl, hf, rfl⟩
      · obtain ⟨u, h1, h2, h3, _⟩ := markAhead_byteIn hf
        exact ⟨u, h1, h2, h3⟩
    rw [eng_bind_ok hu, eng_bind_ok (eng_get u), eng_bind_ok (eng_set _ u)]
    have hsh : (shiftOnce u.mq).a.toNat = 2 * s.mq.a.toNat := by
      rw [← hau]; exact shl_one_toNat (by rw [hau]; exact ha)
    have hf2 : MarkAhead (setMq (shiftOnce u.mq) u).bs (setMq (shiftOnce u.mq) u).lat.len.toNat
        (setMq (shiftOnce u.mq) u).mq.bp.toNat := hfu
    cases hm : (shiftOnce u.mq).a.msb
    · refine ih hf2 ?_ ?_
      · exact Nat.not_le.mp (fun hle => by rw [msb_iff_le.mpr (show 0x8000 ≤ (shiftOnce u.mq).a.toNat from hle)] at hm; cases hm)
      · show 0x8000 ≤ (shiftOnce u.mq).a.toNat * 2 ^ n
        rw [hsh]
        rw [Nat.pow_succ] at hn
        calc 0x8000 ≤ s.mq.a.toNat * (2 ^ n * 2) := hn
          _ = 2 * s.mq.a.toNat * 2 ^ n := by ring
    · exact ⟨_, rfl, hf2, msb_iff_le.mp hm⟩

/-! ## Decisions -/

/-- The interval size after a decision and before its renormalisation (R130): at least 1, and below 0x8000 exactly when
a renormalisation follows. -/
theorem decisionOf_interval {a : BitVec 16} (c : BitVec 32) (e : CtxEntry) (ha : 0x8000 ≤ a.toNat) :
    1 ≤ (decisionOf a c e).a.toNat ∧ ((decisionOf a c e).renorm = true → (decisionOf a c e).a.toNat < 0x8000) ∧
      ((decisionOf a c e).renorm = false → 0x8000 ≤ (decisionOf a c e).a.toNat) := by
  obtain ⟨h1, h2⟩ := qeRow_bounds e.idx
  have hsub : (a - (qeRow e.idx).qe).toNat = a.toNat - (qeRow e.idx).qe.toNat := by
    rw [BitVec.toNat_sub_of_le]
    exact BitVec.le_def.mpr (by omega)
  have hlt := a.isLt
  unfold decisionOf lpsExchange mpsExchange
  simp only
  split
  · split
    · exact ⟨h1, fun _ => by simp only; omega, fun h => by simp at h⟩
    · exact ⟨h1, fun _ => by simp only; omega, fun h => by simp at h⟩
  · split
    · rename_i hm
      have := msb_iff_le.mp hm
      exact ⟨by simp only; omega, fun h => by simp at h, fun _ => this⟩
    · rename_i hm
      have : (a - (qeRow e.idx).qe).toNat < 0x8000 := Nat.not_le.mp (fun hle => hm (msb_iff_le.mpr hle))
      exact ⟨by simp only; omega, fun _ => this, fun h => by simp at h⟩

/-- `DECODE(cx)` in its three parts (R127). -/
theorem decodeBit_eq (cx : Fin 19) (s : State) :
    decodeBit cx s = (do
      set (applyDecision cx (decisionOf s.mq.a s.mq.c (ctxAt s cx)) s)
      onlyIf (decisionOf s.mq.a s.mq.c (ctxAt s cx)).renorm (renormd maxShifts)
      modify (storeDecision (decisionOf s.mq.a s.mq.c (ctxAt s cx)).d)
      pure (decisionOf s.mq.a s.mq.c (ctxAt s cx)).d : Eng Bool) s := rfl

theorem DecoderOnly.applyDecision (cx : Fin 19) (x : Decision) (s : State) : DecoderOnly s (applyDecision cx x s) :=
  (DecoderOnly.setMq _ _).trans (DecoderOnly.writeCtx _ _ _)

/-- A decision writes the working registers and the contexts, and nothing else. -/
theorem keeps_decodeBit_only (s0 : State) (cx : Fin 19) : Keeps (DecoderOnly s0) (decodeBit cx) := by
  refine keeps_get_bind (fun s hs => ?_)
  have h1 : DecoderOnly s0 (Machine.applyDecision cx (decisionOf s.mq.a s.mq.c (ctxAt s cx)) s) :=
    hs.trans (DecoderOnly.applyDecision _ _ _)
  refine keeps_bind (keeps_set h1) (fun _ => ?_) s hs
  refine keeps_bind (keeps_onlyIf (keeps_renormd_only s0 _)) (fun _ => ?_)
  exact keeps_bind (keeps_modify (fun t ht => ht.trans (DecoderOnly.setMq _ _))) (fun _ => keeps_pure _ _)

/-- A fed decoder makes a decision: `d` as R127 says, the context entry moved, the others kept, the interval
renormalised, and the decoder still fed. -/
theorem decodeBit_completes (cx : Fin 19) {s : State} (h : DecoderFed s) :
    ∃ t, decodeBit cx s = .ok (decisionOf s.mq.a s.mq.c (ctxAt s cx)).d t ∧ DecoderFed t ∧ DecoderOnly s t ∧
      t.cx = s.cx.set cx.val (decisionOf s.mq.a s.mq.c (ctxAt s cx)).entry cx.isLt ∧
      t.mq.d = (decisionOf s.mq.a s.mq.c (ctxAt s cx)).d := by
  set x := decisionOf s.mq.a s.mq.c (ctxAt s cx) with hx
  obtain ⟨hge, hre, hno⟩ := decisionOf_interval s.mq.c (ctxAt s cx) h.interval
  rw [← hx] at hge hre hno
  have hfed : MarkAhead (applyDecision cx x s).bs (applyDecision cx x s).lat.len.toNat
      (applyDecision cx x s).mq.bp.toNat := h.fed
  obtain ⟨u, hu, hfu, hau⟩ : ∃ u, onlyIf x.renorm (renormd maxShifts) (applyDecision cx x s) =
      .ok () u ∧ MarkAhead u.bs u.lat.len.toNat u.mq.bp.toNat ∧ 0x8000 ≤ u.mq.a.toNat := by
    cases hr : x.renorm
    · exact ⟨_, rfl, hfed, hno hr⟩
    · refine renormd_completes maxShifts hfed (hre hr) ?_
      show 0x8000 ≤ x.a.toNat * 2 ^ 15
      omega
  have hkeep : DecoderOnly s u ∧ u.cx = s.cx.set cx.val x.entry cx.isLt := by
    have h1 : DecoderOnly s (applyDecision cx x s) := DecoderOnly.applyDecision _ _ _
    have k1 := keeps_onlyIf (c := x.renorm) (keeps_renormd_only s maxShifts) (applyDecision cx x s) h1
    have k2 := keeps_onlyIf (c := x.renorm) (keeps_renormd_cx (s.cx.set cx.val x.entry cx.isLt) s.mq.d maxShifts)
      (applyDecision cx x s) ⟨rfl, rfl⟩
    rw [hu] at k1 k2
    exact ⟨k1, k2.1⟩
  refine ⟨storeDecision x.d u, ?_, ⟨?_, hau, hfu⟩, hkeep.1.trans (DecoderOnly.setMq _ _), hkeep.2, rfl⟩
  · rw [decodeBit_eq, ← hx, eng_bind_ok (eng_set _ s), eng_bind_ok hu]
    rfl
  · rw [storeDecision_status, hkeep.1.status]
    exact h.ready

/-! ## The decoder ignores `STATUS` -/

theorem ignores_bsRead (i : Nat) : IgnoresStatus (bsRead i) := by
  intro f s
  by_cases hi : i < s.lat.len.toNat
  · cases h : Memory.read s.bs i with
    | some b => rw [bsRead_ok hi h, bsRead_ok (s := setStatus f s) hi h, onEnd_ok]
    | none => rw [bsRead_unwritten hi h, bsRead_unwritten (s := setStatus f s) hi h, onEnd_error]
  · rw [bsRead_past (Nat.not_lt.mp hi), bsRead_past (s := setStatus f s) (Nat.not_lt.mp hi), onEnd_error]

theorem ignores_byteIn : IgnoresStatus byteIn := fun f s =>
  ignores_bind (ignores_bsRead s.mq.bp.toNat) (fun b => ignores_bind (ignores_bsRead (s.mq.bp.toNat + 1))
    (fun b1 => ignores_modify (g := setMq (enterByte b b1 s.mq)) (fun _ _ => rfl))) f s

theorem ignores_renormd (n : Nat) : IgnoresStatus (renormd n) := by
  induction n with
  | zero => exact fun _ _ => rfl
  | succ n ih =>
    intro f s
    rw [renormd_succ, renormd_succ]
    refine ignores_bind (ignores_onlyIf (c := decide (s.mq.ct = 0)) ignores_byteIn) (fun _ => ?_) f s
    intro f t
    exact ignores_onlyIf (c := !(shiftOnce t.mq).a.msb) ih f (setMq (shiftOnce t.mq) t)

/-- A decision neither reads nor writes `STATUS`. -/
theorem ignores_decodeBit (cx : Fin 19) : IgnoresStatus (decodeBit cx) := by
  intro f s
  rw [decodeBit_eq, decodeBit_eq]
  set x := decisionOf s.mq.a s.mq.c (ctxAt s cx)
  exact ignores_bind (ignores_onlyIf (c := x.renorm) (ignores_renormd maxShifts))
    (fun _ => ignores_bind (ignores_modify (g := storeDecision x.d) (fun _ _ => rfl)) (fun _ => ignores_pure x.d))
    f (applyDecision cx x s)

end Sys2Proof.Machine
end

