-- ==== Sys2Proof/Laws/T1.lean ====
section
/-! SUPPORT. The bit-plane decoder's procedures: indices, neighbours, signs, what a visit of a coefficient and a whole
pass may write, and that a sign decodes on a fed decoder. -/

namespace Sys2Proof.Machine

variable {α : Type}

/-! ## Indices -/

theorem coefIndex_lt {s : State} {y x : Nat} (hy : y < s.lat.lh.toNat) (hx : x < s.lat.lw.toNat) :
    coefIndex s y x < blockArea s := by
  have h : (y + 1) * s.lat.lw.toNat ≤ s.lat.lh.toNat * s.lat.lw.toNat := Nat.mul_le_mul_right _ hy
  rw [coefIndex, blockArea, Nat.mul_comm s.lat.lw.toNat]
  rw [Nat.add_mul, Nat.one_mul] at h
  omega

/-- Two points of a block have the same index only when they are the same point. -/
theorem coefIndex_inj {s : State} {y x y' x' : Nat} (hx : x < s.lat.lw.toNat) (hx' : x' < s.lat.lw.toNat)
    (h : coefIndex s y x = coefIndex s y' x') : y = y' ∧ x = x' := by
  have hw : 0 < s.lat.lw.toNat := by omega
  have e1 : (y * s.lat.lw.toNat + x) / s.lat.lw.toNat = y := by
    rw [Nat.mul_comm, Nat.mul_add_div hw, Nat.div_eq_of_lt hx, Nat.add_zero]
  have e2 : (y' * s.lat.lw.toNat + x') / s.lat.lw.toNat = y' := by
    rw [Nat.mul_comm, Nat.mul_add_div hw, Nat.div_eq_of_lt hx', Nat.add_zero]
  have hy : y = y' := by
    rw [← e1, ← e2]
    exact congrArg (· / s.lat.lw.toNat) h
  subst hy
  exact ⟨rfl, Nat.add_left_cancel h⟩

theorem inBlock_iff {s : State} {y x : Int} :
    inBlock s y x = true ↔ 0 ≤ y ∧ y < s.lat.lh.toNat ∧ 0 ≤ x ∧ x < s.lat.lw.toNat := by
  simp [inBlock, and_assoc]

/-! ## Neighbours and signs -/

theorem chi_eq (y x : Int) (s : State) :
    chi y x s = if sigAt s y x then
      (readCoef (coefIndex s y.toNat x.toNat) >>= fun c => (pure (if c.msb then -1 else 1) : Eng Int)) s
    else .ok 0 s := by
  show ((get : Eng State) >>= fun s => if sigAt s y x then
      (readCoef (coefIndex s y.toNat x.toNat) >>= fun c => (pure (if c.msb then -1 else 1) : Eng Int))
    else pure 0) s = _
  rw [eng_bind_ok (eng_get s)]
  cases sigAt s y x <;> rfl

/-- The sign of a point is read without changing the state. -/
theorem chi_state (y x : Int) (s : State) : endState (chi y x s) = s := by
  rw [chi_eq]
  split
  · have h := readCoef_state (coefIndex s y.toNat x.toNat) s
    rw [eng_bind]
    cases hr : readCoef (coefIndex s y.toNat x.toNat) s with
    | ok c t => rw [hr] at h; exact h
    | error e t => rw [hr] at h; exact h
  · rfl

/-- On a written grid the sign of every point can be read. -/
theorem chi_ok {s : State} (hg : ∀ i, i < blockArea s → Memory.has s.coef i = true) (y x : Int) :
    ∃ v, chi y x s = .ok v s := by
  rw [chi_eq]
  split
  · rename_i hs
    obtain ⟨h1, h2, h3, h4⟩ := inBlock_iff.mp (Bool.and_eq_true_iff.mp hs).1
    obtain ⟨c, hc⟩ := Option.isSome_iff_exists.mp
      (hg (coefIndex s y.toNat x.toNat) (coefIndex_lt (by omega) (by omega)))
    rw [eng_bind_ok (readCoef_ok hc)]
    exact ⟨_, rfl⟩
  · exact ⟨0, rfl⟩

theorem keeps_chi (P : State → Prop) (y x : Int) : Keeps P (chi y x) := fun s h => by
  rw [chi_state]; exact h

/-- Decoding a sign writes the working registers and the contexts, and nothing else. -/
theorem keeps_decodeSign_only (s0 : State) (y x : Nat) : Keeps (DecoderOnly s0) (decodeSign y x) :=
  keeps_bind (keeps_chi _ _ _) fun _ => keeps_bind (keeps_chi _ _ _) fun _ => keeps_bind (keeps_chi _ _ _) fun _ =>
    keeps_bind (keeps_chi _ _ _) fun _ => keeps_bind (keeps_decodeBit_only s0 _) fun _ => keeps_pure _ _

/-- A sign decodes on a fed decoder and a written grid; the context is one of 9 to 13. -/
theorem decodeSign_completes (y x : Nat) {s : State} (h : DecoderFed s)
    (hg : ∀ i, i < blockArea s → Memory.has s.coef i = true) :
    ∃ neg t, decodeSign y x s = .ok neg t ∧ DecoderFed t ∧ DecoderOnly s t ∧
      ∀ c : Fin 19, c < 9 ∨ 13 < c → ctxAt t c = ctxAt s c := by
  obtain ⟨l, hl⟩ := chi_ok hg y (x - 1)
  obtain ⟨r, hr⟩ := chi_ok hg y (x + 1)
  obtain ⟨u, hu⟩ := chi_ok hg (y - 1) x
  obtain ⟨d, hd⟩ := chi_ok hg (y + 1) x
  obtain ⟨t, h1, h2, h3, h4, _⟩ := decodeBit_completes (signTable (sgnOf (l + r)) (sgnOf (u + d))).1 h
  have hrange : ∀ a b : Sgn, 9 ≤ (signTable a b).1 ∧ (signTable a b).1 ≤ 13 := by
    intro a b; cases a <;> cases b <;> decide
  refine ⟨xor (decisionOf s.mq.a s.mq.c (ctxAt s (signTable (sgnOf (l + r)) (sgnOf (u + d))).1)).d
    (signTable (sgnOf (l + r)) (sgnOf (u + d))).2, t, ?_, h2, h3, ?_⟩
  · show (chi y (x - 1) >>= fun l => chi y (x + 1) >>= fun r => chi (y - 1) x >>= fun u => chi (y + 1) x >>= fun d =>
      decodeBit (signTable (sgnOf (l + r)) (sgnOf (u + d))).1 >>= fun bit =>
        (pure (xor bit (signTable (sgnOf (l + r)) (sgnOf (u + d))).2) : Eng Bool)) s = _
    rw [eng_bind_ok hl, eng_bind_ok hr, eng_bind_ok hu, eng_bind_ok hd, eng_bind_ok h1]
    rfl
  · intro c hc
    have hne : (signTable (sgnOf (l + r)) (sgnOf (u + d))).1 ≠ c := by
      intro he
      obtain ⟨h9, h13⟩ := hrange (sgnOf (l + r)) (sgnOf (u + d))
      rw [he] at h9 h13
      rcases hc with hc | hc
      · exact absurd hc (not_lt.mpr h9)
      · exact absurd hc (not_lt.mpr h13)
    rw [ctxAt, h4, ctxAt]
    exact Vector.getElem_set_ne _ _ (fun he => hne (Fin.ext he))

/-! ## What a pass may write -/

/-- What a visit of a coefficient keeps: `STATUS`, `ERRINFO`, `T1_PASSDONE`, the latches, the host's side, BS, SAMP, the
free values, and COEF and FLAG outside the block. -/
structure BlockOnly (s t : State) : Prop where
  status   : t.status = s.status
  errinfo  : t.errinfo = s.errinfo
  passDone : t.passDone = s.passDone
  lat      : t.lat = s.lat
  kept     : DecoderSideKept s t
  outside  : OutsideBlockKept s t

theorem BlockOnly.refl (s : State) : BlockOnly s s :=
  ⟨rfl, rfl, rfl, rfl, ⟨⟨rfl, rfl, rfl, rfl⟩, rfl, rfl, rfl⟩, fun _ _ => ⟨rfl, rfl⟩⟩

theorem BlockOnly.area {s t : State} (h : BlockOnly s t) : blockArea t = blockArea s := by
  rw [blockArea, blockArea, h.lat]

theorem BlockOnly.trans {s t u : State} (h : BlockOnly s t) (k : BlockOnly t u) : BlockOnly s u where
  status   := k.status.trans h.status
  errinfo  := k.errinfo.trans h.errinfo
  passDone := k.passDone.trans h.passDone
  lat      := k.lat.trans h.lat
  kept     := ⟨⟨k.kept.host.par.trans h.kept.host.par, k.kept.host.cap.trans h.kept.host.cap,
    k.kept.host.pending.trans h.kept.host.pending, k.kept.host.hostData.trans h.kept.host.hostData⟩,
    k.kept.bs.trans h.kept.bs, k.kept.samp.trans h.kept.samp, k.kept.free.trans h.kept.free⟩
  outside  := fun i hi => by
    have h1 := h.outside i hi
    have h2 := k.outside i (by rw [h.area]; exact hi)
    exact ⟨h2.1.trans h1.1, h2.2.trans h1.2⟩

theorem DecoderOnly.blockOnly {s t : State} (h : DecoderOnly s t) : BlockOnly s t where
  status   := h.status
  errinfo  := h.errinfo
  passDone := h.passDone
  lat      := h.lat
  kept     := h.kept
  outside  := fun i _ => ⟨by rw [h.coef], by rw [flagAt, flagAt, h.flag]⟩

theorem BlockOnly.writeCoef {s : State} {i : Nat} (hi : i < blockArea s) (v : Word) : BlockOnly s (writeCoef i v s) where
  status   := rfl
  errinfo  := rfl
  passDone := rfl
  lat      := rfl
  kept     := ⟨⟨rfl, rfl, rfl, rfl⟩, rfl, rfl, rfl⟩
  outside  := fun k hk => ⟨Memory.read_write_other _ _ _ _ (by omega), rfl⟩

theorem BlockOnly.writeFlag {s : State} {i : Nat} (hi : i < blockArea s) (f : CoefFlags) :
    BlockOnly s (writeFlag i f s) where
  status   := rfl
  errinfo  := rfl
  passDone := rfl
  lat      := rfl
  kept     := ⟨⟨rfl, rfl, rfl, rfl⟩, rfl, rfl, rfl⟩
  outside  := fun k hk => ⟨rfl, by rw [flagAt_writeFlag, if_neg (by omega)]⟩

/-- A computation writes inside the block only, from every state with this geometry. -/
def StaysInBlock (lat : Latches) (m : Eng α) : Prop :=
  ∀ s0 : State, s0.lat = lat → Keeps (BlockOnly s0) m

theorem staysInBlock_of_decoder {lat : Latches} {m : Eng α} (h : ∀ s0, Keeps (DecoderOnly s0) m) :
    StaysInBlock lat m := by
  intro s0 _ s hs
  exact hs.trans (h s s (DecoderOnly.refl s)).blockOnly

theorem staysInBlock_bind {β : Type} {lat : Latches} {m : Eng α} {f : α → Eng β} (hm : StaysInBlock lat m)
    (hf : ∀ a, StaysInBlock lat (f a)) : StaysInBlock lat (m >>= f) :=
  fun s0 h0 => keeps_bind (hm s0 h0) (fun a => hf a s0 h0)

theorem staysInBlock_modify {lat : Latches} {f : State → State} (h : ∀ s, s.lat = lat → BlockOnly s (f s)) :
    StaysInBlock lat (modify f : Eng PUnit) :=
  fun _ h0 s hs => hs.trans (h s (hs.lat.trans h0))

theorem staysInBlock_onlyIf {lat : Latches} {c : Bool} {m : Eng Unit} (h : StaysInBlock lat m) :
    StaysInBlock lat (onlyIf c m) := fun s0 h0 => keeps_onlyIf (h s0 h0)

theorem staysInBlock_pure (lat : Latches) (a : α) : StaysInBlock lat (pure a : Eng α) := fun _ _ => keeps_pure _ a

theorem staysInBlock_forEach {β : Type} {lat : Latches} {l : List β} {body : β → Eng Unit}
    (h : ∀ x ∈ l, StaysInBlock lat (body x)) : StaysInBlock lat (forEach l body) :=
  fun s0 h0 => keeps_forEach (fun x hx => h x hx s0 h0)

theorem staysInBlock_get_bind {β : Type} {lat : Latches} {f : State → Eng β}
    (h : ∀ s, s.lat = lat → StaysInBlock lat (f s)) : StaysInBlock lat ((get : Eng State) >>= f) := by
  intro s0 h0
  refine keeps_get_bind (fun s hs => ?_)
  exact h s (hs.lat.trans h0) s0 h0 s hs

theorem staysInBlock_decodeBit (lat : Latches) (c : Fin 19) : StaysInBlock lat (decodeBit c) :=
  staysInBlock_of_decoder (fun s0 => keeps_decodeBit_only s0 c)

/-- `BecomeSignificant` at a point of the block writes that coefficient alone. -/
theorem staysInBlock_becomeSignificant {lat : Latches} {y x : Nat} (b : Nat) (hy : y < lat.lh.toNat)
    (hx : x < lat.lw.toNat) : StaysInBlock lat (becomeSignificant y x b) := by
  refine staysInBlock_bind (staysInBlock_of_decoder (fun s0 => keeps_decodeSign_only s0 y x)) (fun neg => ?_)
  refine staysInBlock_modify (fun s hs => ?_)
  have hi : coefIndex s y x < blockArea s := coefIndex_lt (hs ▸ hy) (hs ▸ hx)
  exact (BlockOnly.writeCoef hi _).trans (BlockOnly.writeFlag (s := writeCoef _ _ s) hi _)

theorem staysInBlock_setVisited {lat : Latches} {y x : Nat} (hy : y < lat.lh.toNat) (hx : x < lat.lw.toNat) :
    StaysInBlock lat (modify (setVisited y x) : Eng PUnit) :=
  staysInBlock_modify (fun _ hs => BlockOnly.writeFlag (coefIndex_lt (hs ▸ hy) (hs ▸ hx)) _)

theorem staysInBlock_setRefined {lat : Latches} {y x : Nat} (hy : y < lat.lh.toNat) (hx : x < lat.lw.toNat) :
    StaysInBlock lat (modify (setRefined y x) : Eng PUnit) :=
  staysInBlock_modify (fun _ hs => BlockOnly.writeFlag (coefIndex_lt (hs ▸ hy) (hs ▸ hx)) _)

theorem staysInBlock_readCoef (lat : Latches) (i : Nat) : StaysInBlock lat (readCoef i) := fun _ _ => keeps_readCoef _ i

theorem staysInBlock_spVisit {lat : Latches} (b : Nat) {p : Nat × Nat} (hy : p.1 < lat.lh.toNat)
    (hx : p.2 < lat.lw.toNat) : StaysInBlock lat (spVisit b p) := by
  refine staysInBlock_get_bind (fun s _ => ?_)
  split
  · exact staysInBlock_bind (staysInBlock_decodeBit _ _) fun _ =>
      staysInBlock_bind (staysInBlock_onlyIf (staysInBlock_becomeSignificant b hy hx)) fun _ =>
        staysInBlock_setVisited hy hx
  · exact staysInBlock_pure _ _

theorem staysInBlock_mrVisit {lat : Latches} (b : Nat) {p : Nat × Nat} (hy : p.1 < lat.lh.toNat)
    (hx : p.2 < lat.lw.toNat) : StaysInBlock lat (mrVisit b p) := by
  refine staysInBlock_get_bind (fun s hs => ?_)
  have hi : ∀ t : State, t.lat = lat → coefIndex s p.1 p.2 < blockArea t := fun t ht => by
    have := coefIndex_lt (s := t) (y := p.1) (x := p.2) (ht ▸ hy) (ht ▸ hx)
    rwa [coefIndex, ht, ← hs] at this
  dsimp only
  split
  · exact staysInBlock_bind (staysInBlock_decodeBit _ _) fun _ =>
      staysInBlock_bind (staysInBlock_readCoef _ _) fun _ =>
        staysInBlock_bind (staysInBlock_modify fun t ht => BlockOnly.writeCoef (hi t ht) _) fun _ =>
          staysInBlock_setRefined hy hx
  · exact staysInBlock_pure _ _

theorem staysInBlock_cuVisit {lat : Latches} (b : Nat) {x y : Nat} (hy : y < lat.lh.toNat) (hx : x < lat.lw.toNat) :
    StaysInBlock lat (cuVisit b x y) := by
  refine staysInBlock_get_bind (fun s _ => ?_)
  dsimp only
  split
  · exact staysInBlock_bind (staysInBlock_decodeBit _ _) fun _ =>
      staysInBlock_onlyIf (staysInBlock_becomeSignificant b hy hx)
  · exact staysInBlock_pure _ _

theorem staysInBlock_runLength {lat : Latches} (b : Nat) {y0 x : Nat} (hy : y0 + 3 < lat.lh.toNat)
    (hx : x < lat.lw.toNat) : StaysInBlock lat (runLength b y0 x) := by
  refine staysInBlock_bind (staysInBlock_decodeBit _ _) fun hit => ?_
  split
  · refine staysInBlock_bind (staysInBlock_decodeBit _ _) fun r1 => staysInBlock_bind (staysInBlock_decodeBit _ _) fun r0 => ?_
    have hr : 2 * r1.toNat + r0.toNat ≤ 3 := by cases r1 <;> cases r0 <;> decide
    exact staysInBlock_bind (staysInBlock_becomeSignificant b (by omega) hx) fun _ => staysInBlock_pure _ _
  · exact staysInBlock_pure _ _

theorem mem_stripeRows {h y0 y : Nat} : y ∈ stripeRows h y0 ↔ y0 ≤ y ∧ y < y0 + 4 ∧ y < h := by
  simp only [stripeRows, List.mem_map, List.mem_range]
  constructor
  · rintro ⟨k, hk, rfl⟩; omega
  · intro hy; exact ⟨y - y0, by omega, by omega⟩

theorem mem_stripeColumns {w h : Nat} {p : Nat × Nat} (hp : p ∈ stripeColumns w h) : p.1 < h ∧ p.2 < w := by
  simp only [stripeColumns, List.mem_flatMap, List.mem_map, List.mem_range, stripeCount] at hp
  obtain ⟨k, hk, x, hx, rfl⟩ := hp
  exact ⟨by dsimp only; omega, hx⟩

theorem staysInBlock_cuColumn {lat : Latches} (b : Nat) {p : Nat × Nat} (hx : p.2 < lat.lw.toNat) :
    StaysInBlock lat (cuColumn b p) := by
  refine staysInBlock_get_bind (fun s hs => ?_)
  have hrow : ∀ y ∈ stripeRows s.lat.lh.toNat p.1, StaysInBlock lat (cuVisit b p.2 y) := fun y hy =>
    staysInBlock_cuVisit b (by rw [mem_stripeRows, hs] at hy; exact hy.2.2) hx
  dsimp only
  split
  · rename_i hrun
    have hlast : p.1 + 3 < lat.lh.toNat := by
      simp only [runColumn, Bool.and_eq_true, decide_eq_true_eq, hs] at hrun
      exact hrun.1.1.1.1
    refine staysInBlock_bind (staysInBlock_runLength b hlast hx) fun start => ?_
    split
    · exact staysInBlock_pure _ _
    · exact staysInBlock_forEach (fun y hy => hrow y (List.mem_of_mem_drop hy))
  · exact staysInBlock_forEach hrow

/-! ## Clearing the grid -/

/-- Clearing the grid completes, and clears exactly the first `n` elements of COEF and FLAG. -/
theorem clearGrid_ok (n : Nat) (s : State) :
    ∃ t, clearGrid n s = .ok () t ∧ t = { s with coef := t.coef, flag := t.flag } ∧
      (∀ i, i < n → Memory.read t.coef i = some 0 ∧ flagAt t i = ⟨false, false, false⟩) ∧
      ∀ i, n ≤ i → Memory.read t.coef i = Memory.read s.coef i ∧ flagAt t i = flagAt s i := by
  induction n with
  | zero => exact ⟨s, rfl, rfl, fun _ h => absurd h (Nat.not_lt_zero _), fun _ _ => ⟨rfl, rfl⟩⟩
  | succ n ih =>
    obtain ⟨t, h1, h2, h3, h4⟩ := ih
    refine ⟨writeFlag n ⟨false, false, false⟩ (writeCoef n 0 t), ?_, ?_, ?_, ?_⟩
    · rw [clearGrid, List.range_succ, forEach_append, eng_bind_ok (show forEach (List.range n) _ s = .ok () t from h1)]
      rfl
    · conv_lhs => rw [h2]
      rfl
    · intro i hi
      rw [flagAt_writeFlag, writeFlag_coef, writeCoef_coef, Memory.read_write]
      by_cases he : i = n
      · simp [he]
      · rw [if_neg he, if_neg he]
        exact h3 i (by omega)
    · intro i hi
      rw [flagAt_writeFlag, writeFlag_coef, writeCoef_coef, Memory.read_write, if_neg (by omega), if_neg (by omega)]
      exact h4 i (by omega)

end Sys2Proof.Machine
end

