-- ==== Sys2Proof/Laws/Pass.lean ====
section
/-! SUPPORT. The reference passes beside the engine: a decision by command is the engine's decision, and the printed
tables of spec/41_t1_passes.md are the engine's contexts. -/

namespace Sys2Proof.Machine

/-- `MQ.DECODE` on a legal label is one decision when the decoder is initialised (R129). -/
theorem exec_mqDecode_ready (c : Fin 19) {s : State} (h : s.status.mqrdy = true) :
    exec (.mqDecode (BitVec.ofNat 8 c.val)) s =
      match decodeBit c s with
      | .ok _ t => .next (complete t)
      | .error (.raise k info) t => .next (takeError true k info t)
      | .error (.fault f) _ => .fault f := by
  have hc : (BitVec.ofNat 8 c.val).toNat = c.val := by
    rw [BitVec.toNat_ofNat]
    have := c.isLt
    omega
  have hlt : (BitVec.ofNat 8 c.val).toNat < 19 := by rw [hc]; exact c.isLt
  have hfin : (⟨(BitVec.ofNat 8 c.val).toNat, hlt⟩ : Fin 19) = c := Fin.ext hc
  show execMqDecode _ s = _
  rw [execMqDecode, dif_pos hlt, hfin]
  have hb : mqDecodeBody (encode (.mqDecode (BitVec.ofNat 8 c.val))) c s =
      (decodeBit c >>= fun _ => (pure () : Eng Unit)) s := by
    rw [mqDecodeBody, eng_bind_ok (eng_get s), if_pos h]
  rw [runCommand, hb, eng_bind]
  cases decodeBit c s with
  | ok d t => rfl
  | error e t => cases e <;> rfl

/-- A decision by command, from a state whose last command completed, is the engine's decision. -/
theorem decideByCommand_eq (c : Fin 19) {s : State} (h : s.status.mqrdy = true) (hs : complete s = s) :
    decideByCommand c s =
      match decodeBit c s with
      | .ok d t => .ok (d, t)
      | .error (.raise k info) t => .error (.next (takeError true k info t))
      | .error (.fault f) _ => .error (.fault f) := by
  rw [decideByCommand, exec_mqDecode_ready c h]
  have hk := keeps_decodeBit_only s c s (DecoderOnly.refl s)
  cases hd : decodeBit c s with
  | ok d t =>
    rw [hd] at hk
    have hst : t.status = s.status := hk.status
    have hct : complete t = t := by
      have h1 : s.status.completed = s.status := congrArg State.status hs
      show setStatus t.status.completed t = t
      rw [hst, h1, ← hst]
      rfl
    have hdone : t.status.done = true := congrArg (fun u => u.status.done) hct.symm
    have hmq : t.mq.d = d := by
      rw [decodeBit_eq] at hd
      obtain ⟨_, u1, _, hd⟩ := eng_bind_eq_ok.mp hd
      obtain ⟨_, u2, _, hd⟩ := eng_bind_eq_ok.mp hd
      obtain ⟨_, u3, h3, hd⟩ := eng_bind_eq_ok.mp hd
      cases h3
      cases hd
      rfl
    simp only [hct, hdone, hmq, if_true]
  | error e t =>
    cases e with
    | raise k info => rfl
    | fault f => rfl

/-! ## Neighbours -/

theorem refSig_eq (s : State) (y x : Int) : refSig s y x = sigAt s y x := by
  rw [refSig, sigAt, coefIndex]
  congr 1
  rw [Bool.eq_iff_iff, inBlock_iff, decide_eq_true_iff]

theorem sigCount_nil (s : State) (y x : Nat) : sigCount s y x [] = 0 := rfl

theorem sigCount_cons (s : State) (y x : Nat) (o : Int × Int) (l : List (Int × Int)) :
    sigCount s y x (o :: l) = (sigAt s (y + o.1) (x + o.2)).toNat + sigCount s y x l := by
  rw [sigCount, sigCount, List.filter_cons, refSig_eq]
  cases sigAt s (y + o.1) (x + o.2)
  · simp
  · simp [Nat.add_comm]

theorem sigCount_horizontal (s : State) (y x : Nat) : sigCount s y x [(0, -1), (0, 1)] = countH s y x := by
  simp only [sigCount_cons, sigCount_nil, countH, Int.add_zero, Nat.add_zero, ← Int.sub_eq_add_neg]

theorem sigCount_vertical (s : State) (y x : Nat) : sigCount s y x [(-1, 0), (1, 0)] = countV s y x := by
  simp only [sigCount_cons, sigCount_nil, countV, Int.add_zero, Nat.add_zero, ← Int.sub_eq_add_neg]

theorem sigCount_diagonal (s : State) (y x : Nat) :
    sigCount s y x [(-1, -1), (-1, 1), (1, -1), (1, 1)] = countD s y x := by
  simp only [sigCount_cons, sigCount_nil, countD, Nat.add_zero, ← Int.sub_eq_add_neg, Nat.add_assoc]

theorem sigCount_all (s : State) (y x : Nat) :
    sigCount s y x [(0, -1), (0, 1), (-1, 0), (1, 0), (-1, -1), (-1, 1), (1, -1), (1, 1)] =
      countH s y x + countV s y x + countD s y x := by
  simp only [sigCount_cons, sigCount_nil, countH, countV, countD, Int.add_zero, Nat.add_zero, ← Int.sub_eq_add_neg,
    Nat.add_assoc]

theorem countH_le (s : State) (y x : Nat) : countH s y x ≤ 2 := by
  rw [countH]
  cases sigAt s y (x - 1) <;> cases sigAt s y (x + 1) <;> decide

theorem countV_le (s : State) (y x : Nat) : countV s y x ≤ 2 := by
  rw [countV]
  cases sigAt s (y - 1) x <;> cases sigAt s (y + 1) x <;> decide

theorem countD_le (s : State) (y x : Nat) : countD s y x ≤ 4 := by
  rw [countD]
  cases sigAt s (y - 1) (x - 1) <;> cases sigAt s (y - 1) (x + 1) <;> cases sigAt s (y + 1) (x - 1) <;>
    cases sigAt s (y + 1) (x + 1) <;> decide

/-! ## Tables -/

/-- The first table of R153 is `zcAxis` on every count that can occur. -/
theorem axisRows_eq : ∀ a < 3, ∀ b < 3, ∀ dg < 5, firstLabel axisRows a b dg = some (zcAxis a b dg) := by decide

/-- The second table of R153 is `zcDiagonal` on every count that can occur. -/
theorem diagonalRows_eq : ∀ dg < 5, ∀ hv < 5, firstLabel diagonalRows dg hv 0 = some (zcDiagonal dg hv) := by decide

/-- The printed tables give the engine's significance context. -/
theorem tableZc_eq (s : State) (y x : Nat) : tableZc s y x = zc s y x := by
  have hh := countH_le s y x
  have hv := countV_le s y x
  have hd := countD_le s y x
  rw [tableZc, zc, sigCount_horizontal, sigCount_vertical, sigCount_diagonal]
  have ha := axisRows_eq (countH s y x) (by omega) (countV s y x) (by omega) (countD s y x) (by omega)
  have hb := axisRows_eq (countV s y x) (by omega) (countH s y x) (by omega) (countD s y x) (by omega)
  have hg := diagonalRows_eq (countD s y x) (by omega) (countH s y x + countV s y x) (by omega)
  have ho : s.lat.lo = 0 ∨ s.lat.lo = 1 ∨ s.lat.lo = 2 ∨ s.lat.lo = 3 := by
    have := s.lat.lo.isLt
    simp only [← BitVec.toNat_inj]
    simp
    omega
  rcases ho with h | h | h | h <;> simp [h, zcTable, ha, hb, hg]

/-- The printed rule gives the engine's refinement context. -/
theorem tableMrc_eq (s : State) (y x : Nat) : tableMrc s y x = mrc s y x := by
  rw [tableMrc, mrc, sigCount_all]

/-- The sign table of R154 is `signTable` on every pair of contributions. -/
theorem signRows_eq (i j : Int) :
    (signRows.lookup (min 1 (max (-1) i), min 1 (max (-1) j))).getD (9, false) = signTable (sgnOf i) (sgnOf j) := by
  have clamp : ∀ i : Int, (min 1 (max (-1) i) = 1 ∧ sgnOf i = .pos) ∨ (min 1 (max (-1) i) = 0 ∧ sgnOf i = .zero) ∨
      (min 1 (max (-1) i) = -1 ∧ sgnOf i = .neg) := by
    intro i
    rw [sgnOf]
    split
    · exact Or.inl ⟨by omega, rfl⟩
    · split
      · exact Or.inr (Or.inr ⟨by omega, rfl⟩)
      · exact Or.inr (Or.inl ⟨by omega, rfl⟩)
  rcases clamp i with ⟨h1, h2⟩ | ⟨h1, h2⟩ | ⟨h1, h2⟩ <;> rcases clamp j with ⟨h3, h4⟩ | ⟨h3, h4⟩ | ⟨h3, h4⟩ <;>
    rw [h1, h2, h3, h4] <;> rfl

end Sys2Proof.Machine
end

