-- ==== Sys2Proof/Laws/PerInstr.lean ====
section
/-! SUPPORT. Laws stated once for every instruction and proved constructor by constructor. -/

namespace Sys2Proof.Laws

/-- `match` and `mask` of an instruction's row of the opcode map (R91). -/
def TableRow.row : Instr → Word × Word
  | .nop => (0x00000000, 0xFFFFFFFF)
  | .reset => (0x00000001, 0xFFFFFFFF)
  | .clrerr => (0x00000002, 0xFFFFFFFF)
  | .mqResetcx => (0x00000010, 0xFFFFFFFF)
  | .mqInit => (0x00000011, 0xFFFFFFFF)
  | .mqDecode _ => (0x00000012, 0xFFFF00FF)
  | .t1Start => (0x00000020, 0xFFFFFFFF)
  | .t1Sp _ => (0x00000021, 0xFFFF00FF)
  | .t1Mr _ => (0x00000022, 0xFFFF00FF)
  | .t1Cu _ => (0x00000023, 0xFFFF00FF)
  | .t1Decode => (0x00000024, 0xFFFFFFFF)
  | .deqRev => (0x00000030, 0xFFFFFFFF)
  | .deqIrr => (0x00000031, 0xFFFFFFFF)
  | .idwtLevelR53 _ => (0x00000040, 0xFFFF00FF)
  | .idwtLevelI97 _ => (0x00000041, 0xFFFF00FF)
  | .idwtFullR53 => (0x00000042, 0xFFFFFFFF)
  | .idwtFullI97 => (0x00000043, 0xFFFFFFFF)

/-- The instruction's own word selects its row: `(W & mask) == match` (R91). -/
def TableRow.Statement (i : Instr) : Prop := encode i &&& (TableRow.row i).2 = (TableRow.row i).1

/-- The words of a row with an operand select it, whatever the operand. -/
theorem TableRow.masked (opc arg : BitVec 8) : cmdWord opc arg &&& 0xFFFF00FF = cmdWord opc 0 := by
  apply BitVec.eq_of_getLsbD_eq
  intro k hk
  simp only [cmdWord, BitVec.getLsbD_and, BitVec.getLsbD_append]
  by_cases h1 : k < 8
  · interval_cases k <;> simp
  · by_cases h2 : k < 16
    · interval_cases k <;> simp
    · interval_cases k <;> simp

theorem TableRow.nop : TableRow.Statement .nop := rfl
theorem TableRow.reset : TableRow.Statement .reset := rfl
theorem TableRow.clrerr : TableRow.Statement .clrerr := rfl
theorem TableRow.mqResetcx : TableRow.Statement .mqResetcx := rfl
theorem TableRow.mqInit : TableRow.Statement .mqInit := rfl
theorem TableRow.mqDecode (cx : BitVec 8) : TableRow.Statement (.mqDecode cx) := TableRow.masked _ _
theorem TableRow.t1Start : TableRow.Statement .t1Start := rfl
theorem TableRow.t1Sp (b : BitVec 8) : TableRow.Statement (.t1Sp b) := TableRow.masked _ _
theorem TableRow.t1Mr (b : BitVec 8) : TableRow.Statement (.t1Mr b) := TableRow.masked _ _
theorem TableRow.t1Cu (b : BitVec 8) : TableRow.Statement (.t1Cu b) := TableRow.masked _ _
theorem TableRow.t1Decode : TableRow.Statement .t1Decode := rfl
theorem TableRow.deqRev : TableRow.Statement .deqRev := rfl
theorem TableRow.deqIrr : TableRow.Statement .deqIrr := rfl
theorem TableRow.idwtLevelR53 (lev : BitVec 8) : TableRow.Statement (.idwtLevelR53 lev) := TableRow.masked _ _
theorem TableRow.idwtLevelI97 (lev : BitVec 8) : TableRow.Statement (.idwtLevelI97 lev) := TableRow.masked _ _
theorem TableRow.idwtFullR53 : TableRow.Statement .idwtFullR53 := rfl
theorem TableRow.idwtFullI97 : TableRow.Statement .idwtFullI97 := rfl

end Sys2Proof.Laws
end

