-- ==== Sys2Proof/Tests/Slice0.lean ====
section
/-! SUPPORT. Tests. Expected values are those of spec/95_test_vectors.md, or worked out by hand from the rule a comment
names. Each witness shows that the hypotheses of a statement can be met together. -/

namespace Sys2Proof.Machine

-- One theorem at a time: checked side by side, their threads' stacks exceed the memory a check may use.
set_option Elab.async false

/-! ## Well-formedness -/

theorem test_ill_formed_mqDecode : Instr.wellFormed (.mqDecode 19) = false := by decide
theorem test_ill_formed_t1Sp : Instr.wellFormed (.t1Sp 31) = false := by decide
theorem test_ill_formed_t1Mr : Instr.wellFormed (.t1Mr 31) = false := by decide
theorem test_ill_formed_t1Cu : Instr.wellFormed (.t1Cu 255) = false := by decide
theorem test_ill_formed_levelR53_zero : Instr.wellFormed (.idwtLevelR53 0) = false := by decide
theorem test_ill_formed_levelR53_above : Instr.wellFormed (.idwtLevelR53 33) = false := by decide
theorem test_ill_formed_levelI97_zero : Instr.wellFormed (.idwtLevelI97 0) = false := by decide
theorem test_ill_formed_levelI97_above : Instr.wellFormed (.idwtLevelI97 33) = false := by decide

/-! ## Decoding: words written bit by bit, RSV, ARG, OPC (R90, R91) -/

theorem test_decode_system :
    decode 0b0000000000000000_00000000_00000000 = .ok .nop ∧
    decode 0b0000000000000000_00000000_00000001 = .ok .reset ∧
    decode 0b0000000000000000_00000000_00000010 = .ok .clrerr := ⟨rfl, rfl, rfl⟩

theorem test_decode_mq :
    decode 0b0000000000000000_00000000_00010000 = .ok .mqResetcx ∧
    decode 0b0000000000000000_00000000_00010001 = .ok .mqInit ∧
    decode 0b0000000000000000_00010010_00010010 = .ok (.mqDecode 18) := ⟨rfl, rfl, rfl⟩

theorem test_decode_t1 :
    decode 0b0000000000000000_00000000_00100000 = .ok .t1Start ∧
    decode 0b0000000000000000_00011110_00100001 = .ok (.t1Sp 30) ∧
    decode 0b0000000000000000_00000001_00100010 = .ok (.t1Mr 1) ∧
    decode 0b0000000000000000_00001101_00100011 = .ok (.t1Cu 13) ∧
    decode 0b0000000000000000_00000000_00100100 = .ok .t1Decode := ⟨rfl, rfl, rfl, rfl, rfl⟩

theorem test_decode_deq :
    decode 0b0000000000000000_00000000_00110000 = .ok .deqRev ∧
    decode 0b0000000000000000_00000000_00110001 = .ok .deqIrr := ⟨rfl, rfl⟩

theorem test_decode_idwt :
    decode 0b0000000000000000_00000001_01000000 = .ok (.idwtLevelR53 1) ∧
    decode 0b0000000000000000_00100000_01000001 = .ok (.idwtLevelI97 32) ∧
    decode 0b0000000000000000_00000000_01000010 = .ok .idwtFullR53 ∧
    decode 0b0000000000000000_00000000_01000011 = .ok .idwtFullI97 := ⟨rfl, rfl, rfl, rfl⟩

/-- The illegal words of V-SY-1, each rejected by its reason. -/
theorem test_decode_rejects :
    decode 0x00010000 = .error .reservedNotZero ∧ decode 0x80000024 = .error .reservedNotZero ∧
    decode 0x00000003 = .error .opcodeUnassigned ∧ decode 0x000000FF = .error .opcodeUnassigned ∧
    decode 0x00000044 = .error .opcodeUnassigned ∧ decode 0x00000100 = .error .operandNotZero ∧
    decode 0x00000124 = .error .operandNotZero ∧ decode 0x00001312 = .error .operandOutOfRange ∧
    decode 0x00001F21 = .error .operandOutOfRange ∧ decode 0x0000FF23 = .error .operandOutOfRange ∧
    decode 0x00000040 = .error .operandOutOfRange ∧ decode 0x00002141 = .error .operandOutOfRange :=
  ⟨rfl, rfl, rfl, rfl, rfl, rfl, rfl, rfl, rfl, rfl, rfl, rfl⟩

/-! ## Small states -/

/-- The state an outcome goes on in. -/
def nextOf : Host.Outcome State Fault Refusal → Option State
  | .next t => some t
  | .fault _ => none
  | .refused _ => none

/-- After reset, with 64 bytes of BS and 64 words of SAMP. -/
def small : State := { State.reset with cap := ⟨64, 64⟩ }

/-- `small` with the host about to write `w` to `CMD`. -/
def issuing (w : Word) (s : State) : State := { s with pending := [issueOp w] }

/-- `small` with the bytes of a bitstream and its length. -/
def withBytes (l : List (Nat × Byte)) (len : Word) : State :=
  { small with bs := l, par := { ParamRegs.zero with cbLen := len } }

/-- The job of R169 (V-T1-7): a 1 by 1 code-block. -/
def job1 : State :=
  { small with
    bs := [(0, 0x05), (1, 0xFF), (2, 0xAC)]
    par := { ParamRegs.zero with
      cbW := 1, cbH := 1, cbOrient := 1, cbNpass := 8, cbZbp := 0, cbLen := 3, qGuard := 1, qStep := 0x1800 } }

/-- `job1` with its session open and its decoder initialised, the grid clear (R169, row 0). -/
def open1 : State :=
  { job1 with
    status := ⟨false, true, false, true, true, 0⟩
    lat := ⟨1, 1, 1, 3⟩
    mq := ⟨0x8000, 0x02FF8000, 1, 1, false⟩
    coef := [(0, 0)] }

/-- `open1` with its coefficient significant and negative (R169, after pass 1). -/
def sig1 : State :=
  { open1 with
    mq := ⟨0x9C3E, 0x13FDE000, 3, 1, true⟩
    coef := [(0, 0xC0000000)]
    flag := [(0, ⟨true, false, false⟩)] }

/-- A 1 by 1 code-block and plane, the coefficient word and the quantizer given (V-DQ-1, V-DQ-2). -/
def quant1 (c g step prec : Word) : State :=
  { small with
    coef := [(0, c)]
    par := { ParamRegs.zero with
      cbW := 1, cbH := 1, qGuard := g, qStep := step, qPrec := prec, dwX1 := 1, dwY1 := 1 } }

/-- A one-row plane on the columns `[x0, x1)` with the sample words given (V-DW-1). -/
def row1 (x0 x1 nl : Word) (l : List (Nat × Word)) : State :=
  { small with samp := l, par := { ParamRegs.zero with dwX0 := x0, dwX1 := x1, dwY1 := 1, dwNl := nl } }

/-! ## System commands and errors -/

theorem test_nop : (nextOf (exec .nop small)).map (fun t => statusWord t.status) = some 0x002 := by decide +kernel

theorem test_reset_clears_the_error :
    (nextOf (step (issuing 1 { job1 with status := ⟨false, false, true, true, true, 4⟩, errinfo := 9 }))).map
      (fun t => (statusWord t.status, t.errinfo, t.par.cbW, t.bs.length)) = some (0x002, 0, 0, 3) := by decide +kernel

/-- V-SY-5, step 6. -/
theorem test_clrerr :
    (nextOf (step (issuing 2 { small with status := ⟨false, false, true, false, false, 3⟩, errinfo := 0x10000 }))).map
      (fun t => (statusWord t.status, t.errinfo)) = some (0x002, 0) := by decide +kernel

/-- V-SY-6: an illegal word inside a session does not close it. -/
theorem test_illegal_word_keeps_the_session :
    (nextOf (step (issuing 0x1F23 open1))).map (fun t => (statusWord t.status, t.errinfo)) =
      some (0x31C, 0x1F23) := by decide +kernel

/-- V-SY-2, third row: `T1.CU 30` without an initialised decoder. -/
theorem test_sequence_closes_the_session :
    (nextOf (step (issuing 0x1E23 { open1 with status := ⟨false, true, false, true, false, 0⟩ }))).map
      (fun t => (statusWord t.status, t.errinfo)) = some (0x604, 0x1E23) := by decide +kernel

/-- What the host pushes is what the next step runs (`NOP` from reset). -/
theorem test_withFetchWord :
    (nextOf (step (State.reset.withFetchWord 32 0))).map (fun t => statusWord t.status) = some 0x002 := by
  decide +kernel

/-! ## The arithmetic decoder -/

/-- R121. -/
theorem test_mqResetcx :
    (nextOf (exec .mqResetcx { small with cx := Vector.replicate 19 ⟨7, true⟩ })).map
      (fun t => (ctxAt t 0, ctxAt t 1, ctxAt t 17, ctxAt t 18)) =
      some (⟨4, false⟩, ⟨0, false⟩, ⟨3, false⟩, ⟨46, false⟩) := by decide +kernel

/-- V-MQ-1, `84 C7`. -/
theorem test_mqInit :
    (nextOf (exec .mqInit (withBytes [(0, 0x84), (1, 0xC7)] 2))).map (fun t => (t.mq, statusWord t.status)) =
      some (⟨0x8000, 0x42638000, 1, 1, false⟩, 0x012) := by decide +kernel

/-- V-MQ-1, `FF 8F`: the stuffed byte's top bit carries. -/
theorem test_mqInit_stuffed :
    (nextOf (exec .mqInit (withBytes [(0, 0xFF), (1, 0x8F)] 2))).map (fun t => t.mq) =
      some ⟨0x8000, 0x800F0000, 0, 1, false⟩ := by decide +kernel

/-- R133: an inverted less-probable decision. -/
theorem test_mqDecode_inverted :
    (nextOf (exec (.mqDecode 9) { withBytes [(0, 0x84), (1, 0xC7), (2, 0x3B)] 3 with
      lat := ⟨0, 0, 0, 3⟩, mq := ⟨0x8000, 0x42638000, 1, 1, true⟩, status := ⟨false, true, false, false, true, 0⟩ })).map
      (fun t => (t.mq, ctxAt t 9)) = some (⟨0xAC02, 0x84C70000, 0, 1, false⟩, ⟨1, false⟩) := by decide +kernel

/-- V-MQ-4, from row 2 to row 3: no renormalisation. -/
theorem test_mqDecode_plain :
    (nextOf (exec (.mqDecode 9) { small with
      cx := initialContexts.set 9 ⟨2, false⟩, mq := ⟨0xF002, 0xA18C7600, 7, 2, true⟩,
      status := ⟨false, true, false, false, true, 0⟩ })).map
      (fun t => (t.mq, ctxAt t 9)) = some (⟨0xD801, 0x898B7600, 7, 2, false⟩, ⟨2, false⟩) := by decide +kernel

/-! ## The bit-plane decoder -/

theorem test_t1Start :
    (nextOf (exec .t1Start job1)).map (fun t => (statusWord t.status, t.lat, t.coef)) =
      some (0x00A, ⟨1, 1, 1, 0⟩, [(0, 0)]) := by decide +kernel

/-- V-SY-3, second row. -/
theorem test_t1Start_too_wide :
    (nextOf (exec .t1Start { job1 with par := { job1.par with cbW := 1025 } })).map
      (fun t => (statusWord t.status, t.errinfo)) = some (0x504, 0x010) := by decide +kernel

/-- R169, pass 1: `0:1 9:1`. -/
theorem test_t1Cu :
    (nextOf (exec (.t1Cu 30) open1)).map (fun t => (t.mq, t.coef)) =
      some (⟨0x9C3E, 0x13FDE000, 3, 1, true⟩, [(0, 0xC0000000)]) := by decide +kernel

/-- R169, pass 3: `14:0`. -/
theorem test_t1Mr :
    (nextOf (exec (.t1Mr 29) sig1)).map (fun t => (t.mq, t.coef, flagAt t 0)) =
      some (⟨0xAC02, 0x27FBC000, 2, 1, false⟩, [(0, 0xC0000000)], ⟨true, false, true⟩) := by decide +kernel

/-- Two columns, the left one significant: the right one is tested in the context of one horizontal neighbour, 5 (R153
for LH), and, by hand from R127 with `Qe` = 0x5601 and `Chigh` = 0, decodes to 0 in the inverted case; π is set. -/
theorem test_t1Sp :
    (nextOf (exec (.t1Sp 29) { sig1 with
      lat := ⟨2, 1, 2, 3⟩, coef := [(0, 0xC0000000), (1, 0)], mq := ⟨0x8000, 0, 4, 1, true⟩ })).map
      (fun t => (t.mq.d, t.coef, flagAt t 0, flagAt t 1, ctxAt t 5)) =
      some (false, [(0, 0xC0000000), (1, 0)], ⟨true, false, false⟩, ⟨false, true, false⟩, ⟨1, false⟩) := by decide +kernel

/-- V-T1-7. -/
theorem test_t1Decode :
    (nextOf (exec .t1Decode job1)).map (fun t => (t.mq, t.coef, t.passDone)) =
      some (⟨0xAC02, 0x4FF78000, 1, 1, true⟩, [(0, 0xD0000000)], 8) := by decide +kernel

/-- V-T1-6: run-length hits in a 3 by 4 block of type LH. -/
theorem test_t1Decode_runLength :
    (nextOf (exec .t1Decode { small with
      bs := [(0, 0x03), (1, 0xE0), (2, 0xFF), (3, 0xAC)]
      par := { ParamRegs.zero with
        cbW := 3, cbH := 4, cbOrient := 2, cbNpass := 5, cbLen := 4, qGuard := 1, qStep := 0x1000 } })).map
      (fun t => (t.mq.a, t.mq.c, t.coef.filter (fun p => p.2 ≠ 0))) =
      some (0x9C03, 0x89F6FC00, [(8, 0xA0000000), (9, 0x40000000)]) := by decide +kernel

/-! ## The dequantizer (V-DQ-1, V-DQ-2) -/

theorem test_deqRev :
    (nextOf (exec .deqRev (quant1 0xA8000000 2 0x1800 0))).map (fun t => t.samp) = some [(0, 0xFFFFFFFB)] := by
  decide +kernel

theorem test_deqRev_no_shift :
    (nextOf (exec .deqRev (quant1 0xFFFFFFFF 1 0xF800 0))).map (fun t => t.samp) = some [(0, 0x80000001)] := by
  decide +kernel

theorem test_deqIrr :
    (nextOf (exec .deqIrr (quant1 0xFFFFFFFF 2 0x5123 12))).map (fun t => t.samp) = some [(0, 0xC61226DD)] := by
  decide +kernel

theorem test_deqIrr_zero :
    (nextOf (exec .deqIrr (quant1 0x84000000 2 0x1800 8))).map (fun t => t.samp) = some [(0, 0)] := by
  decide +kernel

/-! ## The inverse transform (V-DW-1, V-DW-2, V-DW-4) -/

theorem test_levelR53 :
    (nextOf (exec (.idwtLevelR53 1) (row1 1 5 0 [(0, 10), (1, 12), (2, 3), (3, -5)]))).map (fun t => t.samp) =
      some [(0, 13), (1, 10), (2, 7), (3, 14)] := by decide +kernel

theorem test_levelR53_wraps :
    (nextOf (exec (.idwtLevelR53 1) (row1 0 2 0 [(0, 0x7FFFFFFF), (1, 0x7FFFFFFF)]))).map (fun t => t.samp) =
      some [(0, 0x7FFFFFFF), (1, 0x7FFFFFFE)] := by decide +kernel

theorem test_levelI97 :
    (nextOf (exec (.idwtLevelI97 1) (row1 0 2 0 [(0, 0), (1, 0x3F800000)]))).map (fun t => t.samp) =
      some [(0, 0xBF000001), (1, 0x3EFFFFFC)] := by decide +kernel

/-- V-DW-6: a single sample of level 2, two levels; here on two columns and two rows (R214, R223 by hand). -/
theorem test_fullR53 :
    (nextOf (exec .idwtFullR53 { small with
      samp := [(0, 16), (1, 0), (2, 0), (3, 0)]
      par := { ParamRegs.zero with dwX1 := 2, dwY1 := 2, dwNl := 2 } })).map (fun t => t.samp) =
      some [(0, 16), (1, 16), (2, 16), (3, 16)] := by decide +kernel

/-- V-DW-4, `0.0, 1.0` on `[0, 2)`, by the whole transform of one level. -/
theorem test_fullI97 :
    (nextOf (exec .idwtFullI97 (row1 0 2 1 [(0, 0), (1, 0x3F800000)]))).map (fun t => t.samp) =
      some [(0, 0xBF000001), (1, 0x3EFFFFFC)] := by decide +kernel

/-! ## Check tables at their boundaries (V-SY-3, V-DQ-3, V-SY-4) -/

theorem test_startChecks_boundaries :
    firstFailure (startChecks { job1.par with cbW := 1024, cbH := 4 }) = none ∧
    firstFailure (startChecks { job1.par with cbW := 1025 }) = some .cbW ∧
    firstFailure (startChecks { job1.par with cbW := 0, cbOrient := 9 }) = some .cbW ∧
    firstFailure (startChecks { job1.par with cbH := 0 }) = some .cbH ∧
    firstFailure (startChecks { job1.par with cbW := 1024, cbH := 8 }) = some .cbH ∧
    firstFailure (startChecks { job1.par with cbOrient := 3 }) = none ∧
    firstFailure (startChecks { job1.par with cbOrient := 4 }) = some .cbOrient := by decide +kernel

theorem test_decodeChecks_boundaries :
    firstFailure (decodeChecks ⟨64, 64⟩ { job1.par with cbLen := 64 }) = none ∧
    firstFailure (decodeChecks ⟨64, 64⟩ { job1.par with cbLen := 65 }) = some .cbLen ∧
    firstFailure (decodeChecks ⟨64, 64⟩ { job1.par with cbNpass := 9 }) = some .cbNpass ∧
    firstFailure (decodeChecks ⟨64, 64⟩ { job1.par with cbZbp := 3 }) = some .cbZbp ∧
    firstFailure (decodeChecks ⟨64, 64⟩ { job1.par with qGuard := 8 }) = some .qGuard ∧
    firstFailure (decodeChecks ⟨64, 64⟩ { job1.par with qGuard := 8, cbNpass := 0 }) = none ∧
    firstFailure (decodeChecks ⟨64, 64⟩ { job1.par with qStep := 0x00011800 }) = some .qStep ∧
    firstFailure (decodeChecks ⟨64, 64⟩ { job1.par with qGuard := 7, qStep := 0xD000 }) = some .qStep := by
  decide +kernel

theorem test_deqChecks_boundaries :
    firstFailure (deqRevChecks ⟨64, 64⟩ (quant1 0 1 0 0).par) = none ∧
    firstFailure (deqRevChecks ⟨64, 64⟩ (quant1 0 0 0 0).par) = some .qStep ∧
    firstFailure (deqRevChecks ⟨64, 64⟩ (quant1 0 7 0xC800 0).par) = none ∧
    firstFailure (deqRevChecks ⟨64, 64⟩ (quant1 0 7 0xD000 0).par) = some .qStep ∧
    firstFailure (deqIrrChecks ⟨64, 64⟩ (quant1 0 1 0 0).par) = some .qPrec ∧
    firstFailure (deqIrrChecks ⟨64, 64⟩ (quant1 0 1 0 38).par) = none ∧
    firstFailure (deqIrrChecks ⟨64, 64⟩ (quant1 0 1 0 39).par) = some .qPrec ∧
    firstFailure (deqRevChecks ⟨64, 64⟩ { (quant1 0 1 0 0).par with dwX1 := 0 }) = some .dwX1 ∧
    firstFailure (deqRevChecks ⟨64, 64⟩ { (quant1 0 1 0 0).par with qDx := 1 }) = some .qDx ∧
    firstFailure (deqRevChecks ⟨64, 64⟩ { (quant1 0 1 0 0).par with qDy := 1 }) = some .qDy := by decide +kernel

theorem test_idwtChecks_boundaries :
    firstFailure (planeChecks ⟨64, 64⟩ (row1 0 64 33 []).par) = none ∧
    firstFailure (planeChecks ⟨64, 64⟩ (row1 0 65 0 []).par) = some .dwY1 ∧
    firstFailure (planeChecks ⟨64, 64⟩ (row1 4 4 0 []).par) = some .dwX1 ∧
    firstFailure (planeChecks ⟨64, 64⟩ { (row1 0 4 0 []).par with dwY0 := 5, dwY1 := 2 }) = some .dwY1 ∧
    firstFailure (fullChecks ⟨64, 64⟩ (row1 0 4 32 []).par) = none ∧
    firstFailure (fullChecks ⟨64, 64⟩ (row1 0 4 33 []).par) = some .dwNl := by decide +kernel

/-! ## Witnesses: encoding and issue -/

theorem markAhead_job1 (b : Nat) (h : b ≤ 1) : MarkAhead job1.bs 3 b :=
  ⟨1, h, by decide, rfl, ⟨0xAC, rfl, by decide⟩, fun k _ hk => by
    obtain rfl | rfl : k = 0 ∨ k = 1 := by omega
    · rfl
    · rfl⟩

/-- A test on the next state, as the existence of one. -/
theorem goes_on {o : Host.Outcome State Fault Refusal} {p : State → Bool} (h : (nextOf o).any p = true) :
    ∃ t, o = .next t ∧ p t = true := by
  cases o with
  | next t => exact ⟨t, rfl, h⟩
  | fault f => cases h
  | refused r => cases h

theorem witness_DecodeInvertsEncode : Instr.wellFormed (.mqDecode 18) = true ∧ Instr.wellFormed (.idwtLevelI97 32) = true := by
  decide

theorem witness_EncodeInvertsDecode : decode 0x00001212 = .ok (.mqDecode 18) := rfl

theorem accepting_small (w : Word) : Accepting (issuing w small) := ⟨rfl, rfl⟩

theorem witness_IllegalWordsRaiseUnsupported :
    ((issuing 0x1312 small).pending = issueOp 0x1312 :: [] ∧ Accepting (issuing 0x1312 small)) ∧
    ((issuing 0x1212 small).pending = issueOp 0x1212 :: [] ∧ Accepting (issuing 0x1212 small)) :=
  ⟨⟨rfl, accepting_small _⟩, ⟨rfl, accepting_small _⟩⟩

/-- An error pending, and a command that is accepted all the same. -/
def inError (w : Word) : State := issuing w { small with status := ⟨false, false, true, false, false, 3⟩, errinfo := 7 }

theorem witness_StepRunsDecodedCommand :
    ((issuing 0 small).pending = issueOp 0 :: [] ∧ (issuing 0 small).status.busy = false ∧
      (issuing 0 small).status.err = false ∧ decode 0 = .ok .nop) ∧
    ((inError 2).pending = issueOp 2 :: [] ∧ (inError 2).status.busy = false ∧ (inError 2).status.err = true ∧
      decode 2 = .ok .clrerr) := ⟨⟨rfl, rfl, rfl, rfl⟩, ⟨rfl, rfl, rfl, rfl⟩⟩

theorem witness_CommandsDroppedWhileBusyOrInError :
    ((issuing 0 { small with status := ⟨true, false, false, false, false, 0⟩ }).status.busy = true) ∧
    ((inError 0).pending = issueOp 0 :: [] ∧ (inError 0).status.err = true) := ⟨rfl, rfl, rfl⟩

theorem witness_CommandsEndIdleInDoneOrError :
    (∃ t, exec .nop small = .next t ∧ t.status.done = true) ∧ ∃ t, exec .t1Start small = .next t ∧ t.status.err = true :=
  ⟨goes_on (p := fun t => t.status.done) (by decide +kernel), goes_on (p := fun t => t.status.err) (by decide +kernel)⟩

theorem witness_system_commands :
    ((issuing 0 small).pending = issueOp 0 :: [] ∧ (issuing 0 small).status.busy = false ∧
      (issuing 0 small).status.err = false) ∧ ((inError 0).status.busy = false ∧ (inError 0).status.err = true) ∧
    (issuing 1 small).pending = issueOp 1 :: [] ∧ (issuing 2 small).pending = issueOp 2 :: [] :=
  ⟨⟨rfl, rfl, rfl⟩, ⟨rfl, rfl⟩, rfl, rfl⟩

/-- Hardware reset is the next access, on an idle block in a session and on a busy one. -/
theorem witness_HardwareResetState :
    { open1 with pending := [.hardReset] }.pending = .hardReset :: [] ∧
    { open1 with pending := [.hardReset], status := ⟨true, false, false, true, true, 0⟩ }.status.busy = true := ⟨rfl, rfl⟩

theorem test_hardReset_while_busy :
    (nextOf (step { open1 with pending := [.hardReset], status := ⟨true, false, false, true, true, 0⟩ })).map
      (fun t => (statusWord t.status, t.bs, t.cap.bsBytes)) = some (0, [], 64) := by decide +kernel

/-! ## Witnesses: errors -/

theorem witness_ErrorsLeaveAPreciseState :
    small.status.err = false ∧
    (∃ t, exec (.t1Sp 31) small = .next t ∧ (t.status.err && t.status.errcode == 3) = true) ∧
    (∃ t, exec .mqInit small = .next t ∧ (t.status.err && t.status.errcode == 4) = true) ∧
    (∃ t, exec .t1Start small = .next t ∧ (t.status.err && t.status.errcode == 5) = true) ∧
    (∃ t, exec .deqRev small = .next t ∧ (t.status.err && t.status.errcode == 5) = true) ∧
    (∃ t, exec (.t1Sp 30) small = .next t ∧ (t.status.err && t.status.errcode == 6) = true) :=
  ⟨rfl, goes_on (by decide +kernel), goes_on (by decide +kernel), goes_on (by decide +kernel),
    goes_on (by decide +kernel), goes_on (by decide +kernel)⟩

theorem witness_OutOfRangeOperandsAreIllegal : Instr.wellFormed (.t1Mr 31) = false := rfl

theorem witness_UnwrittenElementsStopTheModel :
    ((withBytes [] 1).par.cbLen.toNat ≤ 64 ∧ Memory.read (withBytes [] 1).bs 0 = none) ∧
    (Memory.has (withBytes [(0, 1)] 2).bs 0 = true ∧ Memory.read (withBytes [(0, 1)] 2).bs 1 = none) ∧
    (firstFailure (deqRevChecks ⟨64, 64⟩ (quant1 0 1 0 1).par) = none ∧
      firstFailure (deqIrrChecks ⟨64, 64⟩ (quant1 0 1 0 1).par) = none ∧
      Memory.read { quant1 0 1 0 1 with coef := [] }.coef 0 = none) ∧
    (firstFailure (fullChecks ⟨64, 64⟩ (row1 0 2 1 [(0, 1)]).par) = none ∧
      Memory.read (row1 0 2 1 [(0, 1)]).samp 1 = none) := by decide +kernel

/-- A decision that needs a byte, with the byte at `BP` missing, and with the one after it missing. -/
theorem witness_UnwrittenElements_decision :
    let s : State := { open1 with mq := ⟨0x8000, 0, 0, 1, true⟩ }
    (s.status.mqrdy = true ∧ 0x8000 ≤ s.mq.a.toNat ∧ RefillDue s 17) ∧
    (s.mq.bp.toNat < s.lat.len.toNat ∧ Memory.read { s with bs := [(0, 5)] }.bs s.mq.bp.toNat = none) ∧
    (s.mq.bp.toNat + 1 < s.lat.len.toNat ∧ Memory.has { s with bs := [(0, 5), (1, 7)] }.bs s.mq.bp.toNat = true ∧
      Memory.read { s with bs := [(0, 5), (1, 7)] }.bs (s.mq.bp.toNat + 1) = none) := by decide +kernel

theorem witness_UnwrittenElements_block :
    (firstFailure (decodeChecks job1.cap job1.par) = none ∧ 0 < job1.par.cbNpass.toNat ∧ 2 ≤ job1.par.cbLen.toNat ∧
      Memory.read { job1 with bs := [] }.bs 0 = none ∧ Memory.read { job1 with bs := [(0, 5)] }.bs 1 = none) ∧
    (legalPlane 29 = true ∧ { sig1 with coef := [] }.status.session = true ∧ 0 < blockArea { sig1 with coef := [] }) ∧
    DecoderFed { sig1 with coef := [] } ∧
    ((flagAt { sig1 with coef := [] } 0).sigma = true ∧ (flagAt { sig1 with coef := [] } 0).pi = false ∧
      Memory.read { sig1 with coef := [] }.coef 0 = none) :=
  ⟨by decide +kernel, by decide +kernel, ⟨rfl, by decide, markAhead_job1 1 (by decide)⟩, by decide +kernel⟩

theorem witness_UnwrittenElements_any_command :
    exec .mqInit (withBytes [] 1) = .fault (.unwrittenBs 0) := rfl

theorem witness_UnwrittenElements_region :
    legalLevel 1 = true ∧ firstFailure (planeChecks ⟨64, 64⟩ (row1 0 2 1 [(0, 1)]).par) = none ∧
      inRegion (regionOf (row1 0 2 1 [(0, 1)]).par 1) 1 := ⟨rfl, by decide +kernel, 0, 1, by decide +kernel⟩

theorem witness_EngineWritesOnlyItsOwnState :
    (∃ t, exec .t1Start job1 = .next t ∧ t.status.done = true) ∧ (∃ t, exec .reset job1 = .next t ∧ t.status.done = true) ∧
    ∃ t, exec .deqRev (quant1 0 1 0 0) = .next t ∧ t.status.done = true :=
  ⟨goes_on (p := fun t => t.status.done) (by decide +kernel), goes_on (p := fun t => t.status.done) (by decide +kernel),
    goes_on (p := fun t => t.status.done) (by decide +kernel)⟩

theorem witness_TierOneChecksInOrder :
    (∃ t, exec .t1Start small = .next t ∧ (t.errinfo == 0x010) = true) ∧
    (∃ t, exec .t1Decode { job1 with par := { job1.par with cbNpass := 9 } } = .next t ∧ (t.errinfo == 0x01C) = true) ∧
    firstFailure (startChecks job1.par) = none ∧ firstFailure (decodeChecks job1.cap job1.par) = none :=
  ⟨goes_on (by decide +kernel), goes_on (by decide +kernel), by decide +kernel, by decide +kernel⟩

theorem witness_DequantizerChecksInOrder :
    (∃ t, exec .deqRev (quant1 0 8 0 0) = .next t ∧ (t.errinfo == 0x030) = true) ∧
    (∃ t, exec .deqIrr (quant1 0 1 0 39) = .next t ∧ (t.errinfo == 0x038) = true) ∧
    firstFailure (deqRevChecks ⟨64, 64⟩ (quant1 0 1 0 0).par) = none ∧
    firstFailure (deqIrrChecks ⟨64, 64⟩ (quant1 0 1 0 38).par) = none :=
  ⟨goes_on (by decide +kernel), goes_on (by decide +kernel), by decide +kernel, by decide +kernel⟩

theorem witness_TransformChecksInOrder :
    legalLevel 1 = true ∧ legalLevel 32 = true ∧
    (∃ t, exec (.idwtLevelR53 1) (row1 4 4 0 []) = .next t ∧ (t.errinfo == 0x058) = true) ∧
    (∃ t, exec .idwtFullI97 (row1 0 4 33 []) = .next t ∧ (t.errinfo == 0x060) = true) ∧
    firstFailure (fullChecks ⟨64, 64⟩ (row1 0 4 32 []).par) = none :=
  ⟨rfl, rfl, goes_on (by decide +kernel), goes_on (by decide +kernel), by decide +kernel⟩

/-! ## Witnesses: the host -/

/-- `small` with the host about to make the accesses given. -/
def accessing (l : List HostOp) : State := { small with pending := l }

theorem witness_ParameterRegistersHoldWhatIsWritten :
    (accessing [.writeReg ParamName.qStep.offset 32 5, .readReg ParamName.qStep.offset 32]).status.busy = false := rfl

theorem test_register_write_then_read :
    ((nextOf (step (accessing [.writeReg 0x034 32 5, .readReg 0x034 32]))).bind (fun t => nextOf (step t))).map
      (fun t => (t.hostData, t.par.qStep)) = some (5, 5) := by decide +kernel

theorem witness_OtherRegisterAccessesAreIgnored :
    (accessing [.writeReg 0x010 16 5]).status.busy = false ∧ (0x00C : Nat) ≠ 0 ∧
    (∀ n : ParamName, (0x00C : Nat) ≠ n.offset) ∧ (∀ c : Fin 19, (0x00C : Nat) ≠ 0x100 + 4 * c.val) ∧
    (0x00C : Nat) ∉ [0x004, 0x008, 0x028, 0x070, 0x074, 0x078, 0x07C, 0x080] :=
  ⟨rfl, by decide, fun n => by cases n <;> decide, by decide, by decide⟩

/-- `MQ_CX[17]` at 0x144 after reset: `I` is 3, `MPS` 0. -/
theorem test_observation_register :
    (nextOf (step (accessing [.readReg 0x144 32]))).map (fun t => t.hostData) = some 3 := by decide +kernel

theorem witness_ObservationRegistersRead :
    (accessing [.readReg 0x004 32]).status.busy = false ∧ (accessing [.readReg 0x148 32]).pending = [.readReg 0x148 32] :=
  ⟨rfl, rfl⟩

/-- Both sides of the end of BS. -/
theorem witness_HostWritesStoreOneElement :
    (nextOf (step (accessing [.writeBs 63 7]))).map (fun t => t.bs) = some [(63, 7)] ∧
    (nextOf (step (accessing [.writeBs 64 7]))).map (fun t => t.bs) = some [] ∧
    (nextOf (step (accessing [.writeCoef 4095 7]))).map (fun t => t.coef) = some [(4095, 7)] ∧
    (nextOf (step (accessing [.writeCoef 4096 7]))).map (fun t => t.coef) = some [] ∧
    (nextOf (step (accessing [.writeSamp 64 7]))).map (fun t => t.samp) = some [] := by decide +kernel

theorem witness_HostReadsReturnOneElement :
    (nextOf (step { accessing [.readBs 63] with bs := [(63, 0xA5)] })).map (fun t => t.hostData) = some 0xA5 ∧
    (nextOf (step { accessing [.readBs 64] with hostData := 9 })).map (fun t => t.hostData) = some 0 ∧
    nextOf (step (accessing [.readBs 63])) = none ∧
    (nextOf (step { accessing [.readCoef 0] with coef := [(0, 6)] })).map (fun t => t.hostData) = some 6 ∧
    (nextOf (step { accessing [.readSamp 0] with samp := [(0, 6)] })).map (fun t => t.hostData) = some 6 := by
  decide +kernel

/-! ## Witnesses: invariants -/

theorem statusLegal_small (w : Word) : StatusLegal (issuing w small) :=
  ⟨rfl, (fun h => Bool.noConfusion h.1), (fun _ => ⟨rfl, rfl⟩), (fun h => Bool.noConfusion h)⟩

theorem witness_StatusStaysLegal :
    StatusLegal (issuing 0x20 small) ∧ ∃ t, step (issuing 0x20 small) = .next t ∧ t.status.err = true :=
  ⟨statusLegal_small _, goes_on (p := fun t => t.status.err) (by decide +kernel)⟩

theorem memoriesLegal_sig1 : MemoriesLegal (issuing 0x1D22 sig1) where
  bsWf     := by decide
  coefWf   := by decide
  flagWf   := by decide
  sampWf   := by decide
  bsIn     := by decide
  coefIn   := by decide
  flagIn   := by decide
  sampIn   := by decide
  flagShow := by decide

theorem grid_sig1 : ∀ i, i < blockArea sig1 → Memory.has sig1.coef i = true := by
  intro i hi
  have h : i < 1 := hi
  obtain rfl : i = 0 := by omega
  rfl

theorem witness_MemoriesStayLegal :
    (MemoriesLegal (issuing 0x1D22 sig1) ∧ SessionLegal (issuing 0x1D22 sig1)) ∧
      ∃ t, step (issuing 0x1D22 sig1) = .next t ∧ (t.status.done && t.status.session) = true :=
  ⟨⟨memoriesLegal_sig1, ⟨by decide, by decide, by decide, fun _ => grid_sig1⟩⟩, goes_on (by decide +kernel)⟩

theorem witness_DecoderStaysLegal :
    DecoderLegal (issuing 0x1D22 sig1) ∧ ∃ t, step (issuing 0x1D22 sig1) = .next t ∧ t.status.mqrdy = true :=
  ⟨⟨by decide, by decide, by decide, by decide⟩, goes_on (p := fun t => t.status.mqrdy) (by decide +kernel)⟩

theorem flagsMatch_sig1 : FlagsMatch sig1 := by
  intro i hi c hc
  have h : i < 1 := hi
  obtain rfl : i = 0 := by omega
  obtain rfl : (0xC0000000 : Word) = c := Option.some.inj hc
  decide +kernel

theorem witness_CommandsKeepFlagsMatched :
    (FlagsMatch sig1 ∧ ∃ t, exec (.t1Mr 29) sig1 = .next t ∧ t.status.done = true) ∧
    (FlagsMatch (issuing 0x1D22 sig1) ∧ (∀ i v rest, (issuing 0x1D22 sig1).pending ≠ .writeCoef i v :: rest) ∧
      ∃ t, step (issuing 0x1D22 sig1) = .next t ∧ t.status.done = true) :=
  ⟨⟨flagsMatch_sig1, goes_on (p := fun t => t.status.done) (by decide +kernel)⟩,
    ⟨flagsMatch_sig1, fun i v rest h => by simp [issuing, issueOp] at h,
      goes_on (p := fun t => t.status.done) (by decide +kernel)⟩⟩

/-! ## Witnesses: the arithmetic decoder -/

theorem witness_MqInitStartsTheDecoder :
    (withBytes [] 65).cap.bsBytes < (withBytes [] 65).par.cbLen.toNat ∧
    ((withBytes [] 64).par.cbLen.toNat ≤ (withBytes [] 64).cap.bsBytes) ∧
    ((withBytes [] 0).par.cbLen = 0) ∧
    ((withBytes [(0, 5)] 1).par.cbLen = 1 ∧ Memory.read (withBytes [(0, 5)] 1).bs 0 = some 5) ∧
    (2 ≤ (withBytes [(0, 0xFF), (1, 0x8F)] 2).par.cbLen.toNat ∧
      Memory.read (withBytes [(0, 0xFF), (1, 0x8F)] 2).bs 1 = some 0x8F ∧ (0x8F : Byte).toNat < 0x90) ∧
    (Memory.read (withBytes [(0, 0xFF), (1, 0x90)] 2).bs 1 = some 0x90 ∧ 0x90 ≤ (0x90 : Byte).toNat) ∧
    (Memory.read (withBytes [(0, 0xFE), (1, 0x90)] 2).bs 0 = some 0xFE ∧ (0xFE : Byte) ≠ 0xFF) := by decide +kernel

theorem witness_MqDecodeMakesOneDecision :
    (open1.status.mqrdy = true ∧ 0x8000 ≤ open1.mq.a.toNat ∧ MarkAhead open1.bs open1.lat.len.toNat open1.mq.bp.toNat) ∧
    TwoBytesAhead open1.bs open1.lat.len.toNat 0 ∧
    0x8000 ≤ exchangedA { open1 with mq := ⟨0xF002, 0xA18C7600, 7, 2, true⟩ } 9 * 2 ^ 7 := by
  refine ⟨⟨rfl, by decide, markAhead_job1 1 (by decide)⟩, ⟨by decide, fun k _ hk => ?_⟩, by decide +kernel⟩
  obtain rfl | rfl | rfl : k = 0 ∨ k = 1 ∨ k = 2 := by omega
  · rfl
  · rfl
  · rfl

/-- `open1` with a byte pair at index 1 and no shift left before a byte is needed. -/
def pair1 (b b1 : Byte) : State :=
  { open1 with bs := [(0, 5), (1, b), (2, b1)], mq := ⟨0x8000, 0, 0, 1, true⟩ }

/-- In context 9, where `A` is 0x5601: one shift and no byte, and one byte before the one shift, be it an ordinary one, a
stuffed one or a mark. -/
theorem witness_MqDecode_shifts :
    (0x8000 ≤ exchangedA open1 9 * 2 ^ 1 ∧ exchangedA open1 9 * 2 ^ (1 - 1) < 0x8000 ∧ 1 ≤ open1.mq.ct.toNat) ∧
    (0x8000 ≤ exchangedA (pair1 7 9) 9 * 2 ^ ((pair1 7 9).mq.ct.toNat + 7) ∧
      0x8000 ≤ exchangedA (pair1 7 9) 9 * 2 ^ 1 ∧ (pair1 7 9).mq.ct.toNat < 1 ∧
      (pair1 7 9).mq.bp.toNat + 1 < (pair1 7 9).lat.len.toNat) ∧
    ((7 : Byte) ≠ 0xFF ∧ (0x8F : Byte).toNat ≤ 0x8F ∧ 0x8F < (0x90 : Byte).toNat) := by decide +kernel

/-- By hand from R124 and R126, context 9 with `Chigh` 0: `A` is 0x5601, and the byte comes before the one shift. -/
theorem test_mqDecode_refills :
    (nextOf (exec (.mqDecode 9) (pair1 7 9))).map (fun t => t.mq) = some ⟨0xAC02, 0x1200, 7, 2, false⟩ ∧
    (nextOf (exec (.mqDecode 9) (pair1 0xFF 0x8F))).map (fun t => t.mq) = some ⟨0xAC02, 0x23C00, 6, 2, false⟩ ∧
    (nextOf (exec (.mqDecode 9) (pair1 0xFF 0x90))).map (fun t => t.mq) = some ⟨0xAC02, 0x1FE00, 7, 1, false⟩ := by
  decide +kernel

theorem witness_EndOfStreamMarkHoldsThePointer :
    open1.status.mqrdy = true ∧ 0x8000 ≤ open1.mq.a.toNat ∧ open1.mq.bp.toNat + 1 < open1.lat.len.toNat ∧
      Memory.read open1.bs open1.mq.bp.toNat = some 0xFF ∧ Memory.read open1.bs (open1.mq.bp.toNat + 1) = some 0xAC ∧
      0x90 ≤ (0xAC : Byte).toNat := ⟨rfl, by decide, by decide, rfl, rfl, by decide⟩

/-- `open1` with two bytes only and a renormalisation due that needs a third. -/
def starved1 : State := { open1 with lat := ⟨1, 1, 1, 2⟩, mq := ⟨0x8000, 0, 0, 1, true⟩ }

/-- Past the end at `BP`, and at `BP + 1`; a block of no byte, and of one. -/
theorem witness_DecodePastTheEnd_needs :
    (starved1.status.mqrdy = true ∧ 0x8000 ≤ starved1.mq.a.toNat ∧ RefillDue starved1 17) ∧
    (starved1.mq.bp.toNat < starved1.lat.len.toNat ∧ starved1.lat.len.toNat ≤ starved1.mq.bp.toNat + 1 ∧
      Memory.has starved1.bs starved1.mq.bp.toNat = true) ∧
    { starved1 with lat := ⟨1, 1, 1, 1⟩ }.lat.len.toNat ≤ starved1.mq.bp.toNat ∧
    (firstFailure (decodeChecks ⟨64, 64⟩ { job1.par with cbLen := 0 }) = none ∧
      firstFailure (decodeChecks ⟨64, 64⟩ { job1.par with cbLen := 1 }) = none ∧ 0 < job1.par.cbNpass.toNat ∧
      Memory.has job1.bs 0 = true) := by decide +kernel

theorem witness_DecodePastTheEndIsPrecise :
    starved1.status.err = false ∧ starved1.status.mqrdy = true ∧
      ∃ t, exec (.mqDecode (BitVec.ofNat 8 (17 : Fin 19).val)) starved1 = .next t ∧
        (t.status.err && t.status.errcode == 4 && t.errinfo == 2 && t.mq.d) = true :=
  ⟨rfl, rfl, goes_on (by decide +kernel)⟩

/-! ## Witnesses: the bit-plane decoder -/

theorem witness_TierOneStartOpensASession : firstFailure (startChecks job1.par) = none := by decide +kernel

theorem witness_CommandsOutOfSequenceAreRefused :
    Instr.wellFormed (.mqDecode 18) = true ∧ small.status.mqrdy = false ∧ Instr.wellFormed (.t1Sp 30) = true ∧
      { open1 with status := ⟨false, true, false, false, true, 0⟩ }.status.session = false ∧
      { open1 with status := ⟨false, true, false, true, false, 0⟩ }.status.mqrdy = false := ⟨rfl, rfl, rfl, rfl, rfl⟩

theorem witness_FirstSignificancePassMakesNoDecision :
    legalPlane 30 = true ∧ open1.status.session = true ∧ open1.status.mqrdy = true ∧
      ∀ i, i < blockArea open1 → (flagAt open1 i).sigma = false := ⟨rfl, rfl, rfl, fun _ _ => rfl⟩

theorem passReady_open1 : PassReady open1 :=
  ⟨rfl, ⟨rfl, by decide, markAhead_job1 1 (by decide)⟩, fun i hi => by
    have h : i < 1 := hi
    obtain rfl : i = 0 := by omega
    rfl⟩

theorem passReady_sig1 : PassReady sig1 :=
  ⟨rfl, ⟨rfl, by decide, markAhead_job1 1 (by decide)⟩, grid_sig1⟩

theorem witness_passes_complete : legalPlane 0 = true ∧ legalPlane 30 = true ∧ PassReady open1 ∧ PassReady sig1 :=
  ⟨rfl, rfl, passReady_open1, passReady_sig1⟩

/-- Two columns, the left one significant, the right one its insignificant neighbour. -/
def pair2 : State :=
  { sig1 with lat := ⟨2, 1, 2, 3⟩, coef := [(0, 0xC0000000), (1, 0)], mq := ⟨0x8000, 0, 4, 1, true⟩ }

theorem passReady_pair2 : PassReady pair2 :=
  ⟨rfl, ⟨rfl, by decide, markAhead_job1 1 (by decide)⟩, fun i hi => by
    have h : i < 2 := hi
    obtain rfl | rfl : i = 0 ∨ i = 1 := by omega
    · rfl
    · rfl⟩

theorem witness_SignificancePassCompletes :
    PassReady pair2 ∧ (legalPlane 29 = true ∧ pair2.status.session = true ∧ pair2.status.mqrdy = true) ∧
    Neighbours 0 1 0 0 ∧ ((flagAt pair2 (coefIndex pair2 0 1)).sigma = false ∧
      (flagAt pair2 (coefIndex pair2 0 0)).sigma = true ∧ (flagAt pair2 (coefIndex pair2 0 1)).pi = false) :=
  ⟨passReady_pair2, ⟨rfl, rfl, rfl⟩, by unfold Neighbours; decide, by decide +kernel⟩

/-- A pass that raises: an open session whose decoder is at the end of its bytes. -/
theorem witness_passes_end_in_errors :
    starved1.status.session = true ∧ starved1.status.mqrdy = true ∧
      ∃ t, exec (.t1Cu 30) starved1 = .next t ∧ (t.status.err && t.status.errcode == 4) = true :=
  ⟨rfl, rfl, goes_on (by decide +kernel)⟩

theorem witness_PassesKeepLowBitsZero :
    legalPlane 30 = true ∧ (∀ k c, Memory.read open1.coef k = some c → c.toNat % 2 ^ (30 : BitVec 8).toNat = 0) ∧
      ∃ t, exec (.t1Cu 30) open1 = .next t ∧ t.status.done = true := by
  refine ⟨rfl, fun k c h => ?_, goes_on (p := fun t => t.status.done) (by decide +kernel)⟩
  have h' : (if 0 = k then some (0 : Word) else none) = some c := h
  split at h'
  · cases h'; rfl
  · cases h'

theorem witness_ZeroPassesGiveAZeroGrid :
    let s := { job1 with par := { job1.par with cbNpass := 0, cbLen := 0 } }
    firstFailure (decodeChecks s.cap s.par) = none ∧ s.par.cbNpass = 0 := by decide +kernel

theorem witness_WholeBlockDecodeCompletes :
    firstFailure (decodeChecks job1.cap job1.par) = none ∧ MarkAhead job1.bs job1.par.cbLen.toNat 0 :=
  ⟨by decide +kernel, markAhead_job1 0 (by decide)⟩

theorem witness_WholeBlockDecodeEqualsHandDecode :
    0 < job1.par.cbNpass.toNat ∧ ∃ t, exec .t1Decode job1 = .next t ∧ t.status.done = true :=
  ⟨by decide, goes_on (p := fun t => t.status.done) (by decide +kernel)⟩

/-- The commands by hand, up to an error of `MQ.INIT` (one byte only), and up to a stop (no byte written). -/
theorem witness_WholeBlockDecode_raises :
    let s := { job1 with par := { job1.par with cbLen := 1 } }
    (firstFailure (decodeChecks s.cap s.par) = none ∧ 0 < s.par.cbNpass.toNat) ∧
    handDecode s.par.cbNpass.toNat s.par.cbZbp.toNat =
      [.t1Start] ++ .mqInit :: (handDecode s.par.cbNpass.toNat s.par.cbZbp.toNat).drop 2 ∧
    (nextOf (execAll [.t1Start] s)).any (fun u => u.status.done && (nextOf (exec .mqInit u)).any
      (fun e => !e.status.done)) = true ∧
    (nextOf (execAll [.t1Start] { s with bs := [] })).any (fun u => u.status.done && (nextOf (exec .mqInit u)).isNone) =
      true := ⟨by decide +kernel, rfl, by decide +kernel, by decide +kernel⟩

theorem witness_WholeBlockDecodeIsIndependent :
    let s₂ := { job1 with
      status := ⟨false, true, false, true, true, 0⟩, errinfo := 5, mq := ⟨1, 2, 3, 4, true⟩, coef := [(0, 9)],
      samp := [(3, 3)] }
    job1.par = s₂.par ∧ job1.cap = s₂.cap ∧ job1.status.err = s₂.status.err ∧ job1.status.errcode = s₂.status.errcode ∧
      (∀ k, k < job1.par.cbLen.toNat → Memory.read job1.bs k = Memory.read s₂.bs k) ∧
      firstFailure (decodeChecks job1.cap job1.par) = none ∧ ∃ t, exec .t1Decode job1 = .next t ∧ t.status.done = true :=
  ⟨rfl, rfl, rfl, rfl, fun _ _ => rfl, by decide +kernel, goes_on (p := fun t => t.status.done) (by decide +kernel)⟩

/-! ## Witnesses: the dequantizer and the transform -/

theorem grid_quant1 (c g step prec : Word) :
    ∀ k, k < (quant1 c g step prec).par.cbW.toNat * (quant1 c g step prec).par.cbH.toNat →
      Memory.has (quant1 c g step prec).coef k = true := by
  intro k hk
  have h : k < 1 := hk
  obtain rfl : k = 0 := by omega
  rfl

theorem witness_dequantizers_complete :
    firstFailure (deqRevChecks ⟨64, 64⟩ (quant1 7 1 0 38).par) = none ∧
    firstFailure (deqIrrChecks ⟨64, 64⟩ (quant1 7 1 0 38).par) = none ∧
    ∀ k, k < (quant1 7 1 0 38).par.cbW.toNat * (quant1 7 1 0 38).par.cbH.toNat →
      Memory.has (quant1 7 1 0 38).coef k = true := ⟨by decide +kernel, by decide +kernel, grid_quant1 _ _ _ _⟩

theorem witness_StepSizeIsExact :
    (1 ≤ (quant1 0 1 0xFFFF 38).par.qPrec.toNat ∧ (quant1 0 1 0xFFFF 38).par.qPrec.toNat ≤ 38 ∧
      (quant1 0 1 0xFFFF 38).par.qStep.toNat ≤ 0xFFFF) ∧ 1 ≤ (quant1 0 1 0 1).par.qPrec.toNat := by decide +kernel

theorem witness_SubbandSplitFillsTheInterval : (1 : Nat) ≤ 6 ∧ (3 : Nat) ≤ 3 := by decide

theorem witness_signals_of_two : 2 ≤ [(1 : Word), 2].length ∧ 1 < [(1 : Word), 2].length ∧ 0 < [(1 : Word), 2].length := by
  decide

theorem witness_LengthOneSignals : 0 % 2 = 0 ∧ 1 % 2 = 1 := by decide

/-- The least and the greatest sample whose double is in range. -/
theorem witness_ReversibleKernelIsLossless_one :
    (-(2 ^ 30) ≤ (0xC0000000 : Word).toInt ∧ (0xC0000000 : Word).toInt < 2 ^ 30) ∧
    (-(2 ^ 30) ≤ (0x3FFFFFFF : Word).toInt ∧ (0x3FFFFFFF : Word).toInt < 2 ^ 30) := by decide

/-- A plane of two columns and one row, written whole. -/
def plane2 (nl : Word) : State := row1 0 2 nl [(0, 10), (1, 3)]

theorem regionWritten_plane2 : RegionWritten (plane2 1) (regionOf (plane2 1).par 1) := by
  intro r c hr hc
  have h1 : r < 1 := hr
  have h2 : c < 2 := hc
  obtain rfl : r = 0 := by omega
  obtain rfl | rfl : c = 0 ∨ c = 1 := by omega
  · rfl
  · rfl

theorem witness_levels_synthesise :
    legalLevel 1 = true ∧ firstFailure (planeChecks (plane2 1).cap (plane2 1).par) = none ∧
      RegionWritten (plane2 1) (regionOf (plane2 1).par (1 : BitVec 8).toNat) :=
  ⟨rfl, by decide +kernel, regionWritten_plane2⟩

theorem witness_full_transforms :
    (firstFailure (fullChecks (plane2 1).cap (plane2 1).par) = none ∧ 0 < (plane2 1).par.dwNl.toNat ∧ (plane2 1).par.dwNl = 1) ∧
    (firstFailure (fullChecks (plane2 0).cap (plane2 0).par) = none ∧ (plane2 0).par.dwNl = 0) ∧
    firstFailure (fullChecks (plane2 2).cap (plane2 2).par) = none ∧
    (∀ k, k < planeW (plane2 1).par * planeH (plane2 1).par → Memory.has (plane2 1).samp k = true) := by
  refine ⟨by decide +kernel, by decide +kernel, by decide +kernel, fun k hk => ?_⟩
  have h : k < 2 := hk
  obtain rfl | rfl : k = 0 ∨ k = 1 := by omega
  · rfl
  · rfl

/-- A magnitude that rounds to a finite value, and the least one that becomes an infinity. -/
theorem witness_RoundingIsToNearestEven :
    (1 : Nat) ≠ 0 ∧ 1 * 2 ^ (0 : Int).toNat < (2 ^ 25 - 1) * 2 ^ 103 * 2 ^ (-(0 : Int)).toNat ∧
      (2 ^ 25 - 1) * 2 ^ 103 * 2 ^ (-(103 : Int)).toNat ≤ (2 ^ 25 - 1) * 2 ^ (103 : Int).toNat := by decide +kernel

theorem witness_operations_round_once :
    fpVal 0x3F800000 = .fin false 0x800000 (-23) ∧ fpVal 0x80000001 = .fin true 1 (-149) := by decide +kernel

theorem test_rounding_at_the_top :
    fpVal (fpRound false (2 ^ 25 - 1) 103) = .inf false ∧ fpVal (fpRound false (2 ^ 25 - 2) 103) = .fin false 0xFFFFFF 104 := by
  decide +kernel

theorem witness_FloatSignsAndNans :
    fpVal 0x3F800000 = .fin false 0x800000 (-23) ∧ fpVal 0x7FC00000 = .nan ∧
      fpVal (fpMul ⟨0, 0, 0, 0, 0, 0⟩ 0x3F800000 0xBF800000) ≠ .nan := by decide +kernel

end Sys2Proof.Machine
end

section
/-! What a command, an access and a step are, said once for every command: the dispatch as one equation, and an
inversion lemma each for the issue of a command, one access by the host, and one step. -/

namespace Sys2Proof.Machine

/-! ## The dispatch as one equation -/

/-- What a command runs between its acceptance and its end (R250), its operand taken to be legal. -/
def commandBody : Instr → Eng Unit
  | .nop => pure ()
  | .reset => modify softReset
  | .clrerr => modify acknowledgeError
  | .mqResetcx => modify resetContexts
  | .mqInit => mqInitBody
  | .mqDecode cx => mqDecodeBody (encode (.mqDecode cx)) (Fin.ofNat 19 cx.toNat)
  | .t1Start => t1StartBody
  | .t1Sp b => passBody (encode (.t1Sp b)) (passSp b.toNat)
  | .t1Mr b => passBody (encode (.t1Mr b)) (passMr b.toNat)
  | .t1Cu b => passBody (encode (.t1Cu b)) (passCu b.toNat)
  | .t1Decode => t1DecodeBody
  | .deqRev => deqRevBody
  | .deqIrr => deqIrrBody binary32
  | .idwtLevelR53 lev => levelR53Body lev.toNat
  | .idwtLevelI97 lev => levelI97Body binary32 lev.toNat
  | .idwtFullR53 => fullR53Body
  | .idwtFullI97 => fullI97Body binary32

/-- The commands whose errors clear `SESSION` and `MQRDY` (R275). -/
def closesSession : Instr → Bool
  | .mqInit | .mqDecode _ | .t1Start | .t1Sp _ | .t1Mr _ | .t1Cu _ | .t1Decode => true
  | _ => false

/-- A command with a legal operand runs its body. -/
theorem exec_wellFormed {i : Instr} (h : i.wellFormed = true) (s : State) :
    exec i s = runCommand (closesSession i) (commandBody i) s := by
  cases i with
  | mqDecode cx =>
    have hlt : cx.toNat < 19 := Nat.lt_succ_of_le (of_decide_eq_true h)
    have hcx : Fin.ofNat 19 cx.toNat = ⟨cx.toNat, hlt⟩ := Fin.ext (Nat.mod_eq_of_lt hlt)
    show execMqDecode cx s = runCommand true (mqDecodeBody _ (Fin.ofNat 19 cx.toNat)) s
    rw [execMqDecode, dif_pos hlt, hcx]
  | t1Sp b => exact if_pos h
  | t1Mr b => exact if_pos h
  | t1Cu b => exact if_pos h
  | idwtLevelR53 lev => exact if_pos h
  | idwtLevelI97 lev => exact if_pos h
  | _ => rfl

/-- A command whose operand is out of range ends as its command word would (R93). -/
theorem exec_illFormed {i : Instr} (h : i.wellFormed = false) (s : State) :
    exec i s = .next (illegalWord (encode i) s) := by
  have hn : ¬ i.wellFormed = true := Bool.not_eq_true _ ▸ h
  cases i with
  | mqDecode cx => exact dif_neg (fun hlt => hn (decide_eq_true (Nat.le_of_lt_succ hlt)))
  | t1Sp b => exact if_neg hn
  | t1Mr b => exact if_neg hn
  | t1Cu b => exact if_neg hn
  | idwtLevelR53 lev => exact if_neg hn
  | idwtLevelI97 lev => exact if_neg hn
  | _ => cases h

/-! ## What the issue of a command can do -/

/-- A command that was issued was dropped, ran as the command its word decodes to, or was illegal. -/
theorem issue_next {w : Word} {s t : State} (h : issue w s = .next t) :
    t = s ∨
    (∃ i, decode w = .ok i ∧ (s.status.err = true → acceptedInError w = true) ∧ exec i (accept s) = .next t) ∨
    t = illegalWord w (accept s) := by
  rw [issue] at h
  split at h
  · cases h; exact .inl rfl
  · split at h
    · cases h; exact .inl rfl
    · rename_i hacc
      split at h
      · rename_i i hi
        exact .inr (.inl ⟨i, hi, fun herr => by simpa [herr] using hacc, h⟩)
      · cases h; exact .inr (.inr rfl)

/-- The words accepted while an error is pending are `RESET` and `CLRERR`. -/
theorem decode_acceptedInError {w : Word} {i : Instr} (ha : acceptedInError w = true) (hd : decode w = .ok i) :
    i = .reset ∨ i = .clrerr := by
  rw [acceptedInError, Bool.or_eq_true, decide_eq_true_iff, decide_eq_true_iff] at ha
  rcases ha with rfl | rfl
  · exact .inl (Except.ok.inj (hd.symm.trans rfl))
  · exact .inr (Except.ok.inj (hd.symm.trans rfl))

/-! ## What one access by the host can do -/

/-- What one access by the host may leave, by cases of the access. -/
inductive Accessed (op : HostOp) (s : State) : State → Prop
  | issued (off bits : Nat) (w : Word) {t : State} (hop : op = .writeReg off bits w) (h : issue w s = .next t) :
      Accessed op s t
  | ignored : Accessed op s s
  | stored (n : ParamName) (v : Word) : Accessed op s (setPar (writeParam s.par n v) s)
  | loaded (v : Word) : Accessed op s (setHostData v s)
  | loadedBusy : Accessed op s (busyStatusRead s)
  | wroteBs (i : Nat) (v : Byte) (hi : i < s.cap.bsBytes) : Accessed op s (writeBs i v s)
  | wroteCoef (i : Nat) (v : Word) (hop : op = .writeCoef i v) (hi : i < Config.cbMaxArea) :
      Accessed op s (writeCoef i v s)
  | wroteSamp (i : Nat) (v : Word) (hi : i < s.cap.sampWords) : Accessed op s (writeSamp i v s)
  | hardReset : Accessed op s (hardReset s)

/-- A write to a register that is not `CMD` stores a parameter or is ignored. -/
theorem accessed_storeReg (op : HostOp) (r : Option Reg) (v : Word) (s : State) : Accessed op s (storeReg r v s) := by
  unfold storeReg
  split
  · exact .stored _ _
  · exact .ignored

/-- A read of a memory element that goes on gives the host some value. -/
theorem accessed_loadElement {op : HostOp} {inSpace : Bool} {v : Option Word} {f : Fault} {s t : State}
    (h : loadElement inSpace v f s = .next t) : Accessed op s t := by
  unfold loadElement at h
  split at h
  · split at h
    · cases h; exact .loaded _
    · cases h
  · cases h; exact .loaded _

theorem accessBusy_next {op : HostOp} {s t : State} (h : accessBusy op s = .next t) : Accessed op s t := by
  cases op with
  | writeReg off bits v =>
    simp only [accessBusy] at h
    split at h
    · exact .issued off bits v rfl h
    · cases h
  | readReg off bits =>
    simp only [accessBusy] at h
    split at h
    · cases h; exact .loadedBusy
    · cases h
  | hardReset => cases h; exact .hardReset
  | _ => cases h

theorem accessIdle_next {op : HostOp} {s t : State} (h : accessIdle op s = .next t) : Accessed op s t := by
  cases op with
  | writeReg off bits v =>
    simp only [accessIdle] at h
    split at h
    · exact .issued off bits v rfl h
    · cases h; exact accessed_storeReg _ _ _ _
  | readReg off bits => cases h; exact .loaded _
  | writeBs i v =>
    cases h
    split
    · exact .wroteBs i v ‹_›
    · exact .ignored
  | writeCoef i v =>
    cases h
    split
    · exact .wroteCoef i v rfl ‹_›
    · exact .ignored
  | writeSamp i v =>
    cases h
    split
    · exact .wroteSamp i v ‹_›
    · exact .ignored
  | readBs i => exact accessed_loadElement h
  | readCoef i => exact accessed_loadElement h
  | readSamp i => exact accessed_loadElement h
  | hardReset => cases h; exact .hardReset

theorem hostAccess_next {op : HostOp} {s t : State} (h : hostAccess op s = .next t) : Accessed op s t := by
  rw [hostAccess] at h
  split at h
  · exact accessBusy_next h
  · exact accessIdle_next h

/-- A step that goes on changes nothing, or makes the host's next access. -/
theorem step_next {s t : State} (h : step s = .next t) :
    t = s ∨ ∃ op rest, s.pending = op :: rest ∧ Accessed op (setPending rest s) t := by
  cases hp : s.pending with
  | nil => rw [step_idle hp] at h; cases h; exact .inl rfl
  | cons op rest => rw [step_access hp] at h; exact .inr ⟨op, rest, rfl, hostAccess_next h⟩

end Sys2Proof.Machine
end

section
/-! The error latch (R26, R275, R278): no part of a command writes `ERR`, `ERRCODE` or `ERRINFO` itself, and what it
raises is of a kind this block raises. So a command ends with `DONE` and no error, or with an error and no `DONE`. -/

namespace Sys2Proof.Machine

variable {α β : Type}

/-! ## Computations that leave the error latch alone -/

/-- `ERR`, `ERRCODE` and `ERRINFO` are the same. -/
structure SameErrorLatch (s t : State) : Prop where
  err     : t.status.err = s.status.err
  errcode : t.status.errcode = s.status.errcode
  errinfo : t.errinfo = s.errinfo

theorem SameErrorLatch.trans {s t u : State} (h : SameErrorLatch s t) (k : SameErrorLatch t u) : SameErrorLatch s u :=
  ⟨k.err.trans h.err, k.errcode.trans h.errcode, k.errinfo.trans h.errinfo⟩

/-- The computation leaves the error latch as it was, and every error it raises is of a kind this block raises
(R270). -/
def LeavesErrorLatch (m : Eng α) : Prop :=
  ∀ s, SameErrorLatch s (endState (m s)) ∧ ∀ k info t, m s = .error (.raise k info) t → raisedCode k.code = true

theorem leaves_pure (a : α) : LeavesErrorLatch (pure a : Eng α) :=
  fun _ => ⟨⟨rfl, rfl, rfl⟩, fun _ _ _ h => nomatch h⟩

theorem leaves_stop (f : Fault) : LeavesErrorLatch (stopModel f : Eng α) :=
  fun _ => ⟨⟨rfl, rfl, rfl⟩, fun _ _ _ h => nomatch h⟩

theorem leaves_raise {k : ErrKind} (hk : raisedCode k.code = true) (info : Word) :
    LeavesErrorLatch (raise k info : Eng α) :=
  fun _ => ⟨⟨rfl, rfl, rfl⟩, fun _ _ _ h => by cases h; exact hk⟩

theorem leaves_modify {f : State → State} (h : ∀ s, SameErrorLatch s (f s)) : LeavesErrorLatch (modify f : Eng PUnit) :=
  fun s => ⟨h s, fun _ _ _ h => nomatch h⟩

theorem leaves_bind {m : Eng α} {f : α → Eng β} (hm : LeavesErrorLatch m) (hf : ∀ a, LeavesErrorLatch (f a)) :
    LeavesErrorLatch (m >>= f) := by
  intro s
  obtain ⟨hs, hr⟩ := hm s
  rw [eng_bind]
  cases hms : m s with
  | ok a t =>
    rw [hms] at hs
    obtain ⟨ht, hrt⟩ := hf a t
    exact ⟨hs.trans ht, hrt⟩
  | error e t =>
    rw [hms] at hs
    exact ⟨hs, fun k info u h => hr k info u (hms.trans (by cases h; rfl))⟩

/-- What follows a read of the state leaves the latch whatever state was read. -/
theorem leaves_get_bind {f : State → Eng β} (hf : ∀ s, LeavesErrorLatch (f s)) :
    LeavesErrorLatch ((get : Eng State) >>= f) :=
  fun s => hf s s

/-- As `leaves_get_bind`, where the state that was read is written back changed. -/
theorem leaves_get_set_bind {g : State → State} {f : State → Eng β} (hg : ∀ s, SameErrorLatch s (g s))
    (hf : ∀ s, LeavesErrorLatch (f s)) :
    LeavesErrorLatch ((get : Eng State) >>= fun s => (set (g s) : Eng PUnit) >>= fun _ => f s) := fun s =>
  ⟨(hg s).trans (hf s (g s)).1, (hf s (g s)).2⟩

theorem leaves_ite {c : Prop} [Decidable c] {m n : Eng α} (hm : LeavesErrorLatch m) (hn : LeavesErrorLatch n) :
    LeavesErrorLatch (if c then m else n) := by
  split <;> assumption

theorem leaves_onlyIf {c : Bool} {m : Eng Unit} (hm : LeavesErrorLatch m) : LeavesErrorLatch (onlyIf c m) :=
  leaves_ite hm (leaves_pure ())

theorem leaves_forEach {l : List α} {body : α → Eng Unit} (h : ∀ x, LeavesErrorLatch (body x)) :
    LeavesErrorLatch (forEach l body) := by
  induction l with
  | nil => exact leaves_pure ()
  | cons x r ih => exact leaves_bind (h x) (fun _ => ih)

/-! ## Shared parts -/

theorem leaves_requireGeometry (l : List Check) : LeavesErrorLatch (requireGeometry l) := by
  unfold requireGeometry
  split
  · exact leaves_pure ()
  · exact leaves_raise rfl _

theorem leaves_readCoef (i : Nat) : LeavesErrorLatch (readCoef i) := by
  refine leaves_get_bind (fun s => ?_)
  cases Memory.read s.coef i with
  | some v => exact leaves_pure v
  | none => exact leaves_stop _

theorem leaves_readSamp (i : Nat) : LeavesErrorLatch (readSamp i) := by
  refine leaves_get_bind (fun s => ?_)
  cases Memory.read s.samp i with
  | some v => exact leaves_pure v
  | none => exact leaves_stop _

theorem leaves_readSamps (l : List Nat) : LeavesErrorLatch (readSamps l) := by
  induction l with
  | nil => exact leaves_pure _
  | cons i r ih => exact leaves_bind (leaves_readSamp i) fun _ => leaves_bind ih fun _ => leaves_pure _

/-! ## The arithmetic decoder -/

theorem leaves_bsRead (i : Nat) : LeavesErrorLatch (bsRead i) := by
  refine leaves_get_bind (fun s => leaves_ite ?_ (leaves_raise rfl _))
  cases Memory.read s.bs i with
  | some b => exact leaves_pure b
  | none => exact leaves_stop _

theorem leaves_setMq (f : State → MqRegs) : LeavesErrorLatch (modify (fun s => setMq (f s) s) : Eng PUnit) :=
  leaves_modify fun _ => ⟨rfl, rfl, rfl⟩

theorem leaves_byteIn : LeavesErrorLatch byteIn :=
  leaves_get_bind fun s => leaves_bind (leaves_bsRead _) fun b => leaves_bind (leaves_bsRead _) fun b1 =>
    leaves_setMq fun _ => enterByte b b1 s.mq

theorem leaves_renormd (n : Nat) : LeavesErrorLatch (renormd n) := by
  induction n with
  | zero => exact leaves_stop _
  | succ n ih =>
    exact leaves_get_bind fun _ => leaves_bind (leaves_onlyIf leaves_byteIn) fun _ =>
      leaves_get_set_bind (fun _ => ⟨rfl, rfl, rfl⟩) fun _ => leaves_onlyIf ih

theorem leaves_decodeBit (cx : Fin 19) : LeavesErrorLatch (decodeBit cx) :=
  leaves_get_set_bind (g := fun s => applyDecision cx (decisionOf s.mq.a s.mq.c (ctxAt s cx)) s)
    (fun _ => ⟨rfl, rfl, rfl⟩) fun _ => leaves_bind (leaves_onlyIf (leaves_renormd _)) fun _ =>
      leaves_bind (leaves_modify fun _ => ⟨rfl, rfl, rfl⟩) fun _ => leaves_pure _

theorem leaves_initDecoder : LeavesErrorLatch initDecoder :=
  leaves_bind (leaves_setMq _) fun _ => leaves_bind (leaves_bsRead _) fun _ => leaves_bind (leaves_setMq _) fun _ =>
    leaves_bind leaves_byteIn fun _ => leaves_setMq _

/-! ## The bit-plane decoder -/

theorem leaves_chi (y x : Int) : LeavesErrorLatch (chi y x) :=
  leaves_get_bind fun _ => leaves_ite (leaves_bind (leaves_readCoef _) fun _ => leaves_pure _) (leaves_pure _)

theorem leaves_decodeSign (y x : Nat) : LeavesErrorLatch (decodeSign y x) :=
  leaves_bind (leaves_chi _ _) fun _ => leaves_bind (leaves_chi _ _) fun _ => leaves_bind (leaves_chi _ _) fun _ =>
    leaves_bind (leaves_chi _ _) fun _ => leaves_bind (leaves_decodeBit _) fun _ => leaves_pure _

theorem leaves_becomeSignificant (y x b : Nat) : LeavesErrorLatch (becomeSignificant y x b) :=
  leaves_bind (leaves_decodeSign y x) fun _ => leaves_modify fun _ => ⟨rfl, rfl, rfl⟩

theorem leaves_spVisit (b : Nat) (p : Nat × Nat) : LeavesErrorLatch (spVisit b p) :=
  leaves_get_bind fun _ => leaves_ite
    (leaves_bind (leaves_decodeBit _) fun _ => leaves_bind (leaves_onlyIf (leaves_becomeSignificant _ _ _)) fun _ =>
      leaves_modify fun _ => ⟨rfl, rfl, rfl⟩)
    (leaves_pure _)

theorem leaves_mrVisit (b : Nat) (p : Nat × Nat) : LeavesErrorLatch (mrVisit b p) :=
  leaves_get_bind fun _ => leaves_ite
    (leaves_bind (leaves_decodeBit _) fun _ => leaves_bind (leaves_readCoef _) fun _ =>
      leaves_bind (leaves_modify fun _ => ⟨rfl, rfl, rfl⟩) fun _ => leaves_modify fun _ => ⟨rfl, rfl, rfl⟩)
    (leaves_pure _)

theorem leaves_cuVisit (b x y : Nat) : LeavesErrorLatch (cuVisit b x y) :=
  leaves_get_bind fun _ => leaves_ite
    (leaves_bind (leaves_decodeBit _) fun _ => leaves_onlyIf (leaves_becomeSignificant _ _ _))
    (leaves_pure _)

theorem leaves_runLength (b y0 x : Nat) : LeavesErrorLatch (runLength b y0 x) :=
  leaves_bind (leaves_decodeBit _) fun _ => leaves_ite
    (leaves_bind (leaves_decodeBit _) fun _ => leaves_bind (leaves_decodeBit _) fun _ =>
      leaves_bind (leaves_becomeSignificant _ _ _) fun _ => leaves_pure _)
    (leaves_pure _)

theorem leaves_cuColumn (b : Nat) (p : Nat × Nat) : LeavesErrorLatch (cuColumn b p) := by
  refine leaves_get_bind fun _ => leaves_ite (leaves_bind (leaves_runLength b _ _) fun start => ?_)
    (leaves_forEach fun _ => leaves_cuVisit _ _ _)
  cases start with
  | none => exact leaves_pure _
  | some k => exact leaves_forEach fun _ => leaves_cuVisit _ _ _

theorem leaves_countPass : LeavesErrorLatch (modify countPass : Eng PUnit) := leaves_modify fun _ => ⟨rfl, rfl, rfl⟩

theorem leaves_passSp (b : Nat) : LeavesErrorLatch (passSp b) :=
  leaves_get_bind fun _ => leaves_bind (leaves_forEach (leaves_spVisit b)) fun _ => leaves_countPass

theorem leaves_passMr (b : Nat) : LeavesErrorLatch (passMr b) :=
  leaves_get_bind fun _ => leaves_bind (leaves_forEach (leaves_mrVisit b)) fun _ => leaves_countPass

theorem leaves_passCu (b : Nat) : LeavesErrorLatch (passCu b) :=
  leaves_get_bind fun _ => leaves_bind (leaves_forEach (leaves_cuColumn b)) fun _ =>
    leaves_bind (leaves_forEach fun _ => leaves_modify fun _ => ⟨rfl, rfl, rfl⟩) fun _ => leaves_countPass

theorem leaves_runPass (t : PassType) (b : Nat) : LeavesErrorLatch (runPass t b) := by
  cases t with
  | sp => exact leaves_passSp b
  | mr => exact leaves_passMr b
  | cu => exact leaves_passCu b

theorem leaves_clearGrid (n : Nat) : LeavesErrorLatch (clearGrid n) :=
  leaves_forEach fun _ => leaves_modify fun _ => ⟨rfl, rfl, rfl⟩

theorem leaves_passBody (word : Word) {pass : Eng Unit} (h : LeavesErrorLatch pass) :
    LeavesErrorLatch (passBody word pass) :=
  leaves_bind (leaves_get_bind fun _ => leaves_ite (leaves_pure _) (leaves_raise rfl _)) fun _ => h

/-! ## The dequantizer and the transform -/

theorem leaves_writeSamps (l : List (Nat × Word)) : LeavesErrorLatch (modify (writeSamps l) : Eng PUnit) :=
  leaves_modify fun s => by rw [writeSamps_eq]; exact ⟨rfl, rfl, rfl⟩

theorem leaves_deqBlock (p : ParamRegs) (f : Word → Word) : LeavesErrorLatch (deqBlock p f) :=
  leaves_forEach fun _ => leaves_bind (leaves_readCoef _) fun _ => leaves_modify fun _ => ⟨rfl, rfl, rfl⟩

theorem leaves_synthLine (sources targets : List Nat) (ker : List Word → List Word) :
    LeavesErrorLatch (synthLine sources targets ker) :=
  leaves_bind (leaves_readSamps _) fun _ => leaves_writeSamps _

theorem leaves_sr2d (g : Region) (ker : Kernel) : LeavesErrorLatch (sr2d g ker) :=
  leaves_ite (leaves_pure _) (leaves_bind (leaves_forEach fun _ => leaves_synthLine _ _ _) fun _ =>
    leaves_forEach fun _ => leaves_synthLine _ _ _)

theorem leaves_drawFree : LeavesErrorLatch (modify drawFree : Eng PUnit) := leaves_modify fun _ => ⟨rfl, rfl, rfl⟩

/-! ## Commands -/

theorem leaves_mqInitBody : LeavesErrorLatch mqInitBody :=
  leaves_get_bind fun _ => leaves_bind (leaves_requireGeometry _) fun _ =>
    leaves_bind (leaves_modify fun _ => ⟨rfl, rfl, rfl⟩) fun _ =>
      leaves_bind (leaves_modify fun _ => ⟨rfl, rfl, rfl⟩) fun _ =>
        leaves_bind leaves_initDecoder fun _ => leaves_modify fun _ => ⟨rfl, rfl, rfl⟩

theorem leaves_mqDecodeBody (word : Word) (cx : Fin 19) : LeavesErrorLatch (mqDecodeBody word cx) :=
  leaves_get_bind fun _ => leaves_ite (leaves_bind (leaves_decodeBit cx) fun _ => leaves_pure _) (leaves_raise rfl _)

theorem leaves_t1StartBody : LeavesErrorLatch t1StartBody :=
  leaves_get_bind fun _ => leaves_bind (leaves_requireGeometry _) fun _ =>
    leaves_bind (leaves_modify fun _ => ⟨rfl, rfl, rfl⟩) fun _ =>
      leaves_bind (leaves_modify fun _ => ⟨rfl, rfl, rfl⟩) fun _ =>
        leaves_bind (leaves_modify fun _ => ⟨rfl, rfl, rfl⟩) fun _ =>
          leaves_bind (leaves_clearGrid _) fun _ =>
            leaves_bind (leaves_modify fun _ => ⟨rfl, rfl, rfl⟩) fun _ => leaves_modify fun _ => ⟨rfl, rfl, rfl⟩

theorem leaves_decodePasses (npass zbp : Nat) : LeavesErrorLatch (decodePasses npass zbp) :=
  leaves_bind leaves_initDecoder fun _ => leaves_forEach fun _ => leaves_runPass _ _

theorem leaves_t1DecodeBody : LeavesErrorLatch t1DecodeBody :=
  leaves_get_bind fun _ => leaves_bind (leaves_requireGeometry _) fun _ =>
    leaves_bind (leaves_modify fun _ => ⟨rfl, rfl, rfl⟩) fun _ =>
      leaves_bind (leaves_modify fun _ => ⟨rfl, rfl, rfl⟩) fun _ =>
        leaves_bind (leaves_modify fun _ => ⟨rfl, rfl, rfl⟩) fun _ =>
          leaves_bind (leaves_modify fun _ => ⟨rfl, rfl, rfl⟩) fun _ =>
            leaves_bind (leaves_clearGrid _) fun _ =>
              leaves_bind (leaves_modify fun _ => ⟨rfl, rfl, rfl⟩) fun _ =>
                leaves_bind (leaves_onlyIf (leaves_decodePasses _ _)) fun _ =>
                  leaves_modify fun _ => ⟨rfl, rfl, rfl⟩

/-- The body of every command but `RESET` and `CLRERR` leaves the error latch. -/
theorem leaves_commandBody (i : Instr) (hr : i ≠ .reset) (hc : i ≠ .clrerr) : LeavesErrorLatch (commandBody i) := by
  cases i with
  | nop => exact leaves_pure ()
  | reset => exact absurd rfl hr
  | clrerr => exact absurd rfl hc
  | mqResetcx => exact leaves_modify fun _ => ⟨rfl, rfl, rfl⟩
  | mqInit => exact leaves_mqInitBody
  | mqDecode cx => exact leaves_mqDecodeBody _ _
  | t1Start => exact leaves_t1StartBody
  | t1Sp b => exact leaves_passBody _ (leaves_passSp _)
  | t1Mr b => exact leaves_passBody _ (leaves_passMr _)
  | t1Cu b => exact leaves_passBody _ (leaves_passCu _)
  | t1Decode => exact leaves_t1DecodeBody
  | deqRev => exact leaves_get_bind fun _ => leaves_bind (leaves_requireGeometry _) fun _ => leaves_deqBlock _ _
  | deqIrr => exact leaves_get_bind fun _ => leaves_bind (leaves_requireGeometry _) fun _ => leaves_deqBlock _ _
  | idwtLevelR53 lev => exact leaves_get_bind fun _ => leaves_bind (leaves_requireGeometry _) fun _ => leaves_sr2d _ _
  | idwtLevelI97 lev =>
    exact leaves_get_bind fun _ => leaves_bind (leaves_requireGeometry _) fun _ =>
      leaves_bind leaves_drawFree fun _ => leaves_sr2d _ _
  | idwtFullR53 =>
    exact leaves_get_bind fun _ => leaves_bind (leaves_requireGeometry _) fun _ =>
      leaves_forEach fun _ => leaves_sr2d _ _
  | idwtFullI97 =>
    exact leaves_get_bind fun _ => leaves_bind (leaves_requireGeometry _) fun _ =>
      leaves_bind leaves_drawFree fun _ => leaves_forEach fun _ => leaves_sr2d _ _

/-! ## `STATUS` after a command, an access and a step -/

/-- No error is latched (R26, R28). -/
structure NoErrorLatched (s : State) : Prop where
  err     : s.status.err = false
  errcode : s.status.errcode = 0
  errinfo : s.errinfo = 0

theorem SameErrorLatch.noErrorLatched {s t : State} (h : SameErrorLatch s t) (hs : NoErrorLatched s) :
    NoErrorLatched t :=
  ⟨h.err.trans hs.err, h.errcode.trans hs.errcode, h.errinfo.trans hs.errinfo⟩

theorem statusLegal_complete {s : State} (h : NoErrorLatched s) : StatusLegal (complete s) where
  idle    := rfl
  oneEnd  := fun hd => Bool.false_ne_true (h.err.symm.trans hd.2)
  noError := fun _ => ⟨h.errcode, h.errinfo⟩
  error   := fun he => absurd (h.err.symm.trans he) Bool.false_ne_true

theorem statusLegal_takeError (closes : Bool) {k : ErrKind} (hk : raisedCode k.code = true) (info : Word) (s : State) :
    StatusLegal (takeError closes k info s) where
  idle    := rfl
  oneEnd  := fun hd => Bool.false_ne_true hd.1
  noError := fun he => absurd he.symm Bool.false_ne_true
  error   := fun _ => hk

theorem StatusLegal.congr {s t : State} (h : StatusLegal s) (hs : t.status = s.status) (hi : t.errinfo = s.errinfo) :
    StatusLegal t where
  idle    := hs ▸ h.idle
  oneEnd  := hs ▸ h.oneEnd
  noError := by rw [hs, hi]; exact h.noError
  error   := by rw [hs]; exact h.error

theorem statusLegal_hardReset (s : State) : StatusLegal (hardReset s) where
  idle    := rfl
  oneEnd  := fun hd => Bool.false_ne_true hd.1
  noError := fun _ => ⟨rfl, rfl⟩
  error   := fun he => absurd he Bool.false_ne_true

/-- A command that runs with no error latched, and `RESET` and `CLRERR` always, end in a legal `STATUS`. -/
theorem exec_statusLegal {i : Instr} {s t : State} (hs : NoErrorLatched s ∨ i = .reset ∨ i = .clrerr)
    (h : exec i s = .next t) : StatusLegal t := by
  cases hw : i.wellFormed with
  | false =>
    rw [exec_illFormed hw] at h
    cases h
    exact statusLegal_takeError false rfl _ s
  | true =>
    rw [exec_wellFormed hw] at h
    by_cases hr : i = .reset
    · subst hr
      cases h
      exact statusLegal_complete ⟨rfl, rfl, rfl⟩
    by_cases hc : i = .clrerr
    · subst hc
      cases h
      exact statusLegal_complete ⟨rfl, rfl, rfl⟩
    have hnone : NoErrorLatched s := by simpa [hr, hc] using hs
    obtain ⟨hsame, hkind⟩ := leaves_commandBody i hr hc s
    rcases runCommand_next h with ⟨u, hb, rfl⟩ | ⟨k, info, u, hb, rfl⟩
    · rw [hb] at hsame
      exact statusLegal_complete (hsame.noErrorLatched hnone)
    · exact statusLegal_takeError _ (hkind k info u hb) info u

theorem issue_statusLegal {w : Word} {s t : State} (hs : StatusLegal s) (h : issue w s = .next t) : StatusLegal t := by
  rcases issue_next h with rfl | ⟨i, hd, hacc, hx⟩ | rfl
  · exact hs
  · refine exec_statusLegal ?_ hx
    cases he : s.status.err with
    | false => exact .inl ⟨he, (hs.noError he).1, (hs.noError he).2⟩
    | true => exact .inr (decode_acceptedInError (hacc he) hd)
  · exact statusLegal_takeError false rfl w _

theorem accessed_statusLegal {op : HostOp} {s t : State} (hs : StatusLegal s) (h : Accessed op s t) : StatusLegal t := by
  cases h with
  | issued off bits w _ hi => exact issue_statusLegal hs hi
  | hardReset => exact statusLegal_hardReset s
  | _ => exact hs.congr rfl rfl

/-- Settles O25: an access either issues a command, which ends completed with no error latched or in an error of a kind
this block raises, or leaves `STATUS` and `ERRINFO`, or resets them. -/
theorem statusStaysLegal : Obligations.StatusStaysLegal := by
  intro s t hs h
  rcases step_next h with rfl | ⟨op, rest, _, ha⟩
  · exact hs
  · exact accessed_statusLegal (s := setPending rest s) (hs.congr rfl rfl) ha

end Sys2Proof.Machine
end

section
/-! The flags of the block and its coefficient words (R32): which writes keep them matched, and that every command
does. -/

namespace Sys2Proof.Machine

variable {α : Type}

/-! ## Magnitudes -/

/-- A word with a bit of its magnitude set has a magnitude. -/
theorem magnitude_ne_zero_of_bit {c : Word} {b : Nat} (hb : b ≤ 30) (h : c.getLsbD b = true) : magnitude c ≠ 0 := by
  intro h0
  have hz : c.extractLsb' 0 31 = 0#31 := BitVec.eq_of_toNat_eq h0
  have hbit := congrArg (fun x => x.getLsbD b) hz
  have hlt : b < 31 := by omega
  simp [hlt, h] at hbit

/-- The word written when a coefficient becomes significant has a magnitude, its bit `b` (R156). -/
theorem magnitude_firstWord (neg : Bool) {b : Nat} (hb : b ≤ 30) : magnitude (firstWord neg b) ≠ 0 := by
  refine magnitude_ne_zero_of_bit hb ?_
  have hlt : b < 32 := by omega
  simp [firstWord, hlt]

/-- Entering a further bit keeps a magnitude from being zero (R159). -/
theorem magnitude_refinedWord {c : Word} (d : Bool) (b : Nat) (h : magnitude c ≠ 0) :
    magnitude (refinedWord c d b) ≠ 0 := by
  intro h0
  refine h ?_
  rw [magnitude, refinedWord, BitVec.extractLsb'_or, BitVec.toNat_or, Nat.or_eq_zero_iff] at h0
  exact h0.1

/-! ## Writes that keep the flags matched -/

/-- The flags of one coefficient match its word (R32). -/
structure MatchedWord (f : CoefFlags) (c : Word) : Prop where
  sigma : f.sigma = true ↔ magnitude c ≠ 0
  sign  : c.msb = true → f.sigma = true
  rho   : f.rho = true → f.sigma = true

theorem flagsMatch_iff {s : State} :
    FlagsMatch s ↔ ∀ i, i < blockArea s → ∀ c, Memory.read s.coef i = some c → MatchedWord (flagAt s i) c :=
  ⟨fun h i hi c hc => ⟨(h i hi c hc).1, (h i hi c hc).2.1, (h i hi c hc).2.2⟩,
    fun h i hi c hc => ⟨(h i hi c hc).sigma, (h i hi c hc).sign, (h i hi c hc).rho⟩⟩

/-- A significant coefficient with a magnitude is matched. -/
theorem matchedWord_of_sigma {f : CoefFlags} {c : Word} (hf : f.sigma = true) (hc : magnitude c ≠ 0) : MatchedWord f c :=
  ⟨⟨fun _ => hc, fun _ => hf⟩, fun _ => hf, fun _ => hf⟩

theorem matchedWord_zero : MatchedWord ⟨false, false, false⟩ 0 :=
  ⟨by decide, by decide, by decide⟩

theorem blockArea_congr {s t : State} (hl : t.lat.lw = s.lat.lw) (hh : t.lat.lh = s.lat.lh) :
    blockArea t = blockArea s := by
  rw [blockArea, blockArea, hl, hh]

/-- Only the geometry, COEF and FLAG matter. -/
theorem FlagsMatch.congr {s t : State} (h : FlagsMatch s) (hl : t.lat.lw = s.lat.lw) (hh : t.lat.lh = s.lat.lh)
    (hc : t.coef = s.coef) (hf : t.flag = s.flag) : FlagsMatch t := by
  intro i hi c hr
  rw [blockArea_congr hl hh] at hi
  rw [hc] at hr
  rw [flagAt, hf]
  exact h i hi c hr

/-- A block of no coefficients has nothing to match. -/
theorem flagsMatch_of_empty {s : State} (h : blockArea s = 0) : FlagsMatch s :=
  fun i hi => absurd (h ▸ hi) (Nat.not_lt_zero i)

/-- A write of one coefficient's flags keeps the others matched; its own must match the word that is there. -/
theorem flagsMatch_writeFlag {s : State} {i : Nat} {f : CoefFlags} (h : FlagsMatch s)
    (hi : ∀ c, i < blockArea s → Memory.read s.coef i = some c → MatchedWord f c) : FlagsMatch (writeFlag i f s) := by
  rw [flagsMatch_iff] at h ⊢
  intro k hk c hc
  rw [flagAt_writeFlag]
  split
  · subst k; exact hi c hk hc
  · exact h k hk c hc

/-- A write of π changes nothing that has to match. -/
theorem flagsMatch_writePi {s : State} (i : Nat) (v : Bool) (h : FlagsMatch s) :
    FlagsMatch (writeFlag i { flagAt s i with pi := v } s) :=
  flagsMatch_writeFlag h fun c hi hc =>
    have hm := flagsMatch_iff.mp h i hi c hc
    ⟨hm.sigma, hm.sign, hm.rho⟩

/-- A write of one word together with its flags, the two matched. -/
theorem flagsMatch_writeBoth {s : State} {i : Nat} {f : CoefFlags} {v : Word} (h : FlagsMatch s)
    (hm : i < blockArea s → MatchedWord f v) : FlagsMatch (writeFlag i f (writeCoef i v s)) := by
  rw [flagsMatch_iff] at h ⊢
  intro k hk c hc
  rw [writeFlag_coef, writeCoef_coef, Memory.read_write] at hc
  rw [flagAt_writeFlag]
  split at hc
  · cases hc
    rw [if_pos ‹k = i›]
    exact hm (‹k = i› ▸ hk)
  · rw [if_neg ‹¬k = i›]
    exact h k hk c hc

theorem flagsMatch_markSignificant {s : State} (y x : Nat) {b : Nat} (hb : b ≤ 30) (neg : Bool) (h : FlagsMatch s) :
    FlagsMatch (markSignificant y x b neg s) :=
  flagsMatch_writeBoth h fun _ => matchedWord_of_sigma rfl (magnitude_firstWord neg hb)

/-- A refinement of a significant coefficient (R159). -/
theorem flagsMatch_refine {s : State} {y x : Nat} {c : Word} (d : Bool) (b : Nat) (h : FlagsMatch s)
    (hsig : (flagAt s (coefIndex s y x)).sigma = true) (hc : Memory.read s.coef (coefIndex s y x) = some c) :
    FlagsMatch (setRefined y x (writeCoef (coefIndex s y x) (refinedWord c d b) s)) :=
  flagsMatch_writeBoth h fun hi =>
    matchedWord_of_sigma hsig (magnitude_refinedWord d b (((flagsMatch_iff.mp h) _ hi c hc).sigma.mp hsig))

/-! ## Computations that keep the flags matched -/

/-- A read of COEF that completes answers a written word, and changes nothing. -/
theorem readCoef_eq_ok {s t : State} {i : Nat} {c : Word} (h : readCoef i s = .ok c t) :
    t = s ∧ Memory.read s.coef i = some c := by
  cases hr : Memory.read s.coef i with
  | some v =>
    rw [readCoef_ok hr] at h
    cases h
    exact ⟨rfl, rfl⟩
  | none =>
    simp only [readCoef, eng_bind, eng_get, hr, eng_stopModel] at h
    cases h

/-- What only makes changes of a kind that keeps the flags matched keeps them matched. -/
theorem keeps_of_frame {P : State → Prop} {R : State → State → Prop} {m : Eng α} (hr : ∀ s, R s s)
    (hm : ∀ s0, Keeps (R s0) m) (hp : ∀ s t, R s t → P s → P t) : Keeps P m :=
  fun s hs => hp s _ (hm s s (hr s)) hs

theorem DecoderOnly.flagsMatch {s t : State} (h : DecoderOnly s t) (hs : FlagsMatch s) : FlagsMatch t :=
  hs.congr (by rw [h.lat]) (by rw [h.lat]) h.coef h.flag

theorem keepsMatch_of_decoder {m : Eng α} (h : ∀ s0, Keeps (DecoderOnly s0) m) : Keeps FlagsMatch m :=
  keeps_of_frame DecoderOnly.refl h fun _ _ => DecoderOnly.flagsMatch

theorem keepsMatch_of_samp {m : Eng α} (h : ∀ s0, Keeps (SampOnly s0) m) : Keeps FlagsMatch m :=
  keeps_of_frame SampOnly.refl h fun _ _ hst hs =>
    hs.congr (by rw [hst.kept.lat]) (by rw [hst.kept.lat]) hst.kept.coef hst.kept.flag

/-- A change of the state outside the geometry, COEF and FLAG. -/
theorem keepsMatch_modify {f : State → State} (hl : ∀ s, (f s).lat.lw = s.lat.lw) (hh : ∀ s, (f s).lat.lh = s.lat.lh)
    (hc : ∀ s, (f s).coef = s.coef) (hf : ∀ s, (f s).flag = s.flag) : Keeps FlagsMatch (modify f : Eng PUnit) :=
  keeps_modify fun s hs => hs.congr (hl s) (hh s) (hc s) (hf s)

theorem keepsMatch_decodeBit (cx : Fin 19) : Keeps FlagsMatch (decodeBit cx) :=
  keepsMatch_of_decoder fun s0 => keeps_decodeBit_only s0 cx

theorem keepsMatch_becomeSignificant (y x : Nat) {b : Nat} (hb : b ≤ 30) : Keeps FlagsMatch (becomeSignificant y x b) :=
  keeps_bind (keepsMatch_of_decoder fun s0 => keeps_decodeSign_only s0 y x) fun neg =>
    keeps_modify fun _ => flagsMatch_markSignificant y x hb neg

theorem keepsMatch_spVisit {b : Nat} (hb : b ≤ 30) (p : Nat × Nat) : Keeps FlagsMatch (spVisit b p) :=
  keeps_bind (keeps_get _) fun _ => keeps_ite
    (keeps_bind (keepsMatch_decodeBit _) fun _ => keeps_bind (keeps_onlyIf (keepsMatch_becomeSignificant _ _ hb)) fun _ =>
      keeps_modify fun _ => flagsMatch_writePi _ true)
    (keeps_pure _ _)

/-- A visit of the refinement pass, by whether the coefficient is significant and not yet visited (R159). -/
theorem mrVisit_eq (b : Nat) (p : Nat × Nat) (s : State) :
    mrVisit b p s =
      if (flagAt s (coefIndex s p.1 p.2)).sigma && !(flagAt s (coefIndex s p.1 p.2)).pi then
        (do
          let d ← decodeBit (mrc s p.1 p.2)
          let c ← readCoef (coefIndex s p.1 p.2)
          modify (writeCoef (coefIndex s p.1 p.2) (refinedWord c d b))
          modify (setRefined p.1 p.2) : Eng Unit) s
      else .ok () s := by
  rw [mrVisit, eng_bind_ok (eng_get s)]
  cases (flagAt s (coefIndex s p.1 p.2)).sigma && !(flagAt s (coefIndex s p.1 p.2)).pi <;> rfl

/-- The coefficient refined is the one found significant: the decision between leaves the flags. -/
theorem keepsMatch_mrVisit (b : Nat) (p : Nat × Nat) : Keeps FlagsMatch (mrVisit b p) := by
  intro s hs
  rw [mrVisit_eq]
  split
  · rename_i hvisit
    have hsig := (Bool.and_eq_true_iff.mp hvisit).1
    have hdec := keeps_decodeBit_only s (mrc s p.1 p.2) s (DecoderOnly.refl s)
    cases hd : decodeBit (mrc s p.1 p.2) s with
    | error e t =>
      rw [hd] at hdec
      rw [eng_bind_error hd]
      exact hdec.flagsMatch hs
    | ok d t =>
      rw [hd, endState_ok] at hdec
      have ht : FlagsMatch t := hdec.flagsMatch hs
      have hidx : coefIndex s p.1 p.2 = coefIndex t p.1 p.2 := by rw [coefIndex, coefIndex, hdec.lat]
      have hflag : flagAt s (coefIndex s p.1 p.2) = flagAt t (coefIndex s p.1 p.2) := by rw [flagAt, flagAt, hdec.flag]
      rw [hflag, hidx] at hsig
      rw [eng_bind_ok hd, hidx]
      have hread := readCoef_state (coefIndex t p.1 p.2) t
      cases hc : readCoef (coefIndex t p.1 p.2) t with
      | error e u =>
        rw [hc] at hread
        rw [eng_bind_error hc]
        exact hread ▸ ht
      | ok c u =>
        obtain ⟨rfl, hc'⟩ := readCoef_eq_ok hc
        rw [eng_bind_ok hc]
        exact flagsMatch_refine d b ht hsig hc'
  · exact hs

theorem keepsMatch_cuVisit {b : Nat} (hb : b ≤ 30) (x y : Nat) : Keeps FlagsMatch (cuVisit b x y) :=
  keeps_bind (keeps_get _) fun _ => keeps_ite
    (keeps_bind (keepsMatch_decodeBit _) fun _ => keeps_onlyIf (keepsMatch_becomeSignificant _ _ hb))
    (keeps_pure _ _)

theorem keepsMatch_runLength {b : Nat} (hb : b ≤ 30) (y0 x : Nat) : Keeps FlagsMatch (runLength b y0 x) :=
  keeps_bind (keepsMatch_decodeBit _) fun _ => keeps_ite
    (keeps_bind (keepsMatch_decodeBit _) fun _ => keeps_bind (keepsMatch_decodeBit _) fun _ =>
      keeps_bind (keepsMatch_becomeSignificant _ _ hb) fun _ => keeps_pure _ _)
    (keeps_pure _ _)

theorem keepsMatch_cuColumn {b : Nat} (hb : b ≤ 30) (p : Nat × Nat) : Keeps FlagsMatch (cuColumn b p) := by
  refine keeps_bind (keeps_get _) fun _ => keeps_ite (keeps_bind (keepsMatch_runLength hb _ _) fun start => ?_)
    (keeps_forEach fun _ _ => keepsMatch_cuVisit hb _ _)
  cases start with
  | none => exact keeps_pure _ _
  | some k => exact keeps_forEach fun _ _ => keepsMatch_cuVisit hb _ _

theorem keepsMatch_countPass : Keeps FlagsMatch (modify countPass : Eng PUnit) :=
  keepsMatch_modify (fun _ => rfl) (fun _ => rfl) (fun _ => rfl) (fun _ => rfl)

theorem keepsMatch_passSp {b : Nat} (hb : b ≤ 30) : Keeps FlagsMatch (passSp b) :=
  keeps_bind (keeps_get _) fun _ => keeps_bind (keeps_forEach fun p _ => keepsMatch_spVisit hb p) fun _ =>
    keepsMatch_countPass

theorem keepsMatch_passMr (b : Nat) : Keeps FlagsMatch (passMr b) :=
  keeps_bind (keeps_get _) fun _ => keeps_bind (keeps_forEach fun p _ => keepsMatch_mrVisit b p) fun _ =>
    keepsMatch_countPass

theorem keepsMatch_passCu {b : Nat} (hb : b ≤ 30) : Keeps FlagsMatch (passCu b) :=
  keeps_bind (keeps_get _) fun _ => keeps_bind (keeps_forEach fun p _ => keepsMatch_cuColumn hb p) fun _ =>
    keeps_bind (keeps_forEach fun i _ => keeps_modify fun _ => flagsMatch_writePi i false) fun _ => keepsMatch_countPass

theorem keepsMatch_runPass (t : PassType) {b : Nat} (hb : b ≤ 30) : Keeps FlagsMatch (runPass t b) := by
  cases t with
  | sp => exact keepsMatch_passSp hb
  | mr => exact keepsMatch_passMr b
  | cu => exact keepsMatch_passCu hb

theorem keeps_initDecoder_only (s0 : State) : Keeps (DecoderOnly s0) initDecoder :=
  have hset : ∀ f : State → MqRegs, Keeps (DecoderOnly s0) (modify (fun s => setMq (f s) s) : Eng PUnit) := fun _ =>
    keeps_modify fun _ hs => hs.trans (DecoderOnly.setMq _ _)
  keeps_bind (hset _) fun _ => keeps_bind (keeps_bsRead _ _) fun _ => keeps_bind (hset _) fun _ =>
    keeps_bind (keeps_byteIn_only s0) fun _ => hset _

theorem passBit_le (zbp p : Nat) : passBit zbp p ≤ 30 := by
  rw [passBit]; omega

theorem keepsMatch_decodePasses (npass zbp : Nat) : Keeps FlagsMatch (decodePasses npass zbp) :=
  keeps_bind (keepsMatch_of_decoder keeps_initDecoder_only) fun _ =>
    keeps_forEach fun p _ => keepsMatch_runPass (passTypeOf p) (passBit_le zbp p)

/-! ## Commands that clear the grid -/

/-- Where the grid is cleared over the whole block, the flags are matched whatever they were, and stay so over a rest
that keeps them matched. -/
theorem flagsMatch_clearGrid_bind {n : Nat} {s : State} (hn : blockArea s ≤ n) {rest : Eng Unit}
    (hrest : Keeps FlagsMatch rest) : FlagsMatch (endState ((clearGrid n >>= fun _ => rest) s)) := by
  obtain ⟨t, hok, hframe, hclear, _⟩ := clearGrid_ok n s
  rw [eng_bind_ok hok]
  have hlat : t.lat = s.lat := by rw [hframe]
  refine hrest t (flagsMatch_iff.mpr fun i hi c hc => ?_)
  rw [blockArea_congr (s := s) (by rw [hlat]) (by rw [hlat])] at hi
  obtain ⟨hcoef, hflag⟩ := hclear i (Nat.lt_of_lt_of_le hi hn)
  rw [hcoef] at hc
  cases hc
  rw [hflag]
  exact matchedWord_zero

theorem keepsMatch_setSession (f : State → Bool × Bool) :
    Keeps FlagsMatch (modify (fun s => setSession (f s).1 (f s).2 s) : Eng PUnit) :=
  keepsMatch_modify (fun _ => rfl) (fun _ => rfl) (fun _ => rfl) (fun _ => rfl)

theorem keepsMatch_resetContexts : Keeps FlagsMatch (modify resetContexts : Eng PUnit) :=
  keepsMatch_modify (fun _ => rfl) (fun _ => rfl) (fun _ => rfl) (fun _ => rfl)

/-- After the checks, a body that latches the geometry and then clears that many coefficients. -/
theorem keepsMatch_t1StartBody : Keeps FlagsMatch t1StartBody := by
  refine keeps_get_bind fun s hs => ?_
  cases hf : firstFailure (startChecks s.par) with
  | some n => rw [eng_bind_error (requireGeometry_fails hf s)]; exact hs
  | none =>
    rw [eng_bind_ok (requireGeometry_ok hf s), eng_bind_ok (eng_modify _ _), eng_bind_ok (eng_modify _ _),
      eng_bind_ok (eng_modify _ _)]
    refine flagsMatch_clearGrid_bind ?_
      (keeps_bind keepsMatch_resetContexts fun _ => keepsMatch_setSession fun t => (true, t.status.mqrdy))
    exact Nat.le_refl _

theorem keepsMatch_t1DecodeBody : Keeps FlagsMatch t1DecodeBody := by
  refine keeps_get_bind fun s hs => ?_
  cases hf : firstFailure (decodeChecks s.cap s.par) with
  | some n => rw [eng_bind_error (requireGeometry_fails hf s)]; exact hs
  | none =>
    rw [eng_bind_ok (requireGeometry_ok hf s), eng_bind_ok (eng_modify _ _), eng_bind_ok (eng_modify _ _),
      eng_bind_ok (eng_modify _ _), eng_bind_ok (eng_modify _ _)]
    refine flagsMatch_clearGrid_bind ?_
      (keeps_bind keepsMatch_resetContexts fun _ => keeps_bind (keeps_onlyIf (keepsMatch_decodePasses _ _)) fun _ =>
        keepsMatch_setSession fun _ => (false, false))
    exact Nat.le_refl _

/-! ## Every command, access and step -/

theorem keepsMatch_mqInitBody : Keeps FlagsMatch mqInitBody :=
  keeps_bind (keeps_get _) fun _ => keeps_bind (keeps_requireGeometry _ _) fun _ =>
    keeps_bind (keepsMatch_setSession fun t => (t.status.session, false)) fun _ =>
      keeps_bind (keepsMatch_modify (fun _ => rfl) (fun _ => rfl) (fun _ => rfl) (fun _ => rfl)) fun _ =>
        keeps_bind (keepsMatch_of_decoder keeps_initDecoder_only) fun _ =>
          keepsMatch_setSession fun t => (t.status.session, true)

theorem keepsMatch_mqDecodeBody (word : Word) (cx : Fin 19) : Keeps FlagsMatch (mqDecodeBody word cx) :=
  keeps_bind (keeps_get _) fun _ => keeps_ite (keeps_bind (keepsMatch_decodeBit cx) fun _ => keeps_pure _ _)
    (keeps_raise _ _ _)

theorem keepsMatch_passBody (word : Word) {pass : Eng Unit} (h : Keeps FlagsMatch pass) :
    Keeps FlagsMatch (passBody word pass) :=
  keeps_bind (keeps_bind (keeps_get _) fun _ => keeps_ite (keeps_pure _ _) (keeps_raise _ _ _)) fun _ => h

theorem keepsMatch_sr2d (g : Region) (ker : Kernel) : Keeps FlagsMatch (sr2d g ker) :=
  keepsMatch_of_samp fun s0 => keeps_sr2d s0 g ker

theorem keepsMatch_deqBlock (p : ParamRegs) (f : Word → Word) : Keeps FlagsMatch (deqBlock p f) :=
  keepsMatch_of_samp fun s0 => keeps_deqBlock s0 p f

theorem keepsMatch_drawFree : Keeps FlagsMatch (modify drawFree : Eng PUnit) :=
  keepsMatch_modify (fun _ => rfl) (fun _ => rfl) (fun _ => rfl) (fun _ => rfl)

theorem legalPlane_le {b : BitVec 8} (h : legalPlane b = true) : b.toNat ≤ 30 := of_decide_eq_true h

/-- The body of every command with a legal operand keeps the flags matched, completed or stopped. -/
theorem keepsMatch_commandBody {i : Instr} (hw : i.wellFormed = true) : Keeps FlagsMatch (commandBody i) := by
  cases i with
  | nop => exact keeps_pure _ _
  | reset => exact keeps_modify fun s _ => flagsMatch_of_empty rfl
  | clrerr => exact keepsMatch_modify (fun _ => rfl) (fun _ => rfl) (fun _ => rfl) (fun _ => rfl)
  | mqResetcx => exact keepsMatch_resetContexts
  | mqInit => exact keepsMatch_mqInitBody
  | mqDecode cx => exact keepsMatch_mqDecodeBody _ _
  | t1Start => exact keepsMatch_t1StartBody
  | t1Sp b => exact keepsMatch_passBody _ (keepsMatch_passSp (legalPlane_le hw))
  | t1Mr b => exact keepsMatch_passBody _ (keepsMatch_passMr _)
  | t1Cu b => exact keepsMatch_passBody _ (keepsMatch_passCu (legalPlane_le hw))
  | t1Decode => exact keepsMatch_t1DecodeBody
  | deqRev =>
    exact keeps_bind (keeps_get _) fun _ => keeps_bind (keeps_requireGeometry _ _) fun _ => keepsMatch_deqBlock _ _
  | deqIrr =>
    exact keeps_bind (keeps_get _) fun _ => keeps_bind (keeps_requireGeometry _ _) fun _ => keepsMatch_deqBlock _ _
  | idwtLevelR53 lev =>
    exact keeps_bind (keeps_get _) fun _ => keeps_bind (keeps_requireGeometry _ _) fun _ => keepsMatch_sr2d _ _
  | idwtLevelI97 lev =>
    exact keeps_bind (keeps_get _) fun _ => keeps_bind (keeps_requireGeometry _ _) fun _ =>
      keeps_bind keepsMatch_drawFree fun _ => keepsMatch_sr2d _ _
  | idwtFullR53 =>
    exact keeps_bind (keeps_get _) fun _ => keeps_bind (keeps_requireGeometry _ _) fun _ =>
      keeps_forEach fun _ _ => keepsMatch_sr2d _ _
  | idwtFullI97 =>
    exact keeps_bind (keeps_get _) fun _ => keeps_bind (keeps_requireGeometry _ _) fun _ =>
      keeps_bind keepsMatch_drawFree fun _ => keeps_forEach fun _ _ => keepsMatch_sr2d _ _

theorem exec_flagsMatch {i : Instr} {s t : State} (hs : FlagsMatch s) (h : exec i s = .next t) : FlagsMatch t := by
  cases hw : i.wellFormed with
  | false =>
    rw [exec_illFormed hw] at h
    cases h
    exact hs.congr rfl rfl rfl rfl
  | true =>
    rw [exec_wellFormed hw] at h
    exact runCommand_keeps (keepsMatch_commandBody hw) (fun _ hu => hu.congr rfl rfl rfl rfl)
      (fun _ _ _ hu => hu.congr rfl rfl rfl rfl) hs h

theorem issue_flagsMatch {w : Word} {s t : State} (hs : FlagsMatch s) (h : issue w s = .next t) : FlagsMatch t := by
  rcases issue_next h with rfl | ⟨i, _, _, hx⟩ | rfl
  · exact hs
  · exact exec_flagsMatch (s := accept s) (hs.congr rfl rfl rfl rfl) hx
  · exact hs.congr rfl rfl rfl rfl

theorem accessed_flagsMatch {op : HostOp} {s t : State} (hs : FlagsMatch s) (hop : ∀ i v, op ≠ .writeCoef i v)
    (h : Accessed op s t) : FlagsMatch t := by
  cases h with
  | issued off bits w _ hi => exact issue_flagsMatch hs hi
  | wroteCoef i v he _ => exact absurd he (hop i v)
  | hardReset => exact flagsMatch_of_empty rfl
  | _ => exact hs.congr rfl rfl rfl rfl

/-- Settles O28: the engine writes a word of COEF together with its flags, the grid is cleared where the geometry
changes, and of the host's accesses only a write to COEF touches what has to match. -/
theorem commandsKeepFlagsMatched : Obligations.CommandsKeepFlagsMatched := by
  refine ⟨fun i s t => exec_flagsMatch, fun s t hs hop h => ?_⟩
  rcases step_next h with rfl | ⟨op, rest, hp, ha⟩
  · exact hs
  · refine accessed_flagsMatch (s := setPending rest s) (hs.congr rfl rfl rfl rfl) (fun i v he => ?_) ha
    exact hop i v rest (he ▸ hp)

end Sys2Proof.Machine
end

section
/-! Reset and the register space: the state hardware reset leaves (R34, R300), the parameter registers as storage
(R25, R254, R255), and the observation registers as words (R26, R28). -/

namespace Sys2Proof.Machine

/-! ## Reset -/

/-- The initial states, context by context (R121). -/
theorem initialContexts_get : ∀ c : Fin 19, initialContexts.get c =
    if c = 0 then ⟨4, false⟩ else if c = 17 then ⟨3, false⟩ else if c = 18 then ⟨46, false⟩ else ⟨0, false⟩ := by
  decide

theorem readParam_zero (n : ParamName) : readParam ParamRegs.zero n = 0 := by
  cases n <;> rfl

/-- Hardware reset is taken whether the block is idle or busy. -/
theorem hostAccess_hardReset (s : State) : hostAccess .hardReset s = .next (hardReset s) := by
  rw [hostAccess]
  split <;> rfl

/-- Settles O11: reset from outside runs `hardReset` whether the block is idle or busy, and its fields are read off. -/
theorem hardwareResetState : Obligations.HardwareResetState := by
  refine ⟨⟨rfl, rfl, rfl, readParam_zero, rfl, rfl, initialContexts_get, fun _ => ⟨rfl, rfl, rfl, rfl⟩⟩, step_idle rfl,
    fun s rest hp => ⟨hardReset (setPending rest s), ?_, ?_, rfl, rfl, rfl, rfl⟩⟩
  · rw [step_access hp, hostAccess_hardReset]
  · exact ⟨rfl, rfl, rfl, readParam_zero, rfl, rfl, initialContexts_get, fun _ => ⟨rfl, rfl, rfl, rfl⟩⟩

theorem statusLegal_reset : StatusLegal State.reset := statusLegal_hardReset State.reset

theorem memoriesLegal_reset : MemoriesLegal State.reset where
  bsWf     := Memory.wf_nil
  coefWf   := Memory.wf_nil
  flagWf   := Memory.wf_nil
  sampWf   := Memory.wf_nil
  bsIn     := fun _ h => absurd h List.not_mem_nil
  coefIn   := fun _ h => absurd h List.not_mem_nil
  flagIn   := fun _ h => absurd h List.not_mem_nil
  sampIn   := fun _ h => absurd h List.not_mem_nil
  flagShow := fun _ h => absurd h List.not_mem_nil

/-- No session is open. -/
theorem sessionLegal_reset : SessionLegal State.reset where
  width  := fun h => absurd h Bool.false_ne_true
  height := fun h => absurd h Bool.false_ne_true
  area   := fun h => absurd h Bool.false_ne_true
  grid   := fun h => absurd h Bool.false_ne_true

/-- The arithmetic decoder is not initialised. -/
theorem decoderLegal_reset : DecoderLegal State.reset where
  interval := fun h => absurd h Bool.false_ne_true
  counter  := fun h => absurd h Bool.false_ne_true
  pointer  := fun h => absurd h Bool.false_ne_true
  length   := fun h => absurd h Bool.false_ne_true

/-- Settles O24: at reset no error is latched, every memory is empty, and no session or block is open. -/
theorem resetStateIsLegal : Obligations.ResetStateIsLegal :=
  ⟨statusLegal_reset, memoriesLegal_reset, sessionLegal_reset, decoderLegal_reset, flagsMatch_of_empty rfl⟩

/-! ## Register accesses of an idle block -/

/-- A step of an idle block is the host's next access (R254, R255). -/
theorem step_accessIdle {s : State} {op : HostOp} {rest : List HostOp} (hb : s.status.busy = false)
    (hp : s.pending = op :: rest) : step s = accessIdle op (setPending rest s) :=
  (step_access hp).trans (hostAccess_idle op hb)

/-- What the host has still to do shows in no register. -/
theorem loadReg_setPending (r : Option Reg) (rest : List HostOp) (s : State) :
    loadReg r (setPending rest s) = loadReg r s := by
  cases r with
  | none => rfl
  | some x => cases x <;> rfl

/-- A 32-bit write to a parameter register stores the value (R254). -/
theorem step_writeParam {s : State} {n : ParamName} {v : Word} {rest : List HostOp} (hb : s.status.busy = false)
    (hp : s.pending = .writeReg n.offset 32 v :: rest) :
    step s = .next (setPar (writeParam s.par n v) (setPending rest s)) := by
  have hne : accessedReg n.offset 32 ≠ some .cmd := by rw [accessedReg_word, regAt_param]; exact nofun
  rw [step_accessIdle hb hp, accessIdle, if_neg hne, accessedReg_word, regAt_param]
  rfl

/-- A 32-bit read of REG gives the host the register's value, 0 where none is listed (R255). -/
theorem step_readReg {s : State} {off : Nat} {rest : List HostOp} (hb : s.status.busy = false)
    (hp : s.pending = .readReg off 32 :: rest) :
    step s = .next { s with pending := rest, hostData := loadReg (regAt off) s } := by
  rw [step_accessIdle hb hp, accessIdle, accessedReg_word, loadReg_setPending]
  rfl

/-- Settles O19: the write stores into the named parameter alone, and the read finds the register at the same offset. -/
theorem parameterRegistersHoldWhatIsWritten : Obligations.ParameterRegistersHoldWhatIsWritten := by
  intro s n v rest hb hp
  refine ⟨writeParam s.par n v, readParam_writeParam_same _ _ _, fun m hm => readParam_writeParam_other _ _ hm,
    step_writeParam hb hp, ?_⟩
  set u : State := { s with pending := .readReg n.offset 32 :: rest, par := writeParam s.par n v }
  have hread : loadReg (regAt n.offset) u = v := by
    rw [regAt_param]
    exact readParam_writeParam_same s.par n v
  rw [step_readReg (s := u) hb rfl, hread]

/-! ## The observation registers as words -/

theorem flagBit_toNat (b : Bool) {pos : Nat} (h : pos < 32) : (flagBit b pos).toNat = b.toNat * 2 ^ pos := by
  cases b
  · simp [flagBit]
  · have : 2 ^ pos < 2 ^ 32 := Nat.pow_lt_pow_right (by omega) h
    simp [flagBit, Nat.shiftLeft_eq]
    omega

/-- The fields of `STATUS` do not overlap: as a number the word is the sum of its fields (R26). -/
theorem statusWord_toNat (f : StatusFlags) : (statusWord f).toNat =
    f.busy.toNat + 2 * f.done.toNat + 4 * f.err.toNat + 8 * f.session.toNat + 16 * f.mqrdy.toNat +
      256 * f.errcode.toNat := by
  have hall : ∀ (busy done err session mqrdy : Bool) (errcode : BitVec 4),
      (statusWord ⟨busy, done, err, session, mqrdy, errcode⟩).toNat =
        busy.toNat + 2 * done.toNat + 4 * err.toNat + 8 * session.toNat + 16 * mqrdy.toNat + 256 * errcode.toNat := by
    decide +kernel
  exact hall f.busy f.done f.err f.session f.mqrdy f.errcode

/-- `I[cx]` and `MPS[cx]` do not overlap in `MQ_CX[cx]` (R25). -/
theorem ctxWord_toNat (e : CtxEntry) : (ctxWord e).toNat = e.idx.val + 128 * e.mps.toNat := by
  have hall : ∀ (idx : Fin 47) (mps : Bool), (ctxWord ⟨idx, mps⟩).toNat = idx.val + 128 * mps.toNat := by decide +kernel
  exact hall e.idx e.mps

theorem regAt_context (c : Fin 19) : regAt (0x100 + 4 * c.val) = some (.mqCx c) := by
  revert c
  decide

/-- Settles O21: a read answers the register at its offset, and each register's word is the sum of its fields. -/
theorem observationRegistersRead : Obligations.ObservationRegistersRead := by
  intro s off rest hb hp
  refine ⟨loadReg (regAt off) s, step_readReg hb hp, ?_, ?_, ?_, ?_, ?_, ?_, ?_, ?_, ?_⟩
  · rintro rfl
    show (statusWord s.status).toNat = _
    rw [statusWord_toNat, hb]
    simp
  · rintro rfl; rfl
  · rintro rfl; rfl
  · rintro rfl
    exact BitVec.toNat_setWidth_of_le (by decide)
  · rintro rfl; rfl
  · rintro rfl
    exact BitVec.toNat_setWidth_of_le (by decide)
  · rintro rfl; rfl
  · rintro rfl
    show (flagBit s.mq.d 0).toNat = _
    rw [flagBit_toNat _ (by decide), Nat.pow_zero, Nat.mul_one]
  · rintro c rfl
    rw [regAt_context]
    exact ctxWord_toNat (ctxAt s c)

end Sys2Proof.Machine
end

section
/-! What a part of a command may write, and how it may stop (R60, R62, R70): one relation for each family of commands,
and the rule that a fault names an element nothing had written when the part began. -/

namespace Sys2Proof.Machine

variable {α β : Type}

/-! ## Memories that are written into -/

/-- The canonical form is kept, and what was listed is still listed. -/
structure Rewritten (m n : Memory α) : Prop where
  wf  : Memory.wf m → Memory.wf n
  has : ∀ i, Memory.has m i = true → Memory.has n i = true

theorem Rewritten.refl (m : Memory α) : Rewritten m m := ⟨id, fun _ => id⟩

theorem Rewritten.trans {m n k : Memory α} (h : Rewritten m n) (g : Rewritten n k) : Rewritten m k :=
  ⟨g.wf ∘ h.wf, fun i => g.has i ∘ h.has i⟩

theorem Rewritten.of_eq {m n : Memory α} (h : n = m) : Rewritten m n := h ▸ Rewritten.refl m

theorem Rewritten.write (m : Memory α) (i : Nat) (v : α) : Rewritten m (Memory.write m i v) :=
  ⟨Memory.wf_write m i v, fun k => Memory.has_write m i k v⟩

theorem Memory.has_eq_false {m : Memory α} {i : Nat} : Memory.has m i = false ↔ Memory.read m i = none := by
  rw [Memory.has, Option.isSome_eq_false_iff, Option.isNone_iff_eq_none]

/-- What is unwritten now was unwritten before. -/
theorem Rewritten.unwritten {m n : Memory α} (h : Rewritten m n) {i : Nat} (hn : Memory.read n i = none) :
    Memory.read m i = none := by
  rw [← Memory.has_eq_false] at hn ⊢
  exact Bool.eq_false_iff.mpr fun hm => Bool.eq_false_iff.mp hn (h.has i hm)

/-! ## What each family of commands may write -/

theorem HostSideKept.refl (s : State) : HostSideKept s s := ⟨rfl, rfl, rfl, rfl⟩

theorem HostSideKept.trans {s t u : State} (h : HostSideKept s t) (k : HostSideKept t u) : HostSideKept s u :=
  ⟨k.par.trans h.par, k.cap.trans h.cap, k.pending.trans h.pending, k.hostData.trans h.hostData⟩

theorem DecoderSideKept.refl (s : State) : DecoderSideKept s s := ⟨.refl s, rfl, rfl, rfl⟩

theorem DecoderSideKept.trans {s t u : State} (h : DecoderSideKept s t) (k : DecoderSideKept t u) :
    DecoderSideKept s u :=
  ⟨h.host.trans k.host, k.bs.trans h.bs, k.samp.trans h.samp, k.free.trans h.free⟩

theorem SampleSideKept.refl (s : State) : SampleSideKept s s := ⟨.refl s, rfl, rfl, rfl, rfl, rfl, rfl, rfl⟩

theorem SampleSideKept.trans {s t u : State} (h : SampleSideKept s t) (k : SampleSideKept t u) : SampleSideKept s u :=
  ⟨h.host.trans k.host, k.passDone.trans h.passDone, k.mq.trans h.mq, k.cx.trans h.cx, k.lat.trans h.lat,
    k.bs.trans h.bs, k.coef.trans h.coef, k.flag.trans h.flag⟩

/-- A system or `MQ.*` command writes registers only. -/
structure RegistersWritten (s t : State) : Prop where
  side : DecoderSideKept s t
  coef : t.coef = s.coef
  flag : t.flag = s.flag

/-- A `T1.*` command writes registers, COEF and FLAG; COEF and FLAG stay canonical, and COEF loses no element. -/
structure BlockWritten (s t : State) : Prop where
  side     : DecoderSideKept s t
  coef     : Rewritten s.coef t.coef
  flagWf   : Memory.wf s.flag → Memory.wf t.flag
  flagShow : (∀ p ∈ s.flag, p.2 ≠ unlistedFlag) → ∀ p ∈ t.flag, p.2 ≠ unlistedFlag

/-- A `DEQ.*` or `IDWT.*` command writes `STATUS`, SAMP and the free values; SAMP stays canonical and loses no
element. -/
structure PlaneWritten (s t : State) : Prop where
  side : SampleSideKept s t
  samp : Rewritten s.samp t.samp

theorem RegistersWritten.blockWritten {s t : State} (h : RegistersWritten s t) : BlockWritten s t :=
  ⟨h.side, .of_eq h.coef, h.flag ▸ id, h.flag ▸ id⟩

theorem RegistersWritten.setSession (b c : Bool) (s : State) : RegistersWritten s (setSession b c s) :=
  ⟨⟨⟨rfl, rfl, rfl, rfl⟩, rfl, rfl, rfl⟩, rfl, rfl⟩

theorem RegistersWritten.setLatches (l : Latches) (s : State) : RegistersWritten s (setLatches l s) :=
  ⟨⟨⟨rfl, rfl, rfl, rfl⟩, rfl, rfl, rfl⟩, rfl, rfl⟩

theorem RegistersWritten.setPassDone (n : Word) (s : State) : RegistersWritten s (setPassDone n s) :=
  ⟨⟨⟨rfl, rfl, rfl, rfl⟩, rfl, rfl, rfl⟩, rfl, rfl⟩

theorem RegistersWritten.resetContexts (s : State) : RegistersWritten s (resetContexts s) :=
  ⟨⟨⟨rfl, rfl, rfl, rfl⟩, rfl, rfl, rfl⟩, rfl, rfl⟩

theorem RegistersWritten.acknowledgeError (s : State) : RegistersWritten s (acknowledgeError s) :=
  ⟨⟨⟨rfl, rfl, rfl, rfl⟩, rfl, rfl, rfl⟩, rfl, rfl⟩

theorem DecoderOnly.registersWritten {s t : State} (h : DecoderOnly s t) : RegistersWritten s t :=
  ⟨h.kept, h.coef, h.flag⟩

theorem DecoderOnly.blockWritten {s t : State} (h : DecoderOnly s t) : BlockWritten s t :=
  h.registersWritten.blockWritten

theorem BlockWritten.writeCoef (i : Nat) (v : Word) (s : State) : BlockWritten s (writeCoef i v s) :=
  ⟨⟨⟨rfl, rfl, rfl, rfl⟩, rfl, rfl, rfl⟩, .write _ _ _, id, id⟩

theorem BlockWritten.writeFlag (i : Nat) (f : CoefFlags) (s : State) : BlockWritten s (writeFlag i f s) :=
  ⟨⟨⟨rfl, rfl, rfl, rfl⟩, rfl, rfl, rfl⟩, .refl _, wf_writeFlag s i f, flagShow_writeFlag s i f⟩

theorem PlaneWritten.refl (s : State) : PlaneWritten s s := ⟨.refl s, .refl _⟩

theorem PlaneWritten.trans {s t u : State} (h : PlaneWritten s t) (k : PlaneWritten t u) : PlaneWritten s u :=
  ⟨h.side.trans k.side, h.samp.trans k.samp⟩

theorem PlaneWritten.writeSamp (i : Nat) (v : Word) (s : State) : PlaneWritten s (writeSamp i v s) :=
  ⟨(SampOnly.writeSamp i v s).kept, .write _ _ _⟩

theorem PlaneWritten.writeSamps (l : List (Nat × Word)) (s : State) : PlaneWritten s (writeSamps l s) := by
  induction l generalizing s with
  | nil => exact .refl s
  | cons p r ih => exact (PlaneWritten.writeSamp p.1 p.2 s).trans (ih _)

/-- Writes that compose, keep BS, and leave written what was written. -/
structure WriteRel (R : State → State → Prop) : Prop where
  refl  : ∀ s, R s s
  trans : ∀ {s t u}, R s t → R t u → R s u
  bs    : ∀ {s t}, R s t → t.bs = s.bs
  coef  : ∀ {s t}, R s t → Rewritten s.coef t.coef
  samp  : ∀ {s t}, R s t → Rewritten s.samp t.samp

theorem writeRel_registers : WriteRel RegistersWritten where
  refl  := fun s => ⟨.refl s, rfl, rfl⟩
  trans := fun h k => ⟨h.side.trans k.side, k.coef.trans h.coef, k.flag.trans h.flag⟩
  bs    := fun h => h.side.bs
  coef  := fun h => .of_eq h.coef
  samp  := fun h => .of_eq h.side.samp

theorem writeRel_block : WriteRel BlockWritten where
  refl  := fun s => ⟨.refl s, .refl _, id, id⟩
  trans := fun h k => ⟨h.side.trans k.side, h.coef.trans k.coef, k.flagWf ∘ h.flagWf, k.flagShow ∘ h.flagShow⟩
  bs    := fun h => h.side.bs
  coef  := fun h => h.coef
  samp  := fun h => .of_eq h.side.samp

theorem writeRel_plane : WriteRel PlaneWritten where
  refl  := PlaneWritten.refl
  trans := PlaneWritten.trans
  bs    := fun h => h.side.bs
  coef  := fun h => .of_eq h.side.coef
  samp  := fun h => h.samp

/-! ## How a part of a command ends -/

/-- The fault names an element nothing has written (R70), or the interval register was below 0x8000 (assumption 8). -/
def FaultNamed (f : Fault) (s : State) : Prop :=
  (f = .renormStuck ∧ s.mq.a.toNat < 0x8000) ∨ (∃ k, f = .unwrittenBs k ∧ Memory.read s.bs k = none) ∨
    (∃ k, f = .unwrittenCoef k ∧ Memory.read s.coef k = none) ∨ ∃ k, f = .unwrittenSamp k ∧ Memory.read s.samp k = none

/-- A fault met after some writes names what was unwritten before them. -/
theorem FaultNamed.before {R : State → State → Prop} (hR : WriteRel R) {f : Fault} {s t : State} (hw : R s t)
    (ha : 0x8000 ≤ s.mq.a.toNat → 0x8000 ≤ t.mq.a.toNat) (h : FaultNamed f t) : FaultNamed f s := by
  rcases h with ⟨hf, hlt⟩ | ⟨k, hf, hk⟩ | ⟨k, hf, hk⟩ | ⟨k, hf, hk⟩
  · exact .inl ⟨hf, by omega⟩
  · exact .inr (.inl ⟨k, hf, hR.bs hw ▸ hk⟩)
  · exact .inr (.inr (.inl ⟨k, hf, (hR.coef hw).unwritten hk⟩))
  · exact .inr (.inr (.inr ⟨k, hf, (hR.samp hw).unwritten hk⟩))

/-- How a part of a command that began in `s` ends: it wrote no more than `R` allows; where it completes, a renormalised
interval (R130) is again renormalised; a fault names what was unwritten in `s`. -/
structure Ends (R : State → State → Prop) (s : State) (r : EStateM.Result Stop State α) : Prop where
  wrote    : R s (endState r)
  interval : ∀ a t, r = .ok a t → 0x8000 ≤ s.mq.a.toNat → 0x8000 ≤ t.mq.a.toNat
  named    : ∀ f t, r = .error (.fault f) t → FaultNamed f s

/-- The part of a command ends so from every state. -/
def Runs (R : State → State → Prop) (m : Eng α) : Prop := ∀ s, Ends R s (m s)

section
variable {R : State → State → Prop} (hR : WriteRel R)
include hR

theorem runs_pure (a : α) : Runs R (pure a : Eng α) := fun s =>
  ⟨hR.refl s, fun _ _ h => by cases h; exact id, fun _ _ h => nomatch h⟩

theorem runs_raise (k : ErrKind) (info : Word) : Runs R (raise k info : Eng α) := fun s =>
  ⟨hR.refl s, fun _ _ h => (nomatch h), fun _ _ h => nomatch h⟩

theorem runs_bind {m : Eng α} {f : α → Eng β} (hm : Runs R m) (hf : ∀ a, Runs R (f a)) : Runs R (m >>= f) := by
  intro s
  obtain ⟨hw, ha, hn⟩ := hm s
  rw [eng_bind]
  cases hms : m s with
  | ok a t =>
    rw [hms] at hw
    obtain ⟨kw, ka, kn⟩ := hf a t
    exact ⟨hR.trans hw kw, fun b u hu hs => ka b u hu (ha a t hms hs),
      fun g u hu => (kn g u hu).before hR hw (ha a t hms)⟩
  | error e t =>
    rw [hms] at hw
    exact ⟨hw, fun _ _ h => (nomatch h), fun g u h => hn g u (hms.trans (by cases h; rfl))⟩

theorem runs_onlyIf {c : Bool} {m : Eng Unit} (hm : Runs R m) : Runs R (onlyIf c m) := by
  cases c
  · exact runs_pure hR ()
  · exact hm

theorem runs_forEach {l : List α} {body : α → Eng Unit} (h : ∀ x, Runs R (body x)) : Runs R (forEach l body) := by
  induction l with
  | nil => exact runs_pure hR ()
  | cons x r ih => exact runs_bind hR (h x) fun _ => ih

theorem runs_requireGeometry (l : List Check) : Runs R (requireGeometry l) := by
  unfold requireGeometry
  split
  · exact runs_pure hR ()
  · exact runs_raise hR _ _

/-- A read that changes nothing and whose faults name what it did not find. -/
theorem runs_read {m : Eng α} (hm : ∀ s, endState (m s) = s)
    (hn : ∀ s t f, m s = .error (.fault f) t → FaultNamed f s) : Runs R m := fun s =>
  ⟨(hm s).symm ▸ hR.refl s, fun a t h => by
    have hs : t = s := (congrArg endState h).symm.trans (hm s)
    exact fun ha => hs.symm ▸ ha,
    fun f t => hn s t f⟩

end

theorem runs_modify {R : State → State → Prop} {f : State → State} (h : ∀ s, R s (f s))
    (ha : ∀ s, 0x8000 ≤ s.mq.a.toNat → 0x8000 ≤ (f s).mq.a.toNat) : Runs R (modify f : Eng PUnit) := fun s =>
  ⟨h s, fun _ _ h => by cases h; exact ha s, fun _ _ h => nomatch h⟩

theorem runs_get_bind {R : State → State → Prop} {f : State → Eng β} (hf : ∀ s, Runs R (f s)) :
    Runs R ((get : Eng State) >>= f) := fun s => hf s s

theorem runs_ite {R : State → State → Prop} {c : Prop} [Decidable c] {m n : Eng α} (hm : Runs R m) (hn : Runs R n) :
    Runs R (if c then m else n) := by
  split <;> assumption

/-! ## Reads of memory -/

theorem readCoef_unwritten {s : State} {i : Nat} (h : Memory.read s.coef i = none) :
    readCoef i s = .error (.fault (.unwrittenCoef i)) s := by
  simp only [readCoef, eng_bind, eng_get, h, eng_stopModel]

theorem readSamp_unwritten {s : State} {i : Nat} (h : Memory.read s.samp i = none) :
    readSamp i s = .error (.fault (.unwrittenSamp i)) s := by
  simp only [readSamp, eng_bind, eng_get, h, eng_stopModel]

theorem bsRead_fault {s t : State} {i : Nat} {f : Fault} (h : bsRead i s = .error (.fault f) t) :
    f = .unwrittenBs i ∧ Memory.read s.bs i = none := by
  by_cases hi : i < s.lat.len.toNat
  · cases hr : Memory.read s.bs i with
    | some b => rw [bsRead_ok hi hr] at h; cases h
    | none => rw [bsRead_unwritten hi hr] at h; cases h; exact ⟨rfl, rfl⟩
  · rw [bsRead_past (Nat.not_lt.mp hi)] at h; cases h

theorem readCoef_fault {s t : State} {i : Nat} {f : Fault} (h : readCoef i s = .error (.fault f) t) :
    f = .unwrittenCoef i ∧ Memory.read s.coef i = none := by
  cases hr : Memory.read s.coef i with
  | some c => rw [readCoef_ok hr] at h; cases h
  | none => rw [readCoef_unwritten hr] at h; cases h; exact ⟨rfl, rfl⟩

theorem readSamp_fault {s t : State} {i : Nat} {f : Fault} (h : readSamp i s = .error (.fault f) t) :
    f = .unwrittenSamp i ∧ Memory.read s.samp i = none := by
  cases hr : Memory.read s.samp i with
  | some c => rw [readSamp_ok hr] at h; cases h
  | none => rw [readSamp_unwritten hr] at h; cases h; exact ⟨rfl, rfl⟩

section
variable {R : State → State → Prop} (hR : WriteRel R)
include hR

theorem runs_bsRead (i : Nat) : Runs R (bsRead i) :=
  runs_read hR (bsRead_state i) fun _ _ _ h => .inr (.inl ⟨i, bsRead_fault h⟩)

theorem runs_readCoef (i : Nat) : Runs R (readCoef i) :=
  runs_read hR (readCoef_state i) fun _ _ _ h => .inr (.inr (.inl ⟨i, readCoef_fault h⟩))

theorem runs_readSamp (i : Nat) : Runs R (readSamp i) :=
  runs_read hR (readSamp_state i) fun _ _ _ h => .inr (.inr (.inr ⟨i, readSamp_fault h⟩))

theorem runs_readSamps (l : List Nat) : Runs R (readSamps l) := by
  induction l with
  | nil => exact runs_pure hR _
  | cons i r ih => exact runs_bind hR (runs_readSamp hR i) fun _ => runs_bind hR ih fun _ => runs_pure hR _

end

/-! ## Decisions -/

theorem byteIn_fault {s t : State} {f : Fault} (h : byteIn s = .error (.fault f) t) :
    ∃ k, f = .unwrittenBs k ∧ Memory.read s.bs k = none := by
  change ((get : Eng State) >>= fun s => bsRead s.mq.bp.toNat >>= fun b => bsRead (s.mq.bp.toNat + 1) >>= fun b1 =>
    (modify (setMq (enterByte b b1 s.mq)) : Eng Unit)) s = _ at h
  rw [eng_bind_ok (eng_get s)] at h
  rcases eng_bind_eq_error.mp h with h | ⟨b, u, hb, h⟩
  · exact ⟨_, bsRead_fault h⟩
  · obtain ⟨rfl, -, -⟩ := bsRead_eq_ok hb
    rcases eng_bind_eq_error.mp h with h | ⟨b1, v, -, h⟩
    · exact ⟨_, bsRead_fault h⟩
    · cases h

/-- A byte is entered or not before a shift: the interval and BS are as before. -/
theorem onlyIf_byteIn_ok {c : Bool} {s t : State} (h : onlyIf c byteIn s = .ok () t) :
    t.mq.a = s.mq.a ∧ t.bs = s.bs := by
  cases c with
  | false => cases h; exact ⟨rfl, rfl⟩
  | true =>
    obtain ⟨b, b1, -, -, -, rfl⟩ := byteIn_eq_ok h
    exact ⟨enterByte_a b b1 s.mq, rfl⟩

/-- A renormalisation that completes has set bit 15 of the interval (R126). -/
theorem renormd_ok_interval {n : Nat} {s t : State} (h : renormd n s = .ok () t) : 0x8000 ≤ t.mq.a.toNat := by
  induction n generalizing s with
  | zero => cases h
  | succ n ih =>
    rw [renormd_succ] at h
    obtain ⟨_, u, -, h⟩ := eng_bind_eq_ok.mp h
    rw [eng_bind_ok (eng_get u), eng_bind_ok (eng_set _ u)] at h
    cases hm : (shiftOnce u.mq).a.msb with
    | false => rw [hm] at h; exact ih h
    | true => rw [hm] at h; cases h; exact msb_iff_le.mp hm

/-- A renormalisation whose shifts suffice stops only at an unwritten byte. -/
theorem renormd_fault {n : Nat} {s t : State} {f : Fault} (h : renormd n s = .error (.fault f) t) :
    (f = .renormStuck ∧ ¬ (s.mq.a.toNat < 0x8000 ∧ 0x8000 ≤ s.mq.a.toNat * 2 ^ n)) ∨
      ∃ k, f = .unwrittenBs k ∧ Memory.read s.bs k = none := by
  induction n generalizing s with
  | zero => cases h; exact .inl ⟨rfl, by omega⟩
  | succ n ih =>
    rw [renormd_succ] at h
    rcases eng_bind_eq_error.mp h with h | ⟨_, u, hu, h⟩
    · cases hc : decide (s.mq.ct = 0) with
      | false => rw [hc] at h; cases h
      | true => rw [hc] at h; exact .inr (byteIn_fault h)
    · obtain ⟨hua, hub⟩ := onlyIf_byteIn_ok hu
      rw [eng_bind_ok (eng_get u), eng_bind_ok (eng_set _ u)] at h
      cases hm : (shiftOnce u.mq).a.msb with
      | true => rw [hm] at h; cases h
      | false =>
        rw [hm] at h
        rcases ih h with ⟨hf, hn⟩ | ⟨k, hf, hk⟩
        · refine .inl ⟨hf, fun ⟨hlt, hle⟩ => hn ?_⟩
          have hsh : (shiftOnce u.mq).a.toNat = 2 * s.mq.a.toNat := by rw [← hua]; exact shl_one_toNat (hua ▸ hlt)
          have hno : ¬ 0x8000 ≤ (shiftOnce u.mq).a.toNat := fun hge => by simp [msb_iff_le.mpr hge] at hm
          refine ⟨Nat.not_le.mp hno, ?_⟩
          calc 0x8000 ≤ s.mq.a.toNat * 2 ^ (n + 1) := hle
            _ = 2 * s.mq.a.toNat * 2 ^ n := by ring
            _ = (shiftOnce u.mq).a.toNat * 2 ^ n := by rw [hsh]
        · exact .inr ⟨k, hf, hub ▸ hk⟩

/-- One decision from a renormalised interval is never stuck (R130). -/
theorem runs_decodeBit {R : State → State → Prop} (hD : ∀ s t, DecoderOnly s t → R s t) (cx : Fin 19) :
    Runs R (decodeBit cx) := by
  intro s
  have hx := decisionOf_interval s.mq.c (ctxAt s cx) (a := s.mq.a)
  have hwrote := hD _ _ (keeps_decodeBit_only s cx s (DecoderOnly.refl s))
  rw [decodeBit_eq] at hwrote ⊢
  set x := decisionOf s.mq.a s.mq.c (ctxAt s cx)
  refine ⟨hwrote, fun d t ht ha => ?_, fun f t ht => ?_⟩
  · rw [eng_bind_ok (eng_set _ s)] at ht
    obtain ⟨_, u, hu, ht⟩ := eng_bind_eq_ok.mp ht
    cases ht
    cases hr : x.renorm with
    | false => rw [hr] at hu; cases hu; exact (hx ha).2.2 hr
    | true => rw [hr] at hu; exact renormd_ok_interval (t := u) hu
  · rw [eng_bind_ok (eng_set _ s)] at ht
    rcases eng_bind_eq_error.mp ht with ht | ⟨_, u, _, ht⟩
    · cases hr : x.renorm with
      | false => rw [hr] at ht; cases ht
      | true =>
        rw [hr] at ht
        rcases renormd_fault ht with ⟨hf, hn⟩ | ⟨k, hf, hk⟩
        · refine .inl ⟨hf, Nat.not_le.mp fun ha => hn ?_⟩
          obtain ⟨hpos, hlt, -⟩ := hx ha
          exact ⟨hlt hr, show 0x8000 ≤ x.a.toNat * 2 ^ 15 by omega⟩
        · exact .inr (.inl ⟨k, hf, hk⟩)
    · cases ht

theorem runs_byteIn {R : State → State → Prop} (hD : ∀ s t, DecoderOnly s t → R s t) : Runs R byteIn := fun s =>
  ⟨hD _ _ (keeps_byteIn_only s s (DecoderOnly.refl s)),
    fun _ t h ha => by obtain ⟨b, b1, -, -, -, rfl⟩ := byteIn_eq_ok h; simpa using ha,
    fun _ _ h => .inr (.inl (byteIn_fault h))⟩

theorem runs_setMq {R : State → State → Prop} (hD : ∀ s t, DecoderOnly s t → R s t) {f : State → MqRegs}
    (ha : ∀ s, 0x8000 ≤ s.mq.a.toNat → 0x8000 ≤ (f s).a.toNat) :
    Runs R (modify (fun s => setMq (f s) s) : Eng PUnit) :=
  runs_modify (fun _ => hD _ _ (.setMq _ _)) ha

/-- The initialisation of the decoder leaves a renormalised interval. -/
theorem runs_initDecoder {R : State → State → Prop} (hR : WriteRel R) (hD : ∀ s t, DecoderOnly s t → R s t) :
    Runs R initDecoder := by
  refine runs_bind hR (runs_setMq hD fun _ => id) fun _ => runs_bind hR (runs_bsRead hR 0) fun _ =>
    runs_bind hR (runs_setMq hD fun _ => id) fun _ => runs_bind hR (runs_byteIn hD) fun _ => runs_setMq hD fun _ _ => ?_
  simp

/-! ## The bit-plane decoder -/

theorem runs_blockDecodeBit (cx : Fin 19) : Runs BlockWritten (decodeBit cx) :=
  runs_decodeBit (fun _ _ => DecoderOnly.blockWritten) cx

theorem runs_writeFlagAt (i : State → Nat) (f : State → CoefFlags) :
    Runs BlockWritten (modify (fun s => writeFlag (i s) (f s) s) : Eng PUnit) :=
  runs_modify (fun s => .writeFlag (i s) (f s) s) fun _ => id

theorem runs_chi (y x : Int) : Runs BlockWritten (chi y x) :=
  runs_get_bind fun _ => runs_ite
    (runs_bind writeRel_block (runs_readCoef writeRel_block _) fun _ => runs_pure writeRel_block _)
    (runs_pure writeRel_block _)

theorem runs_decodeSign (y x : Nat) : Runs BlockWritten (decodeSign y x) :=
  runs_bind writeRel_block (runs_chi _ _) fun _ => runs_bind writeRel_block (runs_chi _ _) fun _ =>
    runs_bind writeRel_block (runs_chi _ _) fun _ => runs_bind writeRel_block (runs_chi _ _) fun _ =>
      runs_bind writeRel_block (runs_blockDecodeBit _) fun _ => runs_pure writeRel_block _

theorem runs_becomeSignificant (y x b : Nat) : Runs BlockWritten (becomeSignificant y x b) :=
  runs_bind writeRel_block (runs_decodeSign y x) fun _ =>
    runs_modify (fun s => writeRel_block.trans (.writeCoef _ _ s) (.writeFlag _ _ _)) fun _ => id

theorem runs_spVisit (b : Nat) (p : Nat × Nat) : Runs BlockWritten (spVisit b p) :=
  runs_get_bind fun _ => runs_ite
    (runs_bind writeRel_block (runs_blockDecodeBit _) fun _ =>
      runs_bind writeRel_block (runs_onlyIf writeRel_block (runs_becomeSignificant _ _ _)) fun _ =>
        runs_writeFlagAt _ _)
    (runs_pure writeRel_block _)

theorem runs_mrVisit (b : Nat) (p : Nat × Nat) : Runs BlockWritten (mrVisit b p) :=
  runs_get_bind fun _ => runs_ite
    (runs_bind writeRel_block (runs_blockDecodeBit _) fun _ =>
      runs_bind writeRel_block (runs_readCoef writeRel_block _) fun _ =>
        runs_bind writeRel_block (runs_modify (fun s => .writeCoef _ _ s) fun _ => id) fun _ => runs_writeFlagAt _ _)
    (runs_pure writeRel_block _)

theorem runs_cuVisit (b x y : Nat) : Runs BlockWritten (cuVisit b x y) :=
  runs_get_bind fun _ => runs_ite
    (runs_bind writeRel_block (runs_blockDecodeBit _) fun _ =>
      runs_onlyIf writeRel_block (runs_becomeSignificant _ _ _))
    (runs_pure writeRel_block _)

theorem runs_runLength (b y0 x : Nat) : Runs BlockWritten (runLength b y0 x) :=
  runs_bind writeRel_block (runs_blockDecodeBit _) fun _ => runs_ite
    (runs_bind writeRel_block (runs_blockDecodeBit _) fun _ =>
      runs_bind writeRel_block (runs_blockDecodeBit _) fun _ =>
        runs_bind writeRel_block (runs_becomeSignificant _ _ _) fun _ => runs_pure writeRel_block _)
    (runs_pure writeRel_block _)

theorem runs_cuColumn (b : Nat) (p : Nat × Nat) : Runs BlockWritten (cuColumn b p) := by
  refine runs_get_bind fun _ => runs_ite (runs_bind writeRel_block (runs_runLength b _ _) fun start => ?_)
    (runs_forEach writeRel_block fun _ => runs_cuVisit _ _ _)
  cases start with
  | none => exact runs_pure writeRel_block _
  | some k => exact runs_forEach writeRel_block fun _ => runs_cuVisit _ _ _

theorem runs_clearVisited (n : Nat) :
    Runs BlockWritten (forEach (List.range n) (fun i => modify (clearVisited i))) :=
  runs_forEach writeRel_block fun _ => runs_writeFlagAt _ _

/-- A change of registers inside a `T1.*` command. -/
theorem runs_registers {f : State → State} (h : ∀ s, RegistersWritten s (f s)) (ha : ∀ s, (f s).mq = s.mq) :
    Runs BlockWritten (modify f : Eng PUnit) :=
  runs_modify (fun s => (h s).blockWritten) fun s hs => (ha s).symm ▸ hs

theorem runs_countPass : Runs BlockWritten (modify countPass : Eng PUnit) :=
  runs_registers (fun _ => .setPassDone _ _) fun _ => rfl

theorem runs_passSp (b : Nat) : Runs BlockWritten (passSp b) :=
  runs_get_bind fun _ => runs_bind writeRel_block (runs_forEach writeRel_block (runs_spVisit b)) fun _ => runs_countPass

theorem runs_passMr (b : Nat) : Runs BlockWritten (passMr b) :=
  runs_get_bind fun _ => runs_bind writeRel_block (runs_forEach writeRel_block (runs_mrVisit b)) fun _ => runs_countPass

theorem runs_passCu (b : Nat) : Runs BlockWritten (passCu b) :=
  runs_get_bind fun _ => runs_bind writeRel_block (runs_forEach writeRel_block (runs_cuColumn b)) fun _ =>
    runs_bind writeRel_block (runs_clearVisited _) fun _ => runs_countPass

theorem runs_runPass (t : PassType) (b : Nat) : Runs BlockWritten (runPass t b) := by
  cases t with
  | sp => exact runs_passSp b
  | mr => exact runs_passMr b
  | cu => exact runs_passCu b

theorem runs_clearGrid (n : Nat) : Runs BlockWritten (clearGrid n) :=
  runs_forEach writeRel_block fun _ =>
    runs_modify (fun s => writeRel_block.trans (.writeCoef _ _ s) (.writeFlag _ _ _)) fun _ => id

theorem runs_passBody (word : Word) {pass : Eng Unit} (h : Runs BlockWritten pass) :
    Runs BlockWritten (passBody word pass) :=
  runs_bind writeRel_block
    (runs_get_bind fun _ => runs_ite (runs_pure writeRel_block _) (runs_raise writeRel_block _ _)) fun _ => h

theorem runs_decodePasses (npass zbp : Nat) : Runs BlockWritten (decodePasses npass zbp) :=
  runs_bind writeRel_block (runs_initDecoder writeRel_block fun _ _ => DecoderOnly.blockWritten) fun _ =>
    runs_forEach writeRel_block fun _ => runs_runPass _ _

/-! ## The dequantizer and the transform -/

theorem runs_deqBlock (p : ParamRegs) (f : Word → Word) : Runs PlaneWritten (deqBlock p f) :=
  runs_forEach writeRel_plane fun _ => runs_bind writeRel_plane (runs_readCoef writeRel_plane _) fun _ =>
    runs_modify (fun s => .writeSamp _ _ s) fun _ => id

theorem runs_synthLine (sources targets : List Nat) (ker : List Word → List Word) :
    Runs PlaneWritten (synthLine sources targets ker) :=
  runs_bind writeRel_plane (runs_readSamps writeRel_plane _) fun _ =>
    runs_modify (fun s => .writeSamps _ s) fun s ha => by rw [writeSamps_eq]; exact ha

theorem runs_sr2d (g : Region) (ker : Kernel) : Runs PlaneWritten (sr2d g ker) :=
  runs_ite (runs_pure writeRel_plane _)
    (runs_bind writeRel_plane (runs_forEach writeRel_plane fun _ => runs_synthLine _ _ _) fun _ =>
      runs_forEach writeRel_plane fun _ => runs_synthLine _ _ _)

theorem runs_drawFree : Runs PlaneWritten (modify drawFree : Eng PUnit) :=
  runs_modify (fun _ => ⟨⟨⟨rfl, rfl, rfl, rfl⟩, rfl, rfl, rfl, rfl, rfl, rfl, rfl⟩, .refl _⟩) fun _ => id

/-! ## Commands -/

/-- What a command may write, by its family (R60, R62). -/
def WrittenBy : Instr → State → State → Prop
  | .deqRev | .deqIrr | .idwtLevelR53 _ | .idwtLevelI97 _ | .idwtFullR53 | .idwtFullI97 => PlaneWritten
  | .t1Start | .t1Sp _ | .t1Mr _ | .t1Cu _ | .t1Decode => BlockWritten
  | _ => RegistersWritten

theorem writeRel_writtenBy (i : Instr) : WriteRel (WrittenBy i) := by
  cases i with
  | deqRev | deqIrr | idwtLevelR53 | idwtLevelI97 | idwtFullR53 | idwtFullI97 => exact writeRel_plane
  | t1Start | t1Sp | t1Mr | t1Cu | t1Decode => exact writeRel_block
  | _ => exact writeRel_registers

theorem runs_mqInitBody : Runs RegistersWritten mqInitBody :=
  runs_get_bind fun _ => runs_bind writeRel_registers (runs_requireGeometry writeRel_registers _) fun _ =>
    runs_bind writeRel_registers (runs_modify (fun _ => .setSession _ _ _) fun _ => id) fun _ =>
      runs_bind writeRel_registers (runs_modify (fun _ => .setLatches _ _) fun _ => id) fun _ =>
        runs_bind writeRel_registers (runs_initDecoder writeRel_registers fun _ _ => DecoderOnly.registersWritten)
          fun _ => runs_modify (fun _ => .setSession _ _ _) fun _ => id

theorem runs_mqDecodeBody (word : Word) (cx : Fin 19) : Runs RegistersWritten (mqDecodeBody word cx) :=
  runs_get_bind fun _ => runs_ite
    (runs_bind writeRel_registers (runs_decodeBit (fun _ _ => DecoderOnly.registersWritten) cx) fun _ =>
      runs_pure writeRel_registers _)
    (runs_raise writeRel_registers _ _)

theorem runs_t1StartBody : Runs BlockWritten t1StartBody :=
  runs_get_bind fun _ => runs_bind writeRel_block (runs_requireGeometry writeRel_block _) fun _ =>
    runs_bind writeRel_block (runs_registers (fun _ => .setSession _ _ _) fun _ => rfl) fun _ =>
      runs_bind writeRel_block (runs_registers (fun _ => .setLatches _ _) fun _ => rfl) fun _ =>
        runs_bind writeRel_block (runs_registers (fun _ => .setPassDone _ _) fun _ => rfl) fun _ =>
          runs_bind writeRel_block (runs_clearGrid _) fun _ =>
            runs_bind writeRel_block (runs_registers (fun _ => .resetContexts _) fun _ => rfl) fun _ =>
              runs_registers (fun _ => .setSession _ _ _) fun _ => rfl

theorem runs_t1DecodeBody : Runs BlockWritten t1DecodeBody :=
  runs_get_bind fun _ => runs_bind writeRel_block (runs_requireGeometry writeRel_block _) fun _ =>
    runs_bind writeRel_block (runs_registers (fun _ => .setSession _ _ _) fun _ => rfl) fun _ =>
      runs_bind writeRel_block (runs_registers (fun _ => .setLatches _ _) fun _ => rfl) fun _ =>
        runs_bind writeRel_block (runs_registers (fun _ => .setLatches _ _) fun _ => rfl) fun _ =>
          runs_bind writeRel_block (runs_registers (fun _ => .setPassDone _ _) fun _ => rfl) fun _ =>
            runs_bind writeRel_block (runs_clearGrid _) fun _ =>
              runs_bind writeRel_block (runs_registers (fun _ => .resetContexts _) fun _ => rfl) fun _ =>
                runs_bind writeRel_block (runs_onlyIf writeRel_block (runs_decodePasses _ _)) fun _ =>
                  runs_registers (fun _ => .setSession _ _ _) fun _ => rfl

/-- The body of every command but `RESET`, which also clears the parameter registers and the interval. -/
theorem runs_commandBody (i : Instr) (hr : i ≠ .reset) : Runs (WrittenBy i) (commandBody i) := by
  cases i with
  | nop => exact runs_pure writeRel_registers ()
  | reset => exact absurd rfl hr
  | clrerr => exact runs_modify RegistersWritten.acknowledgeError fun _ => id
  | mqResetcx => exact runs_modify RegistersWritten.resetContexts fun _ => id
  | mqInit => exact runs_mqInitBody
  | mqDecode cx => exact runs_mqDecodeBody _ _
  | t1Start => exact runs_t1StartBody
  | t1Sp b => exact runs_passBody _ (runs_passSp _)
  | t1Mr b => exact runs_passBody _ (runs_passMr _)
  | t1Cu b => exact runs_passBody _ (runs_passCu _)
  | t1Decode => exact runs_t1DecodeBody
  | deqRev | deqIrr =>
    exact runs_get_bind fun _ => runs_bind writeRel_plane (runs_requireGeometry writeRel_plane _) fun _ =>
      runs_deqBlock _ _
  | idwtLevelR53 lev =>
    exact runs_get_bind fun _ => runs_bind writeRel_plane (runs_requireGeometry writeRel_plane _) fun _ => runs_sr2d _ _
  | idwtLevelI97 lev =>
    exact runs_get_bind fun _ => runs_bind writeRel_plane (runs_requireGeometry writeRel_plane _) fun _ =>
      runs_bind writeRel_plane runs_drawFree fun _ => runs_sr2d _ _
  | idwtFullR53 =>
    exact runs_get_bind fun _ => runs_bind writeRel_plane (runs_requireGeometry writeRel_plane _) fun _ =>
      runs_forEach writeRel_plane fun _ => runs_sr2d _ _
  | idwtFullI97 =>
    exact runs_get_bind fun _ => runs_bind writeRel_plane (runs_requireGeometry writeRel_plane _) fun _ =>
      runs_bind writeRel_plane runs_drawFree fun _ => runs_forEach writeRel_plane fun _ => runs_sr2d _ _

/-- Completing a command, or taking its error, writes `STATUS` and `ERRINFO` only: every family may. -/
theorem writtenBy_of_status (i : Instr) {s t : State} (h : t = { s with status := t.status, errinfo := t.errinfo }) :
    WrittenBy i s t := by
  have hreg : RegistersWritten s t := by rw [h]; exact ⟨⟨⟨rfl, rfl, rfl, rfl⟩, rfl, rfl, rfl⟩, rfl, rfl⟩
  have hplane : PlaneWritten s t := by
    rw [h]; exact ⟨⟨⟨rfl, rfl, rfl, rfl⟩, rfl, rfl, rfl, rfl, rfl, rfl, rfl⟩, .refl _⟩
  cases i with
  | deqRev | deqIrr | idwtLevelR53 | idwtLevelI97 | idwtFullR53 | idwtFullI97 => exact hplane
  | t1Start | t1Sp | t1Mr | t1Cu | t1Decode => exact hreg.blockWritten
  | _ => exact hreg

theorem exec_writtenBy {i : Instr} {s t : State} (hr : i ≠ .reset) (h : exec i s = .next t) : WrittenBy i s t := by
  cases hw : i.wellFormed with
  | false =>
    rw [exec_illFormed hw] at h
    cases h
    exact writtenBy_of_status i rfl
  | true =>
    rw [exec_wellFormed hw] at h
    have hrel := writeRel_writtenBy i
    have hwrote := (runs_commandBody i hr s).wrote
    rcases runCommand_next h with ⟨u, hu, rfl⟩ | ⟨k, info, u, hu, rfl⟩
    · rw [hu] at hwrote
      exact hrel.trans hwrote (writtenBy_of_status i rfl)
    · rw [hu] at hwrote
      exact hrel.trans hwrote (writtenBy_of_status i rfl)

/-- A fault of any command names an element nothing has written, or an interval below 0x8000. -/
theorem exec_fault_named {i : Instr} {s : State} {f : Fault} (h : exec i s = .fault f) : FaultNamed f s := by
  cases hw : i.wellFormed with
  | false => rw [exec_illFormed hw] at h; cases h
  | true =>
    by_cases hr : i = .reset
    · subst hr; cases h
    · rw [exec_wellFormed hw, runCommand] at h
      split at h
      · cases h
      · cases h
      · rename_i g t hb
        cases h
        exact (runs_commandBody i hr s).named _ t hb

theorem exec_ne_refused (i : Instr) (s : State) (r : Refusal) : exec i s ≠ .refused r := by
  cases hw : i.wellFormed with
  | false => rw [exec_illFormed hw]; exact nofun
  | true => rw [exec_wellFormed hw]; exact runCommand_ne_refused _ _ _ _

/-- Settles O15: each family of commands writes what `WrittenBy` allows it, and `RESET` registers only. -/
theorem engineWritesOnlyItsOwnState : Obligations.EngineWritesOnlyItsOwnState := by
  intro i s t h
  by_cases hr : i = .reset
  · subst hr
    cases h
    exact ⟨rfl, rfl, rfl, rfl, fun hne => absurd rfl hne, rfl, rfl, rfl⟩
  have hw := exec_writtenBy hr h
  have host : t.bs = s.bs ∧ HostSideKept s t := by
    cases i with
    | deqRev | deqIrr | idwtLevelR53 | idwtLevelI97 | idwtFullR53 | idwtFullI97 => exact ⟨hw.side.bs, hw.side.host⟩
    | _ => exact ⟨hw.side.bs, hw.side.host⟩
  refine ⟨host.1, host.2.cap, host.2.pending, host.2.hostData, fun _ => host.2.par, ?_⟩
  cases i with
  | deqRev | deqIrr | idwtLevelR53 | idwtLevelI97 | idwtFullR53 | idwtFullI97 =>
    exact ⟨hw.side.coef, hw.side.flag, hw.side.mq, hw.side.cx, hw.side.lat, hw.side.passDone⟩
  | t1Start | t1Sp | t1Mr | t1Cu | t1Decode => exact hw.side.samp
  | _ => exact ⟨hw.side.samp, hw.coef, hw.flag⟩

end Sys2Proof.Machine
end

section
/-! The memories stay canonical and inside their spaces (R60), and an open session keeps a legal geometry and a written
grid (R150, R157). -/

namespace Sys2Proof.Machine

variable {α β : Type}

/-! ## What a memory lists, by what it reads -/

theorem Memory.mem_of_read {m : Memory α} {i : Nat} {v : α} (h : Memory.read m i = some v) : (i, v) ∈ m := by
  induction m with
  | nil => cases h
  | cons p r ih =>
    obtain ⟨j, w⟩ := p
    rw [Memory.read_cons] at h
    split at h
    · rename_i hj
      cases h
      exact hj ▸ List.mem_cons_self
    · exact List.mem_cons_of_mem _ (ih h)

theorem Memory.has_of_mem {m : Memory α} {p : Nat × α} (h : p ∈ m) : Memory.has m p.1 = true := by
  induction m with
  | nil => cases h
  | cons q r ih =>
    rw [Memory.has, Memory.read_cons]
    split
    · rfl
    · rename_i hne
      rcases List.mem_cons.mp h with rfl | hr
      · exact absurd rfl hne
      · exact ih hr

/-- A memory is inside its space when nothing is read outside it. -/
theorem Memory.within_iff {m : Memory α} {n : Nat} : Memory.within m n ↔ ∀ i, n ≤ i → Memory.read m i = none := by
  constructor
  · intro h i hi
    cases hr : Memory.read m i with
    | none => rfl
    | some v => exact absurd (h _ (Memory.mem_of_read hr)) (Nat.not_lt.mpr hi)
  · intro h p hp
    by_contra hlt
    have hhas := Memory.has_of_mem hp
    rw [Memory.has, h p.1 (Nat.not_lt.mp hlt)] at hhas
    cases hhas

/-- Where FLAG lists no element that reads as an unlisted one, an element reads so exactly when it is unlisted. -/
theorem flagAt_eq_unlisted_iff {s : State} (h : ∀ p ∈ s.flag, p.2 ≠ unlistedFlag) {i : Nat} :
    flagAt s i = unlistedFlag ↔ Memory.read s.flag i = none := by
  rw [flagAt]
  cases hr : Memory.read s.flag i with
  | none => exact ⟨fun _ => rfl, fun _ => rfl⟩
  | some f => exact ⟨fun he => absurd he (h _ (Memory.mem_of_read hr)), nofun⟩

/-! ## The two invariants together -/

/-- The invariants of R60 and of R150 and R157. -/
structure Legal (s : State) : Prop where
  memories : MemoriesLegal s
  session  : SessionLegal s

/-- The block of the latched geometry fits the coefficient memory, whether a session is open or not. -/
structure BlockLegal (s : State) : Prop extends Legal s where
  area : blockArea s ≤ Config.cbMaxArea

/-- Nothing the invariants speak of is written, and no session is opened. -/
structure GridKept (s t : State) : Prop where
  bs      : t.bs = s.bs
  coef    : t.coef = s.coef
  flag    : t.flag = s.flag
  samp    : t.samp = s.samp
  cap     : t.cap = s.cap
  width   : t.lat.lw = s.lat.lw
  height  : t.lat.lh = s.lat.lh
  session : t.status.session = true → s.status.session = true

theorem MemoriesLegal.congr {s t : State} (h : MemoriesLegal s) (hb : t.bs = s.bs) (hc : t.coef = s.coef)
    (hf : t.flag = s.flag) (hs : t.samp = s.samp) (hcap : t.cap = s.cap) : MemoriesLegal t where
  bsWf     := hb ▸ h.bsWf
  coefWf   := hc ▸ h.coefWf
  flagWf   := hf ▸ h.flagWf
  sampWf   := hs ▸ h.sampWf
  bsIn     := hb ▸ hcap ▸ h.bsIn
  coefIn   := hc ▸ h.coefIn
  flagIn   := hf ▸ h.flagIn
  sampIn   := hs ▸ hcap ▸ h.sampIn
  flagShow := hf ▸ h.flagShow

/-- A session that stays open over a kept geometry, with no coefficient lost, stays legal. -/
theorem SessionLegal.congr {s t : State} (h : SessionLegal s) (hw : t.lat.lw = s.lat.lw) (hh : t.lat.lh = s.lat.lh)
    (hc : Rewritten s.coef t.coef) (ho : t.status.session = true → s.status.session = true) : SessionLegal t where
  width  := fun hs => hw ▸ h.width (ho hs)
  height := fun hs => hh ▸ h.height (ho hs)
  area   := fun hs => blockArea_congr hw hh ▸ h.area (ho hs)
  grid   := fun hs i hi => hc.has i (h.grid (ho hs) i (blockArea_congr hw hh ▸ hi))

theorem SessionLegal.of_closed {s : State} (h : s.status.session = false) : SessionLegal s :=
  have hno : ¬ s.status.session = true := by rw [h]; exact Bool.false_ne_true
  ⟨fun hs => absurd hs hno, fun hs => absurd hs hno, fun hs => absurd hs hno, fun hs => absurd hs hno⟩

theorem Legal.of_kept {s t : State} (h : Legal s) (k : GridKept s t) : Legal t :=
  ⟨h.memories.congr k.bs k.coef k.flag k.samp k.cap, h.session.congr k.width k.height (.of_eq k.coef) k.session⟩

theorem BlockLegal.of_kept {s t : State} (h : BlockLegal s) (k : GridKept s t) : BlockLegal t :=
  ⟨h.toLegal.of_kept k, blockArea_congr k.width k.height ▸ h.area⟩

theorem DecoderOnly.gridKept {s t : State} (h : DecoderOnly s t) : GridKept s t :=
  ⟨h.kept.bs, h.coef, h.flag, h.kept.samp, h.kept.host.cap, h.lat ▸ rfl, h.lat ▸ rfl, h.status ▸ id⟩

/-! ## Writes of one element -/

theorem Legal.writeBs {s : State} (h : Legal s) {i : Nat} (hi : i < s.cap.bsBytes) (v : Byte) :
    Legal (writeBs i v s) where
  memories := { h.memories with
    bsWf := Memory.wf_write _ _ _ h.memories.bsWf
    bsIn := Memory.within_write _ _ _ _ h.memories.bsIn hi }
  session  := h.session.congr rfl rfl (.refl _) id

theorem Legal.writeCoef {s : State} (h : Legal s) {i : Nat} (hi : i < Config.cbMaxArea) (v : Word) :
    Legal (writeCoef i v s) where
  memories := { h.memories with
    coefWf := Memory.wf_write _ _ _ h.memories.coefWf
    coefIn := Memory.within_write _ _ _ _ h.memories.coefIn hi }
  session  := h.session.congr rfl rfl (.write _ _ _) id

theorem Legal.writeSamp {s : State} (h : Legal s) {i : Nat} (hi : i < s.cap.sampWords) (v : Word) :
    Legal (writeSamp i v s) where
  memories := { h.memories with
    sampWf := Memory.wf_write _ _ _ h.memories.sampWf
    sampIn := Memory.within_write _ _ _ _ h.memories.sampIn hi }
  session  := h.session.congr rfl rfl (.refl _) id

theorem within_writeFlag {s : State} {i n : Nat} (h : Memory.within s.flag n) (hi : i < n) (f : CoefFlags) :
    Memory.within (writeFlag i f s).flag n := by
  rw [writeFlag_flag]
  split
  · exact Memory.within_erase _ _ _ h
  · exact Memory.within_write _ _ _ _ h hi

theorem Legal.writeFlag {s : State} (h : Legal s) {i : Nat} (hi : i < Config.cbMaxArea) (f : CoefFlags) :
    Legal (writeFlag i f s) where
  memories := { h.memories with
    flagWf   := wf_writeFlag s i f h.memories.flagWf
    flagIn   := within_writeFlag h.memories.flagIn hi f
    flagShow := flagShow_writeFlag s i f h.memories.flagShow }
  session  := h.session.congr rfl rfl (.refl _) id

/-! ## Passes -/

/-- What is written inside a block that fits, canonical and losing no coefficient, is legal. -/
theorem BlockLegal.of_block {s t : State} (h : BlockLegal s) (hin : BlockOnly s t) (hw : BlockWritten s t) :
    BlockLegal t where
  memories :=
    have hm := h.memories
    have hbound : ∀ i, Config.cbMaxArea ≤ i → blockArea s ≤ i := fun _ => Nat.le_trans h.area
    have hshow := hw.flagShow hm.flagShow
    { bsWf     := hin.kept.bs ▸ hm.bsWf
      coefWf   := hw.coef.wf hm.coefWf
      flagWf   := hw.flagWf hm.flagWf
      sampWf   := hin.kept.samp ▸ hm.sampWf
      bsIn     := by rw [hin.kept.bs, hin.kept.host.cap]; exact hm.bsIn
      coefIn   := Memory.within_iff.mpr fun i hi =>
        (hin.outside i (hbound i hi)).1.trans (Memory.within_iff.mp hm.coefIn i hi)
      flagIn   := Memory.within_iff.mpr fun i hi =>
        (flagAt_eq_unlisted_iff hshow).mp <| (hin.outside i (hbound i hi)).2.trans <|
          (flagAt_eq_unlisted_iff hm.flagShow).mpr (Memory.within_iff.mp hm.flagIn i hi)
      sampIn   := by rw [hin.kept.samp, hin.kept.host.cap]; exact hm.sampIn
      flagShow := hshow }
  session  := h.session.congr (by rw [hin.lat]) (by rw [hin.lat]) hw.coef (by rw [hin.status]; exact id)
  area     := by rw [hin.area]; exact h.area

/-- The state is legal and has the geometry `lat`. -/
def LegalAt (lat : Latches) (s : State) : Prop := BlockLegal s ∧ s.lat = lat

theorem keepsLegalAt {lat : Latches} {m : Eng α} (hin : StaysInBlock lat m) (hw : Runs BlockWritten m) :
    Keeps (LegalAt lat) m := fun s hs =>
  have hb := hin s hs.2 s (BlockOnly.refl s)
  ⟨hs.1.of_block hb (hw s).wrote, hb.lat.trans hs.2⟩

theorem keepsLegalAt_countPass (lat : Latches) : Keeps (LegalAt lat) (modify countPass : Eng PUnit) :=
  keeps_modify fun _ hs => ⟨hs.1.of_kept ⟨rfl, rfl, rfl, rfl, rfl, rfl, rfl, id⟩, hs.2⟩

/-- A computation that begins with a read of the state and keeps it legal at the geometry it read. -/
theorem keepsBlockLegal_get_bind {f : State → Eng β} (h : ∀ s, Keeps (LegalAt s.lat) (f s)) :
    Keeps BlockLegal ((get : Eng State) >>= f) :=
  keeps_get_bind fun s hs => (h s s ⟨hs, rfl⟩).1

/-- The scan visits exactly the points of the block (R151). -/
theorem mem_scanOrder {w h : Nat} {p : Nat × Nat} : p ∈ scanOrder w h ↔ p.1 < h ∧ p.2 < w := by
  obtain ⟨y, x⟩ := p
  simp only [scanOrder, List.mem_flatMap, List.mem_map, Prod.mk.injEq]
  constructor
  · rintro ⟨q, hq, z, hz, rfl, rfl⟩
    exact ⟨(mem_stripeRows.mp hz).2.2, (mem_stripeColumns hq).2⟩
  · rintro ⟨hy, hx⟩
    refine ⟨(4 * (y / 4), x), ?_, y, mem_stripeRows.mpr ⟨?_, ?_, hy⟩, rfl, rfl⟩
    · exact List.mem_flatMap.mpr ⟨y / 4, List.mem_range.mpr (by rw [stripeCount]; omega),
        List.mem_map.mpr ⟨x, List.mem_range.mpr hx, rfl⟩⟩
    · dsimp only; omega
    · dsimp only; omega

theorem keepsLegal_passSp (b : Nat) : Keeps BlockLegal (passSp b) :=
  keepsBlockLegal_get_bind fun _ => keeps_bind
    (keepsLegalAt (staysInBlock_forEach fun _ hp =>
        staysInBlock_spVisit b (mem_scanOrder.mp hp).1 (mem_scanOrder.mp hp).2)
      (runs_forEach writeRel_block (runs_spVisit b))) fun _ => keepsLegalAt_countPass _

theorem keepsLegal_passMr (b : Nat) : Keeps BlockLegal (passMr b) :=
  keepsBlockLegal_get_bind fun _ => keeps_bind
    (keepsLegalAt (staysInBlock_forEach fun _ hp =>
        staysInBlock_mrVisit b (mem_scanOrder.mp hp).1 (mem_scanOrder.mp hp).2)
      (runs_forEach writeRel_block (runs_mrVisit b))) fun _ => keepsLegalAt_countPass _

theorem staysInBlock_clearVisited {lat : Latches} {i : Nat} (hi : i < lat.lw.toNat * lat.lh.toNat) :
    StaysInBlock lat (modify (clearVisited i) : Eng PUnit) :=
  staysInBlock_modify fun s hs => BlockOnly.writeFlag (by rw [blockArea, hs]; exact hi) _

theorem keepsLegal_passCu (b : Nat) : Keeps BlockLegal (passCu b) :=
  keepsBlockLegal_get_bind fun _ => keeps_bind
    (keepsLegalAt (staysInBlock_forEach fun _ hp => staysInBlock_cuColumn b (mem_stripeColumns hp).2)
      (runs_forEach writeRel_block (runs_cuColumn b))) fun _ => keeps_bind
    (keepsLegalAt (staysInBlock_forEach fun _ hi => staysInBlock_clearVisited (List.mem_range.mp hi))
      (runs_clearVisited _)) fun _ => keepsLegalAt_countPass _

theorem keepsLegal_runPass (t : PassType) (b : Nat) : Keeps BlockLegal (runPass t b) := by
  cases t with
  | sp => exact keepsLegal_passSp b
  | mr => exact keepsLegal_passMr b
  | cu => exact keepsLegal_passCu b

theorem requireSession_ok {word : Word} {s : State} (h : (s.status.session && s.status.mqrdy) = true) :
    requireSession word s = .ok () s := by
  rw [requireSession, eng_bind_ok (eng_get s), if_pos h]
  rfl

theorem requireSession_raises {word : Word} {s : State} (h : ¬ (s.status.session && s.status.mqrdy) = true) :
    requireSession word s = .error (.raise .sequence word) s := by
  rw [requireSession, eng_bind_ok (eng_get s), if_neg h]
  rfl

/-- A pass command runs its pass on an open session only, whose block fits. -/
theorem keepsLegal_passBody (word : Word) {pass : Eng Unit} (h : Keeps BlockLegal pass) :
    Keeps Legal (passBody word pass) := by
  intro s hs
  rw [passBody]
  by_cases hready : (s.status.session && s.status.mqrdy) = true
  · rw [eng_bind_ok (requireSession_ok hready)]
    exact (h s ⟨hs, hs.session.area (Bool.and_eq_true_iff.mp hready).1⟩).toLegal
  · rw [eng_bind_error (requireSession_raises hready)]
    exact hs

/-! ## Commands that latch a geometry -/

theorem firstFailure_append {l r : List Check} :
    firstFailure (l ++ r) = none ↔ firstFailure l = none ∧ firstFailure r = none := by
  simp only [firstFailure_none, List.mem_append, or_imp, forall_and]

/-- What the size checks of R150 and R191 say. -/
theorem blockChecks_none {p : ParamRegs} (h : firstFailure (blockChecks p) = none) :
    (1 ≤ p.cbW.toNat ∧ p.cbW.toNat ≤ Config.cbMaxW) ∧ (1 ≤ p.cbH.toNat ∧ p.cbH.toNat ≤ Config.cbMaxH) ∧
      p.cbW.toNat * p.cbH.toNat ≤ Config.cbMaxArea := by
  simpa [firstFailure_none, blockChecks] using h

theorem blockChecks_of_start {p : ParamRegs} (h : firstFailure (startChecks p) = none) :
    firstFailure (blockChecks p) = none :=
  (firstFailure_append.mp h).1

theorem startChecks_of_decode {cap : Capacity} {p : ParamRegs} (h : firstFailure (decodeChecks cap p) = none) :
    firstFailure (startChecks p) = none :=
  (firstFailure_append.mp (firstFailure_append.mp h).1).1

theorem BlockLegal.of_closed {s : State} (hm : MemoriesLegal s) (hs : s.status.session = false)
    (ha : blockArea s ≤ Config.cbMaxArea) : BlockLegal s :=
  ⟨⟨hm, .of_closed hs⟩, ha⟩

theorem keepsBlockLegal_modify {f : State → State} (h : ∀ s, GridKept s (f s)) :
    Keeps BlockLegal (modify f : Eng PUnit) :=
  keeps_modify fun s hs => hs.of_kept (h s)

theorem keepsBlockLegal_clearGrid {n : Nat} (hn : n ≤ Config.cbMaxArea) : Keeps BlockLegal (clearGrid n) :=
  keeps_forEach fun _ hi => keeps_modify fun _ hs =>
    have hlt := Nat.lt_of_lt_of_le (List.mem_range.mp hi) hn
    ⟨(hs.toLegal.writeCoef hlt 0).writeFlag hlt _, hs.area⟩

theorem keepsBlockLegal_decodePasses (npass zbp : Nat) : Keeps BlockLegal (decodePasses npass zbp) :=
  keeps_bind (keeps_of_frame DecoderOnly.refl keeps_initDecoder_only fun _ _ hd hs => hs.of_kept hd.gridKept) fun _ =>
    keeps_forEach fun _ _ => keepsLegal_runPass _ _

/-- The session is opened once its whole block is written. -/
theorem keepsLegal_t1StartBody : Keeps Legal t1StartBody := by
  refine keeps_get_bind fun s hs => ?_
  cases hf : firstFailure (startChecks s.par) with
  | some n => rw [eng_bind_error (requireGeometry_fails hf s)]; exact hs
  | none =>
    obtain ⟨hw, hh, ha⟩ := blockChecks_none (blockChecks_of_start hf)
    rw [eng_bind_ok (requireGeometry_ok hf s), eng_bind_ok (eng_modify _ _), eng_bind_ok (eng_modify _ _),
      eng_bind_ok (eng_modify _ _)]
    set u := setPassDone 0 (latchGeometry (setSession false false s))
    have hu : BlockLegal u := .of_closed (hs.memories.congr rfl rfl rfl rfl rfl) rfl ha
    obtain ⟨t, hok, hframe, hclear, -⟩ := clearGrid_ok (s.par.cbW.toNat * s.par.cbH.toNat) u
    have ht := keepsBlockLegal_clearGrid ha u hu
    rw [hok] at ht
    have hlat : t.lat = u.lat := by rw [hframe]
    rw [eng_bind_ok hok]
    refine ⟨ht.memories.congr rfl rfl rfl rfl rfl, fun _ => ?_, fun _ => ?_, fun _ => ht.area, fun _ i hi => ?_⟩
    · show 1 ≤ t.lat.lw.toNat ∧ t.lat.lw.toNat ≤ _
      rw [hlat]; exact hw
    · show 1 ≤ t.lat.lh.toNat ∧ t.lat.lh.toNat ≤ _
      rw [hlat]; exact hh
    · have hi' : i < blockArea u := blockArea_congr (s := u) (t := t) (by rw [hlat]) (by rw [hlat]) ▸ hi
      show (Memory.read t.coef i).isSome = true
      rw [(hclear i hi').1]; rfl

/-- No session is open while the passes run. -/
theorem keepsLegal_t1DecodeBody : Keeps Legal t1DecodeBody := by
  refine keeps_get_bind fun s hs => ?_
  cases hf : firstFailure (decodeChecks s.cap s.par) with
  | some n => rw [eng_bind_error (requireGeometry_fails hf s)]; exact hs
  | none =>
    obtain ⟨-, -, ha⟩ := blockChecks_none (blockChecks_of_start (startChecks_of_decode hf))
    rw [eng_bind_ok (requireGeometry_ok hf s), eng_bind_ok (eng_modify _ _), eng_bind_ok (eng_modify _ _),
      eng_bind_ok (eng_modify _ _), eng_bind_ok (eng_modify _ _)]
    refine BlockLegal.toLegal (keeps_bind (keepsBlockLegal_clearGrid ha) (fun _ => ?_) _
      (.of_closed (hs.memories.congr rfl rfl rfl rfl rfl) rfl ha))
    exact keeps_bind (keepsBlockLegal_modify fun _ => ⟨rfl, rfl, rfl, rfl, rfl, rfl, rfl, id⟩) fun _ =>
      keeps_bind (keeps_onlyIf (keepsBlockLegal_decodePasses _ _)) fun _ =>
        keepsBlockLegal_modify fun _ => ⟨rfl, rfl, rfl, rfl, rfl, rfl, rfl, nofun⟩

/-! ## Commands that write SAMP -/

/-- The state is legal, and the capacities are `cap`. -/
def LegalIn (cap : Capacity) (s : State) : Prop := Legal s ∧ s.cap = cap

theorem keepsLegalIn_writeSamps {cap : Capacity} {l : List (Nat × Word)} (h : ∀ p ∈ l, p.1 < cap.sampWords) :
    Keeps (LegalIn cap) (modify (writeSamps l) : Eng PUnit) := by
  refine keeps_modify fun s hs => ?_
  induction l generalizing s with
  | nil => exact hs
  | cons p r ih =>
    exact ih (fun q hq => h q (List.mem_cons_of_mem _ hq)) (writeSamp p.1 p.2 s)
      ⟨hs.1.writeSamp (hs.2 ▸ h p List.mem_cons_self) _, hs.2⟩

/-- What the plane checks of R191 and R210 say: the plane fits SAMP. -/
theorem plane_le_sampWords {cap : Capacity} {p : ParamRegs} (h : firstFailure (planeChecks cap p) = none) :
    planeW p * planeH p ≤ cap.sampWords := by
  have hc := firstFailure_none.mp h (decide (planeW p * planeH p ≤ cap.sampWords), .dwY1) (by simp [planeChecks])
  exact of_decide_eq_true hc

theorem keepsLegalIn_deqBlock {cap : Capacity} {p : ParamRegs} (hp : firstFailure (planeChecks cap p) = none)
    (hq : firstFailure (placeChecks p) = none) (f : Word → Word) : Keeps (LegalIn cap) (deqBlock p f) := by
  refine keeps_forEach fun q hmem => keeps_bind (keeps_readCoef _ _) fun c => ?_
  obtain ⟨hj, hi⟩ := mem_rasterOrder.mp hmem
  have hlt := Nat.lt_of_lt_of_le (destIndex_lt hq hj hi) (plane_le_sampWords hp)
  exact keeps_modify fun _ hs => ⟨hs.1.writeSamp (hs.2 ▸ hlt) _, hs.2⟩

/-- A level's region is no wider and no higher than the plane (R211). -/
theorem ceilShift_sub_le (a b k : Nat) : ceilShift b k - ceilShift a k ≤ b - a := by
  have hpos : 0 < 2 ^ k := Nat.two_pow_pos k
  rcases Nat.le_total b a with hle | hle
  · have hmono : ceilShift b k ≤ ceilShift a k := Nat.div_le_div_right (Nat.add_le_add_right hle _)
    omega
  · have hstep : ceilShift b k ≤ ceilShift a k + (b - a) := by
      rw [ceilShift, ceilShift, ← Nat.add_mul_div_right _ _ hpos]
      refine Nat.div_le_div_right ?_
      have := Nat.le_mul_of_pos_right (b - a) hpos
      omega
    omega

theorem region_index_lt {p : ParamRegs} {lev r c : Nat} (hr : r < regionH (regionOf p lev))
    (hc : c < regionW (regionOf p lev)) : r * (regionOf p lev).pw + c < planeW p * planeH p := by
  have hW : regionW (regionOf p lev) ≤ planeW p := ceilShift_sub_le _ _ _
  have hH : regionH (regionOf p lev) ≤ planeH p := ceilShift_sub_le _ _ _
  have hmul : (r + 1) * planeW p ≤ planeH p * planeW p := Nat.mul_le_mul_right _ (Nat.lt_of_lt_of_le hr hH)
  rw [Nat.add_mul, Nat.one_mul, Nat.mul_comm (planeH p)] at hmul
  show r * planeW p + c < _
  omega

theorem mem_rowTargets {g : Region} {r i : Nat} : i ∈ rowTargets g r ↔ ∃ c < regionW g, r * g.pw + c = i := by
  simp [rowTargets]

theorem mem_colTargets {g : Region} {c i : Nat} : i ∈ colTargets g c ↔ ∃ r < regionH g, r * g.pw + c = i := by
  simp [colTargets]

theorem keepsLegalIn_synthLine {cap : Capacity} {sources targets : List Nat} (ker : List Word → List Word)
    (h : ∀ i ∈ targets, i < cap.sampWords) : Keeps (LegalIn cap) (synthLine sources targets ker) :=
  keeps_bind (keeps_readSamps _ _) fun _ => keepsLegalIn_writeSamps fun p hp =>
    h p.1 (List.of_mem_zip (show (p.1, p.2) ∈ _ from hp)).1

theorem keepsLegalIn_sr2d {cap : Capacity} {p : ParamRegs} (hp : firstFailure (planeChecks cap p) = none) (lev : Nat)
    (ker : Kernel) : Keeps (LegalIn cap) (sr2d (regionOf p lev) ker) := by
  have hin : ∀ r c, r < regionH (regionOf p lev) → c < regionW (regionOf p lev) →
      r * (regionOf p lev).pw + c < cap.sampWords := fun _ _ hr hc =>
    Nat.lt_of_lt_of_le (region_index_lt hr hc) (plane_le_sampWords hp)
  rw [sr2d]
  refine keeps_ite (keeps_pure _ _) (keeps_bind (keeps_forEach fun r hr => ?_) fun _ => keeps_forEach fun c hc => ?_)
  · refine keepsLegalIn_synthLine _ fun i hi => ?_
    obtain ⟨c, hc, rfl⟩ := mem_rowTargets.mp hi
    exact hin r c (List.mem_range.mp hr) hc
  · refine keepsLegalIn_synthLine _ fun i hi => ?_
    obtain ⟨r, hr, rfl⟩ := mem_colTargets.mp hi
    exact hin r c hr (List.mem_range.mp hc)

theorem keepsLegalIn_drawFree (cap : Capacity) : Keeps (LegalIn cap) (modify drawFree : Eng PUnit) :=
  keeps_modify fun _ hs => ⟨hs.1.of_kept ⟨rfl, rfl, rfl, rfl, rfl, rfl, rfl, id⟩, hs.2⟩

/-- A body that checks its geometry first, and where the checks hold keeps the state legal. -/
theorem keepsLegal_checked {l : State → List Check} {body : State → Eng Unit}
    (h : ∀ s, firstFailure (l s) = none → Keeps (LegalIn s.cap) (body s)) :
    Keeps Legal ((get : Eng State) >>= fun s => requireGeometry (l s) >>= fun _ => body s) := by
  refine keeps_get_bind fun s hs => ?_
  cases hf : firstFailure (l s) with
  | some n => rw [eng_bind_error (requireGeometry_fails hf s)]; exact hs
  | none => rw [eng_bind_ok (requireGeometry_ok hf s)]; exact (h s hf s ⟨hs, rfl⟩).1

theorem keepsLegal_deqRevBody : Keeps Legal deqRevBody :=
  keepsLegal_checked fun _ hf =>
    have ⟨hall, hplace⟩ := firstFailure_append.mp hf
    keepsLegalIn_deqBlock (firstFailure_append.mp hall).2 hplace _

theorem keepsLegal_deqIrrBody (fp : FpOps) : Keeps Legal (deqIrrBody fp) :=
  keepsLegal_checked fun _ hf =>
    have ⟨hall, hplace⟩ := firstFailure_append.mp hf
    keepsLegalIn_deqBlock (firstFailure_append.mp hall).2 hplace _

/-! ## Every command, access and step -/

theorem keepsLegal_of_decoder {m : Eng α} (h : ∀ s0, Keeps (DecoderOnly s0) m) : Keeps Legal m :=
  keeps_of_frame DecoderOnly.refl h fun _ _ hd hs => hs.of_kept hd.gridKept

theorem keepsLegal_modify {f : State → State} (h : ∀ s, GridKept s (f s)) : Keeps Legal (modify f : Eng PUnit) :=
  keeps_modify fun s hs => hs.of_kept (h s)

theorem keepsLegal_mqInitBody : Keeps Legal mqInitBody :=
  keeps_bind (keeps_get _) fun _ => keeps_bind (keeps_requireGeometry _ _) fun _ =>
    keeps_bind (keepsLegal_modify fun _ => ⟨rfl, rfl, rfl, rfl, rfl, rfl, rfl, id⟩) fun _ =>
      keeps_bind (keepsLegal_modify fun _ => ⟨rfl, rfl, rfl, rfl, rfl, rfl, rfl, id⟩) fun _ =>
        keeps_bind (keepsLegal_of_decoder keeps_initDecoder_only) fun _ =>
          keepsLegal_modify fun _ => ⟨rfl, rfl, rfl, rfl, rfl, rfl, rfl, id⟩

theorem keepsLegal_mqDecodeBody (word : Word) (cx : Fin 19) : Keeps Legal (mqDecodeBody word cx) :=
  keeps_bind (keeps_get _) fun _ => keeps_ite
    (keeps_bind (keepsLegal_of_decoder fun s0 => keeps_decodeBit_only s0 cx) fun _ => keeps_pure _ _)
    (keeps_raise _ _ _)

/-- The body of every command keeps the state legal, completed or stopped. -/
theorem keepsLegal_commandBody (i : Instr) : Keeps Legal (commandBody i) := by
  cases i with
  | nop => exact keeps_pure _ _
  | reset => exact keeps_modify fun _ hs => ⟨hs.memories.congr rfl rfl rfl rfl rfl, .of_closed rfl⟩
  | clrerr => exact keepsLegal_modify fun _ => ⟨rfl, rfl, rfl, rfl, rfl, rfl, rfl, id⟩
  | mqResetcx => exact keepsLegal_modify fun _ => ⟨rfl, rfl, rfl, rfl, rfl, rfl, rfl, id⟩
  | mqInit => exact keepsLegal_mqInitBody
  | mqDecode cx => exact keepsLegal_mqDecodeBody _ _
  | t1Start => exact keepsLegal_t1StartBody
  | t1Sp b => exact keepsLegal_passBody _ (keepsLegal_passSp _)
  | t1Mr b => exact keepsLegal_passBody _ (keepsLegal_passMr _)
  | t1Cu b => exact keepsLegal_passBody _ (keepsLegal_passCu _)
  | t1Decode => exact keepsLegal_t1DecodeBody
  | deqRev => exact keepsLegal_deqRevBody
  | deqIrr => exact keepsLegal_deqIrrBody _
  | idwtLevelR53 lev => exact keepsLegal_checked fun _ hf => keepsLegalIn_sr2d hf _ _
  | idwtLevelI97 lev =>
    exact keepsLegal_checked fun s hf => keeps_bind (keepsLegalIn_drawFree s.cap) fun _ => keepsLegalIn_sr2d hf _ _
  | idwtFullR53 =>
    exact keepsLegal_checked fun _ hf => keeps_forEach fun _ _ => keepsLegalIn_sr2d (firstFailure_append.mp hf).1 _ _
  | idwtFullI97 =>
    exact keepsLegal_checked fun s hf => keeps_bind (keepsLegalIn_drawFree s.cap) fun _ =>
      keeps_forEach fun _ _ => keepsLegalIn_sr2d (firstFailure_append.mp hf).1 _ _

/-- Taking an error writes no memory and opens no session. -/
theorem Legal.takeError {s : State} (h : Legal s) (closes : Bool) (k : ErrKind) (info : Word) :
    Legal (takeError closes k info s) :=
  h.of_kept ⟨rfl, rfl, rfl, rfl, rfl, rfl, rfl, fun hs => (Bool.and_eq_true_iff.mp hs).1⟩

theorem exec_legal {i : Instr} {s t : State} (hs : Legal s) (h : exec i s = .next t) : Legal t := by
  cases hw : i.wellFormed with
  | false =>
    rw [exec_illFormed hw] at h
    cases h
    exact hs.takeError _ _ _
  | true =>
    rw [exec_wellFormed hw] at h
    exact runCommand_keeps (keepsLegal_commandBody i)
      (fun _ hu => hu.of_kept ⟨rfl, rfl, rfl, rfl, rfl, rfl, rfl, id⟩) (fun _ _ _ hu => hu.takeError _ _ _) hs h

theorem issue_legal {w : Word} {s t : State} (hs : Legal s) (h : issue w s = .next t) : Legal t := by
  have ha : Legal (accept s) := hs.of_kept ⟨rfl, rfl, rfl, rfl, rfl, rfl, rfl, id⟩
  rcases issue_next h with rfl | ⟨i, -, -, hx⟩ | rfl
  · exact hs
  · exact exec_legal ha hx
  · exact ha.takeError _ _ _

theorem legal_hardReset (s : State) : Legal (hardReset s) :=
  have hnil : ∀ {γ : Type} (n : Nat), Memory.within ([] : Memory γ) n := fun _ _ h => absurd h List.not_mem_nil
  ⟨⟨Memory.wf_nil, Memory.wf_nil, Memory.wf_nil, Memory.wf_nil, hnil _, hnil _, hnil _, hnil _,
    fun _ h => absurd h List.not_mem_nil⟩, .of_closed rfl⟩

theorem accessed_legal {op : HostOp} {s t : State} (hs : Legal s) (h : Accessed op s t) : Legal t := by
  cases h with
  | issued off bits w _ hi => exact issue_legal hs hi
  | wroteBs i v hi => exact hs.writeBs hi v
  | wroteCoef i v _ hi => exact hs.writeCoef hi v
  | wroteSamp i v hi => exact hs.writeSamp hi v
  | hardReset => exact legal_hardReset s
  | _ => exact hs.of_kept ⟨rfl, rfl, rfl, rfl, rfl, rfl, rfl, id⟩

/-- Settles O26: passes write inside a block that fits, and lose no coefficient; a session is opened over a checked
geometry whose grid was just cleared; the sample commands write inside the checked plane. -/
theorem memoriesStayLegal : Obligations.MemoriesStayLegal := by
  intro s t hs h
  have hl : Legal s := ⟨hs.1, hs.2⟩
  have ht : Legal t := by
    rcases step_next h with rfl | ⟨op, rest, -, ha⟩
    · exact hl
    · exact accessed_legal (s := setPending rest s) (hl.of_kept ⟨rfl, rfl, rfl, rfl, rfl, rfl, rfl, id⟩) ha
  exact ⟨ht.memories, ht.session⟩

end Sys2Proof.Machine
end

section
/-! Where an unwritten element stops a command (R70, U1): the decoder's initialisation and refill, the refinement pass,
the dequantizer and the transform. -/

namespace Sys2Proof.Machine

variable {α β : Type}

/-! ## Computations that stop -/

/-- The computation stops the model with a fault of `E`. -/
def FaultsWith (E : Fault → Prop) (m : Eng α) (s : State) : Prop := ∃ f t, m s = .error (.fault f) t ∧ E f

theorem faultsWith_bind {E : Fault → Prop} {m : Eng α} {f : α → Eng β} {s : State} (h : FaultsWith E m s) :
    FaultsWith E (m >>= f) s := by
  obtain ⟨g, t, hm, hg⟩ := h
  exact ⟨g, t, eng_bind_error hm, hg⟩

theorem faultsWith_of_ok {E : Fault → Prop} {m : Eng α} {f : α → Eng β} {s t : State} {a : α} (hm : m s = .ok a t)
    (h : FaultsWith E (f a) t) : FaultsWith E (m >>= f) s := by
  obtain ⟨g, u, hf, hg⟩ := h
  exact ⟨g, u, (eng_bind_ok hm).trans hf, hg⟩

/-- From `P`, the computation completes into `P`, or stops with a fault of `E`. -/
def CompletesOrFaults (P : State → Prop) (E : Fault → Prop) (m : Eng Unit) : Prop :=
  ∀ s, P s → (∃ t, m s = .ok () t ∧ P t) ∨ FaultsWith E m s

theorem completesOrFaults_pure (P : State → Prop) (E : Fault → Prop) : CompletesOrFaults P E (pure ()) :=
  fun s hs => .inl ⟨s, rfl, hs⟩

theorem completesOrFaults_bind {P : State → Prop} {E : Fault → Prop} {m : Eng Unit} {f : Unit → Eng Unit}
    (hm : CompletesOrFaults P E m) (hf : CompletesOrFaults P E (f ())) : CompletesOrFaults P E (m >>= f) := by
  intro s hs
  rcases hm s hs with ⟨t, ht, hPt⟩ | hfault
  · rcases hf t hPt with ⟨u, hu, hPu⟩ | hfault
    · exact .inl ⟨u, (eng_bind_ok ht).trans hu, hPu⟩
    · exact .inr (faultsWith_of_ok ht hfault)
  · exact .inr (faultsWith_bind hfault)

theorem completesOrFaults_forEach {P : State → Prop} {E : Fault → Prop} {l : List α} {body : α → Eng Unit}
    (h : ∀ x ∈ l, CompletesOrFaults P E (body x)) : CompletesOrFaults P E (forEach l body) := by
  induction l with
  | nil => exact completesOrFaults_pure P E
  | cons x r ih =>
    exact completesOrFaults_bind (h x List.mem_cons_self) (ih fun y hy => h y (List.mem_cons_of_mem _ hy))

/-- A loop stops where one of its turns does, unless an earlier turn stopped it. -/
theorem forEach_faultsWith {P : State → Prop} {E : Fault → Prop} {l : List α} {body : α → Eng Unit} {x : α} (hx : x ∈ l)
    (h : ∀ y ∈ l, CompletesOrFaults P E (body y)) (hstop : ∀ s, P s → FaultsWith E (body x) s) {s : State} (hs : P s) :
    FaultsWith E (forEach l body) s := by
  induction l generalizing s with
  | nil => cases hx
  | cons y r ih =>
    rw [forEach_cons]
    rcases List.mem_cons.mp hx with rfl | hr
    · exact faultsWith_bind (hstop s hs)
    · rcases h y List.mem_cons_self s hs with ⟨t, ht, hPt⟩ | hfault
      · exact faultsWith_of_ok ht (ih hr (fun z hz => h z (List.mem_cons_of_mem _ hz)) hPt)
      · exact faultsWith_bind hfault

/-- A command whose body stops the model stops it. -/
theorem exec_of_faultsWith {E : Fault → Prop} {i : Instr} {s : State} (hw : i.wellFormed = true)
    (h : FaultsWith E (commandBody i) s) : ∃ f, E f ∧ exec i s = .fault f := by
  obtain ⟨f, t, hf, hE⟩ := h
  exact ⟨f, hE, by rw [exec_wellFormed hw, runCommand_fault hf]⟩

/-- As `exec_of_faultsWith`, where the fault is known. -/
theorem exec_of_faultsWith_eq {f : Fault} {i : Instr} {s : State} (hw : i.wellFormed = true)
    (h : FaultsWith (· = f) (commandBody i) s) : exec i s = .fault f := by
  obtain ⟨g, rfl, hg⟩ := exec_of_faultsWith hw h
  exact hg

/-! ## Unwritten bytes -/

/-- `BYTEIN` on a byte that is not written at the pointer, or after it. -/
theorem byteIn_unwritten {s : State} {k : Nat} (hbp : s.mq.bp.toNat = k) (h : k < s.lat.len.toNat)
    (hn : Memory.read s.bs k = none) : FaultsWith (· = .unwrittenBs k) byteIn s := by
  subst hbp
  exact faultsWith_of_ok (eng_get s) (faultsWith_bind ⟨_, _, bsRead_unwritten h hn, rfl⟩)

theorem byteIn_next_unwritten {s : State} {k : Nat} (hbp : s.mq.bp.toNat = k) (h : k + 1 < s.lat.len.toNat)
    (hh : Memory.has s.bs k = true) (hn : Memory.read s.bs (k + 1) = none) :
    FaultsWith (· = .unwrittenBs (k + 1)) byteIn s := by
  subst hbp
  obtain ⟨b, hb⟩ := Option.isSome_iff_exists.mp hh
  exact faultsWith_of_ok (eng_get s) <| faultsWith_of_ok (bsRead_ok (by omega) hb) <|
    faultsWith_bind ⟨_, _, bsRead_unwritten h hn, rfl⟩

/-- The initialisation reads the first two bytes of the bitstream (R125). -/
theorem initDecoder_unwritten {s : State} (h : 1 ≤ s.lat.len.toNat) (hn : Memory.read s.bs 0 = none) :
    FaultsWith (· = .unwrittenBs 0) initDecoder s :=
  faultsWith_of_ok (eng_modify _ _) (faultsWith_bind ⟨_, _, bsRead_unwritten h hn, rfl⟩)

theorem initDecoder_next_unwritten {s : State} (h : 2 ≤ s.lat.len.toNat) (hh : Memory.has s.bs 0 = true)
    (hn : Memory.read s.bs 1 = none) : FaultsWith (· = .unwrittenBs 1) initDecoder s := by
  obtain ⟨b, hb⟩ := Option.isSome_iff_exists.mp hh
  have hread : ∀ t, DecoderOnly s t → bsRead 0 t = .ok b t := fun t ht =>
    bsRead_ok (by rw [ht.lat]; omega) (ht.kept.bs ▸ hb)
  have hbyte : ∀ t, DecoderOnly s t → t.mq.bp.toNat = 0 → FaultsWith (· = .unwrittenBs 1) byteIn t :=
    fun t ht hbp => byteIn_next_unwritten hbp (by rw [ht.lat]; exact h) (ht.kept.bs ▸ hh) (ht.kept.bs ▸ hn)
  set u := setMq { s.mq with bp := 0 } s
  set v := setMq { u.mq with c := b.setWidth 32 <<< 16 } u
  have hu : DecoderOnly s u := .setMq _ s
  have hv : DecoderOnly s v := hu.trans (.setMq _ u)
  have hbp : v.mq.bp.toNat = 0 := by simp [u, v]
  exact faultsWith_of_ok (eng_modify _ s) <| faultsWith_of_ok (hread u hu) <| faultsWith_of_ok (eng_modify _ u) <|
    faultsWith_bind (hbyte v hv hbp)

/-- `MQ.INIT` stops where the initialisation with the new length does. -/
theorem faultsWith_mqInitBody {E : Fault → Prop} {s : State} (hlen : s.par.cbLen.toNat ≤ s.cap.bsBytes)
    (h : ∀ t : State, t.bs = s.bs → t.lat.len = s.par.cbLen → FaultsWith E initDecoder t) :
    FaultsWith E mqInitBody s := by
  have hf : firstFailure (initChecks s.cap s.par) = none := by simp [firstFailure_none, initChecks, hlen]
  exact faultsWith_of_ok (eng_get s) <| faultsWith_of_ok (requireGeometry_ok hf s) <|
    faultsWith_of_ok (eng_modify _ _) <| faultsWith_of_ok (eng_modify _ _) <| faultsWith_bind (h _ rfl rfl)

/-- `T1.DECODE` with passes to run stops where the initialisation with the new length does. -/
theorem faultsWith_t1DecodeBody {E : Fault → Prop} {s : State} (hf : firstFailure (decodeChecks s.cap s.par) = none)
    (hn : 0 < s.par.cbNpass.toNat)
    (h : ∀ t : State, t.bs = s.bs → t.lat.len = s.par.cbLen → FaultsWith E initDecoder t) :
    FaultsWith E t1DecodeBody s := by
  refine faultsWith_of_ok (eng_get s) <| faultsWith_of_ok (requireGeometry_ok hf s) <|
    faultsWith_of_ok (eng_modify _ _) <| faultsWith_of_ok (eng_modify _ _) <|
      faultsWith_of_ok (eng_modify _ _) <| faultsWith_of_ok (eng_modify _ _) ?_
  obtain ⟨t, hok, hframe, -, -⟩ := clearGrid_ok (s.par.cbW.toNat * s.par.cbH.toNat)
    (setPassDone 0 (setLatches { (latchGeometry (setSession false false s)).lat with len := s.par.cbLen }
      (latchGeometry (setSession false false s))))
  refine faultsWith_of_ok hok <| faultsWith_of_ok (eng_modify _ _) <| faultsWith_bind ?_
  rw [decide_eq_true hn, onlyIf_true, decodePasses]
  exact faultsWith_bind (h _ (by rw [hframe]; rfl) (by rw [hframe]; rfl))

/-! ## A refill -/

/-- A renormalisation that still lacks bit 15 after `CT` shifts enters a byte (R126): it stops where that does. -/
theorem renormd_refill {E : Fault → Prop} {n : Nat} {s : State} (ha : s.mq.a.toNat * 2 ^ s.mq.ct.toNat < 0x8000)
    (hn : s.mq.ct.toNat < n)
    (h : ∀ t : State, t.bs = s.bs → t.lat = s.lat → t.mq.bp = s.mq.bp → FaultsWith E byteIn t) :
    FaultsWith E (renormd n) s := by
  induction n generalizing s with
  | zero => omega
  | succ n ih =>
    rw [FaultsWith, renormd_succ]
    by_cases hct : s.mq.ct = 0
    · rw [decide_eq_true hct]
      exact faultsWith_bind (h s rfl rfl rfl)
    · rw [decide_eq_false hct]
      have hpos : 0 < s.mq.ct.toNat := Nat.pos_of_ne_zero fun h0 => hct (BitVec.eq_of_toNat_eq h0)
      have hpow : s.mq.a.toNat * 2 ^ s.mq.ct.toNat = 2 * s.mq.a.toNat * 2 ^ (s.mq.ct.toNat - 1) := by
        rw [← Nat.sub_add_cancel hpos, Nat.add_sub_cancel]; ring
      have hone : 1 ≤ 2 ^ (s.mq.ct.toNat - 1) := Nat.one_le_two_pow
      have hle : 2 * s.mq.a.toNat ≤ 2 * s.mq.a.toNat * 2 ^ (s.mq.ct.toNat - 1) := Nat.le_mul_of_pos_right _ hone
      have hsh : (shiftOnce s.mq).a.toNat = 2 * s.mq.a.toNat := shl_one_toNat (by omega)
      have hctn : (shiftOnce s.mq).ct.toNat = s.mq.ct.toNat - 1 := by
        show (s.mq.ct - 1).toNat = _
        have hle : (1 : BitVec 4) ≤ s.mq.ct := BitVec.le_def.mpr hpos
        rw [BitVec.toNat_sub_of_le hle]
        rfl
      have hmsb : (shiftOnce s.mq).a.msb = false := Bool.eq_false_iff.mpr fun hm => by
        have := msb_iff_le.mp hm
        omega
      refine faultsWith_of_ok (eng_pure _ _) <| faultsWith_of_ok (eng_get s) <| faultsWith_of_ok (eng_set _ s) ?_
      rw [hmsb]
      refine ih ?_ ?_ h
      · show (shiftOnce s.mq).a.toNat * 2 ^ (shiftOnce s.mq).ct.toNat < _
        rw [hsh, hctn, ← hpow]
        exact ha
      · show (shiftOnce s.mq).ct.toNat < n
        omega

/-- The interval of the decision is `exchangedA`, and it is renormalised where bit 15 is clear (R127, R128). -/
theorem decisionOf_exchanged {s : State} (c : Fin 19) (ha : 0x8000 ≤ s.mq.a.toNat) :
    (decisionOf s.mq.a s.mq.c (ctxAt s c)).a.toNat = exchangedA s c := by
  obtain ⟨h1, h2⟩ := qeRow_bounds (ctxAt s c).idx
  have hsub : (s.mq.a - (qeRow (ctxAt s c).idx).qe).toNat = s.mq.a.toNat - (qeRow (ctxAt s c).idx).qe.toNat :=
    BitVec.toNat_sub_of_le (BitVec.le_def.mpr (by omega))
  have hhigh : (chigh s.mq.c).toNat = s.mq.c.toNat / 65536 := by
    have := s.mq.c.isLt
    rw [chigh, BitVec.extractLsb'_toNat, Nat.shiftRight_eq_div_pow]
    omega
  unfold exchangedA lowerHalf decisionOf
  rw [hhigh]
  dsimp only
  split
  · rw [lpsExchange]; split <;> rfl
  · split <;> exact hsub

/-- A decision whose renormalisation needs a byte stops where the refill does. -/
theorem decodeBit_refill {E : Fault → Prop} {s : State} {c : Fin 19} (ha : 0x8000 ≤ s.mq.a.toNat) (hr : RefillDue s c)
    (h : ∀ t : State, t.bs = s.bs → t.lat = s.lat → t.mq.bp = s.mq.bp → FaultsWith E byteIn t) :
    FaultsWith E (decodeBit c) s := by
  have hx := decisionOf_exchanged c ha
  obtain ⟨hpos, -, hno⟩ := decisionOf_interval s.mq.c (ctxAt s c) ha
  rw [FaultsWith, decodeBit_eq]
  set x := decisionOf s.mq.a s.mq.c (ctxAt s c)
  rw [RefillDue, ← hx] at hr
  have hone : 1 ≤ 2 ^ s.mq.ct.toNat := Nat.one_le_two_pow
  have hrenorm : x.renorm = true := by
    by_contra hf
    have hle : x.a.toNat ≤ x.a.toNat * 2 ^ s.mq.ct.toNat := Nat.le_mul_of_pos_right _ hone
    have := hno (Bool.not_eq_true _ ▸ hf)
    omega
  have hct : s.mq.ct.toNat < 15 := by
    by_contra hge
    have hpow : 2 ^ 15 ≤ 2 ^ s.mq.ct.toNat := Nat.pow_le_pow_right Nat.two_pos (Nat.not_lt.mp hge)
    have := Nat.le_mul_of_pos_left (2 ^ s.mq.ct.toNat) hpos
    omega
  rw [hrenorm]
  exact faultsWith_of_ok (eng_set _ s) <| faultsWith_bind <| renormd_refill (s := applyDecision c x s) hr hct h

theorem faultsWith_mqDecode {f : Fault} {s : State} {c : Fin 19} (hq : s.status.mqrdy = true)
    (h : FaultsWith (· = f) (decodeBit c) s) : exec (.mqDecode (BitVec.ofNat 8 c.val)) s = .fault f := by
  obtain ⟨g, t, hg, rfl⟩ := h
  rw [exec_mqDecode_ready c hq, hg]

/-! ## Unwritten coefficients -/

/-- The fault names a coefficient unwritten in `m`. -/
def UnwrittenCoefIn (m : Memory Word) (f : Fault) : Prop := ∃ k, f = .unwrittenCoef k ∧ Memory.read m k = none

/-- Where the refinement pass is to stop: the decoder fed, the coefficient `k` due for refinement and unwritten, and
only coefficients unwritten in `s0` unwritten. -/
structure RefinementBlocked (s0 : State) (k : Nat) (s : State) : Prop where
  fed       : DecoderFed s
  lat       : s.lat = s0.lat
  sigma     : (flagAt s k).sigma = true
  pi        : (flagAt s k).pi = false
  missing   : Memory.read s.coef k = none
  unwritten : ∀ i, Memory.read s.coef i = none → Memory.read s0.coef i = none

theorem RefinementBlocked.decoder {s0 s t : State} {k : Nat} (h : RefinementBlocked s0 k s) (hf : DecoderFed t)
    (hd : DecoderOnly s t) : RefinementBlocked s0 k t where
  fed       := hf
  lat       := hd.lat.trans h.lat
  sigma     := by rw [flagAt, hd.flag]; exact h.sigma
  pi        := by rw [flagAt, hd.flag]; exact h.pi
  missing   := hd.coef ▸ h.missing
  unwritten := hd.coef ▸ h.unwritten

/-- Refining another, written coefficient leaves `k` blocked. -/
theorem RefinementBlocked.refine {s0 s : State} {k i y x : Nat} {v c : Word} (h : RefinementBlocked s0 k s)
    (hc : Memory.read s.coef i = some c) : RefinementBlocked s0 k (setRefined y x (writeCoef i v s)) := by
  have hflag : ∀ j, (flagAt (setRefined y x (writeCoef i v s)) j).sigma = (flagAt s j).sigma ∧
      (flagAt (setRefined y x (writeCoef i v s)) j).pi = (flagAt s j).pi := by
    intro j
    rw [setRefined, flagAt_writeFlag]
    split
    · subst j; exact ⟨rfl, rfl⟩
    · exact ⟨rfl, rfl⟩
  have hread : ∀ j, Memory.read (setRefined y x (writeCoef i v s)).coef j = none ↔ Memory.read s.coef j = none := by
    intro j
    show Memory.read (Memory.write s.coef i v) j = none ↔ _
    rw [Memory.read_write]
    split
    · subst j; simp [hc]
    · rfl
  exact ⟨⟨h.fed.ready, h.fed.interval, h.fed.fed⟩, h.lat, (hflag k).1.trans h.sigma, (hflag k).2.trans h.pi,
    (hread k).mpr h.missing, fun j hj => h.unwritten j ((hread j).mp hj)⟩

/-- A visit due for refinement decides and then reads its coefficient. -/
theorem mrVisit_blocked {s0 : State} {k : Nat} (b : Nat) (p : Nat × Nat) :
    CompletesOrFaults (RefinementBlocked s0 k) (UnwrittenCoefIn s0.coef) (mrVisit b p) := by
  intro s hs
  rw [FaultsWith, mrVisit_eq]
  split
  · obtain ⟨t, hok, hfed, hd, -, -⟩ := decodeBit_completes (mrc s p.1 p.2) hs.fed
    have ht := hs.decoder hfed hd
    cases hc : Memory.read t.coef (coefIndex s p.1 p.2) with
    | none =>
      exact .inr (faultsWith_of_ok hok (faultsWith_bind ⟨_, _, readCoef_unwritten hc, _, rfl, ht.unwritten _ hc⟩))
    | some c => exact .inl ⟨_, by rw [eng_bind_ok hok, eng_bind_ok (readCoef_ok hc)]; rfl, ht.refine hc⟩
  · exact .inl ⟨s, rfl, hs⟩

/-- The visit of the blocked coefficient stops. -/
theorem mrVisit_faults {s0 s : State} (b : Nat) {p : Nat × Nat} (hs : RefinementBlocked s0 (coefIndex s0 p.1 p.2) s) :
    FaultsWith (UnwrittenCoefIn s0.coef) (mrVisit b p) s := by
  have hidx : coefIndex s p.1 p.2 = coefIndex s0 p.1 p.2 := by rw [coefIndex, coefIndex, hs.lat]
  obtain ⟨t, hok, hfed, hd, -, -⟩ := decodeBit_completes (mrc s p.1 p.2) hs.fed
  have ht := hs.decoder hfed hd
  rw [FaultsWith, mrVisit_eq, hidx, hs.sigma, hs.pi]
  exact faultsWith_of_ok hok (faultsWith_bind ⟨_, _, readCoef_unwritten ht.missing, _, rfl, ht.unwritten _ ht.missing⟩)

/-- Every index of the block is that of a point of the scan. -/
theorem exists_coefIndex_eq {s : State} {k : Nat} (hk : k < blockArea s) :
    ∃ p ∈ scanOrder s.lat.lw.toNat s.lat.lh.toNat, coefIndex s p.1 p.2 = k := by
  have hw : 0 < s.lat.lw.toNat := Nat.pos_of_mul_pos_right (Nat.zero_lt_of_lt hk)
  exact ⟨(k / s.lat.lw.toNat, k % s.lat.lw.toNat),
    mem_scanOrder.mpr ⟨Nat.div_lt_of_lt_mul hk, Nat.mod_lt _ hw⟩, Nat.div_add_mod' k _⟩

theorem passMr_faults {s : State} (b : Nat) {k : Nat} (hf : DecoderFed s) (hk : k < blockArea s)
    (hsig : (flagAt s k).sigma = true) (hpi : (flagAt s k).pi = false) (hn : Memory.read s.coef k = none) :
    FaultsWith (UnwrittenCoefIn s.coef) (passMr b) s := by
  obtain ⟨p, hp, rfl⟩ := exists_coefIndex_eq hk
  exact faultsWith_of_ok (eng_get s) <| faultsWith_bind <|
    forEach_faultsWith (P := RefinementBlocked s (coefIndex s p.1 p.2)) hp (fun q _ => mrVisit_blocked b q)
      (fun _ hu => mrVisit_faults b hu) ⟨hf, rfl, hsig, hpi, hn, fun _ => id⟩

/-- Dequantizing a code-block with an unwritten coefficient stops (R192, R194). -/
theorem deqBlock_faults {p : ParamRegs} (f : Word → Word) {s : State} {k : Nat} (hk : k < p.cbW.toNat * p.cbH.toNat)
    (hn : Memory.read s.coef k = none) : FaultsWith (UnwrittenCoefIn s.coef) (deqBlock p f) s := by
  have hw : 0 < p.cbW.toNat := Nat.pos_of_mul_pos_right (Nat.zero_lt_of_lt hk)
  have hmem : (k / p.cbW.toNat, k % p.cbW.toNat) ∈ rasterOrder p.cbW.toNat p.cbH.toNat :=
    mem_rasterOrder.mpr ⟨Nat.div_lt_of_lt_mul hk, Nat.mod_lt _ hw⟩
  have hstop : ∀ (q : Nat × Nat) (u : State), u.coef = s.coef → Memory.read s.coef (q.1 * p.cbW.toNat + q.2) = none →
      FaultsWith (UnwrittenCoefIn s.coef) (deqOne p f q) u := fun q u hu hq =>
    faultsWith_bind ⟨_, _, readCoef_unwritten (hu ▸ hq), _, rfl, hq⟩
  refine forEach_faultsWith (P := fun u => u.coef = s.coef) hmem (fun q _ u hu => ?_) (fun u hu => ?_) rfl
  · cases hc : Memory.read s.coef (q.1 * p.cbW.toNat + q.2) with
    | none => exact .inr (hstop q u hu hc)
    | some c => exact .inl ⟨_, deqOne_ok (hu ▸ hc), hu⟩
  · exact hstop _ u hu (by rw [Nat.div_add_mod']; exact hn)

/-! ## Unwritten samples -/

/-- The fault names a sample unwritten in `m`. -/
def UnwrittenSampIn (m : Memory Word) (f : Fault) : Prop := ∃ k, f = .unwrittenSamp k ∧ Memory.read m k = none

/-- The same samples are unwritten as in `m`. -/
def SameUnwritten (m : Memory Word) (s : State) : Prop := ∀ i, Memory.read s.samp i = none ↔ Memory.read m i = none

/-- Writing over written words leaves the same samples unwritten. -/
theorem sameUnwritten_writeSamps {m : Memory Word} {l : List (Nat × Word)} {s : State} (hs : SameUnwritten m s)
    (h : ∀ p ∈ l, Memory.read m p.1 ≠ none) : SameUnwritten m (writeSamps l s) := by
  induction l generalizing s with
  | nil => exact hs
  | cons p r ih =>
    refine ih (s := writeSamp p.1 p.2 s) (fun i => ?_) fun q hq => h q (List.mem_cons_of_mem _ hq)
    rw [writeSamp_samp, Memory.read_write]
    split
    · subst i; simp [h p List.mem_cons_self]
    · exact hs i

/-- Reading a list with an unwritten word stops at the first such word. -/
theorem readSamps_faults {m : Memory Word} {l : List Nat} {s : State} (hs : SameUnwritten m s)
    (h : ∃ i ∈ l, Memory.read m i = none) : FaultsWith (UnwrittenSampIn m) (readSamps l) s := by
  induction l with
  | nil => obtain ⟨i, hi, -⟩ := h; cases hi
  | cons j r ih =>
    rw [readSamps]
    cases hj : Memory.read s.samp j with
    | none => exact faultsWith_bind ⟨_, _, readSamp_unwritten hj, _, rfl, (hs j).mp hj⟩
    | some v =>
      refine faultsWith_of_ok (readSamp_ok hj) (faultsWith_bind (ih ?_))
      obtain ⟨i, hi, hn⟩ := h
      rcases List.mem_cons.mp hi with rfl | hr
      · rw [(hs i).mpr hn] at hj; cases hj
      · exact ⟨i, hr, hn⟩

/-- A line with an unwritten source stops. -/
theorem synthLine_faults {m : Memory Word} {sources targets : List Nat} {ker : List Word → List Word} {s : State}
    (hs : SameUnwritten m s) (h : ∃ i ∈ sources, Memory.read m i = none) :
    FaultsWith (UnwrittenSampIn m) (synthLine sources targets ker) s :=
  faultsWith_bind (readSamps_faults hs h)

/-- A line that writes only words it read leaves the same samples unwritten, or stops. -/
theorem synthLine_completesOrFaults (m : Memory Word) {sources targets : List Nat} (ker : List Word → List Word)
    (hsub : targets ⊆ sources) :
    CompletesOrFaults (SameUnwritten m) (UnwrittenSampIn m) (synthLine sources targets ker) := by
  intro s hs
  by_cases h : ∃ i ∈ sources, Memory.read m i = none
  · exact .inr (synthLine_faults hs h)
  · have hwritten : ∀ i ∈ sources, Memory.read m i ≠ none := fun i hi hn => h ⟨i, hi, hn⟩
    refine .inl ⟨_, synthLine_ok fun i hi => ?_, sameUnwritten_writeSamps hs fun p hp => ?_⟩
    · exact Option.isSome_iff_ne_none.mpr fun hn => hwritten i hi ((hs i).mp hn)
    · exact hwritten _ (hsub (List.of_mem_zip (show (p.1, p.2) ∈ _ from hp)).1)

/-- Every place of a line holds a sample of the interval (R212, R218). -/
theorem exists_splitPos {i0 i1 c : Nat} (hc : c < i1 - i0) : ∃ d < i1 - i0, splitPos i0 i1 (i0 + d) = c := by
  have hceil : ∀ a, ceilShift a 1 = (a + 1) / 2 := fun _ => rfl
  by_cases hlow : c < lowCount i0 i1
  · rw [lowCount, hceil, hceil] at hlow
    refine ⟨2 * (c + (i0 + 1) / 2) - i0, by omega, ?_⟩
    rw [splitPos, if_pos (by omega), hceil]
    omega
  · refine ⟨2 * (c - lowCount i0 i1 + i0 / 2) + 1 - i0, ?_, ?_⟩
    · rw [lowCount, hceil, hceil] at hlow ⊢; omega
    · rw [splitPos, if_neg (by omega)]; omega

theorem rowTargets_subset (g : Region) (r : Nat) : rowTargets g r ⊆ rowSources g r := by
  intro i hi
  obtain ⟨c, hc, rfl⟩ := mem_rowTargets.mp hi
  obtain ⟨d, hd, hpos⟩ := exists_splitPos hc
  exact List.mem_map.mpr ⟨d, List.mem_range.mpr hd, by rw [hpos]⟩

theorem colTargets_subset (g : Region) (c : Nat) : colTargets g c ⊆ colSources g c := by
  intro i hi
  obtain ⟨r, hr, rfl⟩ := mem_colTargets.mp hi
  obtain ⟨d, hd, hpos⟩ := exists_splitPos hr
  exact List.mem_map.mpr ⟨d, List.mem_range.mpr hd, by rw [hpos]⟩

/-- A level leaves the same samples unwritten, or stops at one. -/
theorem sr2d_completesOrFaults (m : Memory Word) (g : Region) (ker : Kernel) :
    CompletesOrFaults (SameUnwritten m) (UnwrittenSampIn m) (sr2d g ker) := by
  rw [sr2d]
  split
  · exact completesOrFaults_pure _ _
  · exact completesOrFaults_bind
      (completesOrFaults_forEach fun r _ => synthLine_completesOrFaults m _ (rowTargets_subset g r))
      (completesOrFaults_forEach fun c _ => synthLine_completesOrFaults m _ (colTargets_subset g c))

/-- A level whose region has an unwritten sample stops in its row pass. -/
theorem sr2d_faults {m : Memory Word} {g : Region} (ker : Kernel) {k : Nat} (hk : inRegion g k)
    (hn : Memory.read m k = none) {s : State} (hs : SameUnwritten m s) :
    FaultsWith (UnwrittenSampIn m) (sr2d g ker) s := by
  obtain ⟨r, c, hr, hc, rfl⟩ := hk
  have hsource : r * g.pw + c ∈ rowSources g r := rowTargets_subset g r (mem_rowTargets.mpr ⟨c, hc, rfl⟩)
  rw [sr2d, if_neg (by omega)]
  exact faultsWith_bind <| forEach_faultsWith (List.mem_range.mpr hr)
    (fun q _ => synthLine_completesOrFaults m _ (rowTargets_subset g q))
    (fun u hu => synthLine_faults hu ⟨_, hsource, hn⟩) hs

/-- Level 1 covers the whole plane (R211). -/
theorem inRegion_one {p : ParamRegs} {k : Nat} (hk : k < planeW p * planeH p) : inRegion (regionOf p 1) k := by
  have hw : 0 < planeW p := Nat.pos_of_mul_pos_right (Nat.zero_lt_of_lt hk)
  have hceil : ∀ a, ceilShift a (1 - 1) = a := fun a => by simp [ceilShift]
  have hW : regionW (regionOf p 1) = planeW p := by simp only [regionW, regionOf, hceil, planeW]
  have hH : regionH (regionOf p 1) = planeH p := by simp only [regionH, regionOf, hceil, planeH]
  exact ⟨k / planeW p, k % planeW p, by rw [hH]; exact Nat.div_lt_of_lt_mul hk, by rw [hW]; exact Nat.mod_lt _ hw,
    (Nat.div_add_mod' k _).symm⟩

/-- A transform over an unwritten plane stops, at level 1 if not before. -/
theorem levels_faults {m : Memory Word} {p : ParamRegs} (ker : Nat → Kernel) {n k : Nat} (hn : 0 < n)
    (hk : k < planeW p * planeH p) (hm : Memory.read m k = none) {s : State} (hs : SameUnwritten m s) :
    FaultsWith (UnwrittenSampIn m) (forEach (levelsDown n) (fun lev => sr2d (regionOf p lev) (ker lev))) s := by
  have hmem : 1 ∈ levelsDown n := List.mem_map.mpr ⟨n - 1, List.mem_range.mpr (by omega), by omega⟩
  exact forEach_faultsWith hmem (fun lev _ => sr2d_completesOrFaults m _ _)
    (fun u hu => sr2d_faults (ker 1) (inRegion_one hk) hm hu) hs

/-- A body that checks its geometry first stops where what follows does. -/
theorem faultsWith_checked {E : Fault → Prop} {l : State → List Check} {body : State → Eng Unit} {s : State}
    (hf : firstFailure (l s) = none) (h : FaultsWith E (body s) s) :
    FaultsWith E ((get : Eng State) >>= fun s => requireGeometry (l s) >>= fun _ => body s) s :=
  faultsWith_of_ok (eng_get s) (faultsWith_of_ok (requireGeometry_ok hf s) h)

/-! ## The commands -/

theorem exec_unwrittenCoef {i : Instr} {s : State} (hw : i.wellFormed = true)
    (h : FaultsWith (UnwrittenCoefIn s.coef) (commandBody i) s) :
    ∃ k, Memory.read s.coef k = none ∧ exec i s = .fault (.unwrittenCoef k) := by
  obtain ⟨f, ⟨k, rfl, hk⟩, hx⟩ := exec_of_faultsWith hw h
  exact ⟨k, hk, hx⟩

theorem exec_unwrittenSamp {i : Instr} {s : State} (hw : i.wellFormed = true)
    (h : FaultsWith (UnwrittenSampIn s.samp) (commandBody i) s) :
    ∃ k, Memory.read s.samp k = none ∧ exec i s = .fault (.unwrittenSamp k) := by
  obtain ⟨f, ⟨k, rfl, hk⟩, hx⟩ := exec_of_faultsWith hw h
  exact ⟨k, hk, hx⟩

/-- `T1.MR` on a block with an unwritten coefficient due for refinement. -/
theorem exec_t1Mr_unwritten {s : State} {b : BitVec 8} {k : Nat} (hb : legalPlane b = true)
    (hs : s.status.session = true) (hf : DecoderFed s) (hk : k < blockArea s) (hsig : (flagAt s k).sigma = true)
    (hpi : (flagAt s k).pi = false) (hn : Memory.read s.coef k = none) :
    ∃ j, Memory.read s.coef j = none ∧ exec (.t1Mr b) s = .fault (.unwrittenCoef j) :=
  exec_unwrittenCoef hb <| faultsWith_of_ok (requireSession_ok (Bool.and_eq_true_iff.mpr ⟨hs, hf.ready⟩))
    (passMr_faults _ hf hk hsig hpi hn)

/-- Settles O14: each clause follows the command to its first read of an unwritten element; that any fault names such an
element, or an interval below 0x8000, is `exec_fault_named`. -/
theorem unwrittenElementsStopTheModel : Obligations.UnwrittenElementsStopTheModel := by
  intro s
  have hsame : SameUnwritten s.samp s := fun _ => Iff.rfl
  refine ⟨fun hlen => ⟨fun h1 hn => ?_, fun h2 hh hn => ?_⟩, fun c hq ha hr => ⟨fun hlt hn => ?_, fun hlt hh hn => ?_⟩,
    fun hf hp => ⟨fun h1 hn => ?_, fun h2 hh hn => ?_⟩,
    fun b k hb hs hf hk hsig hpi hn => exec_t1Mr_unwritten hb hs hf hk hsig hpi hn,
    fun k hk hn => ⟨fun hf => ?_, fun hf => ?_⟩, fun lev k hlev hf hk hn => ⟨?_, ?_⟩, fun k hf hnl hk hn => ⟨?_, ?_⟩,
    fun i => ⟨fun f hx => exec_fault_named hx, fun x => exec_ne_refused i s x⟩⟩
  · exact exec_of_faultsWith_eq (i := .mqInit) rfl <| faultsWith_mqInitBody hlen fun t hbs ht =>
      initDecoder_unwritten (ht ▸ h1) (hbs ▸ hn)
  · exact exec_of_faultsWith_eq (i := .mqInit) rfl <| faultsWith_mqInitBody hlen fun t hbs ht =>
      initDecoder_next_unwritten (ht ▸ h2) (hbs ▸ hh) (hbs ▸ hn)
  · refine faultsWith_mqDecode hq <| decodeBit_refill ha hr fun t hbs hlat hbp => ?_
    exact byteIn_unwritten (by rw [hbp]) (hlat ▸ hlt) (hbs ▸ hn)
  · refine faultsWith_mqDecode hq <| decodeBit_refill ha hr fun t hbs hlat hbp => ?_
    exact byteIn_next_unwritten (by rw [hbp]) (hlat ▸ hlt) (hbs ▸ hh) (hbs ▸ hn)
  · exact exec_of_faultsWith_eq (i := .t1Decode) rfl <| faultsWith_t1DecodeBody hf hp fun t hbs ht =>
      initDecoder_unwritten (ht ▸ h1) (hbs ▸ hn)
  · exact exec_of_faultsWith_eq (i := .t1Decode) rfl <| faultsWith_t1DecodeBody hf hp fun t hbs ht =>
      initDecoder_next_unwritten (ht ▸ h2) (hbs ▸ hh) (hbs ▸ hn)
  · exact exec_unwrittenCoef (i := .deqRev) rfl (faultsWith_checked hf (deqBlock_faults _ hk hn))
  · exact exec_unwrittenCoef (i := .deqIrr) rfl (faultsWith_checked hf (deqBlock_faults _ hk hn))
  · exact exec_unwrittenSamp (i := .idwtLevelR53 lev) hlev (faultsWith_checked hf (sr2d_faults _ hk hn hsame))
  · exact exec_unwrittenSamp (i := .idwtLevelI97 lev) hlev
      (faultsWith_checked hf (faultsWith_of_ok (eng_modify _ _) (sr2d_faults _ hk hn hsame)))
  · exact exec_unwrittenSamp (i := .idwtFullR53) rfl
      (faultsWith_checked hf (levels_faults (fun _ => kernel53) hnl hk hn hsame))
  · exact exec_unwrittenSamp (i := .idwtFullI97) rfl
      (faultsWith_checked hf (faultsWith_of_ok (eng_modify _ _)
        (levels_faults (kernel97 binary32 s.freeCount) hnl hk hn hsame)))

end Sys2Proof.Machine
end

section
/-! The register space at every width and offset (R25, R61): a listed register has one offset, so an access at any other
reaches nothing. -/

namespace Sys2Proof.Machine

/-- The byte offset of a register (R25). -/
def Reg.offset : Reg → Nat
  | .cmd => 0x000
  | .status => 0x004
  | .errinfo => 0x008
  | .passDone => 0x028
  | .param n => n.offset
  | .mqA => 0x070
  | .mqC => 0x074
  | .mqCt => 0x078
  | .mqBp => 0x07C
  | .mqD => 0x080
  | .mqCx cx => 0x100 + 4 * cx.val

/-- A register is found at its own offset only. -/
theorem regAt_eq_some {off : Nat} {r : Reg} : regAt off = some r ↔ off = r.offset := by
  constructor
  · intro h
    unfold regAt at h
    split at h
    case h_26 =>
      obtain ⟨c, rfl, rfl⟩ := mqCxAt_some h
      rfl
    all_goals cases h; rfl
  · rintro rfl
    cases r with
    | param n => exact regAt_param n
    | mqCx c => exact regAt_context c
    | _ => rfl

theorem accessedReg_eq_some {off bits : Nat} {r : Reg} :
    accessedReg off bits = some r ↔ bits = 32 ∧ off = r.offset := by
  rw [accessedReg]
  split
  · rw [regAt_eq_some]; exact ⟨fun h => ⟨‹_›, h⟩, fun h => h.2⟩
  · exact ⟨nofun, fun h => absurd h.1 ‹_›⟩

/-- A write that reaches neither `CMD` nor a parameter register is ignored (R61, R254). -/
theorem accessIdle_writeReg_ignored {off bits : Nat} (v : Word) (s : State)
    (h : bits ≠ 32 ∨ (off ≠ 0 ∧ ∀ n : ParamName, off ≠ n.offset)) :
    accessIdle (.writeReg off bits v) s = .next s := by
  have hne : ∀ r : Reg, accessedReg off bits = some r → off ≠ 0 ∧ ∀ n : ParamName, off ≠ n.offset := fun r hr =>
    h.resolve_left (not_not_intro (accessedReg_eq_some.mp hr).1)
  have hcmd : accessedReg off bits ≠ some .cmd := fun hr => (hne _ hr).1 (accessedReg_eq_some.mp hr).2
  have hstore : storeReg (accessedReg off bits) v s = s := by
    unfold storeReg
    split
    · rename_i n hr
      exact absurd (accessedReg_eq_some.mp hr).2 ((hne _ hr).2 n)
    · rfl
  rw [accessIdle, if_neg hcmd, hstore]

/-- A read that reaches no register, or `CMD`, gives 0 (R61, R255). -/
theorem loadReg_unlisted {off bits : Nat} (s : State)
    (h : bits ≠ 32 ∨ (off ∉ [0x004, 0x008, 0x028, 0x070, 0x074, 0x078, 0x07C, 0x080] ∧
      (∀ n : ParamName, off ≠ n.offset) ∧ ∀ c : Fin 19, off ≠ 0x100 + 4 * c.val)) :
    loadReg (accessedReg off bits) s = 0 := by
  cases hr : accessedReg off bits with
  | none => rfl
  | some r =>
    obtain ⟨hbits, hoff⟩ := accessedReg_eq_some.mp hr
    obtain ⟨hobs, hpar, hctx⟩ := h.resolve_left (not_not_intro hbits)
    cases r with
    | cmd => rfl
    | param n => exact absurd hoff (hpar n)
    | mqCx c => exact absurd hoff (hctx c)
    | _ => exact absurd (by rw [hoff]; decide) hobs

/-- Settles O20: an access at another width or offset reaches no register, so the write is ignored and the read gives
0. -/
theorem otherRegisterAccessesAreIgnored : Obligations.OtherRegisterAccessesAreIgnored := by
  intro s off bits v rest hb
  refine ⟨fun hp h => ?_, fun hp h => ?_⟩
  · rw [step_accessIdle hb hp, accessIdle_writeReg_ignored v _ h]
    rfl
  · rw [step_accessIdle hb hp, accessIdle, loadReg_unlisted _ h]
    rfl

end Sys2Proof.Machine
end

section
/-! The command word (R90 to R93): a word names a command by its opcode and its operand field, so `decode` and `encode`
are inverse to each other on the words of well-formed commands, and every other word is illegal by R93's list. -/

namespace Sys2Proof

/-! ## The fields of a command word (R90) -/

/-- `RSV` of a word as a number. -/
theorem rsvField_toNat (w : Word) : (rsvField w).toNat = w.toNat / 65536 := by
  rw [rsvField, BitVec.extractLsb'_toNat, Nat.shiftRight_eq_div_pow]
  have := w.isLt
  omega

/-- `ARG` of a word as a number. -/
theorem argField_toNat (w : Word) : (argField w).toNat = w.toNat / 256 % 256 := by
  rw [argField, BitVec.extractLsb'_toNat, Nat.shiftRight_eq_div_pow]

/-- `OPC` of a word as a number. -/
theorem opcField_toNat (w : Word) : (opcField w).toNat = w.toNat % 256 := by
  rw [opcField, BitVec.extractLsb'_toNat, Nat.shiftRight_zero]

theorem cmdWord_toNat (opc arg : BitVec 8) : (cmdWord opc arg).toNat = arg.toNat * 256 + opc.toNat := by
  have harg : ((0 : BitVec 16) ++ arg).toNat = arg.toNat := by
    rw [BitVec.toNat_append, BitVec.ofNat_eq_ofNat, BitVec.toNat_zero, Nat.zero_shiftLeft, Nat.zero_or]
  rw [cmdWord, BitVec.toNat_append, harg, ← Nat.shiftLeft_add_eq_or_of_lt opc.isLt, Nat.shiftLeft_eq]

/-- A word is made of the opcode and operand fields it has, and no others, above them zero. -/
theorem cmdWord_eq_iff {opc arg : BitVec 8} {w : Word} :
    cmdWord opc arg = w ↔ rsvField w = 0 ∧ opc = opcField w ∧ arg = argField w := by
  have hopc := opc.isLt
  have harg := arg.isLt
  simp only [← BitVec.toNat_inj, cmdWord_toNat, rsvField_toNat, opcField_toNat, argField_toNat,
    BitVec.ofNat_eq_ofNat, BitVec.toNat_zero]
  omega

/-! ## The row of a command (R91) -/

/-- `OPC` of a command's row. -/
def Instr.opcode : Instr → BitVec 8
  | .nop => 0x00
  | .reset => 0x01
  | .clrerr => 0x02
  | .mqResetcx => 0x10
  | .mqInit => 0x11
  | .mqDecode _ => 0x12
  | .t1Start => 0x20
  | .t1Sp _ => 0x21
  | .t1Mr _ => 0x22
  | .t1Cu _ => 0x23
  | .t1Decode => 0x24
  | .deqRev => 0x30
  | .deqIrr => 0x31
  | .idwtLevelR53 _ => 0x40
  | .idwtLevelI97 _ => 0x41
  | .idwtFullR53 => 0x42
  | .idwtFullI97 => 0x43

/-- `ARG` of a command's word: its operand, and zero where it takes none. -/
def Instr.operand : Instr → BitVec 8
  | .mqDecode arg | .t1Sp arg | .t1Mr arg | .t1Cu arg | .idwtLevelR53 arg | .idwtLevelI97 arg => arg
  | _ => 0

theorem encode_eq_cmdWord (i : Instr) : encode i = cmdWord i.opcode i.operand := by
  cases i <;> rfl

/-- The command is well formed, and its row's opcode and its operand are these two fields. -/
structure Instr.HasFields (i : Instr) (opc arg : BitVec 8) : Prop where
  wellFormed : i.wellFormed = true
  opcode : i.opcode = opc
  operand : i.operand = arg

/-! ## The decoder and the encoder -/

/-- A row without operand answers its command, for the operand zero only. -/
theorem withoutOperand_hasFields {opc arg : BitVec 8} {i j : Instr} (h : withoutOperand arg i = .ok j)
    (hi : i.HasFields opc 0) : j.HasFields opc arg := by
  rw [withoutOperand] at h
  split at h
  · rename_i harg
    cases h
    exact harg ▸ hi
  · cases h

/-- A row with an operand answers its command, where it is well formed only. -/
theorem withOperand_hasFields {opc arg : BitVec 8} {i j : Instr} (h : withOperand i = .ok j)
    (hopc : i.opcode = opc) (harg : i.operand = arg) : j.HasFields opc arg := by
  rw [withOperand] at h
  split at h
  · rename_i hw
    cases h
    exact ⟨hw, hopc, harg⟩
  · cases h

/-- The opcode map answers the well-formed command of the two fields, and no other (R91, R93). -/
theorem decodeFields_eq_ok_iff {opc arg : BitVec 8} {i : Instr} :
    decodeFields opc arg = .ok i ↔ i.HasFields opc arg := by
  constructor
  · intro h
    unfold decodeFields at h
    split at h
    case h_6 | h_8 | h_9 | h_10 | h_14 | h_15 =>
      rename_i hopc
      exact withOperand_hasFields h (BitVec.eq_of_toNat_eq hopc.symm) rfl
    case h_18 => cases h
    all_goals
      rename_i hopc
      exact withoutOperand_hasFields h ⟨rfl, BitVec.eq_of_toNat_eq hopc.symm, rfl⟩
  · rintro ⟨hw, rfl, rfl⟩
    cases i with
    | mqDecode | t1Sp | t1Mr | t1Cu | idwtLevelR53 | idwtLevelI97 => exact if_pos hw
    | _ => rfl

/-- A word decodes to a command exactly if the command is well formed and the word is its word. -/
theorem decode_eq_ok_iff {w : Word} {i : Instr} : decode w = .ok i ↔ i.wellFormed = true ∧ encode i = w := by
  rw [encode_eq_cmdWord, cmdWord_eq_iff, decode]
  split
  · rename_i hrsv
    rw [decodeFields_eq_ok_iff]
    exact ⟨fun ⟨hw, hopc, harg⟩ => ⟨hw, hrsv, hopc, harg⟩, fun ⟨hw, _, hopc, harg⟩ => ⟨hw, hopc, harg⟩⟩
  · rename_i hrsv
    exact ⟨nofun, fun h => absurd h.2.1 hrsv⟩

/-- Settles O2: a well-formed command's word decodes to it, by `decode_eq_ok_iff`. -/
theorem decodeInvertsEncode : Obligations.DecodeInvertsEncode :=
  fun _ hw => decode_eq_ok_iff.mpr ⟨hw, rfl⟩

/-- Settles O3: a word that decodes is the word of a well-formed command, by `decode_eq_ok_iff`. -/
theorem encodeInvertsDecode : Obligations.EncodeInvertsDecode :=
  fun _ _ hd => decode_eq_ok_iff.mp hd

/-- Settles O1, word by word: each is the word of a well-formed command. -/
theorem commandWordsDecode : Obligations.CommandWordsDecode := by
  refine ⟨?_, ?_, ?_, ?_, ?_, ?_, ?_, ?_⟩ <;> exact decode_eq_ok_iff.mpr ⟨rfl, rfl⟩

/-! ## The illegal words -/

/-- The list of R93, on the three fields of a word as numbers. -/
def IllegalFields (rsv arg opc : Nat) : Prop :=
  rsv ≠ 0 ∨ opc ∉ [0x00, 0x01, 0x02, 0x10, 0x11, 0x12, 0x20, 0x21, 0x22, 0x23, 0x24, 0x30, 0x31, 0x40, 0x41, 0x42, 0x43] ∨
    (opc ∉ [0x12, 0x21, 0x22, 0x23, 0x40, 0x41] ∧ arg ≠ 0) ∨ (opc = 0x12 ∧ 18 < arg) ∨
    (opc ∈ [0x21, 0x22, 0x23] ∧ 30 < arg) ∨ (opc ∈ [0x40, 0x41] ∧ (arg = 0 ∨ 32 < arg))

theorem not_illegalFields_of_hasFields {opc arg : BitVec 8} {i : Instr} (h : i.HasFields opc arg) :
    ¬ IllegalFields 0 arg.toNat opc.toNat := by
  obtain ⟨hw, rfl, rfl⟩ := h
  cases i with
  | mqDecode cx =>
    have hcx : cx.toNat ≤ 18 := of_decide_eq_true hw
    simpa [IllegalFields, Instr.opcode, Instr.operand] using hcx
  | t1Sp b | t1Mr b | t1Cu b =>
    have hb : b.toNat ≤ 30 := of_decide_eq_true hw
    simpa [IllegalFields, Instr.opcode, Instr.operand] using hb
  | idwtLevelR53 lev | idwtLevelI97 lev =>
    have hlev : 1 ≤ lev.toNat ∧ lev.toNat ≤ 32 := by
      simpa only [Instr.wellFormed, legalLevel, Bool.and_eq_true, decide_eq_true_iff] using hw
    have hpos : lev.toNat ≠ 0 := by omega
    simpa [IllegalFields, Instr.opcode, Instr.operand, hpos] using hlev.2
  | _ => simp [IllegalFields, Instr.opcode, Instr.operand]

/-- A row without operand refuses every operand but zero. -/
theorem withoutOperand_error {arg : BitVec 8} {i : Instr} {e : DecodeError} (h : withoutOperand arg i = .error e) :
    arg.toNat ≠ 0 := by
  rw [withoutOperand] at h
  split at h
  · cases h
  · rename_i harg
    exact fun h0 => harg (BitVec.eq_of_toNat_eq h0)

/-- A row with an operand refuses a command that is not well formed only. -/
theorem withOperand_error {i : Instr} {e : DecodeError} (h : withOperand i = .error e) : i.wellFormed = false := by
  rw [withOperand] at h
  split at h
  · cases h
  · exact Bool.not_eq_true _ ▸ ‹_›

theorem illegalFields_of_decodeFields_error {opc arg : BitVec 8} {e : DecodeError} (rsv : Nat)
    (h : decodeFields opc arg = .error e) : IllegalFields rsv arg.toNat opc.toNat := by
  unfold decodeFields at h
  split at h
  case h_6 =>
    rename_i hopc
    have harg : 18 < arg.toNat := by simpa [Instr.wellFormed, legalCx] using withOperand_error h
    simp [IllegalFields, hopc, harg]
  case h_8 | h_9 | h_10 =>
    rename_i hopc
    have harg : 30 < arg.toNat := by simpa [Instr.wellFormed, legalPlane] using withOperand_error h
    simp [IllegalFields, hopc, harg]
  case h_14 | h_15 =>
    rename_i hopc
    have hlev : legalLevel arg = false := withOperand_error h
    have harg : arg.toNat = 0 ∨ 32 < arg.toNat := by
      rw [legalLevel, Bool.and_eq_false_iff, decide_eq_false_iff_not, decide_eq_false_iff_not] at hlev
      omega
    exact .inr (.inr (.inr (.inr (.inr ⟨by simp [hopc], harg⟩))))
  case h_18 => exact .inr (.inl (by simp_all))
  all_goals
    rename_i hopc
    exact .inr (.inr (.inl ⟨by simp [hopc], withoutOperand_error h⟩))

/-- The words that decode are those R93 does not list. -/
theorem exists_decode_eq_ok_iff {w : Word} :
    (∃ i, decode w = .ok i) ↔ ¬ IllegalFields (w.toNat / 65536) (w.toNat / 256 % 256) (w.toNat % 256) := by
  rw [← rsvField_toNat, ← argField_toNat, ← opcField_toNat, decode]
  split
  · rename_i hrsv
    rw [hrsv]
    constructor
    · rintro ⟨i, hi⟩
      exact not_illegalFields_of_hasFields (decodeFields_eq_ok_iff.mp hi)
    · intro hn
      cases hd : decodeFields (opcField w) (argField w) with
      | ok i => exact ⟨i, rfl⟩
      | error e => exact absurd (illegalFields_of_decodeFields_error _ hd) hn
  · rename_i hrsv
    exact ⟨nofun, fun hn => absurd (.inl fun h0 => hrsv (BitVec.eq_of_toNat_eq h0)) hn⟩

/-! ## What an illegal word does -/

namespace Machine

/-- An illegal word raises `Unsupported` with the word in `ERRINFO`, and nothing else changes (R93). -/
theorem illegalWord_eq (w : Word) (s : State) :
    illegalWord w s =
      { s with errinfo := w, status := { s.status with err := true, errcode := 3, done := false, busy := false } } := by
  simp [illegalWord, takeError, setStatus, StatusFlags.raised, ErrKind.code]

/-- Settles O4: R93's list is what the decoder refuses, and a refused word ends in `illegalWord`. -/
theorem illegalWordsRaiseUnsupported : Obligations.IllegalWordsRaiseUnsupported := by
  intro s w rest hp ⟨hbusy, herr⟩ rsv arg opc illegal
  have hidle : (setPending rest s).status.busy = false := hbusy
  have hacc : (setPending rest s).status.err = true → acceptedInError w = true := fun he =>
    absurd (herr.symm.trans he) nofun
  have hlegal : (∃ i, decode w = .ok i) ↔ ¬ illegal := exists_decode_eq_ok_iff
  rw [step_issue hp]
  constructor
  · intro hill
    cases hd : decode w with
    | ok i => exact absurd hill (hlegal.mp ⟨i, hd⟩)
    | error e => exact (issue_illegal hidle hacc hd).trans (congrArg _ (illegalWord_eq w _))
  · intro hn
    obtain ⟨i, hd⟩ := hlegal.mpr hn
    exact ⟨i, hd, issue_accepted hidle hacc hd⟩

/-- Settles O13: a command whose operand is out of range ends as its word would, by `exec_illFormed`. -/
theorem outOfRangeOperandsAreIllegal : Obligations.OutOfRangeOperandsAreIllegal := by
  intro i s hw
  rw [exec_illFormed hw, illegalWord_eq]

end Machine

end Sys2Proof
end

section
/-! The arithmetic decoder's registers over every command, access and step (R123, R130): a byte is entered below `L`, a
shift is made only while one is left, and only `MQ.INIT` sets `MQRDY`. -/

namespace Sys2Proof.Machine

variable {α : Type}

/-! ## What a decision keeps -/

/-- Before each shift of `RENORMD` a shift is left: a byte was entered where none was (R126). -/
theorem onlyIf_byteIn_ct_ne_zero {s t : State} (h : onlyIf (decide (s.mq.ct = 0)) byteIn s = .ok () t) :
    t.mq.ct ≠ 0 := by
  by_cases hct : s.mq.ct = 0
  · rw [decide_eq_true hct] at h
    obtain ⟨b, b1, -, -, -, rfl⟩ := byteIn_eq_ok h
    rcases enterByte_ct b b1 s.mq with h8 | h7
    · rw [setMq_mq, h8]; decide
    · rw [setMq_mq, h7]; decide
  · rw [decide_eq_false hct] at h
    cases h
    exact hct

/-- What a refill keeps, and a shift while one is left, a renormalisation keeps. -/
theorem keeps_renormd {P : State → Prop} (hb : Keeps P byteIn)
    (hsh : ∀ t, P t → t.mq.ct ≠ 0 → P (setMq (shiftOnce t.mq) t)) (n : Nat) : Keeps P (renormd n) := by
  induction n with
  | zero => exact keeps_stop _ _
  | succ n ih =>
    intro s hs
    rw [renormd_succ]
    have hin := keeps_onlyIf (c := decide (s.mq.ct = 0)) hb s hs
    cases hu : onlyIf (decide (s.mq.ct = 0)) byteIn s with
    | error e u => rw [hu] at hin; rw [eng_bind_error hu]; exact hin
    | ok _ u =>
      rw [hu] at hin
      rw [eng_bind_ok hu, eng_bind_ok (eng_get u), eng_bind_ok (eng_set _ u)]
      exact keeps_onlyIf ih _ (hsh u hin (onlyIf_byteIn_ct_ne_zero hu))

/-- A decision keeps what its exchange, its renormalisation and the storing of `D` keep. -/
theorem keeps_decodeBit {P : State → Prop} (hx : ∀ c x s, P s → P (applyDecision c x s))
    (hr : Keeps P (renormd maxShifts)) (hd : ∀ d s, P s → P (storeDecision d s)) (c : Fin 19) : Keeps P (decodeBit c) :=
  keeps_get_bind fun s hs => keeps_bind (keeps_set (hx c _ s hs)) (fun _ => keeps_bind (keeps_onlyIf hr) fun _ =>
    keeps_bind (keeps_modify fun t => hd _ t) fun _ => keeps_pure _ _) s hs

/-! ## What a pass keeps of the decoder -/

/-- The property speaks of the working registers, the latches and the capacities only. -/
def OfDecoder (P : State → Prop) : Prop := ∀ s t : State, t.mq = s.mq → t.lat = s.lat → t.cap = s.cap → P s → P t

theorem keeps_of_decoder_eq {P : State → Prop} (hP : OfDecoder P) {f : State → State} (hm : ∀ s, (f s).mq = s.mq)
    (hl : ∀ s, (f s).lat = s.lat) (hc : ∀ s, (f s).cap = s.cap) : Keeps P (modify f : Eng PUnit) :=
  keeps_modify fun s => hP s _ (hm s) (hl s) (hc s)

section
variable {P : State → Prop} (hP : OfDecoder P) (hD : ∀ c, Keeps P (decodeBit c))
include hP hD

theorem keeps_becomeSignificant (y x b : Nat) : Keeps P (becomeSignificant y x b) :=
  keeps_bind (keeps_bind (keeps_chi _ _ _) fun _ => keeps_bind (keeps_chi _ _ _) fun _ => keeps_bind (keeps_chi _ _ _)
    fun _ => keeps_bind (keeps_chi _ _ _) fun _ => keeps_bind (hD _) fun _ => keeps_pure _ _) fun _ =>
      keeps_of_decoder_eq hP (fun _ => rfl) (fun _ => rfl) (fun _ => rfl)

theorem keeps_spVisit (b : Nat) (p : Nat × Nat) : Keeps P (spVisit b p) :=
  keeps_bind (keeps_get _) fun _ => keeps_ite
    (keeps_bind (hD _) fun _ => keeps_bind (keeps_onlyIf (keeps_becomeSignificant hP hD _ _ _)) fun _ =>
      keeps_of_decoder_eq hP (fun _ => rfl) (fun _ => rfl) (fun _ => rfl))
    (keeps_pure _ _)

theorem keeps_mrVisit (b : Nat) (p : Nat × Nat) : Keeps P (mrVisit b p) :=
  keeps_bind (keeps_get _) fun _ => keeps_ite
    (keeps_bind (hD _) fun _ => keeps_bind (keeps_readCoef _ _) fun _ =>
      keeps_bind (keeps_of_decoder_eq hP (fun _ => rfl) (fun _ => rfl) (fun _ => rfl)) fun _ =>
        keeps_of_decoder_eq hP (fun _ => rfl) (fun _ => rfl) (fun _ => rfl))
    (keeps_pure _ _)

theorem keeps_cuVisit (b x y : Nat) : Keeps P (cuVisit b x y) :=
  keeps_bind (keeps_get _) fun _ => keeps_ite
    (keeps_bind (hD _) fun _ => keeps_onlyIf (keeps_becomeSignificant hP hD _ _ _))
    (keeps_pure _ _)

theorem keeps_runLength (b y0 x : Nat) : Keeps P (runLength b y0 x) :=
  keeps_bind (hD _) fun _ => keeps_ite
    (keeps_bind (hD _) fun _ => keeps_bind (hD _) fun _ =>
      keeps_bind (keeps_becomeSignificant hP hD _ _ _) fun _ => keeps_pure _ _)
    (keeps_pure _ _)

theorem keeps_cuColumn (b : Nat) (p : Nat × Nat) : Keeps P (cuColumn b p) := by
  refine keeps_bind (keeps_get _) fun _ => keeps_ite (keeps_bind (keeps_runLength hP hD _ _ _) fun start => ?_)
    (keeps_forEach fun _ _ => keeps_cuVisit hP hD _ _ _)
  cases start with
  | none => exact keeps_pure _ _
  | some k => exact keeps_forEach fun _ _ => keeps_cuVisit hP hD _ _ _

/-- What every decision keeps of the decoder, every pass keeps. -/
theorem keeps_runPass (t : PassType) (b : Nat) : Keeps P (runPass t b) := by
  have hcount : Keeps P (modify countPass : Eng PUnit) :=
    keeps_of_decoder_eq hP (fun _ => rfl) (fun _ => rfl) (fun _ => rfl)
  cases t with
  | sp =>
    exact keeps_bind (keeps_get _) fun _ =>
      keeps_bind (keeps_forEach fun p _ => keeps_spVisit hP hD b p) fun _ => hcount
  | mr =>
    exact keeps_bind (keeps_get _) fun _ =>
      keeps_bind (keeps_forEach fun p _ => keeps_mrVisit hP hD b p) fun _ => hcount
  | cu =>
    exact keeps_bind (keeps_get _) fun _ => keeps_bind (keeps_forEach fun p _ => keeps_cuColumn hP hD b p) fun _ =>
      keeps_bind (keeps_forEach fun _ _ => keeps_of_decoder_eq hP (fun _ => rfl) (fun _ => rfl) (fun _ => rfl)) fun _ =>
        hcount

end

/-! ## The counter and the byte pointer -/

/-- `CT` and `BP` are in range (R130, R123), whatever the interval. -/
structure PointerLegal (s : State) : Prop where
  counter : s.mq.ct.toNat ≤ 8
  pointer : s.mq.bp.toNat < s.lat.len.toNat
  length  : s.lat.len.toNat ≤ s.cap.bsBytes

theorem ofDecoder_pointerLegal : OfDecoder PointerLegal := fun _ _ hm hl hc h =>
  ⟨hm ▸ h.counter, hm ▸ hl ▸ h.pointer, hl ▸ hc ▸ h.length⟩

/-- `BYTEIN` moves the pointer by one at most (R124). -/
theorem enterByte_bp_toNat (b b1 : Byte) {m : MqRegs} {len : Word} (h : m.bp.toNat + 1 < len.toNat) :
    (enterByte b b1 m).bp.toNat = if b = 0xFF ∧ 0x8F < b1.toNat then m.bp.toNat else m.bp.toNat + 1 := by
  have hlen := len.isLt
  have hadd : (m.bp + 1).toNat = m.bp.toNat + 1 := BitVec.toNat_add_of_lt (by simp; omega)
  rw [enterByte_bp]
  split
  · rfl
  · exact hadd

theorem shiftOnce_ct_toNat {m : MqRegs} (h : m.ct ≠ 0) : (shiftOnce m).ct.toNat = m.ct.toNat - 1 := by
  have hpos : 0 < m.ct.toNat := Nat.pos_of_ne_zero fun h0 => h (BitVec.eq_of_toNat_eq h0)
  exact BitVec.toNat_sub_of_le (BitVec.le_def.mpr hpos)

theorem keepsPointerLegal_byteIn : Keeps PointerLegal byteIn := by
  intro s hs
  cases h : byteIn s with
  | error e t => rw [byteIn_eq_error h]; exact hs
  | ok a t =>
    obtain ⟨b, b1, hlen, -, -, rfl⟩ := byteIn_eq_ok h
    have hct : (enterByte b b1 s.mq).ct.toNat ≤ 8 := by
      rcases enterByte_ct b b1 s.mq with h8 | h7
      · rw [h8]; decide
      · rw [h7]; decide
    refine ⟨hct, ?_, hs.length⟩
    show (enterByte b b1 s.mq).bp.toNat < s.lat.len.toNat
    rw [enterByte_bp_toNat b b1 hlen]
    split <;> omega

theorem keepsPointerLegal_decodeBit (c : Fin 19) : Keeps PointerLegal (decodeBit c) :=
  keeps_decodeBit (fun _ _ _ h => ⟨h.counter, h.pointer, h.length⟩)
    (keeps_renormd keepsPointerLegal_byteIn (fun t h hct =>
      ⟨by rw [setMq_mq, shiftOnce_ct_toNat hct]; have := h.counter; omega, h.pointer, h.length⟩) maxShifts)
    (fun _ _ h => ⟨h.counter, h.pointer, h.length⟩) c

/-! ## The initialisation -/

/-- The working registers once the first byte of the initialisation is read, and `BP` cleared (R125). -/
def firstByteRegs (b0 : Byte) (m : MqRegs) : MqRegs := { m with bp := 0, c := b0.setWidth 32 <<< 16 }

theorem firstByteRegs_bp (b0 : Byte) (m : MqRegs) : (firstByteRegs b0 m).bp.toNat = 0 := rfl

/-- The last step of the initialisation (R125). -/
def alignRegs (m : MqRegs) : MqRegs := { m with c := m.c <<< 7, ct := m.ct - 7, a := 0x8000 }

/-- The working registers the initialisation leaves, given the first two bytes (R125). -/
def initRegs (b0 b1 : Byte) (m : MqRegs) : MqRegs := alignRegs (enterByte b0 b1 (firstByteRegs b0 m))

@[simp] theorem setMq_setMq (m n : MqRegs) (s : State) : setMq m (setMq n s) = setMq m s := rfl

/-- The initialisation begins by clearing `BP` and reading the first byte. -/
theorem initDecoder_start (s : State) :
    initDecoder s = (do
      let b0 ← bsRead 0
      modify (fun t => setMq { t.mq with c := b0.setWidth 32 <<< 16 } t)
      byteIn
      modify (fun t => setMq (alignRegs t.mq) t) : Eng Unit) (setMq { s.mq with bp := 0 } s) := rfl

/-- The initialisation with its first byte written: `BYTEIN` at the first byte, and the alignment. -/
theorem initDecoder_eq {s : State} {b0 : Byte} (hlen : 0 < s.lat.len.toNat) (h0 : Memory.read s.bs 0 = some b0) :
    initDecoder s = (do
      byteIn
      modify (fun t => setMq (alignRegs t.mq) t) : Eng Unit) (setMq (firstByteRegs b0 s.mq) s) := by
  have hread : bsRead 0 (setMq { s.mq with bp := 0 } s) = .ok b0 (setMq { s.mq with bp := 0 } s) := bsRead_ok hlen h0
  rw [initDecoder_start, eng_bind_ok hread, eng_bind_ok (eng_modify _ _)]
  rfl

theorem initDecoder_ok {s : State} {b0 b1 : Byte} (hlen : 2 ≤ s.lat.len.toNat) (h0 : Memory.read s.bs 0 = some b0)
    (h1 : Memory.read s.bs 1 = some b1) : initDecoder s = .ok () (setMq (initRegs b0 b1 s.mq) s) := by
  have hbyte : byteIn (setMq (firstByteRegs b0 s.mq) s) =
      .ok () (setMq (enterByte b0 b1 (firstByteRegs b0 s.mq)) (setMq (firstByteRegs b0 s.mq) s)) := by
    refine byteIn_ok ?_ ?_ ?_
    · rw [setMq_mq, setMq_lat, firstByteRegs_bp]; exact hlen
    · rw [setMq_mq, setMq_bs, firstByteRegs_bp]; exact h0
    · rw [setMq_mq, setMq_bs, firstByteRegs_bp]; exact h1
  rw [initDecoder_eq (by omega) h0, eng_bind_ok hbyte, eng_modify, setMq_mq, setMq_setMq, setMq_setMq, initRegs]

/-- An initialisation that completes has read two bytes below `L`. -/
theorem initDecoder_eq_ok {s t : State} (h : initDecoder s = .ok () t) :
    ∃ b0 b1, 2 ≤ s.lat.len.toNat ∧ t = setMq (initRegs b0 b1 s.mq) s := by
  obtain ⟨b0, hlen, h0⟩ : ∃ b0, 0 < s.lat.len.toNat ∧ Memory.read s.bs 0 = some b0 := by
    rw [initDecoder_start] at h
    obtain ⟨b0, u, hread, -⟩ := eng_bind_eq_ok.mp h
    obtain ⟨-, hlen, h0⟩ := bsRead_eq_ok hread
    exact ⟨b0, hlen, h0⟩
  rw [initDecoder_eq hlen h0] at h
  obtain ⟨_, u, hu, h⟩ := eng_bind_eq_ok.mp h
  obtain ⟨b, b1, hlen2, hb, -, rfl⟩ := byteIn_eq_ok hu
  rw [setMq_mq, setMq_lat, firstByteRegs_bp] at hlen2
  rw [setMq_mq, setMq_bs, firstByteRegs_bp] at hb
  obtain rfl : b = b0 := Option.some.inj (hb.symm.trans h0)
  rw [eng_modify, setMq_mq, setMq_setMq, setMq_setMq] at h
  injection h with _ ht
  exact ⟨b, b1, hlen2, ht.symm⟩

/-- The initialisation leaves one shift, or none after a stuffed byte, and the pointer at the first or second byte. -/
theorem initRegs_range (b0 b1 : Byte) (m : MqRegs) :
    (initRegs b0 b1 m).ct.toNat ≤ 1 ∧ (initRegs b0 b1 m).bp.toNat ≤ 1 := by
  have hct : (initRegs b0 b1 m).ct = (enterByte b0 b1 (firstByteRegs b0 m)).ct - 7 := rfl
  have hbp : (initRegs b0 b1 m).bp = (enterByte b0 b1 (firstByteRegs b0 m)).bp := rfl
  constructor
  · rw [hct]
    rcases enterByte_ct b0 b1 (firstByteRegs b0 m) with h | h
    · rw [h]; decide
    · rw [h]; decide
  · rw [hbp, enterByte_bp]
    split
    · exact Nat.zero_le 1
    · exact Nat.le_refl 1

/-! ## What keeps the registers legal -/

theorem DecoderLegal.pointerLegal {s : State} (h : DecoderLegal s) (hq : s.status.mqrdy = true) : PointerLegal s :=
  ⟨h.counter hq, h.pointer hq, h.length hq⟩

theorem PointerLegal.decoderLegal {s : State} (h : PointerLegal s) (ha : 0x8000 ≤ s.mq.a.toNat) : DecoderLegal s :=
  ⟨fun _ => ha, fun _ => h.counter, fun _ => h.pointer, fun _ => h.length⟩

/-- A decoder that is not initialised has nothing to keep. -/
theorem DecoderLegal.of_not_ready {s : State} (h : s.status.mqrdy = false) : DecoderLegal s :=
  have hno : ¬ s.status.mqrdy = true := by rw [h]; exact Bool.false_ne_true
  ⟨fun hq => absurd hq hno, fun hq => absurd hq hno, fun hq => absurd hq hno, fun hq => absurd hq hno⟩

theorem DecoderLegal.congr {s t : State} (h : DecoderLegal s) (hq : t.status.mqrdy = true → s.status.mqrdy = true)
    (hm : t.mq = s.mq) (hl : t.lat = s.lat) (hc : t.cap = s.cap) : DecoderLegal t where
  interval := fun ht => hm ▸ h.interval (hq ht)
  counter  := fun ht => hm ▸ h.counter (hq ht)
  pointer  := fun ht => hm ▸ hl ▸ h.pointer (hq ht)
  length   := fun ht => hl ▸ hc ▸ h.length (hq ht)

theorem SampOnly.decoderLegal {s t : State} (h : SampOnly s t) (hs : DecoderLegal s) : DecoderLegal t :=
  hs.congr (by rw [h]; exact id) h.kept.mq h.kept.lat h.kept.host.cap

theorem keepsDecoderLegal_of_samp {m : Eng α} (h : ∀ s0, Keeps (SampOnly s0) m) : Keeps DecoderLegal m :=
  keeps_of_frame SampOnly.refl h fun _ _ => SampOnly.decoderLegal

theorem keepsDecoderLegal_modify {f : State → State} (hq : ∀ s, (f s).status.mqrdy = s.status.mqrdy)
    (hm : ∀ s, (f s).mq = s.mq) (hl : ∀ s, (f s).lat = s.lat) (hc : ∀ s, (f s).cap = s.cap) :
    Keeps DecoderLegal (modify f : Eng PUnit) :=
  keeps_modify fun s hs => hs.congr (fun h => hq s ▸ h) (hm s) (hl s) (hc s)

/-! ## Commands that raise without closing the session -/

theorem keepsDecoderLegal_sr2d (g : Region) (ker : Kernel) : Keeps DecoderLegal (sr2d g ker) :=
  keepsDecoderLegal_of_samp fun s0 => keeps_sr2d s0 g ker

theorem keepsDecoderLegal_deqBlock (p : ParamRegs) (f : Word → Word) : Keeps DecoderLegal (deqBlock p f) :=
  keepsDecoderLegal_of_samp fun s0 => keeps_deqBlock s0 p f

theorem keepsDecoderLegal_drawFree : Keeps DecoderLegal (modify drawFree : Eng PUnit) :=
  keepsDecoderLegal_modify (fun _ => rfl) (fun _ => rfl) (fun _ => rfl) (fun _ => rfl)

/-- A system, dequantizer or transform command, and `MQ.RESETCX`, leave the working registers or clear `MQRDY`. -/
theorem keepsDecoderLegal_commandBody {i : Instr} (hi : closesSession i = false) :
    Keeps DecoderLegal (commandBody i) := by
  cases i with
  | nop => exact keeps_pure _ _
  | reset => exact keeps_modify fun _ _ => .of_not_ready rfl
  | clrerr => exact keepsDecoderLegal_modify (fun _ => rfl) (fun _ => rfl) (fun _ => rfl) (fun _ => rfl)
  | mqResetcx => exact keepsDecoderLegal_modify (fun _ => rfl) (fun _ => rfl) (fun _ => rfl) (fun _ => rfl)
  | deqRev | deqIrr =>
    exact keeps_bind (keeps_get _) fun _ => keeps_bind (keeps_requireGeometry _ _) fun _ =>
      keepsDecoderLegal_deqBlock _ _
  | idwtLevelR53 lev =>
    exact keeps_bind (keeps_get _) fun _ => keeps_bind (keeps_requireGeometry _ _) fun _ => keepsDecoderLegal_sr2d _ _
  | idwtLevelI97 lev =>
    exact keeps_bind (keeps_get _) fun _ => keeps_bind (keeps_requireGeometry _ _) fun _ =>
      keeps_bind keepsDecoderLegal_drawFree fun _ => keepsDecoderLegal_sr2d _ _
  | idwtFullR53 =>
    exact keeps_bind (keeps_get _) fun _ => keeps_bind (keeps_requireGeometry _ _) fun _ =>
      keeps_forEach fun _ _ => keepsDecoderLegal_sr2d _ _
  | idwtFullI97 =>
    exact keeps_bind (keeps_get _) fun _ => keeps_bind (keeps_requireGeometry _ _) fun _ =>
      keeps_bind keepsDecoderLegal_drawFree fun _ => keeps_forEach fun _ _ => keepsDecoderLegal_sr2d _ _
  | mqInit | mqDecode | t1Start | t1Sp | t1Mr | t1Cu | t1Decode => cases hi

/-! ## Commands that close the session when they raise -/

/-- A computation that completes on an initialised decoder leaves it legal, if it leaves the counter and the pointer
legal wherever it ends and the interval renormalised where it completes. -/
theorem decoderLegal_of_completed {R : State → State → Prop} {m : Eng α} {s t : State} {a : α} (hr : Runs R m)
    (hp : Keeps PointerLegal m) (hs : DecoderLegal s) (hq : s.status.mqrdy = true) (h : m s = .ok a t) :
    DecoderLegal t := by
  have hpt := hp s (hs.pointerLegal hq)
  rw [h] at hpt
  exact PointerLegal.decoderLegal hpt ((hr s).interval a t h (hs.interval hq))

theorem mqInitBody_ok_decoderLegal {s t : State} (h : mqInitBody s = .ok () t) : DecoderLegal t := by
  rw [mqInitBody, eng_bind_ok (eng_get s)] at h
  obtain ⟨_, u, hu, h⟩ := eng_bind_eq_ok.mp h
  cases hf : firstFailure (initChecks s.cap s.par) with
  | some n => rw [requireGeometry_fails hf s] at hu; cases hu
  | none =>
    rw [requireGeometry_ok hf s] at hu
    cases hu
    have hfit : s.par.cbLen.toNat ≤ s.cap.bsBytes := of_decide_eq_true (firstFailure_none.mp hf _ List.mem_cons_self)
    rw [eng_bind_ok (eng_modify _ _), eng_bind_ok (eng_modify _ _)] at h
    obtain ⟨_, v, hv, h⟩ := eng_bind_eq_ok.mp h
    obtain ⟨b0, b1, hlen, rfl⟩ := initDecoder_eq_ok hv
    cases h
    obtain ⟨hct, hbp⟩ := initRegs_range b0 b1 s.mq
    exact PointerLegal.decoderLegal ⟨Nat.le_trans hct (by decide), Nat.lt_of_le_of_lt hbp hlen, hfit⟩ (Nat.le_refl _)

theorem mqDecodeBody_ok_decoderLegal {word : Word} {c : Fin 19} {s t : State} (hs : DecoderLegal s)
    (h : mqDecodeBody word c s = .ok () t) : DecoderLegal t := by
  by_cases hq : s.status.mqrdy = true
  · refine decoderLegal_of_completed (runs_mqDecodeBody word c) ?_ hs hq h
    exact keeps_bind (keeps_get _) fun _ => keeps_ite
      (keeps_bind (keepsPointerLegal_decodeBit c) fun _ => keeps_pure _ _) (keeps_raise _ _ _)
  · rw [mqDecodeBody, eng_bind_ok (eng_get s), if_neg hq] at h
    cases h

theorem passBody_ok_decoderLegal {word : Word} {ty : PassType} {b : Nat} {s t : State} (hs : DecoderLegal s)
    (h : passBody word (runPass ty b) s = .ok () t) : DecoderLegal t := by
  by_cases hready : (s.status.session && s.status.mqrdy) = true
  · rw [passBody, eng_bind_ok (requireSession_ok hready)] at h
    exact decoderLegal_of_completed (runs_runPass ty b)
      (keeps_runPass ofDecoder_pointerLegal keepsPointerLegal_decodeBit ty b) hs (Bool.and_eq_true_iff.mp hready).2 h
  · rw [passBody, eng_bind_error (requireSession_raises hready)] at h
    cases h

theorem t1StartBody_ok_not_ready {s t : State} (h : t1StartBody s = .ok () t) : t.status.mqrdy = false := by
  rw [t1StartBody, eng_bind_ok (eng_get s)] at h
  obtain ⟨_, u, -, h⟩ := eng_bind_eq_ok.mp h
  rw [eng_bind_ok (eng_modify _ _), eng_bind_ok (eng_modify _ _), eng_bind_ok (eng_modify _ _)] at h
  obtain ⟨v, hok, hframe, -, -⟩ := clearGrid_ok (s.par.cbW.toNat * s.par.cbH.toNat)
    (setPassDone 0 (latchGeometry (setSession false false u)))
  rw [eng_bind_ok hok] at h
  cases h
  show v.status.mqrdy = false
  rw [hframe]
  rfl

/-- `T1.DECODE` ends by clearing `MQRDY` (R162). -/
theorem t1DecodeBody_ok_not_ready {s t : State} (h : t1DecodeBody s = .ok () t) : t.status.mqrdy = false := by
  rw [t1DecodeBody, eng_bind_ok (eng_get s)] at h
  obtain ⟨_, _, -, h⟩ := eng_bind_eq_ok.mp h
  rw [eng_bind_ok (eng_modify _ _), eng_bind_ok (eng_modify _ _), eng_bind_ok (eng_modify _ _),
    eng_bind_ok (eng_modify _ _)] at h
  obtain ⟨_, _, -, h⟩ := eng_bind_eq_ok.mp h
  rw [eng_bind_ok (eng_modify _ _)] at h
  obtain ⟨_, _, -, h⟩ := eng_bind_eq_ok.mp h
  cases h
  rfl

theorem commandBody_ok_decoderLegal {i : Instr} (hi : closesSession i = true) {s t : State} (hs : DecoderLegal s)
    (h : commandBody i s = .ok () t) : DecoderLegal t := by
  cases i with
  | mqInit => exact mqInitBody_ok_decoderLegal h
  | mqDecode cx => exact mqDecodeBody_ok_decoderLegal hs h
  | t1Start => exact .of_not_ready (t1StartBody_ok_not_ready h)
  | t1Sp b => exact passBody_ok_decoderLegal (ty := .sp) hs h
  | t1Mr b => exact passBody_ok_decoderLegal (ty := .mr) hs h
  | t1Cu b => exact passBody_ok_decoderLegal (ty := .cu) hs h
  | t1Decode => exact .of_not_ready (t1DecodeBody_ok_not_ready h)
  | _ => cases hi

/-! ## Every command, access and step -/

theorem exec_decoderLegal {i : Instr} {s t : State} (hs : DecoderLegal s) (h : exec i s = .next t) :
    DecoderLegal t := by
  have herr : ∀ (closes : Bool) k info u, DecoderLegal u → DecoderLegal (takeError closes k info u) :=
    fun _ _ _ _ hu => hu.congr (fun hq => (Bool.and_eq_true_iff.mp hq).1) rfl rfl rfl
  have hdone : ∀ u, DecoderLegal u → DecoderLegal (complete u) := fun _ hu => hu.congr id rfl rfl rfl
  cases hw : i.wellFormed with
  | false =>
    rw [exec_illFormed hw] at h
    cases h
    exact herr _ _ _ _ hs
  | true =>
    rw [exec_wellFormed hw] at h
    cases hi : closesSession i with
    | false => exact runCommand_keeps (keepsDecoderLegal_commandBody hi) hdone (herr _) hs h
    | true =>
      rcases runCommand_next h with ⟨u, hu, rfl⟩ | ⟨k, info, u, -, rfl⟩
      · exact hdone u (commandBody_ok_decoderLegal hi hs hu)
      · rw [hi]
        exact .of_not_ready (Bool.and_false _)

theorem issue_decoderLegal {w : Word} {s t : State} (hs : DecoderLegal s) (h : issue w s = .next t) :
    DecoderLegal t := by
  rcases issue_next h with rfl | ⟨i, -, -, hx⟩ | rfl
  · exact hs
  · exact exec_decoderLegal (s := accept s) (hs.congr id rfl rfl rfl) hx
  · exact hs.congr (fun hq => (Bool.and_eq_true_iff.mp hq).1) rfl rfl rfl

theorem accessed_decoderLegal {op : HostOp} {s t : State} (hs : DecoderLegal s) (h : Accessed op s t) :
    DecoderLegal t := by
  cases h with
  | issued off bits w _ hi => exact issue_decoderLegal hs hi
  | hardReset => exact .of_not_ready rfl
  | _ => exact hs.congr id rfl rfl rfl

/-- Settles O27: `MQ.INIT` alone sets `MQRDY`, on registers in range; a decision that completes keeps them in range, and
one that raises clears `MQRDY`; the other commands leave them, or end with `MQRDY` 0. -/
theorem decoderStaysLegal : Obligations.DecoderStaysLegal := by
  intro s t hs h
  rcases step_next h with rfl | ⟨op, rest, -, ha⟩
  · exact hs
  · exact accessed_decoderLegal (s := setPending rest s) (hs.congr id rfl rfl rfl) ha

end Sys2Proof.Machine
end

section
/-! The commands of the arithmetic decoder that make no decision (R122, R125), and the errors of commands issued out of
sequence (R129, R158 to R160). -/

namespace Sys2Proof.Machine

/-! ## Contexts -/

/-- Settles O29: the command writes the initial contexts and completes. -/
theorem mqResetcxOnlyResetsContexts : Obligations.MqResetcxOnlyResetsContexts :=
  fun _ => ⟨initialContexts, rfl, initialContexts_get⟩

/-! ## Errors that close the session -/

/-- A command that closes the session leaves one `STATUS` for each kind of error (R275). -/
theorem raised_closing (f : StatusFlags) (k : ErrKind) :
    f.raised true k = ⟨false, false, true, false, false, k.code⟩ := by
  simp [StatusFlags.raised]

theorem takeError_closing (k : ErrKind) (info : Word) (s : State) :
    takeError true k info s = { s with errinfo := info, status := ⟨false, false, true, false, false, k.code⟩ } := by
  rw [takeError, raised_closing]
  rfl

/-- A decision needs an initialised decoder (R129). -/
theorem mqDecodeBody_raises {word : Word} {c : Fin 19} {s : State} (h : s.status.mqrdy = false) :
    mqDecodeBody word c s = .error (.raise .sequence word) s := by
  rw [mqDecodeBody, eng_bind_ok (eng_get s), if_neg (by rw [h]; exact Bool.false_ne_true)]
  rfl

/-- A pass needs an open session and an initialised decoder (R158, R159, R160). -/
theorem passBody_raises {word : Word} {pass : Eng Unit} {s : State}
    (h : s.status.session = false ∨ s.status.mqrdy = false) :
    passBody word pass s = .error (.raise .sequence word) s := by
  have hno : ¬ (s.status.session && s.status.mqrdy) = true := by rcases h with h | h <;> simp [h]
  rw [passBody, eng_bind_error (requireSession_raises hno)]

/-- Settles O36: the command's own check raises before anything is written, and the error closes the session. -/
theorem commandsOutOfSequenceAreRefused : Obligations.CommandsOutOfSequenceAreRefused := by
  intro s arg i hw h
  have hraise : ∀ word, closesSession i = true → commandBody i s = .error (.raise .sequence word) s →
      exec i s = .next (takeError true .sequence word s) := fun word hc hb => by
    rw [exec_wellFormed hw, hc, runCommand_raise hb]
  have hcode : ErrKind.sequence.code = 6 := rfl
  rw [← hcode, ← takeError_closing]
  rcases h with ⟨rfl, h⟩ | ⟨rfl | rfl | rfl, h⟩
  · exact hraise _ rfl (mqDecodeBody_raises h)
  · exact hraise _ rfl (passBody_raises h)
  · exact hraise _ rfl (passBody_raises h)
  · exact hraise _ rfl (passBody_raises h)

/-! ## What `BYTEIN` enters -/

/-- `BYTEIN` at an end-of-stream mark, after a byte 0xFF that is not one, and after any other byte (R124). -/
theorem enterByte_mark {b1 : Byte} (h : 0x8F < b1.toNat) (m : MqRegs) :
    enterByte 0xFF b1 m = { m with c := m.c + 0xFF00, ct := 8 } := by
  rw [enterByte, if_pos rfl, if_pos h]

theorem enterByte_stuffed {b1 : Byte} (h : b1.toNat ≤ 0x8F) (m : MqRegs) :
    enterByte 0xFF b1 m = { m with bp := m.bp + 1, c := m.c + (b1.setWidth 32 <<< 9), ct := 7 } := by
  rw [enterByte, if_pos rfl, if_neg (Nat.not_lt.mpr h)]

theorem enterByte_ordinary {b : Byte} (h : b ≠ 0xFF) (b1 : Byte) (m : MqRegs) :
    enterByte b b1 m = { m with bp := m.bp + 1, c := m.c + (b1.setWidth 32 <<< 8), ct := 8 } := by
  rw [enterByte, if_neg h]

/-! ## The initialisation -/

/-- Where the initialisation of `MQ.INIT` begins: the new length latched, and `MQRDY` 0 (R125). -/
def initStart (s : State) : State :=
  setLatches { s.lat with len := s.par.cbLen } (setSession s.status.session false s)

/-- An error of `MQ.INIT` hides that `MQRDY` was cleared first. -/
theorem takeError_initStart (k : ErrKind) (info : Word) (m : MqRegs) (s : State) :
    takeError true k info (setMq m (initStart s)) =
      takeError true k info (setMq m (setLatches { s.lat with len := s.par.cbLen } s)) := by
  rw [takeError_closing, takeError_closing]
  rfl

theorem mqInitBody_eq {s : State} (hfit : s.par.cbLen.toNat ≤ s.cap.bsBytes) :
    mqInitBody s = (do
      initDecoder
      modify (fun t => setSession t.status.session true t) : Eng Unit) (initStart s) := by
  have hf : firstFailure (initChecks s.cap s.par) = none := by simp [firstFailure_none, initChecks, hfit]
  rw [mqInitBody, eng_bind_ok (eng_get s), eng_bind_ok (requireGeometry_ok hf s), eng_bind_ok (eng_modify _ _),
    eng_bind_ok (eng_modify _ _)]
  rfl

/-- Where the initialisation raises, `MQ.INIT` does. -/
theorem exec_mqInit_raise {s : State} {k : ErrKind} {info : Word} {m : MqRegs}
    (hfit : s.par.cbLen.toNat ≤ s.cap.bsBytes)
    (h : initDecoder (initStart s) = .error (.raise k info) (setMq m (initStart s))) :
    exec .mqInit s = .next (takeError true k info (setMq m (setLatches { s.lat with len := s.par.cbLen } s))) := by
  rw [← takeError_initStart]
  refine runCommand_raise ?_
  rw [mqInitBody_eq hfit, eng_bind_error h]

theorem initDecoder_no_byte {s : State} (hlen : s.lat.len = 0) :
    initDecoder s = .error (.raise .corruptBitstream 0) (setMq { s.mq with bp := 0 } s) := by
  have hread : bsRead 0 (setMq { s.mq with bp := 0 } s) =
      .error (.raise .corruptBitstream 0) (setMq { s.mq with bp := 0 } s) :=
    bsRead_past (by rw [setMq_lat, hlen]; exact Nat.le_refl 0)
  rw [initDecoder_start, eng_bind_error hread]

/-- `BYTEIN` with the byte at the pointer written and the next one past the end. -/
theorem byteIn_next_past {s : State} {b : Byte} (hi : s.mq.bp.toNat < s.lat.len.toNat)
    (h : Memory.read s.bs s.mq.bp.toNat = some b) (hpast : s.lat.len.toNat ≤ s.mq.bp.toNat + 1) :
    byteIn s = .error (.raise .corruptBitstream (s.mq.bp + 1)) s := by
  have hidx : BitVec.ofNat 32 (s.mq.bp.toNat + 1) = s.mq.bp + 1 := by
    rw [BitVec.ofNat_add, BitVec.ofNat_toNat, BitVec.setWidth_eq]
    rfl
  rw [byteIn, eng_bind_ok (eng_get s), eng_bind_ok (bsRead_ok hi h), eng_bind_error (bsRead_past hpast), hidx]

/-- `BYTEIN` with the pointer past the end. -/
theorem byteIn_past {s : State} (hpast : s.lat.len.toNat ≤ s.mq.bp.toNat) :
    byteIn s = .error (.raise .corruptBitstream s.mq.bp) s := by
  rw [byteIn, eng_bind_ok (eng_get s), eng_bind_error (bsRead_past hpast), BitVec.ofNat_toNat, BitVec.setWidth_eq]

theorem initDecoder_one_byte {s : State} {b0 : Byte} (hlen : s.lat.len = 1) (h0 : Memory.read s.bs 0 = some b0) :
    initDecoder s = .error (.raise .corruptBitstream 1) (setMq (firstByteRegs b0 s.mq) s) := by
  have hbyte : byteIn (setMq (firstByteRegs b0 s.mq) s) =
      .error (.raise .corruptBitstream ((firstByteRegs b0 s.mq).bp + 1)) (setMq (firstByteRegs b0 s.mq) s) := by
    refine byteIn_next_past (b := b0) ?_ ?_ ?_
    · rw [setMq_mq, setMq_lat, firstByteRegs_bp, hlen]; decide
    · rw [setMq_mq, setMq_bs, firstByteRegs_bp]; exact h0
    · rw [setMq_mq, setMq_lat, firstByteRegs_bp, hlen]; decide
  have hidx : (firstByteRegs b0 s.mq).bp + 1 = 1 := rfl
  rw [initDecoder_eq (by rw [hlen]; decide) h0, eng_bind_error hbyte, hidx]

theorem exec_mqInit_ok {s : State} {b0 b1 : Byte} (hfit : s.par.cbLen.toNat ≤ s.cap.bsBytes)
    (hlen : 2 ≤ s.par.cbLen.toNat) (h0 : Memory.read s.bs 0 = some b0) (h1 : Memory.read s.bs 1 = some b1) :
    exec .mqInit s = .next (complete (setSession s.status.session true
      (setMq (initRegs b0 b1 s.mq) (setLatches { s.lat with len := s.par.cbLen } s)))) := by
  refine runCommand_ok ?_
  rw [mqInitBody_eq hfit, eng_bind_ok (initDecoder_ok (s := initStart s) hlen h0 h1)]
  rfl

/-- Settles O30: the check raises before anything is written; a short bitstream raises where the initialisation reads
past it, with what it wrote; with two bytes the registers are those of `BYTEIN` at the first byte, aligned. -/
theorem mqInitStartsTheDecoder : Obligations.MqInitStartsTheDecoder := by
  intro s
  refine ⟨fun hbig => ?_, fun hfit => ⟨fun hlen => ?_, fun b0 hlen h0 => ?_, fun b0 b1 hlen h0 h1 => ?_⟩⟩
  · have hf : firstFailure (initChecks s.cap s.par) = some .cbLen := by simp [initChecks, firstFailure, hbig]
    refine runCommand_raise ?_
    rw [mqInitBody, eng_bind_ok (eng_get s), eng_bind_error (requireGeometry_fails hf s)]
    rfl
  · exact exec_mqInit_raise hfit (initDecoder_no_byte (s := initStart s) hlen)
  · exact exec_mqInit_raise hfit (initDecoder_one_byte (s := initStart s) hlen h0)
  · have hregs : initRegs b0 b1 s.mq = { initRegs b0 b1 s.mq with a := 0x8000, d := s.mq.d } := by
      rw [initRegs, alignRegs, enterByte_d, firstByteRegs]
    refine ⟨_, _, _, (exec_mqInit_ok hfit hlen h0 h1).trans (by rw [hregs]), ?_, ?_, ?_⟩
    · rintro rfl hmark
      rw [initRegs, enterByte_mark hmark]
      simp [alignRegs, firstByteRegs]
    · rintro rfl hstuffed
      rw [initRegs, enterByte_stuffed (Nat.le_of_lt_succ hstuffed)]
      simp [alignRegs, firstByteRegs]
    · intro hff
      rw [initRegs, enterByte_ordinary hff]
      simp [alignRegs, firstByteRegs]

end Sys2Proof.Machine
end

section
/-! The renormalisation as shifts and refills (R126): shifts while `CT` lasts, then `BYTEIN`, and so on until bit 15 of
`A` is set. From this how a decision completes, what it leaves, and how it raises (R123, R127 to R130, R132). -/

namespace Sys2Proof.Machine

/-! ## Shifts -/

/-- The state after `k` shifts with no refill between. -/
def shiftBy (k : Nat) (s : State) : State := setMq (shiftOnce^[k] s.mq) s

theorem shiftBy_succ (k : Nat) (s : State) : shiftBy (k + 1) s = shiftBy k (shiftBy 1 s) := rfl

@[simp] theorem shiftBy_bp (k : Nat) (s : State) : (shiftBy k s).mq.bp = s.mq.bp := by
  induction k generalizing s with
  | zero => rfl
  | succ k ih => rw [shiftBy_succ, ih]; rfl

@[simp] theorem shiftBy_c (k : Nat) (s : State) : (shiftBy k s).mq.c = s.mq.c <<< k := by
  induction k generalizing s with
  | zero => exact (BitVec.shiftLeft_zero _).symm
  | succ k ih =>
    have h1 : (shiftBy 1 s).mq.c = s.mq.c <<< 1 := rfl
    rw [shiftBy_succ, ih, h1, ← BitVec.shiftLeft_add, Nat.add_comm]

/-- Shifts that push no bit out of `A` double it. -/
theorem shiftBy_a {k : Nat} {s : State} (h : s.mq.a.toNat * 2 ^ k < 0x10000) :
    (shiftBy k s).mq.a.toNat = s.mq.a.toNat * 2 ^ k := by
  have ha : (shiftBy k s).mq.a = s.mq.a <<< k := by
    clear h
    induction k generalizing s with
    | zero => exact (BitVec.shiftLeft_zero _).symm
    | succ k ih =>
      have h1 : (shiftBy 1 s).mq.a = s.mq.a <<< 1 := rfl
      rw [shiftBy_succ, ih, h1, ← BitVec.shiftLeft_add, Nat.add_comm]
  rw [ha, BitVec.toNat_shiftLeft, Nat.shiftLeft_eq, Nat.mod_eq_of_lt h]

theorem shiftBy_ct {k : Nat} {s : State} (h : k ≤ s.mq.ct.toNat) :
    (shiftBy k s).mq.ct.toNat = s.mq.ct.toNat - k := by
  induction k generalizing s with
  | zero => rfl
  | succ k ih =>
    have hne : s.mq.ct ≠ 0 := fun h0 => by rw [h0] at h; exact absurd h (Nat.not_succ_le_zero k)
    have h1 : (shiftBy 1 s).mq.ct.toNat = s.mq.ct.toNat - 1 := shiftOnce_ct_toNat hne
    rw [shiftBy_succ, ih (by omega), h1]
    omega

/-! ## The least number of shifts -/

/-- `k` is the least number of doublings that bring an interval of size `a` to 0x8000 (R126). -/
def LeastShift (a k : Nat) : Prop := 0x8000 ≤ a * 2 ^ k ∧ (k = 0 ∨ a * 2 ^ (k - 1) < 0x8000)

/-- Doubling on keeps what is large large. -/
theorem mul_two_pow_mono (a : Nat) {j k : Nat} (h : j ≤ k) : a * 2 ^ j ≤ a * 2 ^ k :=
  Nat.mul_le_mul_left a (Nat.pow_le_pow_right Nat.two_pos h)

theorem exists_leastShift {a : Nat} (h : 1 ≤ a) : ∃ k, LeastShift a k := by
  have hex : ∃ k, 0x8000 ≤ a * 2 ^ k := ⟨15, by omega⟩
  refine ⟨Nat.find hex, Nat.find_spec hex, ?_⟩
  rcases Nat.eq_zero_or_pos (Nat.find hex) with h0 | hpos
  · exact .inl h0
  · exact .inr (Nat.not_le.mp (Nat.find_min hex (Nat.sub_lt hpos Nat.one_pos)))

theorem LeastShift.le {a k n : Nat} (h : LeastShift a k) (hn : 0x8000 ≤ a * 2 ^ n) : k ≤ n := by
  obtain ⟨-, rfl | hlt⟩ := h
  · exact Nat.zero_le n
  · by_contra hk
    have := mul_two_pow_mono a (show n ≤ k - 1 by omega)
    omega

theorem LeastShift.lt_of_lt {a k n : Nat} (h : LeastShift a k) (hn : n < k) : a * 2 ^ n < 0x8000 :=
  Nat.not_le.mp fun hle => absurd (h.le hle) (Nat.not_le.mpr hn)

theorem LeastShift.lt {a k n : Nat} (h : LeastShift a k) (hn : a * 2 ^ n < 0x8000) : n < k := by
  by_contra hk
  have := mul_two_pow_mono a (Nat.not_lt.mp hk)
  have := h.1
  omega

/-- Fifteen shifts are enough (R130). -/
theorem LeastShift.le_fifteen {a k : Nat} (h : LeastShift a k) (ha : 1 ≤ a) : k ≤ 15 := h.le (by omega)

/-- The least shifts push no bit out of a 16-bit interval. -/
theorem LeastShift.fits {a k : Nat} (h : LeastShift a k) (ha : a < 0x10000) : a * 2 ^ k < 0x10000 := by
  obtain ⟨-, rfl | hlt⟩ := h
  · simpa using ha
  · cases k with
    | zero => simpa using ha
    | succ k =>
      rw [Nat.add_sub_cancel] at hlt
      rw [Nat.pow_succ, ← Nat.mul_assoc]
      omega

/-- After some of the shifts the rest are left. -/
theorem LeastShift.after {a k n : Nat} (h : LeastShift a k) (hn : n < k) : LeastShift (a * 2 ^ n) (k - n) := by
  have hsplit : ∀ m, n ≤ m → a * 2 ^ n * 2 ^ (m - n) = a * 2 ^ m := fun m hm => by
    rw [Nat.mul_assoc, ← Nat.pow_add, Nat.add_sub_cancel' hm]
  refine ⟨(hsplit k hn.le).symm ▸ h.1, .inr ?_⟩
  rw [Nat.sub_right_comm, hsplit (k - 1) (by omega)]
  exact h.lt_of_lt (by omega)

/-! ## Phases of a renormalisation -/

/-- A round of `RENORMD` while a shift is left. -/
theorem renormd_shift {n : Nat} {s : State} (hct : s.mq.ct ≠ 0) :
    renormd (n + 1) s = onlyIf (!(shiftBy 1 s).mq.a.msb) (renormd n) (shiftBy 1 s) := by
  rw [renormd_succ, decide_eq_false hct, onlyIf_false, eng_bind_ok (eng_pure _ _), eng_bind_ok (eng_get s),
    eng_bind_ok (eng_set _ s)]
  rfl

/-- A round of `RENORMD` with no shift left enters a byte, and is then a round with one left. -/
theorem renormd_refill_first {n : Nat} {s : State} (hct : s.mq.ct = 0) :
    renormd (n + 1) s = (do byteIn; renormd (n + 1) : Eng Unit) s := by
  rw [renormd_succ, decide_eq_true hct, onlyIf_true]
  cases h : byteIn s with
  | error e t => rw [eng_bind_error h, eng_bind_error h]
  | ok a t =>
    have hne : t.mq.ct ≠ 0 := onlyIf_byteIn_ct_ne_zero (s := s) (by rw [decide_eq_true hct]; exact h)
    rw [eng_bind_ok h, eng_bind_ok h, renormd_shift hne]
    rfl

/-- Shifts that do not bring bit 15 up, while `CT` lasts. -/
theorem renormd_shifts {j n : Nat} {s : State} (hj : j ≤ s.mq.ct.toNat) (ha : s.mq.a.toNat * 2 ^ j < 0x8000) :
    renormd (n + j) s = renormd n (shiftBy j s) := by
  induction j generalizing s with
  | zero => rfl
  | succ j ih =>
    have hne : s.mq.ct ≠ 0 := fun h0 => by rw [h0] at hj; exact absurd hj (Nat.not_succ_le_zero j)
    have hfirst := mul_two_pow_mono s.mq.a.toNat (show 1 ≤ j + 1 by omega)
    have ha1 : (shiftBy 1 s).mq.a.toNat = s.mq.a.toNat * 2 ^ 1 := shiftBy_a (by omega)
    have hct1 : (shiftBy 1 s).mq.ct.toNat = s.mq.ct.toNat - 1 := shiftBy_ct (by omega)
    have hmsb : (shiftBy 1 s).mq.a.msb = false := Bool.eq_false_iff.mpr fun hm => by
      have := msb_iff_le.mp hm
      omega
    have hpow : (shiftBy 1 s).mq.a.toNat * 2 ^ j = s.mq.a.toNat * 2 ^ (j + 1) := by rw [ha1, pow_succ]; ring
    rw [← Nat.add_assoc, renormd_shift hne, hmsb, shiftBy_succ j]
    exact ih (by omega) (hpow ▸ ha)

/-- A renormalisation that needs no byte. -/
theorem renormd_settles {n k : Nat} {s : State} (hk : LeastShift s.mq.a.toNat k) (hpos : 1 ≤ k)
    (hct : k ≤ s.mq.ct.toNat) (hn : k ≤ n) : renormd n s = .ok () (shiftBy k s) := by
  obtain ⟨j, rfl⟩ : ∃ j, k = j + 1 := ⟨k - 1, by omega⟩
  obtain ⟨m, rfl⟩ : ∃ m, n = m + 1 + j := ⟨n - (j + 1), by omega⟩
  have hlt := hk.lt_of_lt (Nat.lt_succ_self j)
  have hne : (shiftBy j s).mq.ct ≠ 0 := fun h0 => by
    have := shiftBy_ct (s := s) (k := j) (by omega)
    rw [h0] at this
    have : s.mq.ct.toNat - j = 0 := this.symm
    omega
  have hlast : shiftBy 1 (shiftBy j s) = shiftBy (j + 1) s :=
    congrArg (setMq · s) (Function.iterate_succ_apply' shiftOnce j s.mq).symm
  have hmsb : (shiftBy (j + 1) s).mq.a.msb = true := by
    rw [msb_iff_le, shiftBy_a (hk.fits s.mq.a.isLt)]
    exact hk.1
  rw [renormd_shifts (by omega) hlt, renormd_shift hne, hlast, hmsb]
  rfl

/-- Where a renormalisation enters its first byte: after the shifts that `CT` allows. -/
def atRefill (s : State) : State := shiftBy s.mq.ct.toNat s

@[simp] theorem atRefill_bs (s : State) : (atRefill s).bs = s.bs := rfl
@[simp] theorem atRefill_bp (s : State) : (atRefill s).mq.bp = s.mq.bp := shiftBy_bp _ s

theorem atRefill_ct (s : State) : (atRefill s).mq.ct = 0 :=
  BitVec.eq_of_toNat_eq ((shiftBy_ct (Nat.le_refl _)).trans (Nat.sub_self _))

/-- A renormalisation that needs a byte enters it after the shifts that `CT` allows. -/
theorem renormd_due {n : Nat} {s : State} (hdue : s.mq.a.toNat * 2 ^ s.mq.ct.toNat < 0x8000) (hn : s.mq.ct.toNat < n) :
    renormd n s = (do byteIn; renormd (n - s.mq.ct.toNat) : Eng Unit) (atRefill s) := by
  obtain ⟨m, rfl⟩ : ∃ m, n = m + 1 + s.mq.ct.toNat := ⟨n - (s.mq.ct.toNat + 1), by omega⟩
  rw [renormd_shifts (Nat.le_refl _) hdue, Nat.add_sub_cancel]
  exact renormd_refill_first (atRefill_ct s)

/-! ## Refills that suffice -/

/-- From `s` a renormalisation completes with at most `r` refills. -/
def RefillsSuffice : Nat → State → Prop
  | 0, s => 0x8000 ≤ s.mq.a.toNat * 2 ^ s.mq.ct.toNat
  | r + 1, s => 0x8000 ≤ s.mq.a.toNat * 2 ^ s.mq.ct.toNat ∨
      ∃ w, byteIn (atRefill s) = .ok () w ∧ RefillsSuffice r w

theorem RefillsSuffice.succ {r : Nat} {s : State} (h : RefillsSuffice r s) : RefillsSuffice (r + 1) s := by
  induction r generalizing s with
  | zero => exact .inl h
  | succ r ih =>
    rcases h with h | ⟨w, hw, h⟩
    · exact .inl h
    · exact .inr ⟨w, hw, ih h⟩

/-- A refill keeps the interval, and moves the pointer by one at most. -/
theorem byteIn_ok_registers {s t : State} (h : byteIn s = .ok () t) :
    t.mq.a = s.mq.a ∧ t.mq.bp.toNat ≤ s.mq.bp.toNat + 1 ∧ 7 ≤ t.mq.ct.toNat := by
  obtain ⟨b, b1, hlen, -, -, rfl⟩ := byteIn_eq_ok h
  refine ⟨enterByte_a b b1 s.mq, ?_, ?_⟩
  · rw [setMq_mq, enterByte_bp_toNat b b1 hlen]
    split <;> omega
  · rw [setMq_mq]
    rcases enterByte_ct b b1 s.mq with h8 | h7
    · rw [h8]; decide
    · rw [h7]; decide

/-- A renormalisation completes where its refills suffice, the interval doubled as often as it takes. -/
theorem renormd_completes_of_refills {r n k : Nat} {s : State} (hr : RefillsSuffice r s)
    (hk : LeastShift s.mq.a.toNat k) (hpos : 1 ≤ k) (hn : k ≤ n) :
    ∃ t, renormd n s = .ok () t ∧ t.mq.bp.toNat ≤ s.mq.bp.toNat + r ∧ t.mq.a.toNat = s.mq.a.toNat * 2 ^ k := by
  induction r generalizing n k s with
  | zero =>
    exact ⟨_, renormd_settles hk hpos (hk.le hr) hn, by rw [shiftBy_bp]; omega, shiftBy_a (hk.fits s.mq.a.isLt)⟩
  | succ r ih =>
    by_cases hdue : s.mq.a.toNat * 2 ^ s.mq.ct.toNat < 0x8000
    · obtain ⟨w, hw, hr⟩ := hr.resolve_left (Nat.not_le.mpr hdue)
      have hlt : s.mq.ct.toNat < k := hk.lt hdue
      obtain ⟨hwa, hwbp, -⟩ := byteIn_ok_registers hw
      have ha : w.mq.a.toNat = s.mq.a.toNat * 2 ^ s.mq.ct.toNat := by
        rw [hwa]
        exact shiftBy_a (by omega)
      have hrest : w.mq.a.toNat * 2 ^ (k - s.mq.ct.toNat) = s.mq.a.toNat * 2 ^ k := by
        rw [ha, Nat.mul_assoc, ← Nat.pow_add, Nat.add_sub_cancel' hlt.le]
      obtain ⟨t, ht, htbp, hta⟩ := ih (n := n - s.mq.ct.toNat) hr (ha ▸ hk.after hlt) (by omega) (by omega)
      rw [atRefill_bp] at hwbp
      rw [renormd_due hdue (by omega), eng_bind_ok hw]
      exact ⟨t, ht, by omega, hta.trans hrest⟩
    · exact ⟨_, renormd_settles hk hpos (hk.le (Nat.not_lt.mp hdue)) hn, by rw [shiftBy_bp]; omega,
        shiftBy_a (hk.fits s.mq.a.isLt)⟩

end Sys2Proof.Machine
end

section
/-! One decision of the arithmetic decoder (R127 to R130): its exchange, when its renormalisation completes, and what
`MQ.DECODE` leaves. -/

namespace Sys2Proof.Machine

/-! ## When refills suffice -/

theorem enterByte_ct_eq (b b1 : Byte) (m : MqRegs) :
    (enterByte b b1 m).ct = if b = 0xFF ∧ b1.toNat ≤ 0x8F then 7 else 8 := by
  by_cases hff : b = 0xFF
  · subst hff
    by_cases hmark : 0x8F < b1.toNat
    · rw [enterByte_mark hmark, if_neg fun h => absurd h.2 (Nat.not_le.mpr hmark)]
    · rw [enterByte_stuffed (Nat.not_lt.mp hmark), if_pos ⟨rfl, Nat.not_lt.mp hmark⟩]
  · rw [enterByte_ordinary hff, if_neg fun h => hff h.1]

/-- Of two refills in a row at most one is after a byte 0xFF that is no mark: together they give fifteen shifts. -/
theorem byteIn_twice_ct {u v w x : State} (hw : byteIn u = .ok () w) (hbs : v.bs = w.bs) (hbp : v.mq.bp = w.mq.bp)
    (hx : byteIn v = .ok () x) : 15 ≤ w.mq.ct.toNat + x.mq.ct.toNat := by
  obtain ⟨-, -, hxct⟩ := byteIn_ok_registers hx
  obtain ⟨b, b1, hlen, -, hb1, rfl⟩ := byteIn_eq_ok hw
  obtain ⟨b', b1', -, hb', -, rfl⟩ := byteIn_eq_ok hx
  rw [setMq_mq, enterByte_ct_eq] at hxct ⊢
  rw [setMq_mq, enterByte_ct_eq]
  by_cases hstuffed : b = 0xFF ∧ b1.toNat ≤ 0x8F
  · have hnext : v.mq.bp.toNat = u.mq.bp.toNat + 1 := by
      rw [hbp, setMq_mq, enterByte_bp_toNat b b1 hlen, if_neg fun h => absurd hstuffed.2 (Nat.not_le.mpr h.2)]
    obtain rfl : b' = b1 := by
      rw [hbs, setMq_bs, hnext] at hb'
      exact Option.some.inj (hb'.symm.trans hb1)
    have hne : ¬ (b' = 0xFF ∧ b1'.toNat ≤ 0x8F) := fun h => by
      rw [h.1] at hstuffed
      exact absurd hstuffed.2 (by decide)
    rw [if_pos hstuffed, if_neg hne]
    decide
  · rw [if_neg hstuffed]
    exact Nat.add_le_add_left hxct 8

theorem refillsSuffice_of_two_refills {s w x : State} (ha : 1 ≤ s.mq.a.toNat) (hw : byteIn (atRefill s) = .ok () w)
    (hx : byteIn (atRefill w) = .ok () x) : RefillsSuffice 2 s := by
  by_cases hs : 0x8000 ≤ s.mq.a.toNat * 2 ^ s.mq.ct.toNat
  · exact .inl hs
  by_cases hd : 0x8000 ≤ w.mq.a.toNat * 2 ^ w.mq.ct.toNat
  · exact .inr ⟨w, hw, .inl hd⟩
  refine .inr ⟨w, hw, .inr ⟨x, hx, ?_⟩⟩
  have hct := byteIn_twice_ct hw (atRefill_bs w) (atRefill_bp w) hx
  have hwa : w.mq.a.toNat = s.mq.a.toNat * 2 ^ s.mq.ct.toNat := by
    rw [(byteIn_ok_registers hw).1]
    exact shiftBy_a (by omega)
  have hxa : x.mq.a.toNat = w.mq.a.toNat * 2 ^ w.mq.ct.toNat := by
    rw [(byteIn_ok_registers hx).1]
    exact shiftBy_a (by omega)
  calc 0x8000 ≤ s.mq.a.toNat * 2 ^ 15 := by omega
    _ ≤ s.mq.a.toNat * 2 ^ (s.mq.ct.toNat + (w.mq.ct.toNat + x.mq.ct.toNat)) := mul_two_pow_mono _ (by omega)
    _ = x.mq.a.toNat * 2 ^ x.mq.ct.toNat := by rw [hxa, hwa]; ring

/-- The refill of a renormalisation whose two bytes are written below `L`. -/
theorem byteIn_atRefill_ok {s : State} {b b1 : Byte} (hlen : s.mq.bp.toNat + 1 < s.lat.len.toNat)
    (hb : Memory.read s.bs s.mq.bp.toNat = some b) (hb1 : Memory.read s.bs (s.mq.bp.toNat + 1) = some b1) :
    byteIn (atRefill s) = .ok () (setMq (enterByte b b1 (atRefill s).mq) (atRefill s)) := by
  rw [← atRefill_bp s] at hlen hb hb1
  exact byteIn_ok hlen hb hb1

/-- An end-of-stream mark ahead feeds any number of refills (R132). -/
theorem refillsSuffice_of_mark {s : State} (ha : 1 ≤ s.mq.a.toNat)
    (h : MarkAhead s.bs s.lat.len.toNat s.mq.bp.toNat) : RefillsSuffice 2 s := by
  obtain ⟨w, hw, hm, -, -⟩ := markAhead_byteIn (s := atRefill s) (by rw [atRefill_bp]; exact h)
  obtain ⟨x, hx, -, -, -⟩ := markAhead_byteIn (s := atRefill w) (by rw [atRefill_bp]; exact hm)
  exact refillsSuffice_of_two_refills ha hw hx

theorem refillsSuffice_of_two_bytes {s : State} (ha : 1 ≤ s.mq.a.toNat)
    (h : TwoBytesAhead s.bs s.lat.len.toNat s.mq.bp.toNat) : RefillsSuffice 2 s := by
  obtain ⟨hlen, hhas⟩ := h
  have hread : ∀ i, s.mq.bp.toNat ≤ i → i ≤ s.mq.bp.toNat + 2 → ∃ b, Memory.read s.bs i = some b := fun i hlo hhi =>
    Option.isSome_iff_exists.mp (hhas i hlo hhi)
  have hrefill : ∀ v : State, v.bs = s.bs → v.lat = s.lat → s.mq.bp.toNat ≤ v.mq.bp.toNat →
      v.mq.bp.toNat ≤ s.mq.bp.toNat + 1 →
      ∃ b b1, byteIn (atRefill v) = .ok () (setMq (enterByte b b1 (atRefill v).mq) (atRefill v)) :=
    fun v hbs hlat hlo hhi => by
      obtain ⟨b, hb⟩ := hread v.mq.bp.toNat hlo (by omega)
      obtain ⟨b1, hb1⟩ := hread (v.mq.bp.toNat + 1) (by omega) (by omega)
      exact ⟨b, b1, byteIn_atRefill_ok (by rw [hlat]; omega) (hbs ▸ hb) (hbs ▸ hb1)⟩
  obtain ⟨b, b1, hw⟩ := hrefill s rfl rfl (Nat.le_refl _) (Nat.le_succ _)
  have hbp := enterByte_bp_toNat b b1 (m := (atRefill s).mq) (len := s.lat.len) (by rw [atRefill_bp]; omega)
  rw [atRefill_bp] at hbp
  obtain ⟨b', b1', hx⟩ := hrefill (setMq (enterByte b b1 (atRefill s).mq) (atRefill s)) rfl rfl
    (by rw [setMq_mq, hbp]; split <;> omega) (by rw [setMq_mq, hbp]; split <;> omega)
  exact refillsSuffice_of_two_refills ha hw hx

theorem refillsSuffice_of_one_byte {s : State} (hlen : s.mq.bp.toNat + 1 < s.lat.len.toNat)
    (hb : Memory.has s.bs s.mq.bp.toNat = true) (hb1 : Memory.has s.bs (s.mq.bp.toNat + 1) = true)
    (h : 0x8000 ≤ s.mq.a.toNat * 2 ^ (s.mq.ct.toNat + 7)) : RefillsSuffice 1 s := by
  by_cases hdue : s.mq.a.toNat * 2 ^ s.mq.ct.toNat < 0x8000
  · obtain ⟨b, hb⟩ := Option.isSome_iff_exists.mp hb
    obtain ⟨b1, hb1⟩ := Option.isSome_iff_exists.mp hb1
    have hw := byteIn_atRefill_ok hlen hb hb1
    obtain ⟨hwa, -, hwct⟩ := byteIn_ok_registers hw
    refine .inr ⟨_, hw, ?_⟩
    have ha : (atRefill s).mq.a.toNat = s.mq.a.toNat * 2 ^ s.mq.ct.toNat := shiftBy_a (by omega)
    rw [Nat.pow_add, ← Nat.mul_assoc, ← ha, ← hwa] at h
    exact Nat.le_trans h (mul_two_pow_mono _ hwct)
  · exact .inl (Nat.not_lt.mp hdue)

/-! ## The exchange -/

/-- The decision of context `c` from the registers of `s` (R127). -/
abbrev decisionAt (s : State) (c : Fin 19) : Decision := decisionOf s.mq.a s.mq.c (ctxAt s c)

theorem chigh_toNat (c : BitVec 32) : (chigh c).toNat = c.toNat / 65536 := by
  have := c.isLt
  rw [chigh, BitVec.extractLsb'_toNat, Nat.shiftRight_eq_div_pow]
  omega

/-- The decision by the sub-interval of the code value and the size of the upper one (R127, R128). -/
theorem decisionAt_eq {s : State} (c : Fin 19) (ha : 0x8000 ≤ s.mq.a.toNat) :
    decisionAt s c =
      let e := ctxAt s c
      let qe := (qeRow e.idx).qe
      let rest := s.mq.a.toNat - qe.toNat
      if lowerHalf s c then
        if rest < qe.toNat then ⟨qe, s.mq.c, mpsEntry e, e.mps, true⟩ else ⟨qe, s.mq.c, lpsEntry e, !e.mps, true⟩
      else if 0x8000 ≤ rest then ⟨s.mq.a - qe, exchangedC s c, e, e.mps, false⟩
      else if rest < qe.toNat then ⟨s.mq.a - qe, exchangedC s c, lpsEntry e, !e.mps, true⟩
      else ⟨s.mq.a - qe, exchangedC s c, mpsEntry e, e.mps, true⟩ := by
  obtain ⟨-, hqe⟩ := qeRow_bounds (ctxAt s c).idx
  have hsub : (s.mq.a - (qeRow (ctxAt s c).idx).qe).toNat = s.mq.a.toNat - (qeRow (ctxAt s c).idx).qe.toNat :=
    BitVec.toNat_sub_of_le (BitVec.le_def.mpr (by omega))
  dsimp only
  rw [decisionAt, decisionOf, chigh_toNat, lpsExchange, mpsExchange, hsub, exchangedC]
  by_cases hl : lowerHalf s c
  · rw [if_pos hl, if_pos hl]
    split <;> rfl
  · rw [if_neg hl, if_neg hl, if_neg hl]
    by_cases hrest : 0x8000 ≤ s.mq.a.toNat - (qeRow (ctxAt s c).idx).qe.toNat
    · rw [if_pos hrest, if_pos (msb_iff_le.mpr (hsub.symm ▸ hrest))]
    · rw [if_neg hrest, if_neg fun hm => hrest (hsub ▸ msb_iff_le.mp hm)]
      split <;> rfl

end Sys2Proof.Machine
end

section
/-! `MQ.DECODE` as one exchange, one renormalisation and the decision stored: how it completes, and how it raises. -/

namespace Sys2Proof.Machine

/-! ## A decision in two parts -/

/-- The state after the exchange of a decision in context `c` (R127). -/
def exchange (c : Fin 19) (s : State) : State := applyDecision c (decisionAt s c) s

/-- The renormalisation of a decision in context `c`, where it makes one (R127, R128). -/
def settle (c : Fin 19) (s : State) : Eng Unit := onlyIf (decisionAt s c).renorm (renormd maxShifts)

theorem decodeBit_eq_settle (c : Fin 19) (s : State) :
    decodeBit c s = (do
      settle c s
      modify (storeDecision (decisionAt s c).d)
      pure (decisionAt s c).d : Eng Bool) (exchange c s) := rfl

@[simp] theorem exchange_ct (c : Fin 19) (s : State) : (exchange c s).mq.ct = s.mq.ct := rfl
@[simp] theorem exchange_bp (c : Fin 19) (s : State) : (exchange c s).mq.bp = s.mq.bp := rfl

theorem exchange_a {c : Fin 19} {s : State} (ha : 0x8000 ≤ s.mq.a.toNat) :
    (exchange c s).mq.a.toNat = exchangedA s c := decisionOf_exchanged c ha

theorem exchange_c {c : Fin 19} {s : State} (ha : 0x8000 ≤ s.mq.a.toNat) : (exchange c s).mq.c = exchangedC s c := by
  show (decisionAt s c).c = _
  rw [decisionAt_eq c ha, exchangedC]
  dsimp only
  by_cases hl : lowerHalf s c
  · rw [if_pos hl, if_pos hl]
    split <;> rfl
  · rw [if_neg hl, if_neg hl]
    split
    · rfl
    · split <;> rfl

theorem exchangedA_pos {c : Fin 19} {s : State} (ha : 0x8000 ≤ s.mq.a.toNat) : 1 ≤ exchangedA s c :=
  decisionOf_exchanged c ha ▸ (decisionOf_interval s.mq.c (ctxAt s c) ha).1

theorem decisionAt_renorm_iff {c : Fin 19} {s : State} (ha : 0x8000 ≤ s.mq.a.toNat) :
    (decisionAt s c).renorm = true ↔ exchangedA s c < 0x8000 := by
  obtain ⟨-, hre, hno⟩ := decisionOf_interval s.mq.c (ctxAt s c) ha
  rw [decisionOf_exchanged c ha] at hre hno
  refine ⟨hre, fun hlt => ?_⟩
  by_contra hf
  have := hno (Bool.not_eq_true _ ▸ hf)
  omega

/-- What a decision keeps, up to where its renormalisation ends: all but the registers and its own context entry. -/
structure Exchanged (c : Fin 19) (s u : State) : Prop where
  frame : DecoderOnly s u
  cx    : u.cx = s.cx.set c.val (decisionAt s c).entry c.isLt
  d     : u.mq.d = s.mq.d

theorem settle_exchanged (c : Fin 19) (s : State) : Exchanged c s (endState (settle c s (exchange c s))) := by
  have hframe := keeps_onlyIf (c := (decisionAt s c).renorm) (keeps_renormd_only s maxShifts) (exchange c s)
    (DecoderOnly.applyDecision _ _ _)
  obtain ⟨hcx, hd⟩ := keeps_onlyIf (c := (decisionAt s c).renorm)
    (keeps_renormd_cx (s.cx.set c.val (decisionAt s c).entry c.isLt) s.mq.d maxShifts) (exchange c s) ⟨rfl, rfl⟩
  exact ⟨hframe, hcx, hd⟩

theorem Exchanged.ctx_same {c : Fin 19} {s u : State} (h : Exchanged c s u) : ctxAt u c = (decisionAt s c).entry := by
  rw [ctxAt, h.cx]
  exact Vector.getElem_set_self _

theorem Exchanged.ctx_other {c k : Fin 19} {s u : State} (h : Exchanged c s u) (hk : k ≠ c) :
    ctxAt u k = ctxAt s k := by
  rw [ctxAt, h.cx, ctxAt]
  exact Vector.getElem_set_ne _ _ fun he => hk (Fin.ext he.symm)

/-! ## How the renormalisation of a decision ends -/

/-- With no byte needed it makes the least number of shifts. -/
theorem settle_shifts {c : Fin 19} {s : State} {k : Nat} (ha : 0x8000 ≤ s.mq.a.toNat)
    (hk : LeastShift (exchangedA s c) k) (hct : k ≤ s.mq.ct.toNat) :
    settle c s (exchange c s) = .ok () (shiftBy k (exchange c s)) := by
  rw [settle]
  cases hr : (decisionAt s c).renorm with
  | true =>
    have hlt := (decisionAt_renorm_iff ha).mp hr
    have hpos : 1 ≤ k := hk.lt (n := 0) (by omega)
    exact renormd_settles ((exchange_a ha).symm ▸ hk) hpos hct (hk.le_fifteen (exchangedA_pos ha))
  | false =>
    have hge : 0x8000 ≤ exchangedA s c * 2 ^ 0 := by
      rw [Nat.pow_zero, Nat.mul_one]
      exact Nat.not_lt.mp fun hlt => Bool.false_ne_true (hr.symm.trans ((decisionAt_renorm_iff ha).mpr hlt))
    obtain rfl : k = 0 := Nat.le_zero.mp (hk.le hge)
    rfl

/-- With a byte due it enters one after `CT` shifts. -/
theorem settle_due {c : Fin 19} {s : State} (ha : 0x8000 ≤ s.mq.a.toNat) (hdue : RefillDue s c) :
    settle c s (exchange c s) =
      (do byteIn; renormd (maxShifts - s.mq.ct.toNat) : Eng Unit) (atRefill (exchange c s)) := by
  have hpos := exchangedA_pos (c := c) ha
  have hlt : exchangedA s c < 0x8000 := by
    have := mul_two_pow_mono (exchangedA s c) (Nat.zero_le s.mq.ct.toNat)
    omega
  have hct : s.mq.ct.toNat < maxShifts := by
    obtain ⟨k, hk⟩ := exists_leastShift hpos
    exact Nat.lt_of_lt_of_le (hk.lt hdue) (hk.le_fifteen hpos)
  rw [settle, (decisionAt_renorm_iff ha).mpr hlt]
  exact renormd_due (s := exchange c s) (by rw [exchange_a ha]; exact hdue) hct

/-- With one byte entered the other shifts follow. -/
theorem settle_one_refill {c : Fin 19} {s : State} {k : Nat} {b b1 : Byte} (ha : 0x8000 ≤ s.mq.a.toNat)
    (hk : LeastShift (exchangedA s c) k) (hct : s.mq.ct.toNat < k) (hlen : s.mq.bp.toNat + 1 < s.lat.len.toNat)
    (hb : Memory.read s.bs s.mq.bp.toNat = some b) (hb1 : Memory.read s.bs (s.mq.bp.toNat + 1) = some b1)
    (hn : k - s.mq.ct.toNat ≤ (enterByte b b1 (atRefill (exchange c s)).mq).ct.toNat) :
    settle c s (exchange c s) =
      .ok () (shiftBy (k - s.mq.ct.toNat)
        (setMq (enterByte b b1 (atRefill (exchange c s)).mq) (atRefill (exchange c s)))) := by
  have hdue := hk.lt_of_lt hct
  have hle := hk.le_fifteen (exchangedA_pos ha)
  have hA : (atRefill (exchange c s)).mq.a.toNat = exchangedA s c * 2 ^ s.mq.ct.toNat := by
    rw [← exchange_a ha] at hdue ⊢
    exact shiftBy_a (k := s.mq.ct.toNat) (by omega)
  have hk' : LeastShift (setMq (enterByte b b1 (atRefill (exchange c s)).mq) (atRefill (exchange c s))).mq.a.toNat
      (k - s.mq.ct.toNat) := by
    rw [setMq_mq, enterByte_a, hA]
    exact hk.after hct
  rw [settle_due ha hdue, eng_bind_ok (byteIn_atRefill_ok (s := exchange c s) hlen hb hb1)]
  exact renormd_settles hk' (by omega) hn (Nat.sub_le_sub_right hle _)

/-- Where the refills suffice it completes. -/
theorem settle_completes {r k : Nat} {c : Fin 19} {s : State} (ha : 0x8000 ≤ s.mq.a.toNat)
    (hr : RefillsSuffice r (exchange c s)) (hk : LeastShift (exchangedA s c) k) :
    ∃ u, settle c s (exchange c s) = .ok () u ∧ u.mq.bp.toNat ≤ s.mq.bp.toNat + r ∧
      u.mq.a.toNat = exchangedA s c * 2 ^ k := by
  rw [← exchange_a ha] at hk ⊢
  by_cases hct : k ≤ s.mq.ct.toNat
  · refine ⟨_, settle_shifts ha (exchange_a ha ▸ hk) hct, ?_, shiftBy_a (hk.fits (exchange c s).mq.a.isLt)⟩
    rw [shiftBy_bp, exchange_bp]
    exact Nat.le_add_right _ _
  · have hlt : exchangedA s c < 0x8000 := by
      rw [← exchange_a ha]
      have := hk.lt_of_lt (n := 0) (by omega)
      omega
    rw [settle, (decisionAt_renorm_iff ha).mpr hlt]
    exact renormd_completes_of_refills hr hk (by omega) (hk.le_fifteen (exchange_a ha ▸ exchangedA_pos ha))

/-! ## `MQ.DECODE` -/

theorem exec_mqDecode_ok {c : Fin 19} {s u : State} (hq : s.status.mqrdy = true)
    (h : settle c s (exchange c s) = .ok () u) :
    exec (.mqDecode (BitVec.ofNat 8 c.val)) s = .next (complete (storeDecision (decisionAt s c).d u)) := by
  have hd : decodeBit c s = .ok (decisionAt s c).d (storeDecision (decisionAt s c).d u) := by
    rw [decodeBit_eq_settle, eng_bind_ok h]
    rfl
  rw [exec_mqDecode_ready c hq, hd]

theorem exec_mqDecode_error {c : Fin 19} {s u : State} {e : Stop} (hq : s.status.mqrdy = true)
    (h : settle c s (exchange c s) = .error e u) :
    exec (.mqDecode (BitVec.ofNat 8 c.val)) s =
      match e with
      | .raise k info => .next (takeError true k info u)
      | .fault f => .fault f := by
  have hd : decodeBit c s = .error e u := by rw [decodeBit_eq_settle, eng_bind_error h]
  rw [exec_mqDecode_ready c hq, hd]
  cases e <;> rfl

theorem DecoderOnly.completed {s t : State} (h : DecoderOnly s t) : Completed s (complete t) :=
  ⟨congrArg StatusFlags.completed h.status, h.errinfo⟩

/-- At an end-of-stream mark a decision leaves the pointer (R132). -/
theorem keepsPointer_decodeBit {bs : Memory Byte} {len bp : Word} {b1 : Byte}
    (hff : Memory.read bs bp.toNat = some 0xFF) (hb1 : Memory.read bs (bp.toNat + 1) = some b1)
    (hmark : 0x8F < b1.toNat) (c : Fin 19) :
    Keeps (fun t => t.bs = bs ∧ t.lat.len = len ∧ t.mq.bp = bp) (decodeBit c) := by
  have hbyte : Keeps (fun t : State => t.bs = bs ∧ t.lat.len = len ∧ t.mq.bp = bp) byteIn := by
    rintro s ⟨rfl, rfl, rfl⟩
    cases h : byteIn s with
    | error e t => rw [byteIn_eq_error h]; exact ⟨rfl, rfl, rfl⟩
    | ok a t =>
      obtain ⟨b, b1', -, hb, hb1', rfl⟩ := byteIn_eq_ok h
      obtain rfl : b = 0xFF := Option.some.inj (hb.symm.trans hff)
      obtain rfl : b1' = b1 := Option.some.inj (hb1'.symm.trans hb1)
      exact ⟨rfl, rfl, (enterByte_bp _ _ _).trans (if_pos ⟨rfl, hmark⟩)⟩
  exact keeps_decodeBit (fun _ _ _ h => h) (keeps_renormd hbyte (fun _ h _ => h) maxShifts) (fun _ _ h => h) c

/-- Settles O32: the mark feeds every refill, and a refill at the mark leaves the pointer. -/
theorem endOfStreamMarkHoldsThePointer : Obligations.EndOfStreamMarkHoldsThePointer := by
  intro s c b1 hq ha hlen hff hb1 hmark
  have hahead : MarkAhead s.bs s.lat.len.toNat s.mq.bp.toNat :=
    ⟨_, Nat.le_refl _, hlen, hff, ⟨b1, hb1, hmark⟩, fun k hlo hhi => by
      rw [Nat.le_antisymm hhi hlo, Memory.has, hff]
      rfl⟩
  obtain ⟨t, ht, -, hframe, -, -⟩ := decodeBit_completes c (s := s) ⟨hq, ha, hahead⟩
  have hbp := keepsPointer_decodeBit (len := s.lat.len) hff hb1 hmark c s ⟨rfl, rfl, rfl⟩
  rw [ht] at hbp
  exact ⟨complete t, by rw [exec_mqDecode_ready c hq, ht], hframe.completed, hbp.2.2⟩

end Sys2Proof.Machine
end

section
/-! What a decision that completes leaves (R124, R126 to R130). -/

namespace Sys2Proof.Machine

/-! ## The decision and its context entry -/

/-- A decision that does not renormalise is the more probable symbol, and leaves its entry (R127). -/
theorem decisionAt_stays {c : Fin 19} {s : State} (ha : 0x8000 ≤ s.mq.a.toNat) (hl : ¬ lowerHalf s c)
    (hrest : 0x8000 ≤ s.mq.a.toNat - (qeRow (ctxAt s c).idx).qe.toNat) :
    (decisionAt s c).d = (ctxAt s c).mps ∧ (decisionAt s c).entry = ctxAt s c := by
  rw [decisionAt_eq c ha]
  dsimp only
  rw [if_neg hl, if_pos hrest]
  exact ⟨rfl, rfl⟩

/-- The more probable symbol, with a renormalisation (R128). -/
theorem decisionAt_mps {c : Fin 19} {s : State} (ha : 0x8000 ≤ s.mq.a.toNat)
    (h : lowerHalf s c ∧ s.mq.a.toNat - (qeRow (ctxAt s c).idx).qe.toNat < (qeRow (ctxAt s c).idx).qe.toNat ∨
      ¬ lowerHalf s c ∧ s.mq.a.toNat - (qeRow (ctxAt s c).idx).qe.toNat < 0x8000 ∧
        (qeRow (ctxAt s c).idx).qe.toNat ≤ s.mq.a.toNat - (qeRow (ctxAt s c).idx).qe.toNat) :
    (decisionAt s c).d = (ctxAt s c).mps ∧ (decisionAt s c).entry = mpsEntry (ctxAt s c) := by
  rw [decisionAt_eq c ha]
  dsimp only
  rcases h with ⟨hl, hlt⟩ | ⟨hl, hlt, hge⟩
  · rw [if_pos hl, if_pos hlt]
    exact ⟨rfl, rfl⟩
  · rw [if_neg hl, if_neg (Nat.not_le.mpr hlt), if_neg (Nat.not_lt.mpr hge)]
    exact ⟨rfl, rfl⟩

/-- The less probable symbol (R128). -/
theorem decisionAt_lps {c : Fin 19} {s : State} (ha : 0x8000 ≤ s.mq.a.toNat)
    (h : lowerHalf s c ∧ (qeRow (ctxAt s c).idx).qe.toNat ≤ s.mq.a.toNat - (qeRow (ctxAt s c).idx).qe.toNat ∨
      ¬ lowerHalf s c ∧ s.mq.a.toNat - (qeRow (ctxAt s c).idx).qe.toNat < 0x8000 ∧
        s.mq.a.toNat - (qeRow (ctxAt s c).idx).qe.toNat < (qeRow (ctxAt s c).idx).qe.toNat) :
    (decisionAt s c).d = !(ctxAt s c).mps ∧ (decisionAt s c).entry = lpsEntry (ctxAt s c) := by
  rw [decisionAt_eq c ha]
  dsimp only
  rcases h with ⟨hl, hge⟩ | ⟨hl, hlt, hlt'⟩
  · rw [if_pos hl, if_neg (Nat.not_lt.mpr hge)]
    exact ⟨rfl, rfl⟩
  · rw [if_neg hl, if_neg (Nat.not_le.mpr hlt), if_pos hlt']
    exact ⟨rfl, rfl⟩

/-! ## Its renormalisation -/

theorem LeastShift.unique {a j k : Nat} (hj : LeastShift a j) (hk : LeastShift a k) : j = k :=
  Nat.le_antisymm (hj.le hk.1) (hk.le hj.1)

/-- The premises under which `MQ.DECODE` completes are refills that suffice after the exchange. -/
theorem refillsSuffice_exchange {c : Fin 19} {s : State} (ha : 0x8000 ≤ s.mq.a.toNat)
    (h : MarkAhead s.bs s.lat.len.toNat s.mq.bp.toNat ∨ TwoBytesAhead s.bs s.lat.len.toNat s.mq.bp.toNat ∨
      (s.mq.bp.toNat + 1 < s.lat.len.toNat ∧ Memory.has s.bs s.mq.bp.toNat = true ∧
        Memory.has s.bs (s.mq.bp.toNat + 1) = true ∧ 0x8000 ≤ exchangedA s c * 2 ^ (s.mq.ct.toNat + 7)) ∨
      0x8000 ≤ exchangedA s c * 2 ^ s.mq.ct.toNat) : RefillsSuffice 2 (exchange c s) := by
  have hpos : 1 ≤ (exchange c s).mq.a.toNat := exchange_a (c := c) ha ▸ exchangedA_pos ha
  rw [← exchange_a ha] at h
  rcases h with h | h | ⟨hlen, hb, hb1, h⟩ | h
  · exact refillsSuffice_of_mark hpos h
  · exact refillsSuffice_of_two_bytes hpos h
  · exact (refillsSuffice_of_one_byte (s := exchange c s) hlen hb hb1 h).succ
  · exact .inl h

section
variable {c : Fin 19} {s u : State} {k : Nat} (ha : 0x8000 ≤ s.mq.a.toNat) (hu : settle c s (exchange c s) = .ok () u)
  (hk : LeastShift (exchangedA s c) k)
include ha hu hk

/-- The registers after a renormalisation that needs no byte. -/
theorem settled_no_byte (hct : k ≤ s.mq.ct.toNat) :
    u.mq.c = exchangedC s c <<< k ∧ u.mq.ct.toNat = s.mq.ct.toNat - k ∧ u.mq.bp = s.mq.bp := by
  obtain rfl : u = shiftBy k (exchange c s) := (EStateM.Result.ok.inj (hu.symm.trans (settle_shifts ha hk hct))).2
  refine ⟨?_, shiftBy_ct hct, shiftBy_bp k _⟩
  rw [shiftBy_c, exchange_c ha]

/-- The registers after a renormalisation that one byte is enough for, where `BYTEIN` adds `x` to `C`, sets `CT` to `n`
and the pointer to `after`. -/
theorem settled_one_byte {b b1 : Byte} (hct : s.mq.ct.toNat < k) (hlen : s.mq.bp.toNat + 1 < s.lat.len.toNat)
    (hb : Memory.read s.bs s.mq.bp.toNat = some b) (hb1 : Memory.read s.bs (s.mq.bp.toNat + 1) = some b1)
    {x after : Word} {n : Nat} (henter : ∀ m : MqRegs, (enterByte b b1 m).c = m.c + x ∧
      (enterByte b b1 m).ct.toNat = n ∧ (m.bp = s.mq.bp → (enterByte b b1 m).bp = after)) (hn : k ≤ s.mq.ct.toNat + n) :
    u.mq.c = (exchangedC s c <<< s.mq.ct.toNat + x) <<< (k - s.mq.ct.toNat) ∧
      u.mq.ct.toNat = s.mq.ct.toNat + n - k ∧ u.mq.bp = after := by
  obtain ⟨hc, hn', hafter⟩ := henter (atRefill (exchange c s)).mq
  have hle : k - s.mq.ct.toNat ≤ (enterByte b b1 (atRefill (exchange c s)).mq).ct.toNat := by omega
  obtain rfl := (EStateM.Result.ok.inj (hu.symm.trans (settle_one_refill ha hk hct hlen hb hb1 hle))).2
  have hcA : (atRefill (exchange c s)).mq.c = exchangedC s c <<< s.mq.ct.toNat :=
    (shiftBy_c _ _).trans (by rw [exchange_c ha, exchange_ct])
  refine ⟨?_, ?_, ?_⟩
  · rw [shiftBy_c, setMq_mq, hc, hcA]
  · rw [shiftBy_ct hle, setMq_mq, hn']
    omega
  · rw [shiftBy_bp, setMq_mq]
    exact hafter (atRefill_bp _)

end

/-- Settles O31: the exchange decides; the renormalisation completes where its refills suffice, with the least number of
shifts, and its first byte enters after `CT` of them. -/
theorem mqDecodeMakesOneDecision : Obligations.MqDecodeMakesOneDecision := by
  intro s c e row lower rest ct bp hq ha hfed
  obtain ⟨k0, hk0⟩ := exists_leastShift (exchangedA_pos (c := c) ha)
  obtain ⟨u, hu, hbp, hA⟩ := settle_completes ha (refillsSuffice_exchange ha hfed) hk0
  have hx : Exchanged c s u := by
    have := settle_exchanged c s
    rwa [hu] at this
  have hkept : DecoderSideKept s u := hx.frame.kept
  refine ⟨complete (storeDecision (decisionAt s c).d u), exec_mqDecode_ok hq hu,
    (hx.frame.trans (.setMq _ u)).completed, ⟨⟨hkept.host.par, hkept.host.cap, hkept.host.pending, hkept.host.hostData⟩,
      hkept.bs, hkept.samp, hkept.free⟩, hx.frame.lat, hx.frame.coef, hx.frame.flag, hx.frame.passDone,
    hk0.1.trans_eq hA.symm, hbp, fun k hk => hx.ctx_other hk, fun hl hrest => ?_, fun h => ?_, fun h => ?_,
    fun k hle hleast => ?_⟩
  · obtain ⟨hd, hentry⟩ := decisionAt_stays ha hl hrest
    have hex : exchangedA s c = rest := if_neg hl
    have hexC : exchangedC s c = s.mq.c - (row.qe.setWidth 32 <<< 16) := if_neg hl
    have hk : LeastShift (exchangedA s c) 0 := ⟨hex ▸ hrest.trans_eq (Nat.mul_one _).symm, .inl rfl⟩
    obtain rfl := hk0.unique hk
    obtain rfl : u = exchange c s := (EStateM.Result.ok.inj (hu.symm.trans (settle_shifts ha hk (Nat.zero_le _)))).2
    exact ⟨hd, hx.ctx_same.trans hentry, (exchange_a ha).trans hex, (exchange_c ha).trans hexC, rfl, rfl⟩
  · obtain ⟨hd, hentry⟩ := decisionAt_mps ha h
    exact ⟨hd, hx.ctx_same.trans hentry⟩
  · obtain ⟨hd, hentry⟩ := decisionAt_lps ha h
    exact ⟨hd, hx.ctx_same.trans hentry⟩
  · have hk : LeastShift (exchangedA s c) k := ⟨hle, hleast⟩
    refine ⟨hk0.unique hk ▸ hA, settled_no_byte (u := u) ha hu hk, fun b b1 hct hlen hb hb1 => ?_⟩
    refine ⟨?_, ?_, ?_⟩
    · rintro rfl hmark
      exact settled_one_byte (u := u) ha hu hk hct hlen hb hb1 fun m => by
        rw [enterByte_mark hmark]; exact ⟨rfl, rfl, id⟩
    · rintro rfl hstuffed
      exact settled_one_byte (u := u) ha hu hk hct hlen hb hb1 fun m => by
        rw [enterByte_stuffed hstuffed]; exact ⟨rfl, rfl, congrArg (· + 1)⟩
    · intro hff
      exact settled_one_byte (u := u) ha hu hk hct hlen hb hb1 fun m => by
        rw [enterByte_ordinary hff]; exact ⟨rfl, rfl, congrArg (· + 1)⟩

end Sys2Proof.Machine
end

section
/-! A decision, or an initialisation, that needs a byte past the declared length (R123, R276). -/

namespace Sys2Proof.Machine

/-! ## Where a refill raises -/

/-- The guarded read raises `CorruptBitstream` with the index, which is not below `L` (R123). -/
theorem bsRead_eq_raise {s t : State} {i : Nat} {k : ErrKind} {info : Word}
    (h : bsRead i s = .error (.raise k info) t) :
    k = .corruptBitstream ∧ info = BitVec.ofNat 32 i ∧ s.lat.len.toNat ≤ i := by
  by_cases hi : i < s.lat.len.toNat
  · cases hr : Memory.read s.bs i with
    | some b => rw [bsRead_ok hi hr] at h; cases h
    | none => rw [bsRead_unwritten hi hr] at h; cases h
  · rw [bsRead_past (Nat.not_lt.mp hi)] at h
    cases h
    exact ⟨rfl, rfl, Nat.not_lt.mp hi⟩

/-- A refill raises on the byte at the pointer or on the one after it (R124). -/
theorem byteIn_eq_raise {s t : State} {k : ErrKind} {info : Word} (h : byteIn s = .error (.raise k info) t) :
    k = .corruptBitstream ∧ (info = s.mq.bp ∨ info.toNat = s.mq.bp.toNat + 1) ∧ s.lat.len.toNat ≤ info.toNat := by
  rw [byteIn, eng_bind_ok (eng_get s)] at h
  rcases eng_bind_eq_error.mp h with h | ⟨b, u, hb, h⟩
  · obtain ⟨hk, rfl, hpast⟩ := bsRead_eq_raise h
    rw [BitVec.ofNat_toNat, BitVec.setWidth_eq]
    exact ⟨hk, .inl rfl, hpast⟩
  · obtain ⟨rfl, hlt, -⟩ := bsRead_eq_ok hb
    rcases eng_bind_eq_error.mp h with h | ⟨b1, v, -, h⟩
    · obtain ⟨hk, rfl, hpast⟩ := bsRead_eq_raise h
      have hlen := u.lat.len.isLt
      have hidx : (BitVec.ofNat 32 (u.mq.bp.toNat + 1)).toNat = u.mq.bp.toNat + 1 := by
        rw [BitVec.toNat_ofNat, Nat.mod_eq_of_lt (by omega)]
      exact ⟨hk, .inr hidx, hidx.symm ▸ hpast⟩
    · cases h

/-- A renormalisation that raises does so at a refill: no shift is left, and nothing is written after it (R126). -/
theorem renormd_eq_raise {n : Nat} {s t : State} {k : ErrKind} {info : Word}
    (h : renormd n s = .error (.raise k info) t) : t.mq.ct = 0 ∧ byteIn t = .error (.raise k info) t := by
  induction n generalizing s with
  | zero => cases h
  | succ n ih =>
    by_cases hct : s.mq.ct = 0
    · rw [renormd_refill_first hct] at h
      rcases eng_bind_eq_error.mp h with h | ⟨_, u, hu, h⟩
      · obtain rfl := byteIn_eq_error h
        exact ⟨hct, h⟩
      · have hne : u.mq.ct ≠ 0 := onlyIf_byteIn_ct_ne_zero (s := s) (by rw [decide_eq_true hct]; exact hu)
        rw [renormd_shift hne] at h
        cases hm : (shiftBy 1 u).mq.a.msb with
        | true => rw [hm] at h; cases h
        | false => rw [hm] at h; exact ih h
    · rw [renormd_shift hct] at h
      cases hm : (shiftBy 1 s).mq.a.msb with
      | true => rw [hm] at h; cases h
      | false => rw [hm] at h; exact ih h

theorem settle_eq_raise {c : Fin 19} {s u : State} {k : ErrKind} {info : Word}
    (h : settle c s (exchange c s) = .error (.raise k info) u) : u.mq.ct = 0 ∧ byteIn u = .error (.raise k info) u := by
  rw [settle] at h
  cases hr : (decisionAt s c).renorm with
  | false => rw [hr] at h; cases h
  | true => rw [hr] at h; exact renormd_eq_raise h

/-! ## What a decision that raises leaves -/

/-- An error writes `STATUS` and `ERRINFO` only. -/
theorem DecoderSideKept.takeError {s t : State} (h : DecoderSideKept s t) (closes : Bool) (k : ErrKind) (info : Word) :
    DecoderSideKept s (takeError closes k info t) :=
  h.trans ⟨⟨rfl, rfl, rfl, rfl⟩, rfl, rfl, rfl⟩

theorem takeError_corrupt_status (info : Word) (s : State) :
    (takeError true .corruptBitstream info s).status = ⟨false, false, true, false, false, 4⟩ :=
  raised_closing s.status .corruptBitstream

/-- The entry that a decision with a renormalisation leaves (R128). -/
theorem decisionAt_entry_moved {c : Fin 19} {s : State} (ha : 0x8000 ≤ s.mq.a.toNat) (hdue : RefillDue s c) :
    (decisionAt s c).entry = movedEntry s c := by
  have hlt : exchangedA s c < 0x8000 := by
    have := mul_two_pow_mono (exchangedA s c) (Nat.zero_le s.mq.ct.toNat)
    omega
  rw [movedEntry]
  by_cases hl : lowerHalf s c
  · by_cases hrest : s.mq.a.toNat - (qeRow (ctxAt s c).idx).qe.toNat < (qeRow (ctxAt s c).idx).qe.toNat
    · rw [if_pos (iff_of_true hl hrest), (decisionAt_mps ha (.inl ⟨hl, hrest⟩)).2, mpsEntry]
    · rw [if_neg fun h => hrest (h.mp hl), (decisionAt_lps ha (.inl ⟨hl, Nat.not_lt.mp hrest⟩)).2, lpsEntry]
  · rw [exchangedA] at hlt
    rw [if_neg hl] at hlt
    by_cases hrest : s.mq.a.toNat - (qeRow (ctxAt s c).idx).qe.toNat < (qeRow (ctxAt s c).idx).qe.toNat
    · rw [if_neg fun h => hl (h.mpr hrest), (decisionAt_lps ha (.inr ⟨hl, hlt, hrest⟩)).2, lpsEntry]
    · rw [if_pos (iff_of_false hl hrest), (decisionAt_mps ha (.inr ⟨hl, hlt, Nat.not_lt.mp hrest⟩)).2, mpsEntry]

/-- The registers where a decision enters its first byte: after the exchange and `CT` shifts. -/
theorem atRefill_exchange {c : Fin 19} {s : State} (ha : 0x8000 ≤ s.mq.a.toNat) (hdue : RefillDue s c) :
    (atRefill (exchange c s)).mq.a.toNat = exchangedA s c * 2 ^ s.mq.ct.toNat ∧
      (atRefill (exchange c s)).mq.c = exchangedC s c <<< s.mq.ct.toNat := by
  constructor
  · rw [RefillDue, ← exchange_a ha] at hdue
    rw [← exchange_a ha]
    exact shiftBy_a (k := s.mq.ct.toNat) (by omega)
  · exact (shiftBy_c _ _).trans (by rw [exchange_c ha, exchange_ct])

/-- The first refill of a decision, with the byte at the pointer or the one after it past the end. -/
theorem byteIn_atRefill_past {s : State} {idx : Word}
    (h : s.lat.len.toNat ≤ s.mq.bp.toNat ∧ idx = s.mq.bp ∨
      s.mq.bp.toNat < s.lat.len.toNat ∧ s.lat.len.toNat ≤ s.mq.bp.toNat + 1 ∧
        Memory.has s.bs s.mq.bp.toNat = true ∧ idx = s.mq.bp + 1) :
    byteIn (atRefill s) = .error (.raise .corruptBitstream idx) (atRefill s) := by
  rw [← atRefill_bp s] at h
  rcases h with ⟨hpast, rfl⟩ | ⟨hlt, hpast, hb, rfl⟩
  · exact byteIn_past hpast
  · obtain ⟨b, hb⟩ := Option.isSome_iff_exists.mp hb
    exact byteIn_next_past hlt hb hpast

/-- A decision that raises with the pointer unmoved raises at its first refill: one that completes without moving the
pointer would complete again. -/
theorem settle_eq_raise_first {c : Fin 19} {s u : State} {k : ErrKind} {info : Word} (ha : 0x8000 ≤ s.mq.a.toNat)
    (h : settle c s (exchange c s) = .error (.raise k info) u) (hbp : u.mq.bp = s.mq.bp) :
    RefillDue s c ∧ u = atRefill (exchange c s) := by
  have hdue : RefillDue s c := by
    obtain ⟨j, hj⟩ := exists_leastShift (exchangedA_pos (c := c) ha)
    refine hj.lt_of_lt (Nat.lt_of_not_le fun hct => ?_)
    rw [settle_shifts ha hj hct] at h
    cases h
  have hframe : DecoderOnly s u := by
    have := (settle_exchanged c s).frame
    rwa [h] at this
  obtain ⟨-, hraise⟩ := settle_eq_raise h
  rw [settle_due ha hdue] at h
  rcases eng_bind_eq_error.mp h with h | ⟨_, w, hw, -⟩
  · exact ⟨hdue, byteIn_eq_error h⟩
  · obtain ⟨b, b1, hlen, hb, hb1, -⟩ := byteIn_eq_ok hw
    rw [atRefill_bp, exchange_bp, ← hbp] at hlen hb hb1
    rw [byteIn_ok (s := u) (by rw [hframe.lat]; exact hlen) (by rw [hframe.kept.bs]; exact hb)
      (by rw [hframe.kept.bs]; exact hb1)] at hraise
    cases hraise

/-! ## `T1.DECODE` with fewer than two bytes -/

/-- The initialisation raises with the length as the byte index, `A`, `CT` and `D` kept (R125, R276). -/
theorem initDecoder_short {s : State} (h : s.lat.len = 0 ∨ s.lat.len = 1 ∧ Memory.has s.bs 0 = true) :
    ∃ m : MqRegs, initDecoder s = .error (.raise .corruptBitstream s.lat.len) (setMq m s) ∧ m.bp = 0 ∧ m.a = s.mq.a ∧
      m.ct = s.mq.ct ∧ m.d = s.mq.d := by
  rcases h with h | ⟨h, hb⟩
  · exact ⟨{ s.mq with bp := 0 }, h ▸ initDecoder_no_byte h, rfl, rfl, rfl, rfl⟩
  · obtain ⟨b0, h0⟩ := Option.isSome_iff_exists.mp hb
    refine ⟨firstByteRegs b0 s.mq, h ▸ initDecoder_one_byte h h0, ?_⟩
    rw [firstByteRegs]
    exact ⟨rfl, rfl, rfl, rfl⟩

/-- `T1.DECODE` after its checks: it initialises the decoder from a state with the new length latched (R162). -/
theorem t1DecodeBody_raise {s : State} (hf : firstFailure (decodeChecks s.cap s.par) = none)
    (hn : 0 < s.par.cbNpass.toNat) :
    ∃ v : State, DecoderSideKept s v ∧ v.mq = s.mq ∧ v.lat.len = s.par.cbLen ∧ v.passDone = 0 ∧
      ∀ e t, initDecoder v = .error e t → t1DecodeBody s = .error e t := by
  obtain ⟨w, hok, hframe, -, -⟩ := clearGrid_ok (s.par.cbW.toNat * s.par.cbH.toNat)
    (setPassDone 0 (setLatches { (latchGeometry (setSession false false s)).lat with len := s.par.cbLen }
      (latchGeometry (setSession false false s))))
  refine ⟨resetContexts w, ?_, ?_, ?_, ?_, fun e t he => ?_⟩
  · rw [hframe]
    exact ⟨⟨rfl, rfl, rfl, rfl⟩, rfl, rfl, rfl⟩
  · rw [hframe]; rfl
  · rw [hframe]; rfl
  · rw [hframe]; rfl
  · rw [t1DecodeBody, eng_bind_ok (eng_get s), eng_bind_ok (requireGeometry_ok hf s), eng_bind_ok (eng_modify _ _),
      eng_bind_ok (eng_modify _ _), eng_bind_ok (eng_modify _ _), eng_bind_ok (eng_modify _ _)]
    refine (eng_bind_ok hok).trans ((eng_bind_ok (eng_modify _ _)).trans (eng_bind_error ?_))
    rw [decide_eq_true hn, onlyIf_true, decodePasses]
    exact eng_bind_error he

/-! ## Past the end -/

/-- A decision due for a byte past the end. -/
theorem exec_mqDecode_past_end {s : State} {c : Fin 19} {idx : Word} (hq : s.status.mqrdy = true)
    (ha : 0x8000 ≤ s.mq.a.toNat) (hdue : RefillDue s c)
    (hbyte : byteIn (atRefill (exchange c s)) = .error (.raise .corruptBitstream idx) (atRefill (exchange c s))) :
    exec (.mqDecode (BitVec.ofNat 8 c.val)) s =
        .next (takeError true .corruptBitstream idx (atRefill (exchange c s))) ∧
      Exchanged c s (atRefill (exchange c s)) := by
  have hs : settle c s (exchange c s) = .error (.raise .corruptBitstream idx) (atRefill (exchange c s)) := by
    rw [settle_due ha hdue, eng_bind_error hbyte]
  have hx := settle_exchanged c s
  rw [hs] at hx
  exact ⟨exec_mqDecode_error hq hs, hx⟩

theorem exec_t1Decode_short {s : State} (hf : firstFailure (decodeChecks s.cap s.par) = none)
    (hn : 0 < s.par.cbNpass.toNat) (h : s.par.cbLen = 0 ∨ s.par.cbLen = 1 ∧ Memory.has s.bs 0 = true) :
    ∃ t, exec .t1Decode s = .next t ∧ t.status = ⟨false, false, true, false, false, 4⟩ ∧ t.errinfo = s.par.cbLen ∧
      t.passDone = 0 ∧ t.mq.bp = 0 ∧ t.mq.a = s.mq.a ∧ t.mq.ct = s.mq.ct ∧ t.mq.d = s.mq.d ∧ DecoderSideKept s t := by
  obtain ⟨v, hv, hmq, hlen, hpass, hbody⟩ := t1DecodeBody_raise hf hn
  rw [← hlen, ← hv.bs] at h
  obtain ⟨m, hinit, hbp, hma, hmct, hmd⟩ := initDecoder_short h
  rw [hmq] at hma hmct hmd
  refine ⟨_, runCommand_raise (hbody _ _ hinit), takeError_corrupt_status _ _, hlen, hpass, hbp, hma, hmct, hmd, ?_⟩
  exact DecoderSideKept.takeError (hv.trans (DecoderOnly.setMq m v).kept) _ _ _

/-- `MQ.DECODE` that ends in an error raised it in its renormalisation. -/
theorem exec_mqDecode_raised {s t : State} {c : Fin 19} (herr : s.status.err = false) (hq : s.status.mqrdy = true)
    (h : exec (.mqDecode (BitVec.ofNat 8 c.val)) s = .next t) (ht : t.status.err = true) :
    ∃ k info u, settle c s (exchange c s) = .error (.raise k info) u ∧ t = takeError true k info u ∧
      Exchanged c s u := by
  have hx := settle_exchanged c s
  cases hs : settle c s (exchange c s) with
  | ok a u =>
    rw [hs] at hx
    rw [exec_mqDecode_ok hq hs] at h
    cases h
    have hkept : u.status.err = s.status.err := congrArg StatusFlags.err hx.frame.status
    exact absurd ((hkept.trans herr).symm.trans ht) Bool.false_ne_true
  | error e u =>
    rw [hs] at hx
    rw [exec_mqDecode_error hq hs] at h
    cases e with
    | fault f => cases h
    | raise k info =>
      cases h
      exact ⟨k, info, u, rfl, rfl, hx⟩

/-- Settles O33: the first refill raises where its bytes are past the end, and whatever refill raises, nothing is
written after it. -/
theorem decodePastTheEndIsPrecise : Obligations.DecodePastTheEndIsPrecise := by
  refine ⟨fun s c idx hq ha hdue hpast => ?_, fun s => exec_t1Decode_short, fun s t c herr hq h ht => ?_⟩
  · obtain ⟨hexec, hx⟩ := exec_mqDecode_past_end hq ha hdue (byteIn_atRefill_past (s := exchange c s) hpast)
    obtain ⟨hA, hC⟩ := atRefill_exchange ha hdue
    exact ⟨_, hexec, takeError_corrupt_status _ _, rfl, hx.frame.kept.takeError _ _ _, hA, hC, atRefill_ct _,
      atRefill_bp _, hx.d, hx.frame.lat, hx.frame.coef, hx.frame.flag, hx.frame.passDone,
      hx.ctx_same.trans (decisionAt_entry_moved ha hdue), fun k hk => hx.ctx_other hk⟩
  · obtain ⟨k, info, u, hs, rfl, hx⟩ := exec_mqDecode_raised herr hq h ht
    obtain ⟨hct, hraise⟩ := settle_eq_raise hs
    obtain ⟨rfl, hidx, hpast⟩ := byteIn_eq_raise hraise
    refine ⟨congrArg StatusFlags.errcode (takeError_corrupt_status info u), hidx, hx.frame.lat ▸ hpast, hct, hx.d,
      hx.frame.lat, hx.frame.coef, hx.frame.flag, hx.frame.passDone, hx.ctx_same, fun k hk => hx.ctx_other hk,
      fun ha hbp => ?_⟩
    obtain ⟨hdue, rfl⟩ := settle_eq_raise_first ha hs hbp
    exact atRefill_exchange ha hdue

end Sys2Proof.Machine
end

section
/-! The check tables of `T1.START` and `T1.DECODE` (R150), and the order of the scan (R151). -/

namespace Sys2Proof.Machine

/-! ## The scan -/

/-- The order of the scan (R151): by stripe of four rows, then by column, then by row. -/
def ScanBefore (p q : Nat × Nat) : Prop :=
  p.1 / 4 < q.1 / 4 ∨ (p.1 / 4 = q.1 / 4 ∧ (p.2 < q.2 ∨ (p.2 = q.2 ∧ p.1 < q.1)))

/-- A stripe begins at a multiple of four rows. -/
theorem stripeColumns_aligned {w h : Nat} {p : Nat × Nat} (hp : p ∈ stripeColumns w h) : p.1 % 4 = 0 := by
  simp only [stripeColumns, List.mem_flatMap, List.mem_map] at hp
  obtain ⟨k, -, x, -, rfl⟩ := hp
  exact Nat.mul_mod_right 4 k

/-- A row of a stripe that begins at a multiple of four. -/
theorem stripeRows_div {h y0 y : Nat} (h0 : y0 % 4 = 0) (hy : y ∈ stripeRows h y0) : y / 4 = y0 / 4 := by
  obtain ⟨hle, hlt, -⟩ := mem_stripeRows.mp hy
  omega

theorem stripeRows_ordered (h y0 : Nat) : (stripeRows h y0).Pairwise (· < ·) :=
  List.pairwise_map.mpr (List.pairwise_lt_range.imp fun hlt => Nat.add_lt_add_left hlt y0)

theorem stripeColumns_ordered (w h : Nat) :
    (stripeColumns w h).Pairwise fun p q => p.1 / 4 < q.1 / 4 ∨ p.1 / 4 = q.1 / 4 ∧ p.2 < q.2 := by
  refine List.pairwise_flatMap.mpr ⟨fun k _ => ?_, List.pairwise_lt_range.imp fun {j k} hlt => ?_⟩
  · exact List.pairwise_map.mpr (List.pairwise_lt_range.imp fun hlt => .inr ⟨rfl, hlt⟩)
  · simp only [List.mem_map]
    rintro p ⟨x, -, rfl⟩ q ⟨x', -, rfl⟩
    exact .inl (by dsimp only; omega)

theorem scanOrder_ordered (w h : Nat) : (scanOrder w h).Pairwise ScanBefore := by
  refine List.pairwise_flatMap.mpr ⟨fun c _ => ?_, ?_⟩
  · refine List.pairwise_map.mpr ((stripeRows_ordered h c.1).imp_of_mem fun {y z} _ _ hlt => ?_)
    exact (Nat.lt_or_eq_of_le (Nat.div_le_div_right hlt.le)).imp_right fun he => ⟨he, .inr ⟨rfl, hlt⟩⟩
  · refine (stripeColumns_ordered w h).imp_of_mem fun {c d} hc hd hcd => ?_
    simp only [List.mem_map]
    rintro p ⟨y, hy, rfl⟩ q ⟨z, hz, rfl⟩
    have hyc := stripeRows_div (stripeColumns_aligned hc) hy
    have hzd := stripeRows_div (stripeColumns_aligned hd) hz
    rw [ScanBefore, hyc, hzd]
    exact hcd.imp_right fun he => ⟨he.1, .inl he.2⟩

/-- Settles O34: the points of the scan are those of the block, and the order of the scan, being strict, lists none
twice. -/
theorem scanVisitsEveryCoefficientInOrder : Obligations.ScanVisitsEveryCoefficientInOrder :=
  fun w h => ⟨fun _ _ => mem_scanOrder, scanOrder_ordered w h⟩

/-! ## Check tables -/

/-- The offset `ERRINFO` shows when a check of the table fails: that of the first (R272, R273). -/
def failureOffset (l : List Check) : Option Word := (firstFailure l).map fun n => BitVec.ofNat 32 n.offset

theorem failureOffset_nil : failureOffset [] = none := rfl

theorem failureOffset_cons (ok : Bool) (n : ParamName) (r : List Check) :
    failureOffset ((ok, n) :: r) = if ok then failureOffset r else some (BitVec.ofNat 32 n.offset) := by
  cases ok <;> rfl

theorem failureOffset_append (l r : List Check) :
    failureOffset (l ++ r) = (failureOffset l).or (failureOffset r) := by
  induction l with
  | nil => rfl
  | cons c l ih =>
    obtain ⟨ok, n⟩ := c
    rw [List.cons_append, failureOffset_cons, failureOffset_cons, ih]
    cases ok <;> rfl

theorem failureOffset_eq_none {l : List Check} : failureOffset l = none ↔ firstFailure l = none :=
  Option.map_eq_none_iff

theorem requireGeometry_raises {l : List Check} {off : Word} (h : failureOffset l = some off) (s : State) :
    requireGeometry l s = .error (.raise .geometry off) s := by
  obtain ⟨n, hn, rfl⟩ := Option.map_eq_some_iff.mp h
  exact requireGeometry_fails hn s

/-- Checks 1 to 4 of R150. -/
theorem failureOffset_startChecks (p : ParamRegs) :
    failureOffset (startChecks p) =
      if ¬ (1 ≤ p.cbW.toNat ∧ p.cbW.toNat ≤ 1024) then some 0x010
      else if ¬ (1 ≤ p.cbH.toNat ∧ p.cbH.toNat ≤ 1024) then some 0x014
      else if ¬ p.cbW.toNat * p.cbH.toNat ≤ 4096 then some 0x014
      else if ¬ p.cbOrient.toNat ≤ 3 then some 0x018
      else none := by
  simp only [startChecks, blockChecks, List.cons_append, List.nil_append, failureOffset_cons, failureOffset_nil, ite_not,
    Bool.and_eq_true, decide_eq_true_eq]
  rfl

theorem stepExponent_eq (p : ParamRegs) : stepExponent p = p.qStep.toNat / 2048 % 32 := by
  rw [stepExponent, BitVec.extractLsb'_toNat, Nat.shiftRight_eq_div_pow]

/-- Checks 6 to 10 of R150, `mb` the number of magnitude bit-planes. -/
theorem failureOffset_passChecks (p : ParamRegs) {mb : Int} (hmb : planeCount p = mb) :
    failureOffset (passChecks p) =
      if ¬ p.qGuard.toNat ≤ 7 then some 0x030
      else if ¬ p.qStep.toNat ≤ 0xFFFF then some 0x034
      else if ¬ (1 ≤ mb ∧ mb ≤ 31) then some 0x034
      else if ¬ (p.cbZbp.toNat : Int) < mb then some 0x020
      else if ¬ (p.cbNpass.toNat : Int) ≤ 3 * (mb - p.cbZbp.toNat) - 1 then some 0x01C
      else none := by
  simp only [passChecks, failureOffset_cons, failureOffset_nil, ite_not, Bool.and_eq_true, decide_eq_true_eq, hmb]
  rfl

theorem failureOffset_decodeChecks (cap : Capacity) (p : ParamRegs) :
    failureOffset (decodeChecks cap p) =
      (failureOffset (startChecks p)).or
        ((if ¬ p.cbLen.toNat ≤ cap.bsBytes then some 0x024 else none).or
          (if p.cbNpass = 0 then none else failureOffset (passChecks p))) := by
  have hnpass : p.cbNpass.toNat = 0 ↔ p.cbNpass = 0 := ⟨fun h => BitVec.eq_of_toNat_eq h, fun h => by rw [h]; rfl⟩
  have hlen : failureOffset [(decide (p.cbLen.toNat ≤ cap.bsBytes), .cbLen)] =
      if ¬ p.cbLen.toNat ≤ cap.bsBytes then some 0x024 else none := by
    simp only [failureOffset_cons, failureOffset_nil, ite_not, decide_eq_true_eq, ParamName.offset]
    rfl
  rw [decodeChecks, failureOffset_append, failureOffset_append, hlen, Option.or_assoc]
  by_cases h0 : p.cbNpass = 0
  · rw [if_pos (hnpass.mpr h0), if_pos h0, failureOffset_nil]
  · rw [if_neg (hnpass.not.mpr h0), if_neg h0]

theorem exec_t1Start_geometry {s : State} {off : Word} (h : failureOffset (startChecks s.par) = some off) :
    exec .t1Start s = .next (takeError true .geometry off s) := by
  refine runCommand_raise ?_
  rw [t1StartBody, eng_bind_ok (eng_get s), eng_bind_error (requireGeometry_raises h s)]

theorem exec_t1Decode_geometry {s : State} {off : Word} (h : failureOffset (decodeChecks s.cap s.par) = some off) :
    exec .t1Decode s = .next (takeError true .geometry off s) := by
  refine runCommand_raise ?_
  rw [t1DecodeBody, eng_bind_ok (eng_get s), eng_bind_error (requireGeometry_raises h s)]

/-- Settles O16: the tables with the offsets written out are the tables of the model, and both commands make their
checks before anything else. -/
theorem tierOneChecksInOrder : Obligations.TierOneChecksInOrder := by
  intro s p mb start passes whole
  have hmb : planeCount p = mb := by rw [planeCount, stepExponent_eq]; rfl
  have hstart : start = failureOffset (startChecks p) := (failureOffset_startChecks p).symm
  have hpasses : passes = if p.cbNpass = 0 then none else failureOffset (passChecks p) := by
    rw [failureOffset_passChecks p hmb]
  have hwhole : whole = failureOffset (decodeChecks s.cap p) := by
    rw [failureOffset_decodeChecks, ← hstart, ← hpasses]
  rw [hstart, hwhole]
  exact ⟨fun _ => exec_t1Start_geometry, fun _ => exec_t1Decode_geometry, failureOffset_eq_none.mp,
    failureOffset_eq_none.mp⟩

end Sys2Proof.Machine
end

section
/-! Where a code-block begins (R157, R162): the geometry latched, its grid and flags cleared, the contexts initial, no
pass counted and no session open. `T1.START` opens a session there, and `T1.DECODE` decodes from there. -/

namespace Sys2Proof.Machine

variable {α : Type}

/-! ## The cleared grid -/

/-- A loop of changes of the state is a fold. -/
theorem forEach_modify (l : List α) (f : α → State → State) (s : State) :
    forEach l (fun x => modify (f x)) s = .ok () (l.foldl (fun t x => f x t) s) := by
  induction l generalizing s with
  | nil => rfl
  | cons x r ih => rw [forEach_cons, eng_bind_ok (eng_modify _ _), ih, List.foldl_cons]

/-- One coefficient and its flags cleared. -/
def clearCell (i : Nat) (s : State) : State := writeFlag i ⟨false, false, false⟩ (writeCoef i 0 s)

/-- The first `n` coefficients and their flags cleared. -/
def clearedCells (n : Nat) (s : State) : State := (List.range n).foldl (fun t i => clearCell i t) s

theorem clearGrid_eq (n : Nat) (s : State) : clearGrid n s = .ok () (clearedCells n s) :=
  forEach_modify (List.range n) clearCell s

theorem clearedCells_frame (n : Nat) (s : State) :
    clearedCells n s = { s with coef := (clearedCells n s).coef, flag := (clearedCells n s).flag } := by
  obtain ⟨t, hok, hframe, -, -⟩ := clearGrid_ok n s
  cases (clearGrid_eq n s).symm.trans hok
  exact hframe

theorem clearedCells_inside {n i : Nat} (s : State) (hi : i < n) :
    Memory.read (clearedCells n s).coef i = some 0 ∧ flagAt (clearedCells n s) i = ⟨false, false, false⟩ := by
  obtain ⟨t, hok, -, hin, -⟩ := clearGrid_ok n s
  cases (clearGrid_eq n s).symm.trans hok
  exact hin i hi

theorem clearedCells_outside {n i : Nat} (s : State) (hi : n ≤ i) :
    Memory.read (clearedCells n s).coef i = Memory.read s.coef i ∧ flagAt (clearedCells n s) i = flagAt s i := by
  obtain ⟨t, hok, -, -, hout⟩ := clearGrid_ok n s
  cases (clearGrid_eq n s).symm.trans hok
  exact hout i hi

/-- Clearing the grid commutes with a change that clearing one coefficient commutes with. -/
theorem clearedCells_comm {g : State → State} (hg : ∀ i s, clearCell i (g s) = g (clearCell i s)) (n : Nat) (s : State) :
    clearedCells n (g s) = g (clearedCells n s) := by
  rw [clearedCells, clearedCells]
  induction List.range n generalizing s with
  | nil => rfl
  | cons i r ih => rw [List.foldl_cons, List.foldl_cons, hg, ih]

/-! ## The blank block -/

/-- The number of coefficients of a geometry. -/
def Latches.area (l : Latches) : Nat := l.lw.toNat * l.lh.toNat

/-- The state in which the decoding of a code-block begins, with the latches `l`. -/
def blankBlock (l : Latches) (s : State) : State :=
  resetContexts (clearedCells l.area (setPassDone 0 (setLatches l (setSession false false s))))

/-- The geometry the parameter registers give, with a bitstream length (R29). -/
def jobLatches (p : ParamRegs) (len : Word) : Latches := ⟨p.cbW, p.cbH, p.cbOrient.setWidth 2, len⟩

theorem blankBlock_frame (l : Latches) (s : State) :
    blankBlock l s = { s with
      status := { s.status with session := false, mqrdy := false }
      passDone := 0
      cx := initialContexts
      lat := l
      coef := (blankBlock l s).coef
      flag := (blankBlock l s).flag } := by
  conv_lhs => rw [blankBlock, clearedCells_frame]
  rfl

@[simp] theorem blankBlock_status (l : Latches) (s : State) :
    (blankBlock l s).status = { s.status with session := false, mqrdy := false } := by rw [blankBlock_frame]
@[simp] theorem blankBlock_errinfo (l : Latches) (s : State) : (blankBlock l s).errinfo = s.errinfo := by
  rw [blankBlock_frame]
@[simp] theorem blankBlock_passDone (l : Latches) (s : State) : (blankBlock l s).passDone = 0 := by
  rw [blankBlock_frame]
@[simp] theorem blankBlock_mq (l : Latches) (s : State) : (blankBlock l s).mq = s.mq := by rw [blankBlock_frame]
@[simp] theorem blankBlock_cx (l : Latches) (s : State) : (blankBlock l s).cx = initialContexts := by
  rw [blankBlock_frame]
@[simp] theorem blankBlock_lat (l : Latches) (s : State) : (blankBlock l s).lat = l := by rw [blankBlock_frame]

theorem blankBlock_side (l : Latches) (s : State) : DecoderSideKept s (blankBlock l s) := by
  rw [blankBlock_frame]
  exact ⟨⟨rfl, rfl, rfl, rfl⟩, rfl, rfl, rfl⟩

theorem blankBlock_inside {l : Latches} {i : Nat} (s : State) (hi : i < l.area) :
    Memory.read (blankBlock l s).coef i = some 0 ∧ flagAt (blankBlock l s) i = ⟨false, false, false⟩ :=
  clearedCells_inside _ hi

theorem blankBlock_outside {l : Latches} {i : Nat} (s : State) (hi : l.area ≤ i) :
    Memory.read (blankBlock l s).coef i = Memory.read s.coef i ∧ flagAt (blankBlock l s) i = flagAt s i :=
  clearedCells_outside (setPassDone 0 (setLatches l (setSession false false s))) hi

/-- A geometry latched again over the same grid is as if it had been latched first. -/
theorem blankBlock_setLatches {l m : Latches} (hw : m.lw = l.lw) (hh : m.lh = l.lh) (s : State) :
    setLatches l (blankBlock m s) = blankBlock l s := by
  have harea : m.area = l.area := by rw [Latches.area, Latches.area, hw, hh]
  have hcomm := clearedCells_comm (g := setLatches l) (fun _ _ => rfl) l.area
    (setPassDone 0 (setLatches m (setSession false false s)))
  rw [blankBlock, blankBlock, harea]
  exact congrArg resetContexts hcomm.symm

/-! ## The commands that begin a block -/

/-- `T1.START` with legal geometry: the session is open on a blank block, with the length latched before (R157). -/
theorem exec_t1Start_ok {s : State} (h : firstFailure (startChecks s.par) = none) :
    exec .t1Start s =
      .next (complete (setSession true false (blankBlock (jobLatches s.par s.lat.len) s))) := by
  set v := blankBlock (jobLatches s.par s.lat.len) s with hv
  have hbody : t1StartBody s = .ok () (setSession true v.status.mqrdy v) := by
    rw [t1StartBody, eng_bind_ok (eng_get s), eng_bind_ok (requireGeometry_ok h s), eng_bind_ok (eng_modify _ _),
      eng_bind_ok (eng_modify _ _), eng_bind_ok (eng_modify _ _), eng_bind_ok (clearGrid_eq _ _),
      eng_bind_ok (eng_modify _ _)]
    rfl
  have hq : v.status.mqrdy = false := by rw [hv, blankBlock_status]
  rw [hq] at hbody
  exact runCommand_ok hbody

/-- `T1.DECODE` after its checks decodes the passes, if any, from a blank block, and closes the session (R162). -/
theorem t1DecodeBody_eq {s : State} (h : firstFailure (decodeChecks s.cap s.par) = none) :
    t1DecodeBody s = (do
      onlyIf (decide (0 < s.par.cbNpass.toNat)) (decodePasses s.par.cbNpass.toNat s.par.cbZbp.toNat)
      modify (setSession false false) : Eng Unit) (blankBlock (jobLatches s.par s.par.cbLen) s) := by
  rw [t1DecodeBody, eng_bind_ok (eng_get s), eng_bind_ok (requireGeometry_ok h s), eng_bind_ok (eng_modify _ _),
    eng_bind_ok (eng_modify _ _), eng_bind_ok (eng_modify _ _), eng_bind_ok (eng_modify _ _),
    eng_bind_ok (clearGrid_eq _ _), eng_bind_ok (eng_modify _ _)]
  rfl

/-- Check 4 of R150 makes the latched orientation the register's value. -/
theorem orient_latched {p : ParamRegs} (h : firstFailure (startChecks p) = none) :
    (p.cbOrient.setWidth 2).toNat = p.cbOrient.toNat := by
  have hlo : p.cbOrient.toNat ≤ 3 := by
    simpa [firstFailure_none] using (firstFailure_append.mp h).2
  rw [BitVec.toNat_setWidth]
  omega

/-- Settles O35: the session is opened on the blank block. -/
theorem tierOneStartOpensASession : Obligations.TierOneStartOpensASession := by
  intro s h
  set l := jobLatches s.par s.lat.len with hl
  refine ⟨_, exec_t1Start_ok h, ?_, blankBlock_errinfo l s, blankBlock_passDone l s, blankBlock_mq l s,
    (blankBlock_side l s).trans ⟨⟨rfl, rfl, rfl, rfl⟩, rfl, rfl, rfl⟩, congrArg Latches.lw (blankBlock_lat l s),
    congrArg Latches.lh (blankBlock_lat l s), ?_, (congrArg Latches.len (blankBlock_lat l s) :), ?_,
    fun i hi => blankBlock_inside s hi, fun i hi => blankBlock_outside s hi⟩
  · show StatusFlags.completed { (blankBlock l s).status with session := true, mqrdy := false } = _
    rw [blankBlock_status]
    rfl
  · show (blankBlock l s).lat.lo.toNat = _
    rw [blankBlock_lat]
    exact orient_latched h
  · intro c
    show (blankBlock l s).cx.get c = _
    rw [blankBlock_cx, initialContexts_get]

/-- Settles O42: with no pass the blank block is the result. -/
theorem zeroPassesGiveAZeroGrid : Obligations.ZeroPassesGiveAZeroGrid := by
  intro s h hn
  set l := jobLatches s.par s.par.cbLen with hl
  have hbody : t1DecodeBody s = .ok () (setSession false false (blankBlock l s)) := by
    rw [t1DecodeBody_eq h, hn]
    rfl
  refine ⟨_, runCommand_ok hbody, ?_, blankBlock_errinfo l s, blankBlock_passDone l s, blankBlock_mq l s,
    (blankBlock_side l s).trans ⟨⟨rfl, rfl, rfl, rfl⟩, rfl, rfl, rfl⟩, fun i hi => (blankBlock_inside s hi).1,
    fun i hi => (blankBlock_outside s hi).1⟩
  show StatusFlags.completed { (blankBlock l s).status with session := false, mqrdy := false } = _
  rw [blankBlock_status]
  rfl

end Sys2Proof.Machine
end

section
/-! The bit-plane decoder on two states at once: a computation runs in step from states that agree on what it reads, and
ends alike. A pass does so for every relation that the writes of a visit keep (`BlockRel`), and three relations say that
no pass writes below its bit position (R167), that none reads `STATUS`, and that none depends on what was decoded
before (R166). -/

namespace Sys2Proof.Machine

variable {α β : Type}

/-! ## Running in step -/

/-- The two ends are of one kind, with one answer or one reason to stop, and the states are related. -/
inductive SameEnd (Q E : State → State → Prop) : EStateM.Result Stop State α → EStateM.Result Stop State α → Prop
  | ok (a : α) {t u : State} (h : Q t u) : SameEnd Q E (.ok a t) (.ok a u)
  | error (e : Stop) {t u : State} (h : E t u) : SameEnd Q E (.error e t) (.error e u)

/-- From states related by `P` the computation ends alike: completed, in states related by `Q`; stopped, by `E`. -/
def Lockstep (P Q E : State → State → Prop) (m : Eng α) : Prop := ∀ s t, P s t → SameEnd Q E (m s) (m t)

section
variable {P Q R E : State → State → Prop}

theorem SameEnd.mono {Q' E' : State → State → Prop} {r r' : EStateM.Result Stop State α} (h : SameEnd Q E r r')
    (hQ : ∀ s t, Q s t → Q' s t) (hE : ∀ s t, E s t → E' s t) : SameEnd Q' E' r r' := by
  cases h with
  | ok a h => exact .ok a (hQ _ _ h)
  | error e h => exact .error e (hE _ _ h)

theorem lockstep_pure (a : α) : Lockstep P P E (pure a : Eng α) := fun _ _ h => .ok a h

theorem lockstep_modify {f : State → State} (h : ∀ s t, P s t → Q (f s) (f t)) :
    Lockstep P Q E (modify f : Eng PUnit) := fun s t hst => .ok PUnit.unit (h s t hst)

theorem lockstep_bind {m : Eng α} {k : α → Eng β} (hm : Lockstep P Q E m) (hk : ∀ a, Lockstep Q R E (k a)) :
    Lockstep P R E (m >>= k) := by
  intro s t hst
  have h := hm s t hst
  rw [eng_bind, eng_bind]
  generalize m s = r, m t = r' at h
  cases h with
  | ok a h => exact hk a _ _ h
  | error e h => exact .error e h

/-- What follows a read of the state, given that it runs in step on the two states read. -/
theorem lockstep_get_bind {k : State → Eng β} (h : ∀ s t, P s t → SameEnd Q E (k s s) (k t t)) :
    Lockstep P Q E ((get : Eng State) >>= k) := h

theorem lockstep_onlyIf {c : Bool} {m : Eng Unit} (hm : Lockstep P P E m) : Lockstep P P E (onlyIf c m) := by
  cases c
  · exact lockstep_pure ()
  · exact hm

theorem lockstep_ite {c : Prop} [Decidable c] {m n : Eng α} (hm : Lockstep P Q E m) (hn : Lockstep P Q E n) :
    Lockstep P Q E (if c then m else n) := by
  split <;> assumption

theorem lockstep_forEach {l : List α} {body : α → Eng Unit} (h : ∀ x ∈ l, Lockstep P P E (body x)) :
    Lockstep P P E (forEach l body) := by
  induction l with
  | nil => exact lockstep_pure ()
  | cons x r ih => exact lockstep_bind (h x (by simp)) fun _ => ih fun y hy => h y (by simp [hy])

end

/-! ## Relations that the writes of a visit keep -/

/-- The computation ends alike from states related by `R`, and they stay related. -/
abbrev InStep (R : State → State → Prop) (m : Eng α) : Prop := Lockstep R R R m

/-- Related states have the geometry `l`, agree on the block's words and flags, and stay related when a visit in a pass
on bit position `b` makes the same decision or the same write on both. -/
structure BlockRel (l : Latches) (b : Nat) (R : State → State → Prop) : Prop where
  left   : ∀ {s t}, R s t → s.lat = l
  right  : ∀ {s t}, R s t → t.lat = l
  coef   : ∀ {s t i}, R s t → i < l.area → Memory.read t.coef i = Memory.read s.coef i
  flag   : ∀ {s t i}, R s t → i < l.area → flagAt t i = flagAt s i
  decide : ∀ c, InStep R (decodeBit c)
  first  : ∀ {s t i} (neg : Bool), R s t → i < l.area →
    R (writeCoef i (firstWord neg b) s) (writeCoef i (firstWord neg b) t)
  refine : ∀ {s t i c} (d : Bool), R s t → i < l.area → Memory.read s.coef i = some c →
    R (writeCoef i (refinedWord c d b) s) (writeCoef i (refinedWord c d b) t)
  flags  : ∀ {s t i} (f : CoefFlags), R s t → i < l.area → R (writeFlag i f s) (writeFlag i f t)
  count  : ∀ {s t}, R s t → R (countPass s) (countPass t)

theorem runColumn_last {s : State} {y0 x : Nat} (h : runColumn s y0 x = true) : y0 + 3 < s.lat.lh.toNat := by
  simp only [runColumn, Bool.and_eq_true, decide_eq_true_eq] at h
  obtain ⟨⟨⟨⟨hlast, -⟩, -⟩, -⟩, -⟩ := h
  exact hlast

theorem coefIndex_lt_area {l : Latches} {s : State} {y x : Nat} (hs : s.lat = l) (hy : y < l.lh.toNat)
    (hx : x < l.lw.toNat) : coefIndex s y x < l.area := by
  subst hs
  exact coefIndex_lt hy hx

section
variable {l : Latches} {b : Nat} {R : State → State → Prop} (hR : BlockRel l b R)
include hR

theorem BlockRel.index {s t : State} (h : R s t) (y x : Nat) : coefIndex t y x = coefIndex s y x := by
  rw [coefIndex, coefIndex, hR.left h, hR.right h]

theorem BlockRel.flagIndex {s t : State} (h : R s t) {y x : Nat} (hy : y < l.lh.toNat) (hx : x < l.lw.toNat) :
    flagAt t (coefIndex t y x) = flagAt s (coefIndex s y x) := by
  rw [hR.index h, hR.flag h (coefIndex_lt_area (hR.left h) hy hx)]

theorem BlockRel.sigAt {s t : State} (h : R s t) (y x : Int) : sigAt t y x = sigAt s y x := by
  have hin : inBlock t y x = inBlock s y x := by rw [inBlock, inBlock, hR.left h, hR.right h]
  rw [Machine.sigAt, Machine.sigAt, hin]
  cases hb : inBlock s y x with
  | false => rfl
  | true =>
    obtain ⟨hy, hyh, hx, hxw⟩ := inBlock_iff.mp hb
    rw [hR.left h] at hyh hxw
    rw [hR.flagIndex h (by omega) (by omega)]

theorem BlockRel.countH {s t : State} (h : R s t) (y x : Nat) : countH t y x = countH s y x := by
  simp only [Machine.countH, hR.sigAt h]

theorem BlockRel.countV {s t : State} (h : R s t) (y x : Nat) : countV t y x = countV s y x := by
  simp only [Machine.countV, hR.sigAt h]

theorem BlockRel.countD {s t : State} (h : R s t) (y x : Nat) : countD t y x = countD s y x := by
  simp only [Machine.countD, hR.sigAt h]

theorem BlockRel.zc {s t : State} (h : R s t) (y x : Nat) : zc t y x = zc s y x := by
  rw [Machine.zc, Machine.zc, hR.countH h, hR.countV h, hR.countD h, hR.left h, hR.right h]

theorem BlockRel.mrc {s t : State} (h : R s t) {y x : Nat} (hy : y < l.lh.toNat) (hx : x < l.lw.toNat) :
    mrc t y x = mrc s y x := by
  rw [Machine.mrc, Machine.mrc, hR.countH h, hR.countV h, hR.countD h, hR.flagIndex h hy hx]

/-- The same change of one coefficient's flags. -/
theorem BlockRel.changeFlags {s t : State} (h : R s t) {y x : Nat} (hy : y < l.lh.toNat) (hx : x < l.lw.toNat)
    (g : CoefFlags → CoefFlags) :
    R (writeFlag (coefIndex s y x) (g (flagAt s (coefIndex s y x))) s)
      (writeFlag (coefIndex t y x) (g (flagAt t (coefIndex t y x))) t) := by
  rw [hR.flagIndex h hy hx, hR.index h]
  exact hR.flags _ h (coefIndex_lt_area (hR.left h) hy hx)

/-! ## Visits -/

theorem lockstep_readCoef {i : Nat} (hi : i < l.area) : InStep R (readCoef i) := by
  intro s t h
  cases hc : Memory.read s.coef i with
  | some c => rw [readCoef_ok hc, readCoef_ok ((hR.coef h hi).trans hc)]; exact .ok c h
  | none => rw [readCoef_unwritten hc, readCoef_unwritten ((hR.coef h hi).trans hc)]; exact .error _ h

theorem lockstep_chi (y x : Int) : InStep R (chi y x) := by
  intro s t h
  rw [chi_eq, chi_eq, hR.sigAt h, hR.index h]
  split
  · rename_i hsig
    obtain ⟨hy, hyh, hx, hxw⟩ := inBlock_iff.mp (Bool.and_eq_true_iff.mp hsig).1
    rw [hR.left h] at hyh hxw
    have hi := coefIndex_lt_area (hR.left h) (y := y.toNat) (x := x.toNat) (by omega) (by omega)
    exact lockstep_bind (lockstep_readCoef hR hi) (fun _ => lockstep_pure _) s t h
  · exact .ok 0 h

theorem lockstep_becomeSignificant {y x : Nat} (hy : y < l.lh.toNat) (hx : x < l.lw.toNat) :
    InStep R (becomeSignificant y x b) :=
  lockstep_bind (lockstep_bind (lockstep_chi hR _ _) fun _ => lockstep_bind (lockstep_chi hR _ _) fun _ =>
      lockstep_bind (lockstep_chi hR _ _) fun _ => lockstep_bind (lockstep_chi hR _ _) fun _ =>
        lockstep_bind (hR.decide _) fun _ => lockstep_pure _) fun neg => lockstep_modify fun s t h => by
    have hi := coefIndex_lt_area (hR.left h) hy hx
    have hw := hR.first neg h hi
    rw [← hR.index h] at hi
    have hf := hR.flags { flagAt s (coefIndex s y x) with sigma := true } hw (hR.index h y x ▸ hi)
    rw [markSignificant, markSignificant, hR.flagIndex h hy hx, hR.index h]
    exact hf

theorem lockstep_spVisit {p : Nat × Nat} (hp : p.1 < l.lh.toNat ∧ p.2 < l.lw.toNat) : InStep R (spVisit b p) := by
  obtain ⟨hy, hx⟩ := hp
  refine lockstep_get_bind fun s t h => ?_
  rw [hR.zc h, hR.flagIndex h hy hx]
  refine lockstep_ite (lockstep_bind (hR.decide _) fun d => ?_) (lockstep_pure ()) s t h
  exact lockstep_bind (lockstep_onlyIf (lockstep_becomeSignificant hR hy hx)) fun _ =>
    lockstep_modify fun _ _ h => hR.changeFlags h hy hx fun f => { f with pi := true }

/-- The refinement of one coefficient whose index was formed before (R159). -/
theorem lockstep_refine {i : Nat} {p : Nat × Nat} (hy : p.1 < l.lh.toNat) (hx : p.2 < l.lw.toNat) (hi : i < l.area)
    (d : Bool) :
    InStep R (do let c ← readCoef i; modify (writeCoef i (refinedWord c d b)); modify (setRefined p.1 p.2) : Eng Unit) := by
  intro s t h
  cases hc : Memory.read s.coef i with
  | none =>
    rw [eng_bind_error (readCoef_unwritten hc), eng_bind_error (readCoef_unwritten ((hR.coef h hi).trans hc))]
    exact .error _ h
  | some c =>
    rw [eng_bind_ok (readCoef_ok hc), eng_bind_ok (readCoef_ok ((hR.coef h hi).trans hc))]
    exact .ok () (hR.changeFlags (hR.refine d h hi hc) hy hx fun f => { f with rho := true })

theorem lockstep_mrVisit {p : Nat × Nat} (hp : p.1 < l.lh.toNat ∧ p.2 < l.lw.toNat) : InStep R (mrVisit b p) := by
  obtain ⟨hy, hx⟩ := hp
  intro s t h
  rw [mrVisit_eq, mrVisit_eq, hR.mrc h hy hx, hR.flagIndex h hy hx, hR.index h]
  split
  · exact lockstep_bind (hR.decide _)
      (fun d => lockstep_refine hR hy hx (coefIndex_lt_area (hR.left h) hy hx) d) s t h
  · exact .ok () h

theorem lockstep_cuVisit {y x : Nat} (hy : y < l.lh.toNat) (hx : x < l.lw.toNat) : InStep R (cuVisit b x y) := by
  refine lockstep_get_bind fun s t h => ?_
  rw [hR.zc h, hR.flagIndex h hy hx]
  exact lockstep_ite (lockstep_bind (hR.decide _) fun _ => lockstep_onlyIf (lockstep_becomeSignificant hR hy hx))
    (lockstep_pure ()) s t h

theorem lockstep_runLength {y0 x : Nat} (hy : y0 + 3 < l.lh.toNat) (hx : x < l.lw.toNat) :
    InStep R (runLength b y0 x) :=
  lockstep_bind (hR.decide _) fun _ => lockstep_ite
    (lockstep_bind (hR.decide _) fun r1 => lockstep_bind (hR.decide _) fun r0 =>
      have hr1 := Bool.toNat_le r1
      have hr0 := Bool.toNat_le r0
      lockstep_bind (lockstep_becomeSignificant hR (by omega) hx) fun _ => lockstep_pure _)
    (lockstep_pure _)

theorem BlockRel.runRow {s t : State} (h : R s t) {x y : Nat} (hy : y < l.lh.toNat) (hx : x < l.lw.toNat) :
    runRow t x y = runRow s x y := by
  rw [Machine.runRow, Machine.runRow, hR.flagIndex h hy hx, hR.zc h]

theorem BlockRel.runColumn {s t : State} (h : R s t) {y0 x : Nat} (hx : x < l.lw.toNat) :
    runColumn t y0 x = runColumn s y0 x := by
  rw [Machine.runColumn, Machine.runColumn, hR.left h, hR.right h]
  by_cases hy : y0 + 3 < l.lh.toNat
  · rw [hR.runRow h (by omega) hx, hR.runRow h (by omega) hx, hR.runRow h (by omega) hx, hR.runRow h hy hx]
  · simp only [decide_eq_false hy, Bool.false_and]

theorem lockstep_cuColumn {p : Nat × Nat} (hx : p.2 < l.lw.toNat) : InStep R (cuColumn b p) := by
  refine lockstep_get_bind fun s t h => ?_
  have hrow : ∀ y ∈ stripeRows l.lh.toNat p.1, InStep R (cuVisit b p.2 y) := fun y hy =>
    lockstep_cuVisit hR (mem_stripeRows.mp hy).2.2 hx
  rw [hR.runColumn h hx, hR.left h, hR.right h]
  split
  · rename_i hrun
    have hlast := runColumn_last hrun
    rw [hR.left h] at hlast
    refine lockstep_bind (lockstep_runLength hR hlast hx) (fun start => ?_) s t h
    cases start with
    | none => exact lockstep_pure ()
    | some k => exact lockstep_forEach fun y hy => hrow y (List.mem_of_mem_drop hy)
  · exact lockstep_forEach hrow s t h

/-! ## Passes -/

theorem lockstep_countPass : InStep R (modify countPass : Eng PUnit) := lockstep_modify fun _ _ h => hR.count h

theorem lockstep_passSp : InStep R (passSp b) := by
  refine lockstep_get_bind fun s t h => ?_
  rw [hR.left h, hR.right h]
  exact lockstep_bind (lockstep_forEach fun _ hp => lockstep_spVisit hR (mem_scanOrder.mp hp))
    (fun _ => lockstep_countPass hR) s t h

theorem lockstep_passMr : InStep R (passMr b) := by
  refine lockstep_get_bind fun s t h => ?_
  rw [hR.left h, hR.right h]
  exact lockstep_bind (lockstep_forEach fun _ hp => lockstep_mrVisit hR (mem_scanOrder.mp hp))
    (fun _ => lockstep_countPass hR) s t h

theorem lockstep_clearVisited {i : Nat} (hi : i < l.area) : InStep R (modify (clearVisited i) : Eng PUnit) :=
  lockstep_modify fun s t h => by
    rw [clearVisited, clearVisited, hR.flag h hi]
    exact hR.flags _ h hi

theorem lockstep_passCu : InStep R (passCu b) := by
  refine lockstep_get_bind fun s t h => ?_
  have harea : blockArea s = l.area := by rw [blockArea, hR.left h, Latches.area]
  have harea' : blockArea t = l.area := by rw [blockArea, hR.right h, Latches.area]
  rw [hR.left h, hR.right h, harea, harea']
  exact lockstep_bind (lockstep_forEach fun _ hp => lockstep_cuColumn hR (mem_stripeColumns hp).2) (fun _ =>
    lockstep_bind (lockstep_forEach fun _ hi => lockstep_clearVisited hR (List.mem_range.mp hi)) fun _ =>
      lockstep_countPass hR) s t h

/-- A pass runs in step over every relation that the writes of its visits keep. -/
theorem lockstep_runPass (t : PassType) : InStep R (runPass t b) := by
  cases t with
  | sp => exact lockstep_passSp hR
  | mr => exact lockstep_passMr hR
  | cu => exact lockstep_passCu hR

end

end Sys2Proof.Machine
end

section
/-! Two uses of passes that run in step, over a state beside itself and beside itself with other flags of `STATUS`: no
pass writes a magnitude bit below its bit position (R167), and none reads or writes `STATUS`. -/

namespace Sys2Proof.Machine

variable {α : Type}

/-! ## A state and its image -/

/-- The second state is the image of the first, which has `K`. -/
def Graph (g : State → State) (K : State → Prop) (s t : State) : Prop := t = g s ∧ K s

/-- A computation that keeps `K` runs in step on a state and its image when it commutes with `g`. -/
theorem inStep_graph {g : State → State} {K : State → Prop} {m : Eng α}
    (h : ∀ s, K s → m (g s) = onEnd g (m s)) (hK : Keeps K m) : InStep (Graph g K) m := by
  rintro s _ ⟨rfl, hs⟩
  have hk := hK s hs
  rw [h s hs]
  cases hm : m s with
  | ok a t => rw [hm] at hk; exact .ok a ⟨rfl, hk⟩
  | error e t => rw [hm] at hk; exact .error e ⟨rfl, hk⟩

theorem InStep.commutes {g : State → State} {K : State → Prop} {m : Eng α} (h : InStep (Graph g K) m) {s : State}
    (hs : K s) : m (g s) = onEnd g (m s) ∧ K (endState (m s)) := by
  have h := h s (g s) ⟨rfl, hs⟩
  generalize m s = r, m (g s) = r' at h ⊢
  cases h with
  | ok a h => exact ⟨by rw [h.1]; rfl, h.2⟩
  | error e h => exact ⟨by rw [h.1]; rfl, h.2⟩

theorem keeps_decodeBit_lat (l : Latches) (c : Fin 19) : Keeps (fun s => s.lat = l) (decodeBit c) :=
  keeps_of_frame DecoderOnly.refl (fun s0 => keeps_decodeBit_only s0 c) fun _ _ hd hs => hd.lat.trans hs

/-! ## `STATUS` -/

/-- No visit reads or writes `STATUS`. -/
theorem blockRel_status (f : StatusFlags) (l : Latches) (b : Nat) :
    BlockRel l b (Graph (setStatus f) fun s => s.lat = l) where
  left   := fun h => h.2
  right  := fun h => by rw [h.1]; exact h.2
  coef   := fun h _ => by rw [h.1]; rfl
  flag   := fun h _ => by rw [h.1]; rfl
  decide := fun c => inStep_graph (fun s _ => ignores_decodeBit c f s) (keeps_decodeBit_lat l c)
  first  := fun _ h _ => ⟨by rw [h.1]; rfl, h.2⟩
  refine := fun _ h _ _ => ⟨by rw [h.1]; rfl, h.2⟩
  flags  := fun _ h _ => ⟨by rw [h.1]; rfl, h.2⟩
  count  := fun h => ⟨by rw [h.1]; rfl, h.2⟩

theorem ignores_runPass (t : PassType) (b : Nat) : IgnoresStatus (runPass t b) := fun f s =>
  ((lockstep_runPass (blockRel_status f s.lat b) t).commutes rfl).1

theorem ignores_initDecoder : IgnoresStatus initDecoder :=
  ignores_bind (ignores_modify fun _ _ => rfl) fun _ => ignores_bind (ignores_bsRead 0) fun _ =>
    ignores_bind (ignores_modify fun _ _ => rfl) fun _ => ignores_bind ignores_byteIn fun _ =>
      ignores_modify fun _ _ => rfl

/-! ## Low bits -/

/-- Bits `b-1` to 0 of every word of COEF are zero (R167). -/
def LowBitsZero (b : Nat) (s : State) : Prop := ∀ k c, Memory.read s.coef k = some c → c.toNat % 2 ^ b = 0

theorem low_or {c d : Word} {b : Nat} (hc : c.toNat % 2 ^ b = 0) (hd : d.toNat % 2 ^ b = 0) :
    (c ||| d).toNat % 2 ^ b = 0 := by
  rw [BitVec.toNat_or, Nat.or_mod_two_pow, hc, hd]
  rfl

/-- One bit at a position not below `b`. -/
theorem low_flagBit (d : Bool) {b p : Nat} (h : b ≤ p) (hp : p < 32) : (flagBit d p).toNat % 2 ^ b = 0 := by
  cases d with
  | false => exact Nat.zero_mod _
  | true =>
    have hlt : 1 <<< p < 2 ^ 32 := by
      rw [Nat.one_shiftLeft]
      exact Nat.pow_lt_pow_right Nat.one_lt_two hp
    show ((1 : Word) <<< p).toNat % 2 ^ b = 0
    rw [BitVec.toNat_shiftLeft, show (1 : Word).toNat = 1 from rfl, Nat.mod_eq_of_lt hlt, Nat.one_shiftLeft]
    exact Nat.mod_eq_zero_of_dvd (pow_dvd_pow 2 h)

theorem firstWord_eq (neg : Bool) (b : Nat) : firstWord neg b = flagBit neg 31 ||| flagBit true b := rfl

theorem LowBitsZero.writeCoef {b i : Nat} {s : State} {v : Word} (h : LowBitsZero b s) (hv : v.toNat % 2 ^ b = 0) :
    LowBitsZero b (writeCoef i v s) := by
  intro k c hc
  rw [writeCoef_coef, Memory.read_write] at hc
  split at hc
  · cases hc; exact hv
  · exact h k c hc

theorem keeps_decodeBit_low (b : Nat) (c : Fin 19) : Keeps (LowBitsZero b) (decodeBit c) :=
  keeps_of_frame DecoderOnly.refl (fun s0 => keeps_decodeBit_only s0 c) fun _ _ hd hs k v hv => hs k v (hd.coef ▸ hv)

/-- The words a visit writes have no bit below its bit position. -/
theorem blockRel_low (l : Latches) {b : Nat} (hb : b ≤ 30) :
    BlockRel l b (Graph id fun s => s.lat = l ∧ LowBitsZero b s) where
  left   := fun h => h.2.1
  right  := fun h => by rw [h.1]; exact h.2.1
  coef   := fun h _ => by rw [h.1]; rfl
  flag   := fun h _ => by rw [h.1]; rfl
  decide := fun c => inStep_graph (fun s _ => by cases h : decodeBit c s <;> simp [h]) fun s hs =>
    ⟨keeps_decodeBit_lat l c s hs.1, keeps_decodeBit_low b c s hs.2⟩
  first  := fun neg h _ => ⟨by rw [h.1]; rfl, h.2.1, h.2.2.writeCoef
    (firstWord_eq neg b ▸ low_or (low_flagBit neg (by omega) (by omega)) (low_flagBit true (Nat.le_refl b) (by omega)))⟩
  refine := fun d h _ hc => ⟨by rw [h.1]; rfl, h.2.1, h.2.2.writeCoef
    (low_or (h.2.2 _ _ hc) (low_flagBit d (Nat.le_refl b) (by omega)))⟩
  flags  := fun _ h _ => ⟨by rw [h.1]; rfl, h.2⟩
  count  := fun h => ⟨by rw [h.1]; rfl, h.2⟩

theorem keeps_runPass_low (t : PassType) {b : Nat} (hb : b ≤ 30) : Keeps (LowBitsZero b) (runPass t b) := fun s hs =>
  ((lockstep_runPass (blockRel_low s.lat hb) t).commutes ⟨rfl, hs⟩).2.2

theorem keeps_passBody {P : State → Prop} (word : Word) {pass : Eng Unit} (h : Keeps P pass) :
    Keeps P (passBody word pass) :=
  keeps_bind (keeps_bind (keeps_get _) fun _ => keeps_ite (keeps_pure _ _) (keeps_raise _ _ _)) fun _ => h

/-- Settles O41: every word a visit writes has only bits at the pass's position and above. -/
theorem passesKeepLowBitsZero : Obligations.PassesKeepLowBitsZero := by
  intro s t b i hb hi hs ht
  have hpass : ∀ word p, Keeps (LowBitsZero b.toNat) (passBody word (runPass p b.toNat)) := fun word p =>
    keeps_passBody word (keeps_runPass_low p (legalPlane_le hb))
  have hrun : Keeps (LowBitsZero b.toNat) (commandBody i) → i.wellFormed = true → LowBitsZero b.toNat t := fun hk hw => by
    rw [exec_wellFormed hw] at ht
    exact runCommand_keeps hk (fun _ h => h) (fun _ _ _ h => h) hs ht
  rcases hi with rfl | rfl | rfl
  · exact hrun (hpass _ .sp) hb
  · exact hrun (hpass _ .mr) hb
  · exact hrun (hpass _ .cu) hb

/-! ## Pass commands -/

theorem passBody_ok {word : Word} {pass : Eng Unit} {s : State} (hs : s.status.session = true)
    (hq : s.status.mqrdy = true) : passBody word pass s = pass s := by
  rw [passBody, eng_bind_ok (requireSession_ok (by rw [hs, hq]; rfl))]

theorem runCommand_congr {closes : Bool} {m n : Eng Unit} {s t : State} (h : m s = n t) :
    runCommand closes m s = runCommand closes n t := by
  rw [runCommand, runCommand, h]

/-- In an open session with an initialised decoder a pass command runs its pass (R158, R159, R160). -/
theorem exec_pass_ready {i : Instr} {word : Word} {pass : Eng Unit} (hw : i.wellFormed = true)
    (hc : closesSession i = true) (hi : commandBody i = passBody word pass) {s : State}
    (hs : s.status.session = true) (hq : s.status.mqrdy = true) : exec i s = runCommand true pass s := by
  rw [exec_wellFormed hw, hc, hi]
  exact runCommand_congr (passBody_ok hs hq)

end Sys2Proof.Machine
end

section
/-! The significance context and the neighbours (R152, R153): a context is 0 exactly where no neighbour in the block is
significant, so a significance propagation pass over an insignificant block makes no decision (R158). -/

namespace Sys2Proof.Machine

variable {α : Type}

/-! ## Contexts -/

theorem zcAxis_eq_zero {a b dg : Nat} : zcAxis a b dg = 0 ↔ a = 0 ∧ b = 0 ∧ dg = 0 := by
  unfold zcAxis
  split_ifs <;> simp <;> omega

theorem zcDiagonal_eq_zero {dg hv : Nat} : zcDiagonal dg hv = 0 ↔ dg = 0 ∧ hv = 0 := by
  unfold zcDiagonal
  split_ifs <;> simp <;> omega

theorem zcTable_eq_zero {o : BitVec 2} {h v dg : Nat} : zcTable o h v dg = 0 ↔ h = 0 ∧ v = 0 ∧ dg = 0 := by
  unfold zcTable
  split_ifs
  · rw [zcDiagonal_eq_zero]; omega
  · rw [zcAxis_eq_zero]; omega
  · exact zcAxis_eq_zero

theorem zcAxis_le (a b dg : Nat) : zcAxis a b dg ≤ 8 := by
  unfold zcAxis
  split_ifs <;> decide

theorem zcDiagonal_le (dg hv : Nat) : zcDiagonal dg hv ≤ 8 := by
  unfold zcDiagonal
  split_ifs <;> decide

/-- The significance contexts are 0 to 8 (R153). -/
theorem zc_le (s : State) (y x : Nat) : zc s y x ≤ 8 := by
  unfold zc zcTable
  split_ifs
  · exact zcDiagonal_le _ _
  · exact zcAxis_le _ _ _
  · exact zcAxis_le _ _ _

/-- The refinement contexts are 14 to 16 (R155). -/
theorem mrc_range (s : State) (y x : Nat) : 14 ≤ mrc s y x ∧ mrc s y x ≤ 16 := by
  unfold mrc
  split_ifs <;> decide

/-! ## Neighbours -/

theorem sigAt_ofNat {s : State} {y x : Nat} (hy : y < s.lat.lh.toNat) (hx : x < s.lat.lw.toNat) :
    sigAt s y x = (flagAt s (coefIndex s y x)).sigma := by
  have hin : inBlock s y x = true := inBlock_iff.mpr ⟨by omega, by omega, by omega, by omega⟩
  rw [sigAt, hin, Bool.true_and, Int.toNat_natCast, Int.toNat_natCast]

/-- A significant point is a significant coefficient of the block (R152). -/
theorem sigAt_eq_true {s : State} {y x : Int} (h : sigAt s y x = true) :
    ∃ y' x' : Nat, y = y' ∧ x = x' ∧ y' < s.lat.lh.toNat ∧ x' < s.lat.lw.toNat ∧
      (flagAt s (coefIndex s y' x')).sigma = true := by
  rw [sigAt, Bool.and_eq_true, inBlock_iff] at h
  obtain ⟨⟨hy, hyh, hx, hxw⟩, hsig⟩ := h
  exact ⟨y.toNat, x.toNat, by omega, by omega, by omega, by omega, hsig⟩

/-- The offsets of the eight points around a point (R152). -/
def aroundOffsets : List (Int × Int) := [(0, -1), (0, 1), (-1, 0), (1, 0), (-1, -1), (-1, 1), (1, -1), (1, 1)]

theorem mem_aroundOffsets {dy dx : Int} :
    (dy, dx) ∈ aroundOffsets ↔ (-1 ≤ dy ∧ dy ≤ 1) ∧ (-1 ≤ dx ∧ dx ≤ 1) ∧ ¬ (dy = 0 ∧ dx = 0) := by
  simp only [aroundOffsets, List.mem_cons, Prod.mk.injEq, List.not_mem_nil, or_false]
  omega

/-- The context is 0 where none of the eight points around is significant. -/
theorem zc_eq_zero_iff {s : State} {y x : Nat} :
    zc s y x = 0 ↔ ∀ o ∈ aroundOffsets, sigAt s (y + o.1) (x + o.2) = false := by
  have hcount : zc s y x = 0 ↔ sigCount s y x aroundOffsets = 0 := by
    rw [zc, zcTable_eq_zero, aroundOffsets, sigCount_all]
    omega
  rw [hcount, sigCount, List.length_eq_zero_iff, List.filter_eq_nil_iff]
  simp only [refSig_eq, Bool.not_eq_true]

theorem zc_ne_zero_of_neighbour {s : State} {y x y' x' : Nat} (hn : Neighbours y x y' x') (hy : y' < s.lat.lh.toNat)
    (hx : x' < s.lat.lw.toNat) (hs : (flagAt s (coefIndex s y' x')).sigma = true) : zc s y x ≠ 0 := by
  obtain ⟨hne, h1, h2, h3, h4⟩ := hn
  have hmem : ((y' : Int) - y, (x' : Int) - x) ∈ aroundOffsets :=
    mem_aroundOffsets.mpr ⟨by omega, by omega, fun ⟨e1, e2⟩ => hne (by rw [Prod.mk.injEq]; omega)⟩
  intro h0
  have hfalse := zc_eq_zero_iff.mp h0 _ hmem
  rw [add_sub_cancel, add_sub_cancel, sigAt_ofNat hy hx, hs] at hfalse
  cases hfalse

theorem exists_neighbour_of_zc {s : State} {y x : Nat} (h : zc s y x ≠ 0) :
    ∃ y' x', Neighbours y x y' x' ∧ y' < s.lat.lh.toNat ∧ x' < s.lat.lw.toNat ∧
      (flagAt s (coefIndex s y' x')).sigma = true := by
  by_contra hno
  refine h (zc_eq_zero_iff.mpr fun ⟨dy, dx⟩ ho => Bool.eq_false_iff.mpr fun hs => hno ?_)
  obtain ⟨hdy, hdx, hne⟩ := mem_aroundOffsets.mp ho
  obtain ⟨y', x', hy, hx, hyh, hxw, hsig⟩ := sigAt_eq_true hs
  refine ⟨y', x', ⟨fun he => hne ?_, by omega, by omega, by omega, by omega⟩, hyh, hxw, hsig⟩
  obtain ⟨e1, e2⟩ := Prod.mk.inj he
  omega

/-! ## A pass with nothing to test -/

/-- A visit of the significance propagation pass, by whether the coefficient is to be tested (R158). -/
theorem spVisit_eq (b : Nat) (p : Nat × Nat) (s : State) :
    spVisit b p s =
      if (flagAt s (coefIndex s p.1 p.2)).sigma = false ∧ zc s p.1 p.2 ≠ 0 then
        (do
          let d ← decodeBit (zc s p.1 p.2)
          onlyIf d (becomeSignificant p.1 p.2 b)
          modify (setVisited p.1 p.2) : Eng Unit) s
      else .ok () s := by
  rw [spVisit, eng_bind_ok (eng_get s)]
  simp only [Bool.and_eq_true, Bool.not_eq_true', decide_eq_true_eq]
  split <;> rfl

theorem forEach_skip {l : List α} {body : α → Eng Unit} {s : State} (h : ∀ x ∈ l, body x s = .ok () s) :
    forEach l body s = .ok () s := by
  induction l with
  | nil => rfl
  | cons x r ih => rw [forEach_cons, eng_bind_ok (h x (by simp)), ih fun y hy => h y (by simp [hy])]

theorem spVisit_insignificant (b : Nat) (p : Nat × Nat) {s : State}
    (h : ∀ i, i < blockArea s → (flagAt s i).sigma = false) : spVisit b p s = .ok () s := by
  rw [spVisit_eq, if_neg]
  rintro ⟨-, hz⟩
  obtain ⟨y, x, -, hy, hx, hs⟩ := exists_neighbour_of_zc hz
  rw [h _ (coefIndex_lt hy hx)] at hs
  cases hs

/-- Settles O37: no visit has anything to test. -/
theorem firstSignificancePassMakesNoDecision : Obligations.FirstSignificancePassMakesNoDecision := by
  intro s b hb hs hq h
  have hpass : passSp b.toNat s = .ok () (countPass s) := by
    rw [passSp, eng_bind_ok (eng_get s), eng_bind_ok (forEach_skip fun p _ => spVisit_insignificant _ p h)]
    rfl
  rw [exec_pass_ready (i := .t1Sp b) hb rfl rfl hs hq]
  exact runCommand_ok hpass

end Sys2Proof.Machine
end

section
/-! The reference passes beside the engine's, to the end: what a reference computation answers from a state whose last
command completed is what the engine's computation ends in, seen as the outcome of commands. So a pass command equals
the pass written out (R154, R156, R158 to R160). -/

namespace Sys2Proof.Machine

variable {α β γ δ : Type}

/-! ## Ends of the engine as ends of a reference computation -/

/-- The end of an engine's computation as the reference sees it: the answer and the state of a completed command, or
the outcome of the command that raised or stopped. -/
def asRef (g : α → State → β) : EStateM.Result Stop State α → RefRun β
  | .ok a t => .ok (g a (complete t))
  | .error (.raise k info) t => .error (.next (takeError true k info t))
  | .error (.fault f) _ => .error (.fault f)

/-- What no part of a pass writes before the pass has counted itself. -/
structure PassFrame (s t : State) : Prop where
  status   : t.status = s.status
  lat      : t.lat = s.lat
  passDone : t.passDone = s.passDone

theorem PassFrame.refl (s : State) : PassFrame s s := ⟨rfl, rfl, rfl⟩

theorem PassFrame.trans {s t u : State} (h : PassFrame s t) (k : PassFrame t u) : PassFrame s u :=
  ⟨k.status.trans h.status, k.lat.trans h.lat, k.passDone.trans h.passDone⟩

theorem DecoderOnly.passFrame {s t : State} (h : DecoderOnly s t) : PassFrame s t := ⟨h.status, h.lat, h.passDone⟩

theorem PassFrame.coefIndex {s t : State} (h : PassFrame s t) (y x : Nat) : coefIndex t y x = coefIndex s y x := by
  rw [Machine.coefIndex, Machine.coefIndex, h.lat]

/-- From `s` the engine ends as the reference run `r`, its answer and state shown by `g`. -/
structure Refers (g : α → State → β) (r : RefRun β) (m : Eng α) (s : State) : Prop where
  ends  : r = asRef g (m s)
  frame : PassFrame s (endState (m s))

theorem refers_iff {g : α → State → β} {r : RefRun β} {m : Eng α} {s : State} :
    Refers g r m s ↔ r = asRef g (m s) ∧ PassFrame s (endState (m s)) :=
  ⟨fun h => ⟨h.ends, h.frame⟩, fun h => ⟨h.1, h.2⟩⟩

theorem refers_bind {g : α → State → β} {f : γ → State → δ} {r : RefRun β} {m : Eng α} {k' : β → RefRun δ}
    {k : α → Eng γ} {s : State} (hm : Refers g r m s)
    (hk : ∀ a t, PassFrame s t → Refers f (k' (g a (complete t))) (k a) t) : Refers f (r >>= k') (m >>= k) s := by
  obtain ⟨hends, hframe⟩ := hm
  rw [hends]
  cases h : m s with
  | ok a t =>
    rw [h] at hframe
    obtain ⟨kends, kframe⟩ := hk a t hframe
    exact ⟨by rw [eng_bind_ok h]; exact kends, by rw [eng_bind_ok h]; exact hframe.trans kframe⟩
  | error e t =>
    rw [h] at hframe
    refine ⟨?_, by rw [eng_bind_error h]; exact hframe⟩
    rw [eng_bind_error h]
    cases e <;> rfl

/-- As `refers_bind`, for a read of the state, which the reference makes apart from it. -/
theorem refers_read {f : γ → State → δ} {r : RefRun α} {m : Eng α} {k' : α → RefRun δ} {k : α → Eng γ} {s : State}
    (hst : endState (m s) = s) (hm : r = asRef (fun a _ => a) (m s)) (hk : ∀ a, Refers f (k' a) (k a) s) :
    Refers f (r >>= k') (m >>= k) s := by
  rw [hm]
  cases h : m s with
  | ok a t =>
    rw [h] at hst
    cases hst
    exact ⟨by rw [eng_bind_ok h]; exact (hk a).ends, by rw [eng_bind_ok h]; exact (hk a).frame⟩
  | error e t =>
    rw [h] at hst
    cases hst
    refine ⟨?_, by rw [eng_bind_error h]; exact .refl t⟩
    rw [eng_bind_error h]
    cases e <;> rfl

theorem refers_pure {g : α → State → β} (a : α) (s : State) : Refers g (pure (g a (complete s))) (pure a : Eng α) s :=
  ⟨rfl, .refl s⟩

/-- What the reference sees of a computation with no answer: the state. -/
abbrev seenState : Unit → State → State := fun _ t => t

theorem refers_modify {w : State → State} {s : State} (hc : w (complete s) = complete (w s)) (hw : PassFrame s (w s)) :
    Refers seenState (pure (w (complete s))) (modify w : Eng Unit) s :=
  ⟨by rw [hc]; rfl, hw⟩

theorem refers_onlyIf {c : Bool} {r : RefRun State} {m : Eng Unit} {s : State}
    (hm : c = true → Refers seenState r m s) :
    Refers seenState (if c then r else pure (complete s)) (onlyIf c m) s := by
  cases c
  · exact refers_pure () s
  · exact hm rfl

theorem refers_forEach {l : List α} {r : State → α → RefRun State} {body : α → Eng Unit} {s : State}
    (h : ∀ x ∈ l, ∀ t, PassFrame s t → Refers seenState (r (complete t) x) (body x) t) :
    Refers seenState (l.foldlM r (complete s)) (forEach l body) s := by
  induction l generalizing s with
  | nil => exact refers_pure () s
  | cons x l ih =>
    rw [List.foldlM_cons]
    exact refers_bind (h x (by simp) s (.refl s)) fun _ t ht =>
      ih fun y hy u hu => h y (by simp [hy]) u (ht.trans hu)

/-! ## Decisions and signs -/

theorem refers_decodeBit (c : Fin 19) {s : State} (hq : s.status.mqrdy = true) :
    Refers Prod.mk (decideByCommand c (complete s)) (decodeBit c) s := by
  refine ⟨?_, (keeps_decodeBit_only s c s (.refl s)).passFrame⟩
  have hk := keeps_decodeBit_only s c s (.refl s)
  rw [decideByCommand_eq c (s := complete s) hq rfl, complete, ignores_decodeBit c s.status.completed s]
  cases h : decodeBit c s with
  | ok d t =>
    rw [h] at hk
    have ht : complete t = setStatus s.status.completed t := by rw [complete, show t.status = s.status from hk.status]
    exact congrArg (fun u => Except.ok (d, u)) ht.symm
  | error e t =>
    cases e with
    | fault f => rfl
    | raise k info =>
      show Except.error _ = Except.error _
      rw [takeError_closing, takeError_closing]
      rfl

theorem refChi_eq (y x : Int) (s : State) : refChi (complete s) y x = asRef (fun a _ => a) (chi y x s) := by
  have hsig : refSig (complete s) y x = sigAt s y x := refSig_eq _ _ _
  rw [refChi, hsig, chi_eq]
  split
  · show (match Memory.read s.coef (coefIndex s y.toNat x.toNat) with | some c => _ | none => _) = _
    cases hc : Memory.read s.coef (coefIndex s y.toNat x.toNat) with
    | some c => rw [eng_bind_ok (readCoef_ok hc)]; rfl
    | none => rw [eng_bind_error (readCoef_unwritten hc)]; rfl
  · rfl

theorem refers_decodeSign (y x : Nat) {s : State} (hq : s.status.mqrdy = true) :
    Refers Prod.mk (refSign (complete s) y x) (decodeSign y x) s := by
  refine refers_read (chi_state _ _ s) (refChi_eq _ _ s) fun left => ?_
  refine refers_read (chi_state _ _ s) (refChi_eq _ _ s) fun right => ?_
  refine refers_read (chi_state _ _ s) (refChi_eq _ _ s) fun up => ?_
  refine refers_read (chi_state _ _ s) (refChi_eq _ _ s) fun down => ?_
  dsimp only
  rw [signRows_eq]
  exact refers_bind (refers_decodeBit _ hq) fun bit t _ => refers_pure _ t

/-- One bit of a word, given as a number. -/
theorem natCast_one_shiftLeft (b : Nat) : ((1 <<< b : Nat) : Word) = flagBit true b := by
  apply BitVec.eq_of_toNat_eq
  show _ = ((1 : Word) <<< b).toNat
  rw [BitVec.toNat_shiftLeft]
  simp

theorem firstWord_ofNat (neg : Bool) (b : Nat) : flagBit neg 31 ||| ((1 <<< b : Nat) : Word) = firstWord neg b := by
  rw [natCast_one_shiftLeft, firstWord_eq]

theorem refers_becomeSignificant (y x b : Nat) {s : State} (hq : s.status.mqrdy = true) :
    Refers seenState (refBecome b y x (complete s)) (becomeSignificant y x b) s := by
  refine refers_bind (refers_decodeSign y x hq) fun neg t ht => ?_
  have hw := refers_modify (w := markSignificant y x b neg) (s := t) rfl ⟨rfl, rfl, rfl⟩
  have hidx : coefIndex (complete s) y x = coefIndex t y x := (ht.coefIndex y x).symm
  dsimp only
  rw [firstWord_ofNat, hidx]
  exact hw

/-! ## Visits -/

@[simp] theorem flagAt_complete (s : State) (i : Nat) : flagAt (complete s) i = flagAt s i := rfl
@[simp] theorem coefIndex_complete (s : State) (y x : Nat) : coefIndex (complete s) y x = coefIndex s y x := rfl
@[simp] theorem tableZc_complete (s : State) (y x : Nat) : tableZc (complete s) y x = zc s y x := tableZc_eq _ _ _
@[simp] theorem tableMrc_complete (s : State) (y x : Nat) : tableMrc (complete s) y x = mrc s y x := tableMrc_eq _ _ _

theorem Refers.congr {g : α → State → β} {r : RefRun β} {m n : Eng α} {s : State} (h : Refers g r n s)
    (hmn : m s = n s) : Refers g r m s :=
  ⟨by rw [hmn]; exact h.ends, by rw [hmn]; exact h.frame⟩

/-- A visit of the reference significance pass, its two ends joined. -/
theorem refSpVisit_eq (b : Nat) (s : State) (p : Nat × Nat) :
    refSpVisit b s p =
      if (flagAt s (coefIndex s p.1 p.2)).sigma = false ∧ tableZc s p.1 p.2 ≠ 0 then
        decideByCommand (tableZc s p.1 p.2) s >>= fun x =>
          (if x.1 then refBecome b p.1 p.2 x.2 else pure x.2) >>= fun u =>
            pure (writeFlag (coefIndex s p.1 p.2) { flagAt u (coefIndex s p.1 p.2) with pi := true } u)
      else pure s := by
  rw [refSpVisit]
  split
  · refine congrArg (decideByCommand _ s >>= ·) (funext fun x => ?_)
    obtain ⟨d, t⟩ := x
    cases d <;> rfl
  · rfl

theorem refers_spVisit (b : Nat) (p : Nat × Nat) {s : State} (hq : s.status.mqrdy = true) :
    Refers seenState (refSpVisit b (complete s) p) (spVisit b p) s := by
  have heq := spVisit_eq b p s
  rw [refSpVisit_eq]
  simp only [flagAt_complete, coefIndex_complete, tableZc_complete]
  split at heq
  · rw [if_pos ‹_›]
    refine .congr (refers_bind (refers_decodeBit _ hq) fun d t ht => ?_) heq
    refine refers_bind (refers_onlyIf fun _ => refers_becomeSignificant _ _ _ (ht.status ▸ hq)) fun _ u hu => ?_
    rw [← (ht.trans hu).coefIndex]
    exact refers_modify (w := setVisited p.1 p.2) rfl ⟨rfl, rfl, rfl⟩
  · rw [if_neg ‹_›]
    exact .congr (refers_pure () s) heq

theorem refers_mrVisit (b : Nat) (p : Nat × Nat) {s : State} (hq : s.status.mqrdy = true) :
    Refers seenState (refMrVisit b (complete s) p) (mrVisit b p) s := by
  have heq := mrVisit_eq b p s
  rw [refMrVisit]
  simp only [flagAt_complete, coefIndex_complete, tableMrc_complete]
  simp only [Bool.and_eq_true, Bool.not_eq_true'] at heq
  split at heq
  · rw [if_pos ‹_›]
    refine .congr (refers_bind (refers_decodeBit _ hq) fun d t ht => ?_) heq
    dsimp only
    rw [complete_coef, ← ht.coefIndex]
    cases hc : Memory.read t.coef (coefIndex t p.1 p.2) with
    | none =>
      rw [refers_iff, eng_bind_error (readCoef_unwritten hc)]
      exact ⟨rfl, .refl t⟩
    | some c =>
      rw [refers_iff, eng_bind_ok (readCoef_ok hc)]
      exact ⟨rfl, rfl, rfl, rfl⟩
  · rw [if_neg ‹_›]
    exact .congr (refers_pure () s) heq

theorem cuVisit_eq (b x y : Nat) (s : State) :
    cuVisit b x y s =
      if (flagAt s (coefIndex s y x)).sigma = false ∧ (flagAt s (coefIndex s y x)).pi = false then
        (do
          let d ← decodeBit (zc s y x)
          onlyIf d (becomeSignificant y x b) : Eng Unit) s
      else .ok () s := by
  rw [cuVisit, eng_bind_ok (eng_get s)]
  simp only [Bool.and_eq_true, Bool.not_eq_true']
  split <;> rfl

theorem refers_cuVisit (b x y : Nat) {s : State} (hq : s.status.mqrdy = true) :
    Refers seenState (refCuVisit b x (complete s) y) (cuVisit b x y) s := by
  have heq := cuVisit_eq b x y s
  rw [refCuVisit]
  simp only [flagAt_complete, coefIndex_complete, tableZc_complete]
  split at heq
  · rw [if_pos ‹_›]
    refine .congr (refers_bind (refers_decodeBit _ hq) fun d t ht => ?_) heq
    exact refers_onlyIf fun _ => refers_becomeSignificant _ _ _ (ht.status ▸ hq)
  · rw [if_neg ‹_›]
    exact .congr (refers_pure () s) heq

/-! ## Stripe columns -/

/-- The rows of a stripe as the reference lists them. -/
theorem filter_range'_eq (h y0 : Nat) :
    (List.range' y0 4).filter (fun y => decide (y < h)) = stripeRows h y0 := by
  refine ((List.pairwise_lt_range').filter _).eq_of_mem_iff (stripeRows_ordered h y0) fun y => ?_
  rw [List.mem_filter, List.mem_range'_1, mem_stripeRows, decide_eq_true_iff, and_assoc]

/-- The run-length condition, row by row (R160). -/
theorem runColumn_iff {s : State} {y0 x : Nat} :
    runColumn s y0 x = true ↔ y0 + 3 < s.lat.lh.toNat ∧ ∀ k < 4,
      (flagAt s (coefIndex s (y0 + k) x)).sigma = false ∧ (flagAt s (coefIndex s (y0 + k) x)).pi = false ∧
        zc s (y0 + k) x = 0 := by
  have hrow : ∀ y, runRow s x y = true ↔ (flagAt s (coefIndex s y x)).sigma = false ∧
      (flagAt s (coefIndex s y x)).pi = false ∧ zc s y x = 0 := fun y => by simp [runRow, and_assoc]
  simp only [runColumn, Bool.and_eq_true, decide_eq_true_eq, ← hrow, and_assoc]
  refine and_congr_right fun _ => ⟨fun ⟨h0, h1, h2, h3⟩ k hk => ?_, fun h => ?_⟩
  · obtain rfl | rfl | rfl | rfl : k = 0 ∨ k = 1 ∨ k = 2 ∨ k = 3 := by omega
    · exact h0
    · exact h1
    · exact h2
    · exact h3
  · exact ⟨h 0 (by decide), h 1 (by decide), h 2 (by decide), h 3 (by decide)⟩

/-- A stripe column, its run-length shortcut written out (R160). -/
theorem cuColumn_eq (b : Nat) (p : Nat × Nat) (s : State) :
    cuColumn b p s =
      if runColumn s p.1 p.2 = true then
        (do
          let hit ← decodeBit 17
          if hit then do
            let r1 ← decodeBit 18
            let r0 ← decodeBit 18
            becomeSignificant (p.1 + (2 * r1.toNat + r0.toNat)) p.2 b
            forEach ((stripeRows s.lat.lh.toNat p.1).drop (2 * r1.toNat + r0.toNat + 1)) (cuVisit b p.2)
          else pure () : Eng Unit) s
      else forEach (stripeRows s.lat.lh.toNat p.1) (cuVisit b p.2) s := by
  rw [cuColumn, eng_bind_ok (eng_get s)]
  split
  · rw [runLength, bind_assoc]
    refine congrArg (fun k => (decodeBit 17 >>= k) s) (funext fun hit => ?_)
    cases hit with
    | false => rfl
    | true => simp only [if_true, bind_assoc, pure_bind]
  · rfl

theorem refers_cuColumn (b : Nat) (p : Nat × Nat) {s : State} (hq : s.status.mqrdy = true) :
    Refers seenState (refCuColumn b (complete s) p) (cuColumn b p) s := by
  have heq := cuColumn_eq b p s
  have hrows : ∀ (l : List Nat) {t : State}, PassFrame s t →
      Refers seenState (l.foldlM (refCuVisit b p.2) (complete t)) (forEach l (cuVisit b p.2)) t := fun l t ht =>
    refers_forEach fun y _ u hu => refers_cuVisit b p.2 y ((ht.trans hu).status ▸ hq)
  rw [refCuColumn]
  simp only [filter_range'_eq]
  simp only [flagAt_complete, coefIndex_complete, tableZc_complete, complete_lat, ← runColumn_iff]
  split at heq
  · rw [if_pos ‹_›]
    refine .congr (refers_bind (refers_decodeBit 17 hq) fun hit t ht => ?_) heq
    cases hit with
    | false => exact refers_pure () t
    | true =>
      refine refers_bind (refers_decodeBit 18 (ht.status ▸ hq)) fun r1 t1 ht1 => ?_
      refine refers_bind (refers_decodeBit 18 ((ht.trans ht1).status ▸ hq)) fun r0 t0 ht0 => ?_
      have hto := (ht.trans ht1).trans ht0
      refine refers_bind (refers_becomeSignificant _ _ _ (hto.status ▸ hq)) fun _ u hu => ?_
      exact hrows _ (hto.trans hu)
  · rw [if_neg ‹_›]
    exact .congr (hrows _ (.refl s)) heq

/-! ## Passes -/

/-- A pass command ends as its reference pass does, given that its visits and its closing write do. -/
theorem endPass_eq {r : RefRun State} {m : Eng Unit} {s : State} (h : Refers seenState r m s) :
    endPass s r = runCommand true (do m; modify countPass) s := by
  obtain ⟨hends, hframe⟩ := h
  rw [hends, runCommand]
  cases hm : m s with
  | ok a t =>
    rw [hm] at hframe
    rw [eng_bind_ok hm]
    show _ = Host.Outcome.next (complete (setPassDone (t.passDone + 1) t))
    rw [show t.passDone = s.passDone from hframe.passDone]
    rfl
  | error e t =>
    rw [eng_bind_error hm]
    cases e <;> rfl

theorem exec_t1Sp_eq_ref {s : State} {b : BitVec 8} (hb : legalPlane b = true) (hs : s.status.session = true)
    (hq : s.status.mqrdy = true) :
    exec (.t1Sp b) s =
      endPass s ((scanOrder s.lat.lw.toNat s.lat.lh.toNat).foldlM (refSpVisit b.toNat) (complete s)) := by
  rw [exec_pass_ready (i := .t1Sp b) hb rfl rfl hs hq,
    endPass_eq (refers_forEach fun p _ t ht => refers_spVisit b.toNat p (ht.status ▸ hq))]
  rfl

theorem exec_t1Mr_eq_ref {s : State} {b : BitVec 8} (hb : legalPlane b = true) (hs : s.status.session = true)
    (hq : s.status.mqrdy = true) :
    exec (.t1Mr b) s =
      endPass s ((scanOrder s.lat.lw.toNat s.lat.lh.toNat).foldlM (refMrVisit b.toNat) (complete s)) := by
  rw [exec_pass_ready (i := .t1Mr b) hb rfl rfl hs hq,
    endPass_eq (refers_forEach fun p _ t ht => refers_mrVisit b.toNat p (ht.status ▸ hq))]
  rfl

/-- Every π of the first `n` coefficients cleared. -/
def clearedVisits (n : Nat) (s : State) : State := (List.range n).foldl (fun t i => clearVisited i t) s

theorem clearVisits_eq (n : Nat) (s : State) :
    forEach (List.range n) (fun i => modify (clearVisited i)) s = .ok () (clearedVisits n s) :=
  forEach_modify (List.range n) clearVisited s

theorem clearedVisits_succ (n : Nat) (s : State) : clearedVisits (n + 1) s = clearVisited n (clearedVisits n s) := by
  rw [clearedVisits, List.range_succ, List.foldl_append]
  rfl

theorem clearedVisits_frame (n : Nat) (s : State) :
    clearedVisits n s = { s with flag := (clearedVisits n s).flag } := by
  induction n with
  | zero => rfl
  | succ n ih =>
    rw [clearedVisits_succ, ih]
    rfl

/-- Exactly the first `n` elements of FLAG lose their π. -/
theorem flagAt_clearedVisits (n i : Nat) (s : State) :
    flagAt (clearedVisits n s) i = if i < n then { flagAt s i with pi := false } else flagAt s i := by
  induction n with
  | zero => rfl
  | succ n ih =>
    rw [clearedVisits_succ, clearVisited, flagAt_writeFlag, ih]
    by_cases hi : i = n
    · subst hi
      rw [if_pos rfl, if_pos (Nat.lt_succ_self i), ih, if_neg (Nat.lt_irrefl i)]
    · rw [if_neg hi]
      exact if_congr (by omega) rfl rfl

theorem clearedVisits_comm {g : State → State} (hg : ∀ i s, clearVisited i (g s) = g (clearVisited i s)) (n : Nat)
    (s : State) : clearedVisits n (g s) = g (clearedVisits n s) := by
  induction n with
  | zero => rfl
  | succ n ih => rw [clearedVisits_succ, clearedVisits_succ, ih, hg]

theorem refers_clearPi {n : Nat} {s : State} (hn : blockArea s = n) :
    Refers seenState (pure (refClearPi (complete s))) (forEach (List.range n) (fun i => modify (clearVisited i))) s := by
  subst hn
  have hcomm : refClearPi (complete s) = complete (clearedVisits (blockArea s) s) :=
    clearedVisits_comm (fun _ _ => rfl) (blockArea s) s
  rw [refers_iff, clearVisits_eq, hcomm, endState_ok, clearedVisits_frame]
  exact ⟨rfl, rfl, rfl, rfl⟩

theorem exec_t1Cu_eq_ref {s : State} {b : BitVec 8} (hb : legalPlane b = true) (hs : s.status.session = true)
    (hq : s.status.mqrdy = true) :
    exec (.t1Cu b) s =
      endPass s (((stripeColumns s.lat.lw.toNat s.lat.lh.toNat).foldlM (refCuColumn b.toNat) (complete s)).map
        refClearPi) := by
  have hclear : ∀ r : RefRun State, r.map refClearPi = r >>= fun t => pure (refClearPi t) := fun r => by cases r <;> rfl
  have hcols : Refers seenState
      ((stripeColumns s.lat.lw.toNat s.lat.lh.toNat).foldlM (refCuColumn b.toNat) (complete s))
      (forEach (stripeColumns s.lat.lw.toNat s.lat.lh.toNat) (cuColumn b.toNat)) s :=
    refers_forEach fun p _ t ht => refers_cuColumn b.toNat p (ht.status ▸ hq)
  have hpass := refers_bind (k' := fun t => pure (refClearPi t)) hcols fun _ t ht =>
    refers_clearPi (blockArea_congr (s := s) (by rw [ht.lat]) (by rw [ht.lat]))
  rw [exec_pass_ready (i := .t1Cu b) hb rfl rfl hs hq, hclear, endPass_eq hpass]
  refine runCommand_congr ?_
  rw [bind_assoc]
  rfl

end Sys2Proof.Machine
end

section
/-! Passes on a fed decoder and a written grid: each visit completes, and what it changes is said coefficient by
coefficient, by a relation of its old and new word and flags. The relations compose, so a whole pass changes each
coefficient as one visit may (R156, R158 to R160). -/

namespace Sys2Proof.Machine

variable {α : Type}

/-! ## Coefficients with their flags -/

/-- What a coefficient holds: its word, if written, and its flags. -/
structure Cell where
  word  : Option Word
  flags : CoefFlags

/-- The coefficient at an index. -/
def cellAt (s : State) (i : Nat) : Cell := ⟨Memory.read s.coef i, flagAt s i⟩

theorem cellAt_writeCoef (s : State) (i k : Nat) (v : Word) :
    cellAt (writeCoef i v s) k = if k = i then ⟨some v, flagAt s i⟩ else cellAt s k := by
  rw [cellAt, writeCoef_coef, Memory.read_write]
  split
  · subst k; rfl
  · rfl

theorem cellAt_writeFlag (s : State) (i k : Nat) (f : CoefFlags) :
    cellAt (writeFlag i f s) k = if k = i then ⟨Memory.read s.coef i, f⟩ else cellAt s k := by
  rw [cellAt, flagAt_writeFlag]
  split
  · subst k; rfl
  · rfl

theorem cellAt_congr {s t : State} (hc : t.coef = s.coef) (hf : t.flag = s.flag) (i : Nat) : cellAt t i = cellAt s i := by
  rw [cellAt, cellAt, hc, flagAt, flagAt, hf]

theorem DecoderOnly.cellAt {s t : State} (h : DecoderOnly s t) (i : Nat) : cellAt t i = cellAt s i :=
  cellAt_congr h.coef h.flag i

/-- The coefficient `i` is now `c`, and the others are as before. -/
def CellSet (i : Nat) (c : Cell) (s t : State) : Prop := ∀ k, cellAt t k = if k = i then c else cellAt s k

theorem CellSet.same {i : Nat} {c : Cell} {s t : State} (h : CellSet i c s t) : cellAt t i = c :=
  (h i).trans (if_pos rfl)

theorem CellSet.other {i k : Nat} {c : Cell} {s t : State} (h : CellSet i c s t) (hk : k ≠ i) :
    cellAt t k = cellAt s k := (h k).trans (if_neg hk)

theorem cellSet_write (i : Nat) (v : Word) (f : CoefFlags) (s : State) :
    CellSet i ⟨some v, f⟩ s (writeFlag i f (writeCoef i v s)) := fun k => by
  rw [cellAt_writeFlag, cellAt_writeCoef, writeCoef_coef, Memory.read_write_same]
  split <;> rfl

/-- A relation of old and new cell that holds of the cell set holds of every cell. -/
theorem CellSet.forall {rel : Cell → Cell → Prop} (hrefl : ∀ x, rel x x) {i : Nat} {c : Cell} {s t : State}
    (h : CellSet i c s t) (hi : rel (cellAt s i) c) (k : Nat) : rel (cellAt s k) (cellAt t k) := by
  by_cases hk : k = i
  · subst hk; rw [h.same]; exact hi
  · rw [h.other hk]; exact hrefl _

/-! ## Parts of a pass that complete -/

/-- The decoder is fed and the grid written: decisions, reads of the grid, and so visits, complete. -/
structure CanDecide (s : State) : Prop where
  fed  : DecoderFed s
  grid : ∀ i, i < blockArea s → Memory.has s.coef i = true

theorem PassReady.canDecide {s : State} (h : PassReady s) : CanDecide s := ⟨h.decoder, h.grid⟩

/-- What a part of a pass keeps besides the coefficients: it writes inside the block, and none of the contexts `kept`. -/
structure PartKept (kept : Fin 19 → Prop) (s t : State) : Prop where
  frame : BlockOnly s t
  ctx   : ∀ c, kept c → ctxAt t c = ctxAt s c

section
variable {kept : Fin 19 → Prop}

theorem PartKept.refl (s : State) : PartKept kept s s := ⟨.refl s, fun _ _ => rfl⟩

theorem PartKept.trans {s t u : State} (h : PartKept kept s t) (k : PartKept kept t u) : PartKept kept s u :=
  ⟨h.frame.trans k.frame, fun c hc => (k.ctx c hc).trans (h.ctx c hc)⟩

theorem PartKept.index {s t : State} (h : PartKept kept s t) (y x : Nat) : coefIndex t y x = coefIndex s y x := by
  rw [coefIndex, coefIndex, h.frame.lat]

theorem CanDecide.of_decoder {s t : State} (h : CanDecide s) (ht : DecoderFed t) (hd : DecoderOnly s t) : CanDecide t :=
  ⟨ht, fun i hi => hd.coef ▸ h.grid i (hd.blockOnly.area ▸ hi)⟩

theorem CanDecide.writeCoef {s : State} (h : CanDecide s) (i : Nat) (v : Word) : CanDecide (writeCoef i v s) :=
  ⟨⟨h.fed.ready, h.fed.interval, h.fed.fed⟩, fun k hk => Memory.has_write _ _ _ _ (h.grid k hk)⟩

theorem CanDecide.writeFlag {s : State} (h : CanDecide s) (i : Nat) (f : CoefFlags) : CanDecide (writeFlag i f s) :=
  ⟨⟨h.fed.ready, h.fed.interval, h.fed.fed⟩, h.grid⟩

/-- A decision in a context that is not kept. -/
theorem decodeBit_part {c : Fin 19} (hc : ¬ kept c) {s : State} (h : CanDecide s) :
    ∃ d t, decodeBit c s = .ok d t ∧ CanDecide t ∧ PartKept kept s t ∧ DecoderOnly s t := by
  obtain ⟨t, hok, hfed, hd, hcx, -⟩ := decodeBit_completes c h.fed
  refine ⟨_, t, hok, h.of_decoder hfed hd, ⟨hd.blockOnly, fun k hk => ?_⟩, hd⟩
  have hne : c.val ≠ k.val := fun he => hc (Fin.ext he ▸ hk)
  rw [ctxAt, hcx, ctxAt]
  exact Vector.getElem_set_ne _ _ hne

theorem PartKept.writeFlag {s : State} {i : Nat} (hi : i < blockArea s) (f : CoefFlags) :
    PartKept kept s (writeFlag i f s) := ⟨.writeFlag hi f, fun _ _ => rfl⟩

theorem PartKept.writeCoef {s : State} {i : Nat} (hi : i < blockArea s) (v : Word) :
    PartKept kept s (writeCoef i v s) := ⟨.writeCoef hi v, fun _ _ => rfl⟩

/-- A decision before a cell is set. -/
theorem CellSet.after_decoder {i : Nat} {c : Cell} {s t u : State} (h : CellSet i c t u) (hd : DecoderOnly s t) :
    CellSet i c s u := fun k => by rw [h k, hd.cellAt]

/-- `BecomeSignificant` at a point of the block, where no sign context is kept (R156). -/
theorem becomeSignificant_part (hk : ∀ c, kept c → c < 9 ∨ 13 < c) {y x : Nat} (b : Nat) {s : State} (h : CanDecide s)
    (hy : y < s.lat.lh.toNat) (hx : x < s.lat.lw.toNat) :
    ∃ neg t, becomeSignificant y x b s = .ok () t ∧ CanDecide t ∧ PartKept kept s t ∧
      CellSet (coefIndex s y x) ⟨some (firstWord neg b), { flagAt s (coefIndex s y x) with sigma := true }⟩ s t := by
  obtain ⟨neg, t, hok, hfed, hd, hctx⟩ := decodeSign_completes y x h.fed h.grid
  have ht := h.of_decoder hfed hd
  have hidx : coefIndex t y x = coefIndex s y x := by rw [coefIndex, coefIndex, hd.lat]
  have hflag : flagAt t (coefIndex s y x) = flagAt s (coefIndex s y x) := by rw [flagAt, flagAt, hd.flag]
  have hi : coefIndex s y x < blockArea t := hd.blockOnly.area ▸ coefIndex_lt hy hx
  have hctx' : PartKept kept s t := ⟨hd.blockOnly, fun c hc => hctx c (hk c hc)⟩
  have hw : markSignificant y x b neg t =
      writeFlag (coefIndex s y x) { flagAt s (coefIndex s y x) with sigma := true }
        (writeCoef (coefIndex s y x) (firstWord neg b) t) := by
    rw [← hflag, ← hidx]
    rfl
  refine ⟨neg, _, (eng_bind_ok hok).trans (congrArg (EStateM.Result.ok ()) hw), (ht.writeCoef _ _).writeFlag _ _,
    hctx'.trans ((PartKept.writeCoef hi (firstWord neg b)).trans (.writeFlag (s := writeCoef _ _ t) hi _)),
    (cellSet_write _ _ _ t).after_decoder hd⟩

/-- `BecomeSignificant` of an insignificant coefficient where the decision is 1, and else nothing: the decision becomes
its σ. -/
theorem onlyIf_becomeSignificant_part (hk : ∀ c, kept c → c < 9 ∨ 13 < c) {y x : Nat} (b : Nat) (d : Bool) {s : State}
    (h : CanDecide s) (hy : y < s.lat.lh.toNat) (hx : x < s.lat.lw.toNat)
    (hsig : (flagAt s (coefIndex s y x)).sigma = false) :
    ∃ neg t, onlyIf d (becomeSignificant y x b) s = .ok () t ∧ CanDecide t ∧ PartKept kept s t ∧
      CellSet (coefIndex s y x) ⟨if d then some (firstWord neg b) else Memory.read s.coef (coefIndex s y x),
        { flagAt s (coefIndex s y x) with sigma := d }⟩ s t := by
  cases d with
  | true => exact becomeSignificant_part hk b h hy hx
  | false =>
    have hflag : { flagAt s (coefIndex s y x) with sigma := false } = flagAt s (coefIndex s y x) := by rw [← hsig]
    refine ⟨false, s, rfl, h, .refl s, fun k => ?_⟩
    split
    · subst k
      exact congrArg (Cell.mk _) hflag.symm
    · rfl

end

/-- Between `s` and `t`, which are `rel` apart, a change `step` is made. -/
def MadeBetween (rel step : State → State → Prop) (s t : State) : Prop :=
  ∃ u v, rel s u ∧ rel u v ∧ step u v ∧ rel v t

/-- A loop of parts that complete and make changes of a kind that composes; each part is made between the start and
the end. -/
theorem forEach_part {rel : State → State → Prop} {visited : α → State → State → Prop} {lat : Latches} {l : List α}
    {body : α → Eng Unit} (hrefl : ∀ s, rel s s) (htrans : ∀ {s t u}, rel s t → rel t u → rel s u)
    (hlat : ∀ {s t}, rel s t → t.lat = s.lat)
    (h : ∀ x ∈ l, ∀ u, u.lat = lat → CanDecide u →
      ∃ t, body x u = .ok () t ∧ CanDecide t ∧ rel u t ∧ visited x u t)
    {s : State} (hs : s.lat = lat) (hc : CanDecide s) :
    ∃ t, forEach l body s = .ok () t ∧ CanDecide t ∧ rel s t ∧
      ∀ x ∈ l, MadeBetween rel (visited x) s t := by
  induction l generalizing s with
  | nil => exact ⟨s, rfl, hc, hrefl s, fun _ hx => nomatch hx⟩
  | cons x r ih =>
    obtain ⟨u, hu, hcu, hsu, hvis⟩ := h x (by simp) s hs hc
    obtain ⟨t, ht, hct, hut, hrest⟩ := ih (fun y hy => h y (by simp [hy])) ((hlat hsu).trans hs) hcu
    refine ⟨t, by rw [forEach_cons, eng_bind_ok hu, ht], hct, htrans hsu hut, fun y hy => ?_⟩
    rcases List.mem_cons.mp hy with rfl | hy
    · exact ⟨s, u, hrefl s, hsu, hvis, hut⟩
    · obtain ⟨v, w, hv, hvw, hstep, hw⟩ := hrest y hy
      exact ⟨v, w, htrans hsu hv, hvw, hstep, hw⟩

/-! ## The end of a pass -/

/-- A pass counts itself and completes. -/
def passEnd (t : State) : State := complete (countPass t)

/-- What the end of every completed pass keeps (R28, R250). -/
theorem passEnd_kept {s t : State} (hs : s.status.session = true) (hc : CanDecide t) (h : BlockOnly s t) :
    Completed s (passEnd t) ∧ (passEnd t).passDone = s.passDone + 1 ∧ (passEnd t).lat = s.lat ∧
      DecoderSideKept s (passEnd t) ∧ OutsideBlockKept s (passEnd t) ∧ PassReady (passEnd t) := by
  have hst : (passEnd t).status = s.status.completed := congrArg StatusFlags.completed h.status
  refine ⟨⟨hst, h.errinfo⟩, congrArg (· + 1) h.passDone, h.lat,
    h.kept.trans ⟨⟨rfl, rfl, rfl, rfl⟩, rfl, rfl, rfl⟩, h.outside,
    ⟨?_, ⟨hc.fed.ready, hc.fed.interval, hc.fed.fed⟩, hc.grid⟩⟩
  rw [hst]
  exact hs

end Sys2Proof.Machine
end

section
/-! The significance propagation pass and the refinement pass on a fed decoder (R158, R159): what one visit changes, and
so what the pass changes. -/

namespace Sys2Proof.Machine

/-! ## The significance propagation pass -/

/-- The contexts a significance propagation pass leaves (R153, R154). -/
def spKept (c : Fin 19) : Prop := c = 0 ∨ 14 ≤ c

/-- What a significance propagation pass on bit position `b` may make of a coefficient (R158). -/
structure SpCell (b : Nat) (x y : Cell) : Prop where
  rho    : y.flags.rho = x.flags.rho
  pi     : x.flags.pi = true → y.flags.pi = true
  sig    : x.flags.sigma = true → y = x
  insig  : y.flags.sigma = false → y.word = x.word
  became : x.flags.sigma = false → y.flags.sigma = true →
    y.flags.pi = true ∧ ∃ neg, y.word = some (firstWord neg b)

theorem SpCell.refl (b : Nat) (x : Cell) : SpCell b x x :=
  ⟨rfl, id, fun _ => rfl, fun _ => rfl, fun h0 h1 => by rw [h0] at h1; cases h1⟩

theorem SpCell.trans {b : Nat} {x y z : Cell} (h : SpCell b x y) (k : SpCell b y z) : SpCell b x z where
  rho    := k.rho.trans h.rho
  pi     := k.pi ∘ h.pi
  sig    := fun hx => by
    have hy := h.sig hx
    exact (k.sig (hy ▸ hx)).trans hy
  insig  := fun hz => by
    cases hy : y.flags.sigma with
    | true => rw [k.sig hy, hy] at hz; cases hz
    | false => exact (k.insig hz).trans (h.insig hy)
  became := fun hx hz => by
    cases hy : y.flags.sigma with
    | true => rw [k.sig hy]; exact h.became hx hy
    | false => exact k.became hy hz

/-- What a part of the pass changes: the coefficients, and a coefficient is marked visited only beside a significant
one. -/
structure SpChange (b : Nat) (s t : State) : Prop where
  kept  : PartKept spKept s t
  cells : ∀ i, SpCell b (cellAt s i) (cellAt t i)
  cause : ∀ y x, y < s.lat.lh.toNat → x < s.lat.lw.toNat → (flagAt s (coefIndex s y x)).pi = false →
    (flagAt t (coefIndex s y x)).pi = true →
    ∃ y' x', Neighbours y x y' x' ∧ y' < s.lat.lh.toNat ∧ x' < s.lat.lw.toNat ∧
      (flagAt t (coefIndex s y' x')).sigma = true

theorem SpChange.sigma {b i : Nat} {s t : State} (h : SpChange b s t) (hs : (flagAt s i).sigma = true) :
    (flagAt t i).sigma = true :=
  (congrArg (fun c : Cell => c.flags.sigma) ((h.cells i).sig hs)).trans hs

theorem SpChange.refl (b : Nat) (s : State) : SpChange b s s :=
  ⟨.refl s, fun _ => .refl b _, fun _ _ _ _ h0 h1 => by rw [h0] at h1; cases h1⟩

theorem SpChange.trans {b : Nat} {s t u : State} (h : SpChange b s t) (k : SpChange b t u) : SpChange b s u where
  kept  := h.kept.trans k.kept
  cells := fun i => (h.cells i).trans (k.cells i)
  cause := fun y x hy hx h0 h1 => by
    have hlat := h.kept.frame.lat
    have hidx := h.kept.index
    cases hp : (flagAt t (coefIndex s y x)).pi with
    | true =>
      obtain ⟨y', x', hn, hy', hx', hsig⟩ := h.cause y x hy hx h0 hp
      exact ⟨y', x', hn, hy', hx', k.sigma hsig⟩
    | false =>
      obtain ⟨y', x', hn, hy', hx', hsig⟩ :=
        k.cause y x (hlat ▸ hy) (hlat ▸ hx) ((hidx y x).symm ▸ hp) ((hidx y x).symm ▸ h1)
      exact ⟨y', x', hn, hlat ▸ hy', hlat ▸ hx', hidx y' x' ▸ hsig⟩

theorem spKept_signs {c : Fin 19} (h : spKept c) : c < 9 ∨ 13 < c := by
  unfold spKept at h
  omega

theorem not_spKept_zc {s : State} {y x : Nat} (h : zc s y x ≠ 0) : ¬ spKept (zc s y x) := by
  have hle := zc_le s y x
  unfold spKept
  omega

/-- A tested coefficient is decided, and marked visited (R158). -/
theorem spVisit_tested (b : Nat) {p : Nat × Nat} {s : State} (hc : CanDecide s) (hy : p.1 < s.lat.lh.toNat)
    (hx : p.2 < s.lat.lw.toNat) (hsig : (flagAt s (coefIndex s p.1 p.2)).sigma = false) (hz : zc s p.1 p.2 ≠ 0) :
    ∃ d neg t, spVisit b p s = .ok () t ∧ CanDecide t ∧ PartKept spKept s t ∧
      CellSet (coefIndex s p.1 p.2) ⟨if d then some (firstWord neg b) else Memory.read s.coef (coefIndex s p.1 p.2),
        ⟨d, true, (flagAt s (coefIndex s p.1 p.2)).rho⟩⟩ s t := by
  obtain ⟨d, u, hu, hcu, hku, hdu⟩ := decodeBit_part (not_spKept_zc hz) hc
  have hidx := hku.index p.1 p.2
  have hlat := hku.frame.lat
  have hflag : flagAt u (coefIndex s p.1 p.2) = flagAt s (coefIndex s p.1 p.2) := by rw [flagAt, flagAt, hdu.flag]
  obtain ⟨neg, v, hv, hcv, hkv, hset⟩ := onlyIf_becomeSignificant_part (kept := spKept) (fun _ => spKept_signs) b d hcu
    (hlat ▸ hy) (hlat ▸ hx) (by rw [hidx, hflag]; exact hsig)
  rw [hidx, hflag, hdu.coef] at hset
  replace hset := hset.after_decoder hdu
  have hksv := hku.trans hkv
  have hi : coefIndex s p.1 p.2 < blockArea v := hksv.frame.area ▸ coefIndex_lt hy hx
  have hw : setVisited p.1 p.2 v =
      writeFlag (coefIndex s p.1 p.2) { flagAt v (coefIndex s p.1 p.2) with pi := true } v := by
    rw [setVisited, hksv.index]
  refine ⟨d, neg, setVisited p.1 p.2 v, ?_, ?_, ?_, fun k => ?_⟩
  · rw [spVisit_eq, if_pos ⟨hsig, hz⟩, eng_bind_ok hu, eng_bind_ok hv]
    rfl
  · rw [hw]; exact hcv.writeFlag _ _
  · rw [hw]; exact hksv.trans (.writeFlag hi _)
  · rw [hw, cellAt_writeFlag]
    split
    · have hcell := hset.same
      rw [cellAt, Cell.mk.injEq] at hcell
      rw [hcell.1, hcell.2]
    · exact hset.other ‹_›

/-- What a visit of the significance propagation pass is for: a coefficient to be tested is marked visited. -/
def SpVisited (p : Nat × Nat) (s t : State) : Prop :=
  (flagAt s (coefIndex s p.1 p.2)).sigma = false → zc s p.1 p.2 ≠ 0 → (flagAt t (coefIndex s p.1 p.2)).pi = true

/-- A visit of the significance propagation pass, tested or not. -/
theorem spVisit_part (b : Nat) {p : Nat × Nat} {s : State} (hc : CanDecide s) (hy : p.1 < s.lat.lh.toNat)
    (hx : p.2 < s.lat.lw.toNat) :
    ∃ t, spVisit b p s = .ok () t ∧ CanDecide t ∧ SpChange b s t ∧ SpVisited p s t := by
  by_cases ht : (flagAt s (coefIndex s p.1 p.2)).sigma = false ∧ zc s p.1 p.2 ≠ 0
  · obtain ⟨hsig, hz⟩ := ht
    obtain ⟨d, neg, t, hok, hct, hk, hset⟩ := spVisit_tested b hc hy hx hsig hz
    have hcells : ∀ i, SpCell b (cellAt s i) (cellAt t i) := hset.forall (.refl b)
      { rho    := rfl
        pi     := fun _ => rfl
        sig    := fun h => by rw [cellAt, hsig] at h; cases h
        insig  := fun h => by rw [show d = false from h]; rfl
        became := fun _ h => ⟨rfl, neg, by rw [show d = true from h]; rfl⟩ }
    refine ⟨t, hok, hct, ⟨hk, hcells, fun y x hy' hx' h0 h1 => ?_⟩, fun _ _ => congrArg (·.flags.pi) hset.same⟩
    have hidx : coefIndex s y x = coefIndex s p.1 p.2 := by
      by_contra hne
      have := congrArg (·.flags.pi) (hset.other hne)
      exact Bool.false_ne_true (h0.symm.trans (this.symm.trans h1))
    obtain ⟨rfl, rfl⟩ := coefIndex_inj hx' hx hidx
    obtain ⟨y', x', hn, hy', hx', hs⟩ := exists_neighbour_of_zc hz
    exact ⟨y', x', hn, hy', hx', (congrArg (fun c : Cell => c.flags.sigma) ((hcells _).sig hs)).trans hs⟩
  · exact ⟨s, by rw [spVisit_eq, if_neg ht], hc, .refl b s, fun hsig hz => absurd ⟨hsig, hz⟩ ht⟩

/-- The pass on a fed decoder: its changes, and every point of the scan is visited between the start and the end. -/
theorem passSp_part (b : Nat) {s : State} (hc : CanDecide s) :
    ∃ t, passSp b s = .ok () (countPass t) ∧ CanDecide t ∧ SpChange b s t ∧
      ∀ p ∈ scanOrder s.lat.lw.toNat s.lat.lh.toNat, MadeBetween (SpChange b) (SpVisited p) s t := by
  obtain ⟨t, hok, hct, hst, hvis⟩ := forEach_part (visited := SpVisited) (.refl b) .trans (fun h => h.kept.frame.lat)
    (fun p hp u hu hcu => spVisit_part b hcu (hu ▸ (mem_scanOrder.mp hp).1) (hu ▸ (mem_scanOrder.mp hp).2)) rfl hc
  exact ⟨t, by rw [passSp, eng_bind_ok (eng_get s), eng_bind_ok hok]; rfl, hct, hst, hvis⟩

/-- An insignificant coefficient with a neighbour significant before the pass is visited (R158). -/
theorem SpChange.visited {b : Nat} {s t : State} {y x y' x' : Nat}
    (hvis : MadeBetween (SpChange b) (SpVisited (y, x)) s t) (hsig : (flagAt s (coefIndex s y x)).sigma = false)
    (hn : Neighbours y x y' x') (hy : y' < s.lat.lh.toNat) (hx : x' < s.lat.lw.toNat)
    (hs : (flagAt s (coefIndex s y' x')).sigma = true) : (flagAt t (coefIndex s y x)).pi = true := by
  obtain ⟨u, v, hsu, huv, hstep, hvt⟩ := hvis
  have hidx := hsu.kept.index
  have hlat := hsu.kept.frame.lat
  have hz : zc u y x ≠ 0 := zc_ne_zero_of_neighbour hn (hlat ▸ hy) (hlat ▸ hx) (by rw [hidx]; exact hsu.sigma hs)
  rw [SpVisited, hidx] at hstep
  cases hsigu : (flagAt u (coefIndex s y x)).sigma with
  | true => exact ((huv.trans hvt).cells _).pi ((hsu.cells _).became hsig hsigu).1
  | false => exact (hvt.cells _).pi (hstep hsigu hz)

/-- Settles O38: the pass is the reference pass, and on a fed decoder each visit completes and changes no more than its
own coefficient. -/
theorem significancePassCompletes : Obligations.SignificancePassCompletes := by
  refine ⟨fun s b hb hs hq => exec_t1Sp_eq_ref hb hs hq, fun s b hb h => ?_⟩
  obtain ⟨t, hok, hct, hst, hvis⟩ := passSp_part b.toNat h.canDecide
  obtain ⟨hcomp, hpd, hlat, hside, hout, hready⟩ := passEnd_kept h.session hct hst.kept.frame
  refine ⟨passEnd t, ?_, hcomp, hpd, hlat, hside, hout, hready, hst.kept.ctx, fun i hi => ?_⟩
  · rw [exec_pass_ready (i := .t1Sp b) hb rfl rfl h.session h.decoder.ready]
    exact runCommand_ok hok
  · have hcell := hst.cells i
    refine ⟨hcell.rho, fun hs => ?_, hcell.insig, fun h0 h1 => ?_, fun y x hy hx he h0 => ⟨?_, ?_⟩⟩
    · have := hcell.sig hs
      exact ⟨congrArg Cell.flags this, congrArg Cell.word this⟩
    · obtain ⟨hpi, neg, hw⟩ := hcell.became h0 h1
      exact ⟨hpi, neg, hw.trans (congrArg some (firstWord_ofNat neg b.toNat).symm)⟩
    · subst he
      intro y' x' hn hy' hx' hs
      have hpi := SpChange.visited (hvis (y, x) (mem_scanOrder.mpr ⟨hy, hx⟩)) h0 hn hy' hx' hs
      exact hpi
    · subst he
      exact hst.cause y x hy hx

/-! ## The refinement pass -/

/-- The contexts a refinement pass leaves (R155). -/
def mrKept (c : Fin 19) : Prop := c < 14 ∨ 16 < c

/-- What a refinement pass on bit position `b` may make of a coefficient (R159): of one significant and not visited, and
of no other. -/
structure MrCell (b : Nat) (x y : Cell) : Prop where
  sigma : y.flags.sigma = x.flags.sigma
  pi    : y.flags.pi = x.flags.pi
  rho   : x.flags.rho = true → y.flags.rho = true
  due   : ∀ c, x.word = some c → y.word = some c ∨ y.word = some (refinedWord c true b)
  other : ¬ (x.flags.sigma = true ∧ x.flags.pi = false) → y = x

theorem refinedWord_false (c : Word) (b : Nat) : refinedWord c false b = c := BitVec.or_zero

theorem refinedWord_twice (c : Word) (b : Nat) : refinedWord (refinedWord c true b) true b = refinedWord c true b := by
  rw [refinedWord, refinedWord, BitVec.or_assoc, BitVec.or_self]

theorem MrCell.refl (b : Nat) (x : Cell) : MrCell b x x := ⟨rfl, rfl, id, fun _ => .inl, fun _ => rfl⟩

theorem MrCell.trans {b : Nat} {x y z : Cell} (h : MrCell b x y) (k : MrCell b y z) : MrCell b x z where
  sigma := k.sigma.trans h.sigma
  pi    := k.pi.trans h.pi
  rho   := k.rho ∘ h.rho
  due   := fun c hc => by
    rcases h.due c hc with hy | hy
    · exact k.due c hy
    · rcases k.due _ hy with hz | hz
      · exact .inr hz
      · exact .inr (refinedWord_twice c b ▸ hz)
  other := fun hx => (k.other (h.sigma ▸ h.pi ▸ hx)).trans (h.other hx)

/-- What a part of the pass changes. -/
structure MrChange (b : Nat) (s t : State) : Prop where
  kept  : PartKept mrKept s t
  cells : ∀ i, MrCell b (cellAt s i) (cellAt t i)

theorem MrChange.refl (b : Nat) (s : State) : MrChange b s s := ⟨.refl s, fun _ => .refl b _⟩

theorem MrChange.trans {b : Nat} {s t u : State} (h : MrChange b s t) (k : MrChange b t u) : MrChange b s u :=
  ⟨h.kept.trans k.kept, fun i => (h.cells i).trans (k.cells i)⟩

theorem not_mrKept_mrc (s : State) (y x : Nat) : ¬ mrKept (mrc s y x) := by
  have hrange := mrc_range s y x
  unfold mrKept
  omega

/-- A coefficient due for refinement takes the decision at the bit position, and is marked refined (R159). -/
theorem mrVisit_due (b : Nat) {p : Nat × Nat} {s : State} (hc : CanDecide s) (hy : p.1 < s.lat.lh.toNat)
    (hx : p.2 < s.lat.lw.toNat) (hsig : (flagAt s (coefIndex s p.1 p.2)).sigma = true)
    (hpi : (flagAt s (coefIndex s p.1 p.2)).pi = false) :
    ∃ d c t, mrVisit b p s = .ok () t ∧ CanDecide t ∧ PartKept mrKept s t ∧
      Memory.read s.coef (coefIndex s p.1 p.2) = some c ∧
      CellSet (coefIndex s p.1 p.2) ⟨some (refinedWord c d b), { flagAt s (coefIndex s p.1 p.2) with rho := true }⟩ s t := by
  obtain ⟨d, u, hu, hcu, hku, hdu⟩ := decodeBit_part (not_mrKept_mrc s p.1 p.2) hc
  have hidx := hku.index p.1 p.2
  have hflag : flagAt u (coefIndex s p.1 p.2) = flagAt s (coefIndex s p.1 p.2) := by rw [flagAt, flagAt, hdu.flag]
  have hi : coefIndex s p.1 p.2 < blockArea u := hku.frame.area ▸ coefIndex_lt hy hx
  obtain ⟨c, hread⟩ := Option.isSome_iff_exists.mp (hcu.grid _ hi)
  have hw : setRefined p.1 p.2 (writeCoef (coefIndex s p.1 p.2) (refinedWord c d b) u) =
      writeFlag (coefIndex s p.1 p.2) { flagAt s (coefIndex s p.1 p.2) with rho := true }
        (writeCoef (coefIndex s p.1 p.2) (refinedWord c d b) u) := by
    rw [← hflag, ← hidx]
    rfl
  refine ⟨d, c, _, ?_, (hcu.writeCoef _ (refinedWord c d b)).writeFlag _ _,
    hku.trans ((PartKept.writeCoef hi _).trans (.writeFlag (s := writeCoef _ _ u) hi _)), hdu.coef ▸ hread,
    (cellSet_write _ _ _ u).after_decoder hdu⟩
  rw [mrVisit_eq, hsig, hpi]
  refine (eng_bind_ok hu).trans ((eng_bind_ok (readCoef_ok hread)).trans ?_)
  exact congrArg (EStateM.Result.ok ()) hw

/-- What a visit of the refinement pass is for: a coefficient due for refinement is marked refined. -/
def MrVisited (p : Nat × Nat) (s t : State) : Prop :=
  (flagAt s (coefIndex s p.1 p.2)).sigma = true → (flagAt s (coefIndex s p.1 p.2)).pi = false →
    (flagAt t (coefIndex s p.1 p.2)).rho = true

/-- A visit of the refinement pass, due or not. -/
theorem mrVisit_part (b : Nat) {p : Nat × Nat} {s : State} (hc : CanDecide s) (hy : p.1 < s.lat.lh.toNat)
    (hx : p.2 < s.lat.lw.toNat) :
    ∃ t, mrVisit b p s = .ok () t ∧ CanDecide t ∧ MrChange b s t ∧ MrVisited p s t := by
  by_cases ht : (flagAt s (coefIndex s p.1 p.2)).sigma = true ∧ (flagAt s (coefIndex s p.1 p.2)).pi = false
  · obtain ⟨hsig, hpi⟩ := ht
    obtain ⟨d, c, t, hok, hct, hk, hread, hset⟩ := mrVisit_due b hc hy hx hsig hpi
    have hcells : ∀ i, MrCell b (cellAt s i) (cellAt t i) := hset.forall (.refl b)
      { sigma := rfl
        pi    := rfl
        rho   := fun _ => rfl
        due   := fun c' hc' => by
          obtain rfl : c = c' := Option.some.inj (hread.symm.trans hc')
          cases d with
          | false => exact .inl (congrArg some (refinedWord_false c b))
          | true => exact .inr rfl
        other := fun h => absurd ⟨hsig, hpi⟩ h }
    exact ⟨t, hok, hct, ⟨hk, hcells⟩, fun _ _ => congrArg (·.flags.rho) hset.same⟩
  · have hskip : mrVisit b p s = .ok () s := by
      rw [mrVisit_eq, if_neg]
      rwa [Bool.and_eq_true, Bool.not_eq_true']
    exact ⟨s, hskip, hc, .refl b s, fun hsig hpi => absurd ⟨hsig, hpi⟩ ht⟩

theorem passMr_part (b : Nat) {s : State} (hc : CanDecide s) :
    ∃ t, passMr b s = .ok () (countPass t) ∧ CanDecide t ∧ MrChange b s t ∧
      ∀ p ∈ scanOrder s.lat.lw.toNat s.lat.lh.toNat, MadeBetween (MrChange b) (MrVisited p) s t := by
  obtain ⟨t, hok, hct, hst, hvis⟩ := forEach_part (visited := MrVisited) (.refl b) .trans (fun h => h.kept.frame.lat)
    (fun p hp u hu hcu => mrVisit_part b hcu (hu ▸ (mem_scanOrder.mp hp).1) (hu ▸ (mem_scanOrder.mp hp).2)) rfl hc
  exact ⟨t, by rw [passMr, eng_bind_ok (eng_get s), eng_bind_ok hok]; rfl, hct, hst, hvis⟩

/-- A coefficient significant and not visited is marked refined (R159). -/
theorem MrChange.refined {b i : Nat} {s t : State} (hi : i < blockArea s)
    (hvis : ∀ p ∈ scanOrder s.lat.lw.toNat s.lat.lh.toNat, MadeBetween (MrChange b) (MrVisited p) s t)
    (hsig : (flagAt s i).sigma = true) (hpi : (flagAt s i).pi = false) : (flagAt t i).rho = true := by
  obtain ⟨p, hp, rfl⟩ := exists_coefIndex_eq hi
  obtain ⟨u, v, hsu, -, hstep, hvt⟩ := hvis p hp
  have hcell := hsu.cells (coefIndex s p.1 p.2)
  rw [MrVisited, hsu.kept.index] at hstep
  exact (hvt.cells _).rho (hstep (hcell.sigma.trans hsig) (hcell.pi.trans hpi))

/-- Settles O39: the pass is the reference pass, and on a fed decoder each visit completes and refines no more than its
own coefficient. -/
theorem refinementPassCompletes : Obligations.RefinementPassCompletes := by
  refine ⟨fun s b hb hs hq => exec_t1Mr_eq_ref hb hs hq, fun s b hb h => ?_⟩
  obtain ⟨t, hok, hct, hst, hvis⟩ := passMr_part b.toNat h.canDecide
  obtain ⟨hcomp, hpd, hlat, hside, hout, hready⟩ := passEnd_kept h.session hct hst.kept.frame
  refine ⟨passEnd t, ?_, hcomp, hpd, hlat, hside, hout, hready, hst.kept.ctx, fun i hi => ?_⟩
  · rw [exec_pass_ready (i := .t1Mr b) hb rfl rfl h.session h.decoder.ready]
    exact runCommand_ok hok
  · have hcell := hst.cells i
    refine ⟨hcell.sigma, hcell.pi, fun ⟨hsig, hpi⟩ => ⟨?_, ?_⟩, fun hno => ?_⟩
    · have hrho := MrChange.refined hi hvis hsig hpi
      exact hrho
    · obtain ⟨c, hc⟩ := Option.isSome_iff_exists.mp (h.grid i hi)
      refine ⟨c, hc, (hcell.due c hc).imp_right fun hw => hw.trans (congrArg some ?_)⟩
      rw [natCast_one_shiftLeft, refinedWord]
    · have := hcell.other hno
      exact ⟨congrArg (·.flags.rho) this, congrArg Cell.word this⟩

end Sys2Proof.Machine
end

section
/-! The cleanup pass on a fed decoder (R160): what one stripe column changes, the run-length shortcut included, and so
what the pass changes before it clears every π. -/

namespace Sys2Proof.Machine

/-! ## What the pass may change -/

/-- The contexts a cleanup pass leaves (R153, R154, R160). -/
def cuKept (c : Fin 19) : Prop := 14 ≤ c ∧ c ≤ 16

/-- What a cleanup pass on bit position `b` may make of a coefficient before π is cleared (R160): of one neither
significant nor visited, and of no other. -/
structure CuCell (b : Nat) (x y : Cell) : Prop where
  pi     : y.flags.pi = x.flags.pi
  rho    : y.flags.rho = x.flags.rho
  other  : x.flags.sigma = true ∨ x.flags.pi = true → y = x
  insig  : y.flags.sigma = false → y.word = x.word
  became : x.flags.sigma = false → y.flags.sigma = true → ∃ neg, y.word = some (firstWord neg b)

theorem CuCell.refl (b : Nat) (x : Cell) : CuCell b x x :=
  ⟨rfl, rfl, fun _ => rfl, fun _ => rfl, fun h0 h1 => by rw [h0] at h1; cases h1⟩

theorem CuCell.trans {b : Nat} {x y z : Cell} (h : CuCell b x y) (k : CuCell b y z) : CuCell b x z where
  pi     := k.pi.trans h.pi
  rho    := k.rho.trans h.rho
  other  := fun hx => by
    have hy := h.other hx
    exact (k.other (hy ▸ hx)).trans hy
  insig  := fun hz => by
    cases hy : y.flags.sigma with
    | true => rw [k.other (.inl hy), hy] at hz; cases hz
    | false => exact (k.insig hz).trans (h.insig hy)
  became := fun hx hz => by
    cases hy : y.flags.sigma with
    | true => rw [k.other (.inl hy)]; exact h.became hx hy
    | false => exact k.became hy hz

/-- What a part of the pass changes. -/
structure CuChange (b : Nat) (s t : State) : Prop where
  kept  : PartKept cuKept s t
  cells : ∀ i, CuCell b (cellAt s i) (cellAt t i)

theorem CuChange.refl (b : Nat) (s : State) : CuChange b s s := ⟨.refl s, fun _ => .refl b _⟩

theorem CuChange.trans {b : Nat} {s t u : State} (h : CuChange b s t) (k : CuChange b t u) : CuChange b s u :=
  ⟨h.kept.trans k.kept, fun i => (h.cells i).trans (k.cells i)⟩

theorem cuKept_signs {c : Fin 19} (h : cuKept c) : c < 9 ∨ 13 < c := by
  unfold cuKept at h
  omega

theorem not_cuKept_zc (s : State) (y x : Nat) : ¬ cuKept (zc s y x) := by
  have hle := zc_le s y x
  unfold cuKept
  omega

/-! ## Visits and columns -/

/-- A decision leaves the flags of every point. -/
theorem DecoderOnly.flagIndex {s t : State} (h : DecoderOnly s t) (y x : Nat) :
    flagAt t (coefIndex t y x) = flagAt s (coefIndex s y x) := by
  rw [coefIndex, coefIndex, h.lat, flagAt, flagAt, h.flag]

/-- A decision of the pass changes no coefficient. -/
theorem decodeBit_cu (b : Nat) {c : Fin 19} (hk : ¬ cuKept c) {s : State} (hc : CanDecide s) :
    ∃ d t, decodeBit c s = .ok d t ∧ CanDecide t ∧ CuChange b s t ∧ DecoderOnly s t := by
  obtain ⟨d, t, hok, hct, hkt, hd⟩ := decodeBit_part hk hc
  exact ⟨d, t, hok, hct, ⟨hkt, fun i => hd.cellAt i ▸ .refl b _⟩, hd⟩

/-- A decided coefficient, neither significant nor visited before. -/
theorem onlyIf_becomeSignificant_cu {y x : Nat} (b : Nat) (d : Bool) {s : State} (hc : CanDecide s)
    (hy : y < s.lat.lh.toNat) (hx : x < s.lat.lw.toNat) (hsig : (flagAt s (coefIndex s y x)).sigma = false)
    (hpi : (flagAt s (coefIndex s y x)).pi = false) :
    ∃ t, onlyIf d (becomeSignificant y x b) s = .ok () t ∧ CanDecide t ∧ CuChange b s t := by
  obtain ⟨neg, t, hok, hct, hk, hset⟩ := onlyIf_becomeSignificant_part (fun _ => cuKept_signs) b d hc hy hx hsig
  refine ⟨t, hok, hct, hk, hset.forall (.refl b)
    { pi     := rfl
      rho    := rfl
      other  := fun h => ?_
      insig  := fun h => by rw [show d = false from h]; rfl
      became := fun _ h => ⟨neg, by rw [show d = true from h]; rfl⟩ }⟩
  rcases h with h | h
  · exact absurd (hsig.symm.trans h) Bool.false_ne_true
  · exact absurd (hpi.symm.trans h) Bool.false_ne_true

theorem cuVisit_part {x y : Nat} (b : Nat) {s : State} (hc : CanDecide s) (hy : y < s.lat.lh.toNat)
    (hx : x < s.lat.lw.toNat) : ∃ t, cuVisit b x y s = .ok () t ∧ CanDecide t ∧ CuChange b s t := by
  by_cases ht : (flagAt s (coefIndex s y x)).sigma = false ∧ (flagAt s (coefIndex s y x)).pi = false
  · obtain ⟨d, u, hu, hcu, hsu, hd⟩ := decodeBit_cu b (not_cuKept_zc s y x) hc
    have hflag := hd.flagIndex y x
    obtain ⟨t, hok, hct, hut⟩ := onlyIf_becomeSignificant_cu b d hcu (hd.lat ▸ hy) (hd.lat ▸ hx)
      (hflag ▸ ht.1) (hflag ▸ ht.2)
    exact ⟨t, by rw [cuVisit_eq, if_pos ht, eng_bind_ok hu, hok], hct, hsu.trans hut⟩
  · exact ⟨s, by rw [cuVisit_eq, if_neg ht], hc, .refl b s⟩

/-- A loop of parts of the pass. -/
theorem forEach_cu {α : Type} {b : Nat} {l : List α} {body : α → Eng Unit} {s : State} (hc : CanDecide s)
    (h : ∀ x ∈ l, ∀ u, u.lat = s.lat → CanDecide u → ∃ t, body x u = .ok () t ∧ CanDecide t ∧ CuChange b u t) :
    ∃ t, forEach l body s = .ok () t ∧ CanDecide t ∧ CuChange b s t := by
  obtain ⟨t, hok, hct, hst, -⟩ := forEach_part (rel := CuChange b) (visited := fun _ _ _ => True) (.refl b) .trans
    (fun h => h.kept.frame.lat) (fun x hx u hu hcu => by
      obtain ⟨v, hv, hcv, huv⟩ := h x hx u hu hcu
      exact ⟨v, hv, hcv, huv, trivial⟩) rfl hc
  exact ⟨t, hok, hct, hst⟩

theorem cuRows_part {x : Nat} (b : Nat) {l : List Nat} {s : State} (hc : CanDecide s) (hl : ∀ y ∈ l, y < s.lat.lh.toNat)
    (hx : x < s.lat.lw.toNat) : ∃ t, forEach l (cuVisit b x) s = .ok () t ∧ CanDecide t ∧ CuChange b s t :=
  forEach_cu hc fun y hy _ hu hcu => cuVisit_part b hcu (hu ▸ hl y hy) (hu ▸ hx)

/-- The run-length shortcut where the run ends at a row: its coefficient becomes significant, and the rows after it are
decoded one by one (R160). -/
theorem cuRun_part {x y : Nat} (b : Nat) {rows : List Nat} {s : State} (hc : CanDecide s)
    (hrows : ∀ z ∈ rows, z < s.lat.lh.toNat) (hy : y < s.lat.lh.toNat) (hx : x < s.lat.lw.toNat)
    (hsig : (flagAt s (coefIndex s y x)).sigma = false) (hpi : (flagAt s (coefIndex s y x)).pi = false) :
    ∃ t, (do becomeSignificant y x b; forEach rows (cuVisit b x) : Eng Unit) s = .ok () t ∧ CanDecide t ∧
      CuChange b s t := by
  obtain ⟨u, hu, hcu, hsu⟩ := onlyIf_becomeSignificant_cu b true hc hy hx hsig hpi
  have hlat := hsu.kept.frame.lat
  obtain ⟨t, ht, hct, hut⟩ := cuRows_part b hcu (hlat ▸ hrows) (hlat ▸ hx)
  exact ⟨t, (eng_bind_ok hu).trans ht, hct, hsu.trans hut⟩

theorem cuColumn_part {p : Nat × Nat} (b : Nat) {s : State} (hc : CanDecide s) (hx : p.2 < s.lat.lw.toNat) :
    ∃ t, cuColumn b p s = .ok () t ∧ CanDecide t ∧ CuChange b s t := by
  have hrows : ∀ y ∈ stripeRows s.lat.lh.toNat p.1, y < s.lat.lh.toNat := fun y hy => (mem_stripeRows.mp hy).2.2
  rw [cuColumn_eq]
  split
  · rename_i hrun
    obtain ⟨hit, u, hu, hcu, hsu, hdu⟩ := decodeBit_cu b (c := 17) (by unfold cuKept; decide) hc
    rw [eng_bind_ok hu]
    cases hit with
    | false => exact ⟨u, rfl, hcu, hsu⟩
    | true =>
      obtain ⟨r1, v, hv, hcv, huv, hdv⟩ := decodeBit_cu b (c := 18) (by unfold cuKept; decide) hcu
      obtain ⟨r0, w, hw, hcw, hvw, hdw⟩ := decodeBit_cu b (c := 18) (by unfold cuKept; decide) hcv
      have hd := (hdu.trans hdv).trans hdw
      obtain ⟨hlast, hclear⟩ := runColumn_iff.mp hrun
      have hr : 2 * r1.toNat + r0.toNat < 4 := by
        have hr1 := Bool.toNat_le r1
        have hr0 := Bool.toNat_le r0
        omega
      obtain ⟨hsig, hpi, -⟩ := hclear _ hr
      rw [← hd.flagIndex] at hsig hpi
      obtain ⟨t, ht, hct, hwt⟩ := cuRun_part b hcw (rows := (stripeRows s.lat.lh.toNat p.1).drop _)
        (fun y hy => hd.lat ▸ hrows y (List.mem_of_mem_drop hy)) (by rw [hd.lat]; omega) (hd.lat ▸ hx) hsig hpi
      rw [if_pos rfl, eng_bind_ok hv, eng_bind_ok hw]
      exact ⟨t, ht, hct, ((hsu.trans huv).trans hvw).trans hwt⟩
  · exact cuRows_part b hc hrows hx

/-! ## The pass -/

theorem clearedVisits_blockOnly (s : State) : BlockOnly s (clearedVisits (blockArea s) s) := by
  have hout : OutsideBlockKept s (clearedVisits (blockArea s) s) := fun i hi =>
    ⟨by rw [clearedVisits_frame], by rw [flagAt_clearedVisits, if_neg (Nat.not_lt.mpr hi)]⟩
  rw [clearedVisits_frame] at hout ⊢
  exact ⟨rfl, rfl, rfl, rfl, ⟨⟨rfl, rfl, rfl, rfl⟩, rfl, rfl, rfl⟩, hout⟩

theorem CanDecide.clearedVisits {s : State} (h : CanDecide s) (n : Nat) : CanDecide (clearedVisits n s) := by
  rw [clearedVisits_frame]
  exact ⟨⟨h.fed.ready, h.fed.interval, h.fed.fed⟩, h.grid⟩

/-- The pass on a fed decoder: its changes, and then every π of the block cleared. -/
theorem passCu_part (b : Nat) {s : State} (hc : CanDecide s) :
    ∃ t, passCu b s = .ok () (countPass (clearedVisits (blockArea t) t)) ∧ CanDecide t ∧ CuChange b s t := by
  obtain ⟨t, hok, hct, hst⟩ := forEach_cu (b := b) hc (l := stripeColumns s.lat.lw.toNat s.lat.lh.toNat)
    (body := cuColumn b) fun p hp _ hu hcu => cuColumn_part b hcu (hu ▸ (mem_stripeColumns hp).2)
  refine ⟨t, ?_, hct, hst⟩
  rw [passCu, eng_bind_ok (eng_get s), eng_bind_ok hok, hst.kept.frame.area, eng_bind_ok (clearVisits_eq _ _)]
  rfl

/-- Settles O40: the pass is the reference pass, and on a fed decoder each column completes and changes no coefficient
but those it decides. -/
theorem cleanupPassCompletes : Obligations.CleanupPassCompletes := by
  refine ⟨fun s b hb hs hq => exec_t1Cu_eq_ref hb hs hq, fun s b hb h => ?_⟩
  obtain ⟨t, hok, hct, hst⟩ := passCu_part b.toNat h.canDecide
  obtain ⟨hcomp, hpd, hlat, hside, hout, hready⟩ := passEnd_kept h.session (hct.clearedVisits (blockArea t))
    (hst.kept.frame.trans (clearedVisits_blockOnly t))
  have hctx : (clearedVisits (blockArea t) t).cx = t.cx := by rw [clearedVisits_frame]
  have hcoef : (clearedVisits (blockArea t) t).coef = t.coef := by rw [clearedVisits_frame]
  refine ⟨_, ?_, hcomp, hpd, hlat, hside, hout, hready, fun c hc => ?_, fun i hi => ?_⟩
  · rw [exec_pass_ready (i := .t1Cu b) hb rfl rfl h.session h.decoder.ready]
    exact runCommand_ok hok
  · exact (congrArg (Vector.get · c) hctx).trans (hst.kept.ctx c hc)
  · have hcell := hst.cells i
    have hflag : flagAt (passEnd (clearedVisits (blockArea t) t)) i = { flagAt t i with pi := false } :=
      (flagAt_clearedVisits _ i t).trans (if_pos (hst.kept.frame.area ▸ hi))
    have hword : Memory.read (passEnd (clearedVisits (blockArea t) t)).coef i = Memory.read t.coef i :=
      congrArg (Memory.read · i) hcoef
    rw [hflag, hword]
    refine ⟨rfl, hcell.rho, fun hs => ?_, hcell.insig, fun h0 h1 => ?_⟩
    · have := hcell.other hs
      exact ⟨congrArg (·.flags.sigma) this, congrArg Cell.word this⟩
    · obtain ⟨neg, hw⟩ := hcell.became h0 h1
      exact ⟨neg, hw.trans (congrArg some (firstWord_ofNat neg b.toNat).symm)⟩

/-! ## Every pass -/

/-- A pass on a fed decoder completes, writes inside the block, and leaves the next pass a fed decoder. -/
theorem runPass_part (p : PassType) (b : Nat) {s : State} (hc : CanDecide s) :
    ∃ t, runPass p b s = .ok () (countPass t) ∧ CanDecide t ∧ BlockOnly s t := by
  cases p with
  | sp =>
    obtain ⟨t, hok, hct, hst, -⟩ := passSp_part b hc
    exact ⟨t, hok, hct, hst.kept.frame⟩
  | mr =>
    obtain ⟨t, hok, hct, hst, -⟩ := passMr_part b hc
    exact ⟨t, hok, hct, hst.kept.frame⟩
  | cu =>
    obtain ⟨t, hok, hct, hst⟩ := passCu_part b hc
    exact ⟨_, hok, hct.clearedVisits _, hst.kept.frame.trans (clearedVisits_blockOnly t)⟩

end Sys2Proof.Machine
end

section
/-! `T1.DECODE` beside the commands the host may issue in its place (R162): `T1.START` leaves the blank block that
`T1.DECODE` begins with, `MQ.INIT` initialises the decoder, and each pass command runs its pass. As none of these reads
`STATUS`, the states differ in `STATUS` alone, and the first that does not complete ends as `T1.DECODE` does. -/

namespace Sys2Proof.Machine

variable {α : Type}

/-! ## One command by hand -/

theorem IgnoresStatus.kept {m : Eng α} (h : IgnoresStatus m) (s : State) : (endState (m s)).status = s.status := by
  have hself := h s.status s
  rw [show setStatus s.status s = s from rfl] at hself
  rw [hself]
  cases m s <;> rfl

/-- `STATUS` once the host has opened a session and initialised the decoder, and no command has raised an error. -/
def openStatus (f : StatusFlags) : StatusFlags := { f with session := true, mqrdy := true, done := true, busy := false }

/-- How a command by hand ends whose part of `T1.DECODE` ends so: it completes with the flags `f`, or it raises or stops. -/
def handEnd (f : StatusFlags) : EStateM.Result Stop State Unit → Host.Outcome State Fault Refusal
  | .ok _ t => .next (setStatus f t)
  | .error (.raise k info) t => .next (takeError true k info t)
  | .error (.fault g) _ => .fault g

theorem takeError_setStatus (k : ErrKind) (info : Word) (f : StatusFlags) (s : State) :
    takeError true k info (setStatus f s) = takeError true k info s := by
  rw [takeError_closing, takeError_closing]
  rfl

/-- A command whose body ignores `STATUS` and then sets it. -/
theorem runCommand_handEnd {m : Eng Unit} (hm : IgnoresStatus m) {g : State → State} {f f' : StatusFlags}
    (hg : ∀ t, complete (g (setStatus f t)) = setStatus f' t) (s : State) :
    runCommand true (do m; modify g) (setStatus f s) = handEnd f' (m s) := by
  rw [runCommand, eng_bind, hm f s]
  cases m s with
  | ok a t => exact congrArg Host.Outcome.next (hg t)
  | error e t =>
    cases e with
    | raise k info => exact congrArg Host.Outcome.next (takeError_setStatus k info f t)
    | fault g => rfl

/-- The state after `T1.START`, of which the other latches and flags are those of the blank block of `T1.DECODE`. -/
def startedBlock (s : State) : State := complete (setSession true false (blankBlock (jobLatches s.par s.lat.len) s))

theorem initStart_startedBlock (s : State) :
    initStart (startedBlock s) =
      setStatus { openStatus s.status with mqrdy := false } (blankBlock (jobLatches s.par s.par.cbLen) s) := by
  set v := blankBlock (jobLatches s.par s.lat.len) s with hv
  have hshape : initStart (startedBlock s) =
      setStatus { openStatus v.status with mqrdy := false } (setLatches { v.lat with len := v.par.cbLen } v) := rfl
  have hpar : v.par = s.par := (blankBlock_side _ s).host.par
  rw [hshape, hpar, hv, blankBlock_lat, blankBlock_status]
  exact congrArg (setStatus _)
    (blankBlock_setLatches (l := jobLatches s.par s.par.cbLen) (m := jobLatches s.par s.lat.len) rfl rfl s)

theorem exec_mqInit_hand {s : State} (hfit : s.par.cbLen.toNat ≤ s.cap.bsBytes) :
    exec .mqInit (startedBlock s) =
      handEnd (openStatus s.status) (initDecoder (blankBlock (jobLatches s.par s.par.cbLen) s)) := by
  have hside := blankBlock_side (jobLatches s.par s.lat.len) s
  have hfit' : (startedBlock s).par.cbLen.toNat ≤ (startedBlock s).cap.bsBytes := by
    show (blankBlock _ s).par.cbLen.toNat ≤ (blankBlock _ s).cap.bsBytes
    rw [hside.host.par, hside.host.cap]
    exact hfit
  have hbody := mqInitBody_eq hfit'
  rw [initStart_startedBlock] at hbody
  exact (runCommand_congr hbody).trans
    (runCommand_handEnd ignores_initDecoder (g := fun t => setSession t.status.session true t) (fun _ => rfl) _)

theorem exec_passInstr_hand (p : PassType) {b : Nat} (hb : b ≤ 30) (f : StatusFlags) (v : State) :
    exec (passInstr p b) (setStatus (openStatus f) v) = handEnd (openStatus f) (runPass p b v) := by
  have hofb : (BitVec.ofNat 8 b).toNat = b := by rw [BitVec.toNat_ofNat]; omega
  have hlegal : legalPlane (BitVec.ofNat 8 b) = true := decide_eq_true (by rw [hofb]; exact hb)
  have hrun : exec (passInstr p b) (setStatus (openStatus f) v) =
      runCommand true (runPass p b) (setStatus (openStatus f) v) := by
    cases p with
    | sp => exact (exec_pass_ready (i := .t1Sp (BitVec.ofNat 8 b)) hlegal rfl rfl rfl rfl).trans (by rw [hofb]; rfl)
    | mr => exact (exec_pass_ready (i := .t1Mr (BitVec.ofNat 8 b)) hlegal rfl rfl rfl rfl).trans (by rw [hofb]; rfl)
    | cu => exact (exec_pass_ready (i := .t1Cu (BitVec.ofNat 8 b)) hlegal rfl rfl rfl rfl).trans (by rw [hofb]; rfl)
  rw [hrun, ← runCommand_handEnd (ignores_runPass p b) (g := id) (f := openStatus f) (fun _ => rfl) v]
  refine runCommand_congr ?_
  rw [eng_bind]
  cases runPass p b (setStatus (openStatus f) v) <;> rfl

/-! ## Many commands by hand -/

/-- Pass number `p` of the schedule (R161, R162). -/
abbrev schedPass (zbp p : Nat) : Eng Unit := runPass (passTypeOf p) (passBit zbp p)

/-- The pass command of pass number `p` (R161). -/
abbrev schedInstr (zbp p : Nat) : Instr := passInstr (passTypeOf p) (passBit zbp p)

theorem exec_schedInstr (zbp p : Nat) (f : StatusFlags) (v : State) :
    exec (schedInstr zbp p) (setStatus (openStatus f) v) = handEnd (openStatus f) (schedPass zbp p v) :=
  exec_passInstr_hand _ (passBit_le zbp p) f v

theorem execAll_cons {i : Instr} {r : List Instr} {s t : State} (h : exec i s = .next t) :
    execAll (i :: r) s = execAll r t := by
  rw [execAll, h]

/-- Passes that complete, complete by hand. -/
theorem execAll_passes {zbp : Nat} {l : List Nat} {f : StatusFlags} {v t : State}
    (h : forEach l (schedPass zbp) v = .ok () t) :
    execAll (l.map (schedInstr zbp)) (setStatus (openStatus f) v) = .next (setStatus (openStatus f) t) := by
  induction l generalizing v with
  | nil => cases h; rfl
  | cons p l ih =>
    rw [forEach_cons] at h
    obtain ⟨_, w, hp, h⟩ := eng_bind_eq_ok.mp h
    rw [List.map_cons, execAll_cons (t := setStatus (openStatus f) w) (by rw [exec_schedInstr, hp]; rfl), ih h]

/-- Without an open session a pass command raises (R275). -/
theorem exec_schedInstr_closed (zbp p : Nat) {s : State} (hs : s.status.session = false) :
    ∃ info, exec (schedInstr zbp p) s =
      .next { s with errinfo := info, status := ⟨false, false, true, false, false, 6⟩ } := by
  have hlegal : legalPlane (BitVec.ofNat 8 (passBit zbp p)) = true := by
    have hb := passBit_le zbp p
    exact decide_eq_true (by rw [BitVec.toNat_ofNat]; omega)
  have hrefused := commandsOutOfSequenceAreRefused s (BitVec.ofNat 8 (passBit zbp p))
  unfold schedInstr
  cases passTypeOf p with
  | sp => exact ⟨_, hrefused _ hlegal (.inr ⟨.inl rfl, .inl hs⟩)⟩
  | mr => exact ⟨_, hrefused _ hlegal (.inr ⟨.inr (.inl rfl), .inl hs⟩)⟩
  | cu => exact ⟨_, hrefused _ hlegal (.inr ⟨.inr (.inr rfl), .inl hs⟩)⟩

/-- After an error no pass command completes: the session is closed (R275). -/
theorem execAll_passes_closed {zbp : Nat} {l : List Nat} {s u : State} (hs : s.status.session = false)
    (hd : s.status.done = false) (h : execAll (l.map (schedInstr zbp)) s = .next u) : u.status.done = false := by
  induction l generalizing s with
  | nil => cases h; exact hd
  | cons p l ih =>
    obtain ⟨info, hx⟩ := exec_schedInstr_closed zbp p hs
    rw [List.map_cons, execAll_cons hx] at h
    exact ih (s := { s with errinfo := info, status := ⟨false, false, true, false, false, 6⟩ }) rfl rfl h

/-- Pass commands the last of which completed ran their passes, each to its end. -/
theorem execAll_passes_done {zbp : Nat} {l : List Nat} {f : StatusFlags} {v u : State}
    (h : execAll (l.map (schedInstr zbp)) (setStatus (openStatus f) v) = .next u) (hd : u.status.done = true) :
    ∃ w, forEach l (schedPass zbp) v = .ok () w ∧ u = setStatus (openStatus f) w := by
  induction l generalizing v with
  | nil => cases h; exact ⟨v, rfl, rfl⟩
  | cons p l ih =>
    have hx := exec_schedInstr zbp p f v
    rw [List.map_cons] at h
    cases hp : schedPass zbp p v with
    | ok a w =>
      rw [hp] at hx
      rw [execAll_cons hx] at h
      obtain ⟨t, ht, hu⟩ := ih h
      exact ⟨t, by rw [forEach_cons, eng_bind_ok hp, ht], hu⟩
    | error e w =>
      rw [hp] at hx
      cases e with
      | raise k info =>
        rw [execAll_cons hx] at h
        have hno := execAll_passes_closed (s := takeError true k info w) (Bool.and_false _) rfl h
        exact absurd (hno.symm.trans hd) Bool.false_ne_true
      | fault g => rw [execAll, hx] at h; cases h

/-! ## The whole block -/

theorem exec_t1Start_hand {s : State} (h : firstFailure (decodeChecks s.cap s.par) = none) :
    exec .t1Start s = .next (startedBlock s) :=
  exec_t1Start_ok (firstFailure_append.mp (firstFailure_append.mp h).1).1

theorem cbLen_fits {s : State} (h : firstFailure (decodeChecks s.cap s.par) = none) :
    s.par.cbLen.toNat ≤ s.cap.bsBytes := by
  have hlen := (firstFailure_append.mp (firstFailure_append.mp h).1).2
  simpa [firstFailure_none] using hlen

/-- `T1.DECODE` with passes to decode ends as its passes do. -/
theorem t1DecodeBody_passes {s : State} (h : firstFailure (decodeChecks s.cap s.par) = none)
    (hn : 0 < s.par.cbNpass.toNat) :
    t1DecodeBody s = (do
      initDecoder
      forEach (List.range s.par.cbNpass.toNat) (schedPass s.par.cbZbp.toNat)
      modify (setSession false false) : Eng Unit) (blankBlock (jobLatches s.par s.par.cbLen) s) := by
  rw [t1DecodeBody_eq h, decide_eq_true hn, onlyIf_true, decodePasses, bind_assoc]

theorem decodeChecks_of_done {s t : State} (h : exec .t1Decode s = .next t) (hd : t.status.done = true) :
    firstFailure (decodeChecks s.cap s.par) = none := by
  rw [← failureOffset_eq_none]
  cases hoff : failureOffset (decodeChecks s.cap s.par) with
  | none => rfl
  | some off =>
    rw [exec_t1Decode_geometry hoff] at h
    cases h
    exact absurd hd Bool.false_ne_true

/-- A `T1.DECODE` that completes initialised the decoder and ran its passes, each to its end. -/
theorem exec_t1Decode_done {s t : State} (h : firstFailure (decodeChecks s.cap s.par) = none)
    (hn : 0 < s.par.cbNpass.toNat) (hx : exec .t1Decode s = .next t) (hd : t.status.done = true) :
    ∃ w x, initDecoder (blankBlock (jobLatches s.par s.par.cbLen) s) = .ok () w ∧
      forEach (List.range s.par.cbNpass.toNat) (schedPass s.par.cbZbp.toNat) w = .ok () x ∧
      t = complete (setSession false false x) := by
  rcases runCommand_next hx with ⟨y, hbody, rfl⟩ | ⟨k, info, y, -, rfl⟩
  · replace hbody := (t1DecodeBody_passes h hn).symm.trans hbody
    obtain ⟨_, w, hinit, hrest⟩ := eng_bind_eq_ok.mp hbody
    obtain ⟨_, x, hpass, hend⟩ := eng_bind_eq_ok.mp hrest
    cases hend
    exact ⟨w, x, hinit, hpass, rfl⟩
  · exact absurd hd Bool.false_ne_true

theorem ignores_passes (zbp : Nat) (l : List Nat) : IgnoresStatus (forEach l (schedPass zbp)) :=
  ignores_forEach fun _ _ => ignores_runPass _ _

/-- The initialised decoder's state, and the passes', have the `STATUS` the blank block has. -/
theorem passes_status {s w x : State} {zbp : Nat} {l : List Nat} {m : Latches}
    (hinit : initDecoder (blankBlock m s) = .ok () w) (hpass : forEach l (schedPass zbp) w = .ok () x) :
    x.status = { s.status with session := false, mqrdy := false } := by
  have hw := ignores_initDecoder.kept (blankBlock m s)
  have hx := (ignores_passes zbp l).kept w
  rw [hinit] at hw
  rw [hpass] at hx
  exact hx.trans (hw.trans (blankBlock_status m s))

/-- A part of `T1.DECODE` that raises or stops ends it as the command by hand ends. -/
theorem exec_t1Decode_of_error {s t : State} {e : Stop} {f : StatusFlags} (h : t1DecodeBody s = .error e t) :
    exec .t1Decode s = handEnd f (.error e t) := by
  cases e with
  | raise k info => exact runCommand_raise h
  | fault g => exact runCommand_fault h

/-- Where the command by hand does not complete, its part of `T1.DECODE` ends so, and `T1.DECODE` with it. -/
theorem ends_alike {s u : State} {i : Instr} {f : StatusFlags} {r : EStateM.Result Stop State Unit}
    (hf : f.done = true) (hx : exec i u = handEnd f r) (hr : ∀ e t, r = .error e t → t1DecodeBody s = .error e t) :
    (∀ e, exec i u = .next e → e.status.done = false → exec .t1Decode s = .next e) ∧
      ∀ g, exec i u = .fault g → exec .t1Decode s = .fault g := by
  cases r with
  | ok a t =>
    rw [hx]
    refine ⟨fun e he hd => ?_, fun g hg => nomatch hg⟩
    cases he
    exact absurd (hf.symm.trans hd).symm Bool.false_ne_true
  | error e t =>
    rw [hx, exec_t1Decode_of_error (f := f) (hr e t rfl)]
    exact ⟨fun _ h _ => h, fun _ h => h⟩

/-- A `T1.DECODE` that completes, completes by hand. -/
theorem handDecode_completes {s t : State} (hn : 0 < s.par.cbNpass.toNat) (hx : exec .t1Decode s = .next t)
    (hd : t.status.done = true) :
    execAll (handDecode s.par.cbNpass.toNat s.par.cbZbp.toNat) s = .next (setSession true true t) := by
  have h := decodeChecks_of_done hx hd
  obtain ⟨w, x, hinit, hpass, rfl⟩ := exec_t1Decode_done h hn hx hd
  have hmq := exec_mqInit_hand (cbLen_fits h)
  rw [hinit] at hmq
  rw [handDecode, execAll_cons (exec_t1Start_hand h), execAll_cons hmq, execAll_passes hpass]
  have hopen : openStatus s.status = openStatus x.status := by rw [passes_status hinit hpass]; rfl
  exact congrArg (fun f => Host.Outcome.next (setStatus f x)) hopen

/-- A command of the sequence after the first two is that of a pass, after those of the passes before it. -/
theorem handDecode_split {n zbp : Nat} {a b i : Instr} {l r : List Instr} (h : handDecode n zbp = a :: b :: l ++ i :: r) :
    a = .t1Start ∧ b = .mqInit ∧ ∃ p l₁ l₂, List.range n = l₁ ++ p :: l₂ ∧ l = l₁.map (schedInstr zbp) ∧
      i = schedInstr zbp p := by
  obtain ⟨ha, h⟩ := List.cons.inj h
  obtain ⟨hb, h⟩ := List.cons.inj h
  obtain ⟨l₁, l₂, hrange, hl, htail⟩ := List.map_eq_append_iff.mp h
  obtain ⟨p, l₃, rfl, hp, -⟩ := List.map_eq_cons_iff.mp htail
  exact ⟨ha.symm, hb.symm, p, l₁, l₃, hrange, hl.symm, hp.symm⟩

/-- Settles O44: the first command by hand that does not complete is `MQ.INIT` or a pass, and its error or stop is that
of its part of `T1.DECODE`. -/
theorem wholeBlockDecodeEqualsHandDecode : Obligations.WholeBlockDecodeEqualsHandDecode := by
  refine ⟨fun s t => handDecode_completes, fun s u l r i h hn hsplit hrun hdone => ?_⟩
  have hstart := exec_t1Start_hand h
  have hmq := exec_mqInit_hand (cbLen_fits h)
  match l with
  | [] =>
    cases hrun
    cases hsplit
    rw [hstart]
    refine ⟨fun e he hd => ?_, fun g hg => nomatch hg⟩
    cases he
    exact absurd hd Bool.noConfusion
  | [a] =>
    cases hsplit
    rw [execAll_cons hstart] at hrun
    cases hrun
    exact ends_alike rfl hmq fun e t he => (t1DecodeBody_passes h hn).trans (eng_bind_error he)
  | a :: b :: l =>
    obtain ⟨rfl, rfl, p, l₁, l₂, hrange, rfl, rfl⟩ := handDecode_split hsplit
    have hd : u.status.done = true := hdone.resolve_left (List.cons_ne_nil _ _)
    rw [execAll_cons hstart] at hrun
    cases hinit : initDecoder (blankBlock (jobLatches s.par s.par.cbLen) s) with
    | ok _ w =>
      rw [hinit] at hmq
      rw [execAll_cons hmq] at hrun
      obtain ⟨x, hpass, rfl⟩ := execAll_passes_done hrun hd
      refine ends_alike rfl (exec_schedInstr _ p s.status x) fun e t he => ?_
      have hloop : forEach (List.range s.par.cbNpass.toNat) (schedPass s.par.cbZbp.toNat) w = .error e t := by
        rw [hrange, forEach_append, eng_bind_ok hpass, forEach_cons, eng_bind_error he]
      rw [t1DecodeBody_passes h hn, eng_bind_ok hinit, eng_bind_error hloop]
    | error e w =>
      rw [hinit] at hmq
      cases e with
      | raise k info =>
        rw [execAll_cons hmq] at hrun
        exact absurd ((execAll_passes_closed (Bool.and_false _) rfl hrun).symm.trans hd) Bool.false_ne_true
      | fault g => rw [execAll, hmq] at hrun; cases hrun

end Sys2Proof.Machine
end

section
/-! `T1.DECODE` on a bitstream with an end-of-stream mark (R132, R162). The passes are followed on the blank block with
the flags of an initialised decoder in `STATUS`, which `T1.DECODE` does not set and no pass reads. -/

namespace Sys2Proof.Machine

variable {α : Type}

theorem IgnoresStatus.ok_of_setStatus {m : Eng α} (h : IgnoresStatus m) {f : StatusFlags} {s t : State} {a : α}
    (hm : m (setStatus f s) = .ok a t) : m s = .ok a (setStatus s.status t) := by
  rw [show s = setStatus s.status (setStatus f s) from rfl, h, hm]
  rfl

theorem ignores_decodePasses (n zbp : Nat) : IgnoresStatus (decodePasses n zbp) :=
  ignores_bind ignores_initDecoder fun _ => ignores_passes zbp _

/-- The initialisation on a bitstream with an end-of-stream mark. -/
theorem initDecoder_part {s : State} (hq : s.status.mqrdy = true) (h : MarkAhead s.bs s.lat.len.toNat 0) :
    ∃ t, initDecoder s = .ok () t ∧ DecoderFed t ∧ DecoderOnly s t := by
  obtain ⟨j, -, hlen, -, -, hhas⟩ := id h
  obtain ⟨b0, hb0⟩ := Option.isSome_iff_exists.mp (hhas 0 (Nat.le_refl 0) (Nat.zero_le j))
  obtain ⟨u, hu, hmark, -, -⟩ := markAhead_byteIn (s := setMq (firstByteRegs b0 s.mq) s) h
  have hinit : initDecoder s = .ok () (setMq (alignRegs u.mq) u) := by
    rw [initDecoder_eq (by omega) hb0, eng_bind_ok hu, eng_modify]
  have hkept : DecoderOnly s (setMq (alignRegs u.mq) u) := by
    have hk := keeps_initDecoder_only s s (.refl s)
    rwa [hinit] at hk
  exact ⟨_, hinit, ⟨by rw [hkept.status, hq], Nat.le_refl _, hmark⟩, hkept⟩

theorem BlockOnly.setPassDone {s t : State} (h : BlockOnly s t) (n : Word) :
    BlockOnly (setPassDone n s) (setPassDone n t) :=
  ⟨h.status, h.errinfo, rfl, h.lat, ⟨⟨h.kept.host.par, h.kept.host.cap, h.kept.host.pending, h.kept.host.hostData⟩,
    h.kept.bs, h.kept.samp, h.kept.free⟩, h.outside⟩

/-- Passes on a fed decoder and a written grid complete, and each counts. -/
theorem passes_part (zbp : Nat) (l : List Nat) {s : State} (h : CanDecide s) :
    ∃ t, forEach l (schedPass zbp) s = .ok () t ∧ CanDecide t ∧
      BlockOnly (setPassDone (s.passDone + BitVec.ofNat 32 l.length) s) t := by
  induction l generalizing s with
  | nil => exact ⟨s, rfl, h, by rw [List.length_nil, BitVec.add_zero]; exact .refl s⟩
  | cons p l ih =>
    obtain ⟨u, hu, hcu, hsu⟩ := runPass_part (passTypeOf p) (passBit zbp p) h
    have hfed : DecoderFed (countPass u) := ⟨hcu.fed.ready, hcu.fed.interval, hcu.fed.fed⟩
    obtain ⟨t, ht, hct, hst⟩ := ih (s := countPass u) ⟨hfed, hcu.grid⟩
    have hcount : (countPass u).passDone + BitVec.ofNat 32 l.length =
        s.passDone + BitVec.ofNat 32 (p :: l).length := by
      rw [countPass_passDone, hsu.passDone, List.length_cons, Nat.add_comm l.length 1, BitVec.ofNat_add,
        BitVec.ofNat_eq_ofNat, BitVec.add_assoc]
    rw [hcount] at hst
    exact ⟨t, by rw [forEach_cons, eng_bind_ok hu, ht], hct, (hsu.setPassDone _).trans hst⟩

/-- The passes of `T1.DECODE`, if any, on a written grid and a bitstream with an end-of-stream mark. -/
theorem decodePasses_part (n zbp : Nat) {s : State} (hq : s.status.mqrdy = true)
    (hmark : MarkAhead s.bs s.lat.len.toNat 0) (hgrid : ∀ i, i < blockArea s → Memory.has s.coef i = true) :
    ∃ t, onlyIf (decide (0 < n)) (decodePasses n zbp) s = .ok () t ∧
      (∀ i, i < blockArea s → Memory.has t.coef i = true) ∧
      BlockOnly (setPassDone (s.passDone + BitVec.ofNat 32 n) s) t := by
  cases n with
  | zero => exact ⟨s, rfl, hgrid, by rw [BitVec.add_zero]; exact .refl s⟩
  | succ n =>
    obtain ⟨u, hu, hfed, hsu⟩ := initDecoder_part hq hmark
    have hcu : CanDecide u := ⟨hfed, fun i hi => hsu.coef ▸ hgrid i (hsu.blockOnly.area ▸ hi)⟩
    obtain ⟨t, ht, hct, hut⟩ := passes_part zbp (List.range (n + 1)) hcu
    rw [List.length_range, hsu.passDone] at hut
    have hst := (hsu.blockOnly.setPassDone _).trans hut
    exact ⟨t, (eng_bind_ok hu).trans ht, fun i hi => hct.grid i (hst.area.symm ▸ hi), hst⟩

theorem flagsMatch_blankBlock (l : Latches) (s : State) : FlagsMatch (blankBlock l s) := by
  refine flagsMatch_iff.mpr fun i hi c hc => ?_
  have harea : blockArea (blankBlock l s) = l.area := by rw [blockArea, blankBlock_lat, Latches.area]
  obtain ⟨hzero, hflag⟩ := blankBlock_inside s (harea ▸ hi)
  obtain rfl : c = 0 := Option.some.inj (hc.symm.trans hzero)
  rw [hflag]
  exact matchedWord_zero

/-- Settles O43: the blank block has a written and matched grid, and every pass on it completes. -/
theorem wholeBlockDecodeCompletes : Obligations.WholeBlockDecodeCompletes := by
  intro s h hmark
  set l := jobLatches s.par s.par.cbLen with hl
  set v := blankBlock l s with hv
  have hside : DecoderSideKept s v := blankBlock_side l s
  have harea : blockArea v = l.area := by rw [blockArea, hv, blankBlock_lat, Latches.area]
  have hgrid : ∀ i, i < blockArea v → Memory.has v.coef i = true := fun i hi => by
    rw [Memory.has, (blankBlock_inside s (harea ▸ hi)).1]
    rfl
  have hmark' : MarkAhead v.bs v.lat.len.toNat 0 := by
    rw [hside.bs, hv, blankBlock_lat]
    exact hmark
  obtain ⟨x, hx, hgx, hvx⟩ := decodePasses_part s.par.cbNpass.toNat s.par.cbZbp.toNat
    (s := setStatus (openStatus s.status) v) rfl hmark' hgrid
  have hrun := (ignores_onlyIf (ignores_decodePasses _ _)).ok_of_setStatus hx
  have hbody : t1DecodeBody s = .ok () (setSession false false (setStatus v.status x)) := by
    rw [t1DecodeBody_eq h, eng_bind_ok hrun]
    rfl
  have hmatch : FlagsMatch (setStatus v.status x) := by
    have hkeeps := keeps_onlyIf (c := decide (0 < s.par.cbNpass.toNat))
      (keepsMatch_decodePasses s.par.cbNpass.toNat s.par.cbZbp.toNat)
    have hend := hkeeps v (flagsMatch_blankBlock l s)
    rwa [hrun] at hend
  refine ⟨_, runCommand_ok hbody, ?_, hvx.errinfo.trans (blankBlock_errinfo l s), ?_, ?_,
    hvx.lat.trans (blankBlock_lat l s), hmatch.congr rfl rfl rfl rfl, fun i hi => hgx i (harea.symm ▸ hi), ?_⟩
  · show StatusFlags.completed { v.status with session := false, mqrdy := false } = _
    rw [hv, blankBlock_status]
    rfl
  · refine hvx.passDone.trans ?_
    show v.passDone + BitVec.ofNat 32 s.par.cbNpass.toNat = _
    rw [hv, blankBlock_passDone, BitVec.ofNat_toNat, BitVec.setWidth_eq]
    exact BitVec.zero_add _
  · have hvx' := hvx.kept
    exact hside.trans ⟨⟨hvx'.host.par, hvx'.host.cap, hvx'.host.pending, hvx'.host.hostData⟩, hvx'.bs, hvx'.samp,
      hvx'.free⟩
  · intro i hi
    have hout := hvx.outside i (harea.symm ▸ hi)
    have hblank := blankBlock_outside (l := l) s hi
    exact ⟨hout.1.trans hblank.1, hout.2.trans hblank.2⟩

end Sys2Proof.Machine
end

section
/-! The result of `T1.DECODE` depends on the parameter registers and the bytes below `CB_LEN` (R166): on two states that
agree on these it runs in step. The initialisation makes the working registers agree, and the passes read no other. -/

namespace Sys2Proof.Machine

variable {α : Type}

/-! ## States that decode alike -/

/-- The states have the latches `l` and agree on the pass counter, the contexts, the bytes below `L`, and the block. -/
structure Alike (l : Latches) (s t : State) : Prop where
  left     : s.lat = l
  right    : t.lat = l
  passDone : t.passDone = s.passDone
  cx       : t.cx = s.cx
  bytes    : ∀ k, k < l.len.toNat → Memory.read t.bs k = Memory.read s.bs k
  coef     : ∀ i, i < l.area → Memory.read t.coef i = Memory.read s.coef i
  flag     : ∀ i, i < l.area → flagAt t i = flagAt s i

/-- The states are alike, and their working registers are related. -/
def AlikeWith (r : MqRegs → MqRegs → Prop) (l : Latches) (s t : State) : Prop := Alike l s t ∧ r s.mq t.mq

/-- The working registers a decision reads agree: all but `D`. -/
structure SameRegs (m n : MqRegs) : Prop where
  a  : n.a = m.a
  c  : n.c = m.c
  ct : n.ct = m.ct
  bp : n.bp = m.bp

section
variable {l : Latches} {r r' : MqRegs → MqRegs → Prop}

theorem Alike.setMq {s t : State} (h : Alike l s t) (m n : MqRegs) : Alike l (setMq m s) (setMq n t) :=
  ⟨h.left, h.right, h.passDone, h.cx, h.bytes, h.coef, h.flag⟩

theorem Alike.writeCoef {s t : State} (h : Alike l s t) (i : Nat) (v : Word) : Alike l (writeCoef i v s) (writeCoef i v t) :=
  ⟨h.left, h.right, h.passDone, h.cx, h.bytes, fun k hk => by
    rw [writeCoef_coef, writeCoef_coef, Memory.read_write, Memory.read_write, h.coef k hk], h.flag⟩

theorem Alike.writeFlag {s t : State} (h : Alike l s t) (i : Nat) (f : CoefFlags) :
    Alike l (writeFlag i f s) (writeFlag i f t) :=
  ⟨h.left, h.right, h.passDone, h.cx, h.bytes, h.coef, fun k hk => by
    rw [flagAt_writeFlag, flagAt_writeFlag, h.flag k hk]⟩

theorem Alike.setSession {s t : State} (h : Alike l s t) (a b : Bool) : Alike l (setSession a b s) (setSession a b t) :=
  ⟨h.left, h.right, h.passDone, h.cx, h.bytes, h.coef, h.flag⟩

theorem Alike.countPass {s t : State} (h : Alike l s t) : Alike l (countPass s) (countPass t) :=
  ⟨h.left, h.right, congrArg (· + 1) h.passDone, h.cx, h.bytes, h.coef, h.flag⟩

theorem Alike.blankBlock {s t : State} (h : ∀ k, k < l.len.toNat → Memory.read t.bs k = Memory.read s.bs k) :
    Alike l (blankBlock l s) (blankBlock l t) where
  left     := blankBlock_lat l s
  right    := blankBlock_lat l t
  passDone := by rw [blankBlock_passDone, blankBlock_passDone]
  cx       := by rw [blankBlock_cx, blankBlock_cx]
  bytes    := fun k hk => by rw [(blankBlock_side l s).bs, (blankBlock_side l t).bs, h k hk]
  coef     := fun i hi => by rw [(blankBlock_inside s hi).1, (blankBlock_inside t hi).1]
  flag     := fun i hi => by rw [(blankBlock_inside s hi).2, (blankBlock_inside t hi).2]

theorem lockstep_setMq {E : State → State → Prop} {f : MqRegs → MqRegs} (hf : ∀ m n, r m n → r' (f m) (f n)) :
    Lockstep (AlikeWith r l) (AlikeWith r' l) E (modify fun s => setMq (f s.mq) s : Eng PUnit) :=
  lockstep_modify fun _ _ h => ⟨h.1.setMq _ _, hf _ _ h.2⟩

/-! ## Bytes -/

theorem lockstep_bsRead {R : State → State → Prop} (hR : ∀ s t, R s t → Alike l s t) (i : Nat) : InStep R (bsRead i) := by
  intro s t h
  obtain ⟨hs, ht, -, -, hbytes, -, -⟩ := hR s t h
  by_cases hi : i < l.len.toNat
  · have hread := hbytes i hi
    subst hs
    cases hb : Memory.read s.bs i with
    | some b => rw [bsRead_ok hi hb, bsRead_ok (ht ▸ hi) (hread.trans hb)]; exact .ok b h
    | none => rw [bsRead_unwritten hi hb, bsRead_unwritten (ht ▸ hi) (hread.trans hb)]; exact .error _ h
  · rw [bsRead_past (hs ▸ Nat.not_lt.mp hi), bsRead_past (ht ▸ Nat.not_lt.mp hi)]
    exact .error _ h

/-- The refill enters the two bytes it has read into the registers it finds. -/
theorem byteIn_eq {s : State} {bp : Nat} (h : s.mq.bp.toNat = bp) :
    byteIn s = (do
      let b ← bsRead bp
      let b1 ← bsRead (bp + 1)
      modify (fun t => setMq (enterByte b b1 t.mq) t) : Eng Unit) s := by
  subst h
  rw [byteIn, eng_bind_ok (eng_get s), eng_bind, eng_bind]
  cases hb : bsRead s.mq.bp.toNat s with
  | error e t => rfl
  | ok b t =>
    obtain ⟨rfl, -, -⟩ := bsRead_eq_ok hb
    show (bsRead _ >>= _) t = (bsRead _ >>= _) t
    rw [eng_bind, eng_bind]
    cases hb1 : bsRead (t.mq.bp.toNat + 1) t with
    | error e u => rfl
    | ok b1 u =>
      obtain ⟨rfl, -, -⟩ := bsRead_eq_ok hb1
      rfl

theorem lockstep_byteIn (hbp : ∀ m n, r m n → n.bp = m.bp)
    (henter : ∀ b b1 m n, r m n → r' (enterByte b b1 m) (enterByte b b1 n)) :
    Lockstep (AlikeWith r l) (AlikeWith r' l) (AlikeWith r l) byteIn := by
  intro s t h
  have hptr : t.mq.bp.toNat = s.mq.bp.toNat := congrArg BitVec.toNat (hbp _ _ h.2)
  rw [byteIn_eq rfl, byteIn_eq hptr]
  have hread := lockstep_bsRead (l := l) (R := AlikeWith r l) fun _ _ h => h.1
  exact lockstep_bind (hread _) (fun b => lockstep_bind (hread _) fun b1 =>
    lockstep_setMq (henter b b1)) s t h

/-! ## Decisions -/

theorem SameRegs.enterByte {m n : MqRegs} (h : SameRegs m n) (b b1 : Byte) :
    SameRegs (enterByte b b1 m) (enterByte b b1 n) := by
  obtain ⟨ha, hc, -, hbp⟩ := h
  unfold Machine.enterByte
  split
  · split
    · exact ⟨ha, by rw [hc], rfl, hbp⟩
    · exact ⟨ha, by rw [hc], rfl, by rw [hbp]⟩
  · exact ⟨ha, by rw [hc], rfl, by rw [hbp]⟩

theorem SameRegs.shiftOnce {m n : MqRegs} (h : SameRegs m n) : SameRegs (shiftOnce m) (shiftOnce n) :=
  ⟨congrArg (fun a : BitVec 16 => a <<< 1) h.a, congrArg (fun c : BitVec 32 => c <<< 1) h.c,
    congrArg (fun ct : BitVec 4 => ct - 1) h.ct, h.bp⟩

theorem lockstep_renormd (n : Nat) : InStep (AlikeWith SameRegs l) (renormd n) := by
  induction n with
  | zero => exact fun s t h => .error _ h
  | succ n ih =>
    intro s t h
    rw [renormd_succ, renormd_succ, h.2.ct]
    refine lockstep_bind (lockstep_onlyIf (lockstep_byteIn (fun _ _ h => h.bp) fun b b1 _ _ h => h.enterByte b b1))
      (fun _ => lockstep_get_bind fun u v h => ?_) s t h
    have hshift := h.2.shiftOnce
    rw [eng_bind_ok (eng_set _ _), eng_bind_ok (eng_set _ _), hshift.a]
    exact lockstep_onlyIf ih _ _ ⟨h.1.setMq _ _, hshift⟩

theorem AlikeWith.applyDecision {s t : State} (h : AlikeWith SameRegs l s t) (c : Fin 19) (x : Decision) :
    AlikeWith SameRegs l (applyDecision c x s) (applyDecision c x t) :=
  ⟨⟨h.1.left, h.1.right, h.1.passDone, congrArg (fun v => v.set c.val x.entry c.isLt) h.1.cx, h.1.bytes, h.1.coef,
    h.1.flag⟩, ⟨rfl, rfl, h.2.ct, h.2.bp⟩⟩

theorem lockstep_decodeBit (c : Fin 19) : InStep (AlikeWith SameRegs l) (decodeBit c) := by
  intro s t h
  have hctx : ctxAt t c = ctxAt s c := by rw [ctxAt, ctxAt, h.1.cx]
  rw [decodeBit_eq, decodeBit_eq, h.2.a, h.2.c, hctx, eng_bind_ok (eng_set _ _), eng_bind_ok (eng_set _ _)]
  exact lockstep_bind (lockstep_onlyIf (lockstep_renormd maxShifts)) (fun _ =>
    lockstep_bind (lockstep_modify fun _ _ h => ⟨h.1.setMq _ _, ⟨h.2.a, h.2.c, h.2.ct, h.2.bp⟩⟩) fun _ =>
      lockstep_pure _) _ _ (h.applyDecision c _)

/-- A visit reads nothing of the state but what alike states agree on. -/
theorem blockRel_alike (l : Latches) (b : Nat) : BlockRel l b (AlikeWith SameRegs l) where
  left   := fun h => h.1.left
  right  := fun h => h.1.right
  coef   := fun h => h.1.coef _
  flag   := fun h => h.1.flag _
  decide := lockstep_decodeBit
  first  := fun _ h _ => ⟨h.1.writeCoef _ _, h.2⟩
  refine := fun _ h _ _ => ⟨h.1.writeCoef _ _, h.2⟩
  flags  := fun _ h _ => ⟨h.1.writeFlag _ _, h.2⟩
  count  := fun h => ⟨h.1.countPass, h.2⟩

/-! ## The whole block -/

/-- The byte pointer and the code register agree. -/
structure SameCode (m n : MqRegs) : Prop where
  bp : n.bp = m.bp
  c  : n.c = m.c

/-- The second byte entered and the registers aligned, only the decision may differ. -/
theorem SameCode.aligned {m n : MqRegs} (h : SameCode m n) (b b1 : Byte) :
    SameRegs (alignRegs (enterByte b b1 m)) (alignRegs (enterByte b b1 n)) := by
  obtain ⟨hbp, hc⟩ := h
  unfold alignRegs enterByte
  split
  · split
    · exact ⟨rfl, by rw [hc], rfl, hbp⟩
    · exact ⟨rfl, by rw [hc], rfl, by rw [hbp]⟩
  · exact ⟨rfl, by rw [hc], rfl, by rw [hbp]⟩

theorem Lockstep.mono {P Q Q' E E' : State → State → Prop} {m : Eng α} (h : Lockstep P Q E m)
    (hQ : ∀ s t, Q s t → Q' s t) (hE : ∀ s t, E s t → E' s t) : Lockstep P Q' E' m :=
  fun s t hst => (h s t hst).mono hQ hE

/-- The initialisation makes the working registers of alike states agree (R125). -/
theorem lockstep_initDecoder : Lockstep (Alike l) (AlikeWith SameRegs l) (Alike l) initDecoder := by
  have hread := lockstep_bsRead (l := l) (R := AlikeWith (fun m n => n.bp = m.bp) l) (fun _ _ h => h.1) 0
  have hcode : ∀ b0 : Byte, Lockstep (AlikeWith (fun m n => n.bp = m.bp) l) (AlikeWith SameCode l) (Alike l)
      (modify (fun s => setMq { s.mq with c := b0.setWidth 32 <<< 16 } s) : Eng PUnit) := fun b0 =>
    lockstep_setMq (f := fun m => { m with c := b0.setWidth 32 <<< 16 }) fun _ _ h => ⟨h, rfl⟩
  have hbyte : Lockstep (AlikeWith SameCode l) (AlikeWith (fun m n => SameRegs (alignRegs m) (alignRegs n)) l)
      (AlikeWith SameCode l) byteIn := lockstep_byteIn (fun _ _ h => h.bp) fun b b1 _ _ h => h.aligned b b1
  have halign : Lockstep (AlikeWith (fun m n => SameRegs (alignRegs m) (alignRegs n)) l) (AlikeWith SameRegs l) (Alike l)
      (modify (fun s => setMq (alignRegs s.mq) s) : Eng PUnit) := lockstep_setMq fun _ _ h => h
  intro s t h
  rw [initDecoder_start, initDecoder_start]
  exact lockstep_bind (hread.mono (fun _ _ h => h) fun _ _ h => h.1) (fun b0 => lockstep_bind (hcode b0) fun _ =>
    lockstep_bind (hbyte.mono (fun _ _ h => h) fun _ _ h => h.1) fun _ => halign) _ _ ⟨h.setMq _ _, rfl⟩

theorem lockstep_decodePasses (n zbp : Nat) : InStep (Alike l) (decodePasses n zbp) := by
  have hpasses : InStep (AlikeWith SameRegs l) (forEach (List.range n) (schedPass zbp)) :=
    lockstep_forEach fun p _ => lockstep_runPass (blockRel_alike l (passBit zbp p)) (passTypeOf p)
  exact lockstep_bind lockstep_initDecoder fun _ => hpasses.mono (fun _ _ h => h.1) fun _ _ h => h.1

end

/-- `T1.DECODE` on two states with the same parameters and bytes. -/
theorem t1DecodeBody_alike {s t : State} (hpar : s.par = t.par) (hcap : s.cap = t.cap)
    (hbytes : ∀ k, k < s.par.cbLen.toNat → Memory.read s.bs k = Memory.read t.bs k)
    (h : firstFailure (decodeChecks s.cap s.par) = none) :
    SameEnd (Alike (jobLatches s.par s.par.cbLen)) (Alike (jobLatches s.par s.par.cbLen)) (t1DecodeBody s)
      (t1DecodeBody t) := by
  have h' : firstFailure (decodeChecks t.cap t.par) = none := hcap ▸ hpar ▸ h
  rw [t1DecodeBody_eq h, t1DecodeBody_eq h', ← hpar]
  exact lockstep_bind (lockstep_onlyIf (lockstep_decodePasses _ _))
    (fun _ => lockstep_modify fun _ _ h => h.setSession false false) _ _ (.blankBlock fun k hk => (hbytes k hk).symm)

/-- A `T1.DECODE` that completes changes of `STATUS` the two flags it clears. -/
theorem t1DecodeBody_status {s t : State} (h : firstFailure (decodeChecks s.cap s.par) = none)
    (hbody : t1DecodeBody s = .ok () t) : t.status = { s.status with session := false, mqrdy := false } := by
  rw [t1DecodeBody_eq h] at hbody
  obtain ⟨_, u, hu, hend⟩ := eng_bind_eq_ok.mp hbody
  have hkept := (ignores_onlyIf (c := decide (0 < s.par.cbNpass.toNat))
    (ignores_decodePasses s.par.cbNpass.toNat s.par.cbZbp.toNat)).kept
    (blankBlock (jobLatches s.par s.par.cbLen) s)
  rw [hu, blankBlock_status] at hkept
  cases hend
  show { u.status with session := false, mqrdy := false } = _
  rw [show u.status = _ from hkept]

theorem t1DecodeBody_errinfo {s t : State} (hbody : t1DecodeBody s = .ok () t) : t.errinfo = s.errinfo := by
  have hleaves := (leaves_t1DecodeBody s).1.errinfo
  rwa [hbody] at hleaves

theorem SameEnd.of_ok {Q E : State → State → Prop} {a : α} {t : State} {r : EStateM.Result Stop State α}
    (h : SameEnd Q E (.ok a t) r) : ∃ u, r = .ok a u ∧ Q t u := by
  cases h with
  | ok _ h => exact ⟨_, rfl, h⟩

theorem SameEnd.of_error {Q E : State → State → Prop} {e : Stop} {t : State} {r : EStateM.Result Stop State α}
    (h : SameEnd Q E (.error e t) r) : ∃ u, r = .error e u ∧ E t u := by
  cases h with
  | error _ h => exact ⟨_, rfl, h⟩

/-- Settles O45: after the checks both states decode from blank blocks that are alike, so both bodies end alike. -/
theorem wholeBlockDecodeIsIndependent : Obligations.WholeBlockDecodeIsIndependent := by
  intro s₁ s₂ t₁ hpar hcap herr hcode hbytes h hx
  have hends := t1DecodeBody_alike hpar hcap hbytes h
  have h₂ : firstFailure (decodeChecks s₂.cap s₂.par) = none := hcap ▸ hpar ▸ h
  rcases runCommand_next hx with ⟨u₁, hbody₁, rfl⟩ | ⟨k, info, u₁, hbody₁, rfl⟩
  · replace hbody₁ : t1DecodeBody s₁ = .ok () u₁ := hbody₁
    rw [hbody₁] at hends
    obtain ⟨u₂, hbody₂, hu⟩ := hends.of_ok
    have hinfo₁ := t1DecodeBody_errinfo hbody₁
    have hinfo₂ := t1DecodeBody_errinfo hbody₂
    refine ⟨complete u₂, runCommand_ok hbody₂, ?_, fun _ => ⟨hinfo₁, hinfo₂⟩, fun hd => absurd hd Bool.noConfusion,
      hu.passDone, hu.cx, hu.right.trans hu.left.symm, fun i hi => ⟨hu.coef i hi, hu.flag i hi⟩⟩
    show u₂.status.completed = u₁.status.completed
    rw [t1DecodeBody_status h hbody₁, t1DecodeBody_status h₂ hbody₂, StatusFlags.completed, StatusFlags.completed, herr,
      hcode]
  · replace hbody₁ : t1DecodeBody s₁ = .error (.raise k info) u₁ := hbody₁
    rw [hbody₁] at hends
    obtain ⟨u₂, hbody₂, hu⟩ := hends.of_error
    refine ⟨takeError true k info u₂, runCommand_raise hbody₂, ?_⟩
    rw [takeError_closing, takeError_closing]
    exact ⟨rfl, fun hd => absurd hd Bool.false_ne_true, fun _ => rfl, hu.passDone, hu.cx, hu.right.trans hu.left.symm,
      fun i hi => ⟨hu.coef i hi, hu.flag i hi⟩⟩

end Sys2Proof.Machine
end

section
/-! Finite binary32 values (R10, R217): what a pattern below the sign stands for, when a magnitude is rounded without
error, and how large a rounded result, a sum and a product of finite values can be. -/

namespace Sys2Proof.Machine

/-! ## Patterns -/

/-- The value of a pattern, by its sign and the 31 bits below it. -/
theorem fpVal_fpWord (neg : Bool) {rest : Nat} (h : rest < 2 ^ 31) :
    fpVal (fpWord neg rest) =
      if rest / 2 ^ 23 = 255 then if rest % 2 ^ 23 = 0 then .inf neg else .nan
      else if rest / 2 ^ 23 = 0 then .fin neg (rest % 2 ^ 23) (-149)
      else .fin neg (0x800000 + rest % 2 ^ 23) (((rest / 2 ^ 23 : Nat) : Int) - 150) := by
  have hnat : (fpWord neg rest).toNat = (if neg then 0x80000000 else 0) + rest := by
    rw [fpWord, BitVec.toNat_ofNat]
    exact Nat.mod_eq_of_lt (by split <;> omega)
  have hmsb : (fpWord neg rest).msb = neg := by
    rw [BitVec.msb_eq_decide, hnat]
    cases neg with
    | false => exact decide_eq_false (by simp; omega)
    | true => exact decide_eq_true (by simp)
  have hexp : ((fpWord neg rest).extractLsb' 23 8).toNat = rest / 2 ^ 23 := by
    rw [BitVec.extractLsb'_toNat, hnat, Nat.shiftRight_eq_div_pow]
    split <;> omega
  have hfrac : ((fpWord neg rest).extractLsb' 0 23).toNat = rest % 2 ^ 23 := by
    rw [BitVec.extractLsb'_toNat, hnat, Nat.shiftRight_zero]
    split <;> omega
  simp only [fpVal, hexp, hfrac, hmsb]

/-- Flipping bit 31 flips the sign of the value (R217). -/
theorem fpVal_fpNeg (w : Word) : fpVal (fpNeg w) = fpValNeg (fpVal w) := by
  have hmsb : (fpNeg w).msb = !w.msb := by
    rw [fpNeg, BitVec.msb_xor]
    exact Bool.xor_true _
  have hexp : (fpNeg w).extractLsb' 23 8 = w.extractLsb' 23 8 := by
    rw [fpNeg, BitVec.extractLsb'_xor]
    simp
  have hfrac : (fpNeg w).extractLsb' 0 23 = w.extractLsb' 0 23 := by
    rw [fpNeg, BitVec.extractLsb'_xor]
    simp
  simp only [fpVal, hmsb, hexp, hfrac]
  split_ifs <;> rfl

/-! ## Rounding -/

theorem lastPlace_ge (m : Nat) (e : Int) : -149 ≤ lastPlace m e := Int.le_max_right _ _

theorem roundShift_le (m k : Nat) : roundShift m k ≤ m / 2 ^ k + 1 := by
  simp only [roundShift]
  split_ifs <;> omega

/-- A rounded significand has at most 24 bits, or is the power of two after those. -/
theorem scaleTo_lastPlace_le (m : Nat) (e : Int) : scaleTo m e (lastPlace m e) ≤ 2 ^ 24 := by
  have hlog : m < 2 ^ (Nat.log2 m + 1) := Nat.lt_log2_self
  have hge : e + (Nat.log2 m : Int) - 23 ≤ lastPlace m e := Int.le_max_left _ _
  rw [scaleTo]
  split
  · have hdiv : m / 2 ^ (lastPlace m e - e).toNat < 2 ^ 24 := by
      refine Nat.div_lt_of_lt_mul (hlog.trans_le ?_)
      rw [← Nat.pow_add]
      exact Nat.pow_le_pow_right Nat.two_pos (by omega)
    have := roundShift_le m (lastPlace m e - e).toNat
    omega
  · have hmul : m * 2 ^ (e - lastPlace m e).toNat ≤ 2 ^ (Nat.log2 m + 1) * 2 ^ (e - lastPlace m e).toNat :=
      Nat.mul_le_mul_right _ hlog.le
    rw [← Nat.pow_add] at hmul
    exact hmul.trans (Nat.pow_le_pow_right Nat.two_pos (by omega))

/-- Short of an overflow the pattern of a rounded magnitude is the place and the significand, added. -/
theorem fpRound_of_lt (neg : Bool) {m : Nat} {e : Int} (hm : m ≠ 0)
    (h : (lastPlace m e + 149).toNat * 0x800000 + scaleTo m e (lastPlace m e) < fpInf) :
    fpRound neg m e = fpWord neg ((lastPlace m e + 149).toNat * 0x800000 + scaleTo m e (lastPlace m e)) := by
  simp only [fpRound, if_neg hm, if_neg (Nat.not_le.mpr h)]

/-- A magnitude of at most 24 bits, in the range of normal numbers, is represented exactly. -/
theorem fpVal_fpRound_exact (neg : Bool) {m : Nat} {e q : Int} (hm : m ≠ 0) (hq : e + (Nat.log2 m : Int) - 23 = q)
    (hbits : Nat.log2 m ≤ 23) (hlow : -149 ≤ q) (hhigh : q ≤ 104) :
    fpVal (fpRound neg m e) = .fin neg (m * 2 ^ (23 - Nat.log2 m)) q := by
  have hplace : lastPlace m e = q := by rw [lastPlace, hq]; exact max_eq_left hlow
  have hscale : scaleTo m e q = m * 2 ^ (23 - Nat.log2 m) := by
    rw [scaleTo]
    split
    · obtain rfl : q = e := by omega
      have h23 : 23 - Nat.log2 m = 0 := by omega
      simp [roundShift, h23, Nat.mod_one]
    · rw [show (e - q).toNat = 23 - Nat.log2 m by omega]
  have hpow : 2 ^ Nat.log2 m * 2 ^ (23 - Nat.log2 m) = 2 ^ 23 := by
    rw [← Nat.pow_add, Nat.add_sub_cancel' hbits]
  have hlo : 2 ^ 23 ≤ m * 2 ^ (23 - Nat.log2 m) := hpow ▸ Nat.mul_le_mul_right _ (Nat.log2_self_le hm)
  have hhi : m * 2 ^ (23 - Nat.log2 m) < 2 * 2 ^ 23 := by
    rw [← hpow, ← Nat.mul_assoc, ← Nat.pow_succ']
    exact Nat.mul_lt_mul_of_pos_right Nat.lt_log2_self (Nat.two_pow_pos _)
  generalize m * 2 ^ (23 - Nat.log2 m) = n at *
  have hlt : (q + 149).toNat * 0x800000 + n < 0x7F800000 := by omega
  have hexp : ((q + 149).toNat * 0x800000 + n) / 2 ^ 23 = (q + 150).toNat := by omega
  have hfrac : ((q + 149).toNat * 0x800000 + n) % 2 ^ 23 = n - 2 ^ 23 := by omega
  rw [fpRound_of_lt neg hm (by rw [hplace, hscale]; exact hlt), hplace, hscale, fpVal_fpWord neg (by omega), hexp, hfrac,
    if_neg (by omega), if_neg (by omega)]
  rw [show 0x800000 + (n - 2 ^ 23) = n by omega, show ((q + 150).toNat : Int) - 150 = q by omega]

/-! ## Bounds on finite values -/

/-- The pattern of a finite value of at most 24 significant bits whose last place is at most `k`. -/
def FpFiniteTo (k : Int) (w : Word) : Prop := ∃ n m e, fpVal w = .fin n m e ∧ m < 2 ^ 24 ∧ e ≤ k

theorem FpFiniteTo.mono {k l : Int} {w : Word} (h : FpFiniteTo k w) (hkl : k ≤ l) : FpFiniteTo l w := by
  obtain ⟨n, m, e, hv, hm, he⟩ := h
  exact ⟨n, m, e, hv, hm, he.trans hkl⟩

theorem FpFiniteTo.neg {k : Int} {w : Word} (h : FpFiniteTo k w) : FpFiniteTo k (fpNeg w) := by
  obtain ⟨n, m, e, hv, hm, he⟩ := h
  exact ⟨!n, m, e, by rw [fpVal_fpNeg, hv, fpValNeg], hm, he⟩

/-- A pattern below that of infinity is finite, its last place given by its exponent field. -/
theorem finiteTo_fpWord (neg : Bool) {rest : Nat} {k : Int} (h : rest < fpInf) (hk : -149 ≤ k)
    (hrest : (rest : Int) < (k + 151) * 2 ^ 23) : FpFiniteTo k (fpWord neg rest) := by
  replace h : rest < 0x7F800000 := h
  have hv := fpVal_fpWord neg (rest := rest) (by omega)
  rw [if_neg (by omega)] at hv
  split at hv
  · exact ⟨_, _, _, hv, by omega, hk⟩
  · exact ⟨_, _, _, hv, by omega, by omega⟩

theorem finiteTo_zero (neg : Bool) {k : Int} (hk : -149 ≤ k) : FpFiniteTo k (fpWord neg 0) :=
  finiteTo_fpWord neg (by decide) hk (by omega)

/-- Rounding carries at most one place beyond the 24 bits of the magnitude. -/
theorem finiteTo_fpRound (neg : Bool) {m a : Nat} {e k : Int} (hm : m < 2 ^ a) (hk : e + a - 23 ≤ k)
    (hlow : -148 ≤ k) (hhigh : k ≤ 104) : FpFiniteTo k (fpRound neg m e) := by
  rcases Nat.eq_zero_or_pos m with rfl | hpos
  · exact finiteTo_zero neg (by omega)
  have hm0 : m ≠ 0 := hpos.ne'
  have hlog : Nat.log2 m < a := (Nat.log2_lt hm0).mpr hm
  have hplace : lastPlace m e ≤ k - 1 := by rw [lastPlace]; omega
  have hge := lastPlace_ge m e
  have hscale := scaleTo_lastPlace_le m e
  have hlt : (lastPlace m e + 149).toNat * 0x800000 + scaleTo m e (lastPlace m e) < 0x7F800000 := by omega
  rw [fpRound_of_lt neg hm0 hlt]
  exact finiteTo_fpWord neg hlt (by omega) (by omega)

/-- A significand of 24 bits, expressed at another place. -/
theorem align_lt {m : Nat} {e j : Int} (hm : m < 2 ^ 24) (he : e ≤ j) (q : Int) :
    m * 2 ^ (e - q).toNat < 2 ^ (24 + (j - q).toNat) :=
  calc m * 2 ^ (e - q).toNat
    _ < 2 ^ 24 * 2 ^ (e - q).toNat := Nat.mul_lt_mul_of_pos_right hm (Nat.two_pow_pos _)
    _ = 2 ^ (24 + (e - q).toNat) := (Nat.pow_add 2 24 _).symm
    _ ≤ 2 ^ (24 + (j - q).toNat) := Nat.pow_le_pow_right Nat.two_pos (by omega)

/-- A sum is aligned at the smaller of the two places and is at most one bit longer than the longer term (R217). -/
theorem finiteTo_fpAdd {j k : Int} {a b : Word} (ha : FpFiniteTo j a) (hb : FpFiniteTo j b) (t : FpTag)
    (hk : j + 2 ≤ k) (hlow : -148 ≤ k) (hhigh : k ≤ 104) : FpFiniteTo k (fpAdd t a b) := by
  obtain ⟨n₁, m₁, e₁, hv₁, hm₁, he₁⟩ := ha
  obtain ⟨n₂, m₂, e₂, hv₂, hm₂, he₂⟩ := hb
  have h₁ := align_lt hm₁ he₁ (min e₁ e₂)
  have h₂ := align_lt hm₂ he₂ (min e₁ e₂)
  simp only [fpAdd, hv₁, hv₂, fpSum, fpAddFin]
  split
  · exact finiteTo_zero _ (by omega)
  · refine finiteTo_fpRound _ (a := 25 + (j - min e₁ e₂).toNat) ?_ (by omega) hlow hhigh
    rw [show 25 + (j - min e₁ e₂).toNat = 24 + (j - min e₁ e₂).toNat + 1 by omega, Nat.pow_succ]
    cases n₁ <;> cases n₂ <;> simp only [signedNat] <;> omega

theorem finiteTo_fpMul {i j k : Int} {a b : Word} (ha : FpFiniteTo i a) (hb : FpFiniteTo j b) (t : FpTag)
    (hk : i + j + 25 ≤ k) (hlow : -148 ≤ k) (hhigh : k ≤ 104) : FpFiniteTo k (fpMul t a b) := by
  obtain ⟨n₁, m₁, e₁, hv₁, hm₁, he₁⟩ := ha
  obtain ⟨n₂, m₂, e₂, hv₂, hm₂, he₂⟩ := hb
  have hprod : m₁ * m₂ < 2 ^ 24 * 2 ^ 24 := Nat.mul_lt_mul'' hm₁ hm₂
  simp only [fpMul, hv₁, hv₂, fpProduct]
  exact finiteTo_fpRound _ (a := 48) hprod (by omega) hlow hhigh

end Sys2Proof.Machine
end

section
/-! The dequantizer's words (R190 to R195): the truncated magnitude, the reversible value, the step size, and the
irreversible value as a finite one. -/

namespace Sys2Proof.Machine

/-! ## The truncated magnitude -/

theorem magnitude_eq (c : Word) : magnitude c = c.toNat % 2 ^ 31 := by
  rw [magnitude, BitVec.extractLsb'_toNat, Nat.shiftRight_zero]

theorem truncMag_eq (shift : Nat) (c : Word) : truncMag shift c = c.toNat % 2 ^ 31 / 2 ^ shift := by
  rw [truncMag, magnitude_eq]

theorem truncMag_lt (shift : Nat) (c : Word) : truncMag shift c < 2 ^ 31 := by
  rw [truncMag_eq]
  exact (Nat.div_le_self _ _).trans_lt (Nat.mod_lt _ (by decide))

/-- The reversible value is the truncated magnitude with the sign of the word (R192). -/
theorem deqRevWord_toInt (shift : Nat) (c : Word) :
    (deqRevWord shift c).toInt = (if c.msb then -1 else 1) * (truncMag shift c : Int) := by
  have hlt := truncMag_lt shift c
  rw [deqRevWord]
  generalize truncMag shift c = n at *
  have hof : (BitVec.ofNat 32 n).toInt = n := by
    rw [BitVec.toInt_ofNat']
    exact Int.bmod_eq_of_le (by omega) (by omega)
  cases c.msb
  · simp [hof]
  · rw [if_pos rfl, if_pos rfl, BitVec.toInt_neg, hof, Int.neg_one_mul]
    exact Int.bmod_eq_of_le (by omega) (by omega)

/-! ## The step size -/

theorem stepMantissa_eq (p : ParamRegs) : stepMantissa p = p.qStep.toNat % 2048 := by
  rw [stepMantissa, BitVec.extractLsb'_toNat, Nat.shiftRight_zero]

theorem log2_step {m : Nat} (hm : m < 2048) : Nat.log2 (2048 + m) = 11 :=
  (Nat.log2_eq_iff (by omega)).mpr (by omega)

/-- The step size is the normal number with the 12-bit significand `2048 + M` (R193), for every exponent and mantissa. -/
theorem fpVal_stepSize {p : ParamRegs} (hlow : 1 ≤ p.qPrec.toNat) (hhigh : p.qPrec.toNat ≤ 38) :
    fpVal (stepSize p) =
      .fin false ((2048 + stepMantissa p) * 2 ^ 12) ((p.qPrec.toNat : Int) - (stepExponent p : Int) - 11 - 12) := by
  have hexp := stepExponent_eq p
  have hlog : Nat.log2 (2048 + stepMantissa p) = 11 := log2_step (by rw [stepMantissa_eq]; omega)
  have h := fpVal_fpRound_exact false (m := 2048 + stepMantissa p)
    (e := (p.qPrec.toNat : Int) - (stepExponent p : Int) - 11) (by omega) rfl (by omega) (by omega) (by omega)
  rw [stepSize, h, hlog]
  congr 1
  omega

/-- Settles O48: with `Q_STEP` at most 0xFFFF its exponent field is all that stands above the mantissa. -/
theorem stepSizeIsExact : Obligations.StepSizeIsExact := by
  intro p hlow hhigh hstep e m
  have he : stepExponent p = e := by
    rw [stepExponent_eq]
    exact Nat.mod_eq_of_lt (by omega)
  rw [fpVal_stepSize hlow hhigh, he, stepMantissa_eq]

/-! ## The irreversible value is finite -/

theorem finiteTo_stepSize {p : ParamRegs} (hlow : 1 ≤ p.qPrec.toNat) (hhigh : p.qPrec.toNat ≤ 38) :
    FpFiniteTo 15 (stepSize p) := by
  refine ⟨_, _, _, fpVal_stepSize hlow hhigh, ?_, by omega⟩
  have hmant : stepMantissa p < 2048 := by rw [stepMantissa_eq]; omega
  omega

theorem finiteTo_fpHalf : FpFiniteTo 0 fpHalf :=
  ⟨false, 0x800000, -24, by decide, by decide, by decide⟩

/-- Each operation on a truncated magnitude and a finite step size is far inside the range of binary32 (R194). -/
theorem finiteTo_deqIrrWord (tag : FpTag) (shift : Nat) {step : Word} (hstep : FpFiniteTo 15 step) (c : Word) :
    FpFiniteTo 50 (deqIrrWord binary32 tag shift step c) := by
  have hmag : FpFiniteTo 8 (fpOfNat (truncMag shift c)) :=
    finiteTo_fpRound false (truncMag_lt shift c) (by omega) (by omega) (by omega)
  have hsum : FpFiniteTo 10 (fpAdd tag (fpOfNat (truncMag shift c)) fpHalf) :=
    finiteTo_fpAdd hmag (finiteTo_fpHalf.mono (by omega)) tag (by omega) (by omega) (by omega)
  have hprod : FpFiniteTo 50 (fpMul tag (fpAdd tag (fpOfNat (truncMag shift c)) fpHalf) step) :=
    finiteTo_fpMul hsum hstep tag (by omega) (by omega) (by omega)
  simp only [deqIrrWord]
  split_ifs
  · exact finiteTo_zero false (by omega)
  · exact hprod.neg
  · exact hprod

/-- Check 7 of R191. -/
theorem qPrec_of_deqIrrChecks {cap : Capacity} {p : ParamRegs} (h : firstFailure (deqIrrChecks cap p) = none) :
    1 ≤ p.qPrec.toNat ∧ p.qPrec.toNat ≤ 38 := by
  have hc := firstFailure_none.mp h (decide (1 ≤ p.qPrec.toNat) && decide (p.qPrec.toNat ≤ Config.precMax), .qPrec)
    (by simp [deqIrrChecks, precChecks])
  exact (Bool.and_eq_true_iff.mp hc).imp of_decide_eq_true of_decide_eq_true

/-- Settles O49: the truncated magnitude and the step size are finite, and no operation on them overflows. -/
theorem irreversibleDequantizerIsFinite : Obligations.IrreversibleDequantizerIsFinite := by
  intro cap p tag c h
  obtain ⟨hlow, hhigh⟩ := qPrec_of_deqIrrChecks h
  obtain ⟨n, m, e, hv, -, -⟩ := finiteTo_deqIrrWord tag (deqShift p) (finiteTo_stepSize hlow hhigh) c
  exact ⟨n, m, e, hv⟩

end Sys2Proof.Machine
end

section
/-! The dequantizer commands (R191, R192, R194): their check tables, and the plane after a block has been placed in it. -/

namespace Sys2Proof.Machine

/-! ## Commands that check their geometry first -/

theorem runCommand_checks_fail {closes : Bool} {l : State → List Check} {body : State → Eng Unit} {s : State}
    {off : Word} (h : failureOffset (l s) = some off) :
    runCommand closes ((get : Eng State) >>= fun s => requireGeometry (l s) >>= fun _ => body s) s =
      .next (takeError closes .geometry off s) :=
  runCommand_raise (by rw [eng_bind_ok (eng_get s), eng_bind_error (requireGeometry_raises h s)])

theorem runCommand_checks_hold {closes : Bool} {l : State → List Check} {body : State → Eng Unit} {s t : State}
    (h : firstFailure (l s) = none) (hb : body s s = .ok () t) :
    runCommand closes ((get : Eng State) >>= fun s => requireGeometry (l s) >>= fun _ => body s) s =
      .next (complete t) :=
  runCommand_ok (by rw [eng_bind_ok (eng_get s), eng_bind_ok (requireGeometry_ok h s), hb])

/-! ## Check tables -/

/-- Checks 1 to 3 of R191. -/
theorem failureOffset_blockChecks (p : ParamRegs) :
    failureOffset (blockChecks p) =
      if ¬ (1 ≤ p.cbW.toNat ∧ p.cbW.toNat ≤ 1024) then some 0x010
      else if ¬ (1 ≤ p.cbH.toNat ∧ p.cbH.toNat ≤ 1024) then some 0x014
      else if ¬ p.cbW.toNat * p.cbH.toNat ≤ 4096 then some 0x014
      else none := by
  simp only [blockChecks, failureOffset_cons, failureOffset_nil, ite_not, Bool.and_eq_true, decide_eq_true_eq]
  rfl

/-- Checks 4 to 6 of R191, `mb` the number of magnitude bit-planes. -/
theorem failureOffset_quantChecks (p : ParamRegs) {mb : Int} (hmb : planeCount p = mb) :
    failureOffset (quantChecks p) =
      if ¬ p.qGuard.toNat ≤ 7 then some 0x030
      else if ¬ p.qStep.toNat ≤ 0xFFFF then some 0x034
      else if ¬ (0 ≤ mb ∧ mb ≤ 31) then some 0x034
      else none := by
  simp only [quantChecks, failureOffset_cons, failureOffset_nil, ite_not, Bool.and_eq_true, decide_eq_true_eq, hmb]
  rfl

/-- Check 7 of R191. -/
theorem failureOffset_precChecks (p : ParamRegs) :
    failureOffset (precChecks p) = if ¬ (1 ≤ p.qPrec.toNat ∧ p.qPrec.toNat ≤ 38) then some 0x038 else none := by
  simp only [precChecks, failureOffset_cons, failureOffset_nil, ite_not, Bool.and_eq_true, decide_eq_true_eq]
  rfl

/-- Checks 11 and 12 of R191, the sides of the plane as integers. -/
theorem failureOffset_placeChecks (p : ParamRegs) {pw ph : Int} (hpw : (planeW p : Int) = pw)
    (hph : (planeH p : Int) = ph) :
    failureOffset (placeChecks p) =
      if ¬ (p.qDx.toNat : Int) + p.cbW.toNat ≤ pw then some 0x03C
      else if ¬ (p.qDy.toNat : Int) + p.cbH.toNat ≤ ph then some 0x040
      else none := by
  subst hpw hph
  simp only [placeChecks, failureOffset_cons, failureOffset_nil, ite_not, decide_eq_true_eq, ← Nat.cast_add, Nat.cast_le]
  rfl

/-- Checks 1 to 3 of R210, the sides of the plane as integers, and what follows where they hold. -/
theorem failureOffset_planeChecks_append (cap : Capacity) (p : ParamRegs) {r : List Check} {pw ph : Int}
    {x : Option Word} (hpw : (p.dwX1.toNat : Int) - p.dwX0.toNat = pw) (hph : (p.dwY1.toNat : Int) - p.dwY0.toNat = ph)
    (hr : (planeW p : Int) = pw → (planeH p : Int) = ph → failureOffset r = x) :
    failureOffset (planeChecks cap p ++ r) =
      if ¬ 0 < pw then some 0x058
      else if ¬ 0 < ph then some 0x05C
      else if ¬ pw * ph ≤ cap.sampWords then some 0x05C
      else x := by
  have hx : 0 < pw ↔ p.dwX0.toNat < p.dwX1.toNat := by omega
  have hy : 0 < ph ↔ p.dwY0.toNat < p.dwY1.toNat := by omega
  simp only [planeChecks, List.cons_append, List.nil_append, failureOffset_cons, decide_eq_true_eq, ite_not, hx, hy]
  refine ite_congr rfl (fun hx => ite_congr rfl (fun hy => ?_) fun _ => rfl) fun _ => rfl
  have hw : (planeW p : Int) = pw := by rw [planeW]; omega
  have hh : (planeH p : Int) = ph := by rw [planeH]; omega
  rw [hr hw hh, ← hw, ← hh]
  simp only [← Nat.cast_mul, Nat.cast_le]
  rfl

/-- A check in front of a table. -/
theorem ite_some_or (c : Prop) [Decidable c] (off : Word) (x y : Option Word) :
    (if c then some off else x).or y = if c then some off else x.or y := by
  split <;> rfl

/-- Checks 1 to 12 of R191, with the table `prec` in the place of check 7. -/
theorem failureOffset_deqChecks (cap : Capacity) (p : ParamRegs) (prec : List Check) {mb pw ph : Int}
    (hmb : planeCount p = mb) (hpw : (p.dwX1.toNat : Int) - p.dwX0.toNat = pw)
    (hph : (p.dwY1.toNat : Int) - p.dwY0.toNat = ph) :
    failureOffset (blockChecks p ++ quantChecks p ++ prec ++ planeChecks cap p ++ placeChecks p) =
      if ¬ (1 ≤ p.cbW.toNat ∧ p.cbW.toNat ≤ 1024) then some 0x010
      else if ¬ (1 ≤ p.cbH.toNat ∧ p.cbH.toNat ≤ 1024) then some 0x014
      else if ¬ p.cbW.toNat * p.cbH.toNat ≤ 4096 then some 0x014
      else if ¬ p.qGuard.toNat ≤ 7 then some 0x030
      else if ¬ p.qStep.toNat ≤ 0xFFFF then some 0x034
      else if ¬ (0 ≤ mb ∧ mb ≤ 31) then some 0x034
      else (failureOffset prec).or
        (if ¬ 0 < pw then some 0x058
        else if ¬ 0 < ph then some 0x05C
        else if ¬ pw * ph ≤ cap.sampWords then some 0x05C
        else if ¬ (p.qDx.toNat : Int) + p.cbW.toNat ≤ pw then some 0x03C
        else if ¬ (p.qDy.toNat : Int) + p.cbH.toNat ≤ ph then some 0x040
        else none) := by
  rw [List.append_assoc _ (planeChecks cap p), failureOffset_append, failureOffset_append, failureOffset_append,
    failureOffset_blockChecks, failureOffset_quantChecks p hmb,
    failureOffset_planeChecks_append cap p hpw hph (failureOffset_placeChecks p)]
  simp only [ite_some_or, Option.none_or]

/-- Settles O17: the table with the offsets written out is the model's, the plane's sides agreeing where the checks
before have found them positive, and both commands make their checks before anything else. -/
theorem dequantizerChecksInOrder : Obligations.DequantizerChecksInOrder := by
  intro s p mb pw ph first
  have hmb : planeCount p = mb := by rw [planeCount, stepExponent_eq]; rfl
  have hrev : first false = failureOffset (deqRevChecks s.cap p) := by
    have htable := failureOffset_deqChecks s.cap p [] hmb rfl rfl
    rw [List.append_nil, failureOffset_nil, Option.none_or] at htable
    rw [deqRevChecks, htable]
    simp only [first, Bool.false_eq_true, false_and, if_false]
    rfl
  have hirr : first true = failureOffset (deqIrrChecks s.cap p) := by
    rw [deqIrrChecks, failureOffset_deqChecks s.cap p _ hmb rfl rfl, failureOffset_precChecks, ite_some_or, Option.none_or]
    simp only [first, true_and]
    rfl
  rw [hrev, hirr]
  exact ⟨fun _ => runCommand_checks_fail (l := fun s => deqRevChecks s.cap s.par),
    fun _ => runCommand_checks_fail (l := fun s => deqIrrChecks s.cap s.par), failureOffset_eq_none.mp,
    failureOffset_eq_none.mp⟩

/-! ## Placing a block -/

/-- The coefficient word at an index, 0 where none is written; used only where one is. -/
def coefWord (s : State) (i : Nat) : Word := (Memory.read s.coef i).getD 0

theorem read_eq_coefWord {s : State} {i : Nat} (h : Memory.has s.coef i = true) :
    Memory.read s.coef i = some (coefWord s i) := by
  obtain ⟨c, hc⟩ := Option.isSome_iff_exists.mp h
  rw [coefWord, hc, Option.getD_some]

theorem rasterOrder_nodup (w h : Nat) : (rasterOrder w h).Nodup := List.nodup_range.product List.nodup_range

/-- Where the coefficients of a list go, and what is written there. -/
def placements (s : State) (f : Word → Word) (l : List (Nat × Nat)) : List (Nat × Word) :=
  l.map fun q => (destIndex s.par q.1 q.2, f (coefWord s (q.1 * s.par.cbW.toNat + q.2)))

/-- Dequantizing written coefficients writes their words to their places, and does nothing else. -/
theorem forEach_deqOne {s t : State} (hst : SampOnly s t) (f : Word → Word) {l : List (Nat × Nat)}
    (h : ∀ q ∈ l, Memory.has s.coef (q.1 * s.par.cbW.toNat + q.2) = true) :
    forEach l (deqOne s.par f) t = .ok () (writeSamps (placements s f l) t) := by
  induction l generalizing t with
  | nil => rfl
  | cons q r ih =>
    have hread := read_eq_coefWord (h q List.mem_cons_self)
    rw [← hst.coef] at hread
    rw [forEach_cons, eng_bind_ok (deqOne_ok hread)]
    exact ih (hst.trans (SampOnly.writeSamp _ _ _)) fun q hq => h q (List.mem_cons_of_mem _ hq)

/-- A point of a grid of `h` rows of `w` lies below its area. -/
theorem raster_index_lt {w h j i : Nat} (hj : j < h) (hi : i < w) : j * w + i < w * h := by
  have hrow : (j + 1) * w ≤ h * w := Nat.mul_le_mul_right w hj
  rw [Nat.add_mul, Nat.one_mul, Nat.mul_comm h] at hrow
  omega

/-- A written block that the checks place in the plane is dequantized: `f` of each coefficient word at its place, and
every other word of SAMP kept. -/
theorem deqBlock_places (f : Word → Word) {s : State} (hplace : firstFailure (placeChecks s.par) = none)
    (hgrid : ∀ k, k < s.par.cbW.toNat * s.par.cbH.toNat → Memory.has s.coef k = true) :
    ∃ t, deqBlock s.par f s = .ok () t ∧ SampOnly s t ∧
      (∀ j i, j < s.par.cbH.toNat → i < s.par.cbW.toNat →
        ∃ c, Memory.read s.coef (j * s.par.cbW.toNat + i) = some c ∧
          Memory.read t.samp (destIndex s.par j i) = some (f c)) ∧
      ∀ k, (∀ j i, j < s.par.cbH.toNat → i < s.par.cbW.toNat → k ≠ destIndex s.par j i) →
        Memory.read t.samp k = Memory.read s.samp k := by
  have hwritten : ∀ j i, j < s.par.cbH.toNat → i < s.par.cbW.toNat →
      Memory.has s.coef (j * s.par.cbW.toNat + i) = true := fun j i hj hi => hgrid _ (raster_index_lt hj hi)
  refine ⟨_, forEach_deqOne (SampOnly.refl s) f fun q hq => ?_, SampOnly.writeSamps _ s, fun j i hj hi => ?_,
    fun k hk => ?_⟩
  · obtain ⟨hj, hi⟩ := mem_rasterOrder.mp hq
    exact hwritten q.1 q.2 hj hi
  · refine ⟨_, read_eq_coefWord (hwritten j i hj hi), writeSamps_read _ s _ _ ?_ ?_⟩
    · rw [placements, List.map_map]
      refine (rasterOrder_nodup _ _).map_on fun q hq q' hq' he => ?_
      obtain ⟨hrow, hcol⟩ := destIndex_inj hplace (mem_rasterOrder.mp hq).2 (mem_rasterOrder.mp hq').2 he
      exact Prod.ext hrow hcol
    · exact List.mem_map.mpr ⟨(j, i), mem_rasterOrder.mpr ⟨hj, hi⟩, rfl⟩
  · refine writeSamps_read_other _ s k fun e he => ?_
    obtain ⟨q, hq, rfl⟩ := List.mem_map.mp he
    obtain ⟨hj, hi⟩ := mem_rasterOrder.mp hq
    exact (hk q.1 q.2 hj hi).symm

/-! ## The commands -/

theorem exec_deqRev_ok {s t : State} (h : firstFailure (deqRevChecks s.cap s.par) = none)
    (hb : deqBlock s.par (deqRevWord (deqShift s.par)) s = .ok () t) : exec .deqRev s = .next (complete t) :=
  runCommand_checks_hold (l := fun s => deqRevChecks s.cap s.par) h hb

theorem exec_deqIrr_ok {s t : State} (h : firstFailure (deqIrrChecks s.cap s.par) = none)
    (hb : deqBlock s.par (deqIrrWord binary32 (deqTag s) (deqShift s.par) (stepSize s.par)) s = .ok () t) :
    exec .deqIrr s = .next (complete t) :=
  runCommand_checks_hold (l := fun s => deqIrrChecks s.cap s.par) h hb

/-- Completing after writes of SAMP alone. -/
theorem SampOnly.completed {s t : State} (h : SampOnly s t) : Completed s (complete t) := by
  rw [h]
  exact ⟨rfl, rfl⟩

/-- Completing writes `STATUS` alone, which a dequantizer or transform command is not held to keep. -/
theorem SampOnly.kept_complete {s t : State} (h : SampOnly s t) : SampleSideKept s (complete t) := by
  rw [h]
  exact ⟨⟨rfl, rfl, rfl, rfl⟩, rfl, rfl, rfl, rfl, rfl, rfl, rfl⟩

/-- Settles O46: the block's words go to places of their own, and each is its coefficient's signed truncated
magnitude. -/
theorem reversibleDequantizerPlacesIntegers : Obligations.ReversibleDequantizerPlacesIntegers := by
  intro s hf hgrid
  obtain ⟨t, hrun, honly, hin, hout⟩ := deqBlock_places (deqRevWord (deqShift s.par)) (firstFailure_append.mp hf).2 hgrid
  refine ⟨complete t, exec_deqRev_ok hf hrun, honly.completed, honly.kept_complete, honly.free, fun j i hj hi => ?_, hout⟩
  obtain ⟨c, hc, hv⟩ := hin j i hj hi
  refine ⟨c, _, hc, hv, ?_⟩
  rw [deqRevWord_toInt, truncMag_eq, deqShift]

/-- Settles O47: as the reversible command, with the irreversible value of each coefficient word. -/
theorem irreversibleDequantizerPlacesFloats : Obligations.IrreversibleDequantizerPlacesFloats := by
  intro s hf hgrid
  obtain ⟨t, hrun, honly, hin, hout⟩ := deqBlock_places (deqIrrWord binary32 (deqTag s) (deqShift s.par) (stepSize s.par))
    (firstFailure_append.mp hf).2 hgrid
  refine ⟨complete t, exec_deqIrr_ok hf hrun, honly.completed, honly.kept_complete, honly.free, fun j i hj hi => ?_, hout⟩
  obtain ⟨c, hc, hv⟩ := hin j i hj hi
  refine ⟨c, hc, hv.trans ?_⟩
  rw [deqIrrWord, truncMag_eq, deqShift]
  rfl

end Sys2Proof.Machine
end

section
/-! The check tables of the transform commands (R210), and where the samples of an interval lie (R211, R212). -/

namespace Sys2Proof.Machine

/-! ## Check tables -/

/-- Settles O18: the tables with the offsets written out are the model's, and the four commands make their checks before
anything else. -/
theorem transformChecksInOrder : Obligations.TransformChecksInOrder := by
  intro s lev hlev p pw ph first
  have hplane : first false = failureOffset (planeChecks s.cap p) := by
    rw [← List.append_nil (planeChecks s.cap p),
      failureOffset_planeChecks_append s.cap p (r := []) rfl rfl fun _ _ => failureOffset_nil]
    simp only [first, Bool.false_eq_true, false_and, if_false]
    rfl
  have hlevels : failureOffset [(decide (p.dwNl.toNat ≤ Config.nlMax), .dwNl)] =
      if ¬ p.dwNl.toNat ≤ 32 then some 0x060 else none := by
    simp only [failureOffset_cons, failureOffset_nil, ite_not, decide_eq_true_eq]
    rfl
  have hfull : first true = failureOffset (fullChecks s.cap p) := by
    rw [fullChecks, failureOffset_planeChecks_append s.cap p rfl rfl fun _ _ => hlevels]
    simp only [first, true_and]
    rfl
  rw [hplane, hfull]
  refine ⟨fun off h => ⟨?_, ?_⟩, fun off h => ⟨?_, ?_⟩, failureOffset_eq_none.mp, failureOffset_eq_none.mp⟩
  · exact (exec_wellFormed (i := .idwtLevelR53 lev) hlev s).trans
      (runCommand_checks_fail (l := fun s => planeChecks s.cap s.par) h)
  · exact (exec_wellFormed (i := .idwtLevelI97 lev) hlev s).trans
      (runCommand_checks_fail (l := fun s => planeChecks s.cap s.par) h)
  · exact runCommand_checks_fail (l := fun s => fullChecks s.cap s.par) h
  · exact runCommand_checks_fail (l := fun s => fullChecks s.cap s.par) h

/-! ## Positions -/

theorem lowCount_eq (i0 i1 : Nat) : lowCount i0 i1 = (i1 + 1) / 2 - (i0 + 1) / 2 := rfl

theorem splitPos_even (i0 i1 : Nat) {i : Nat} (h : i % 2 = 0) : splitPos i0 i1 i = i / 2 - (i0 + 1) / 2 := if_pos h

theorem splitPos_odd (i0 i1 : Nat) {i : Nat} (h : i % 2 = 1) :
    splitPos i0 i1 i = lowCount i0 i1 + ((i - 1) / 2 - i0 / 2) := if_neg (by omega)

theorem lowCount_add_highCount {i0 i1 : Nat} (h : i0 ≤ i1) : lowCount i0 i1 + highCount i0 i1 = i1 - i0 := by
  rw [lowCount_eq, highCount]
  omega

/-- An even coordinate lies in the low-pass half (R212). -/
theorem splitPos_even_mem {i0 i1 i : Nat} (h0 : i0 ≤ i) (h1 : i < i1) (h : i % 2 = 0) :
    splitPos i0 i1 i + (i0 + 1) / 2 = i / 2 ∧ splitPos i0 i1 i < lowCount i0 i1 := by
  rw [splitPos_even i0 i1 h, lowCount_eq]
  omega

/-- An odd coordinate lies in the high-pass half, which follows the low-pass half (R212). -/
theorem splitPos_odd_mem {i0 i1 i : Nat} (h0 : i0 ≤ i) (h1 : i < i1) (h : i % 2 = 1) :
    splitPos i0 i1 i + i0 / 2 = lowCount i0 i1 + (i - 1) / 2 ∧ lowCount i0 i1 ≤ splitPos i0 i1 i ∧
      splitPos i0 i1 i < lowCount i0 i1 + highCount i0 i1 := by
  rw [splitPos_odd i0 i1 h, highCount]
  omega

/-- The place of a coordinate lies in the interval (R225). -/
theorem splitPos_lt {i0 i1 i : Nat} (h0 : i0 ≤ i) (h1 : i < i1) : splitPos i0 i1 i < i1 - i0 := by
  rw [← lowCount_add_highCount (by omega : i0 ≤ i1)]
  rcases Nat.mod_two_eq_zero_or_one i with h | h
  · exact Nat.lt_add_right _ (splitPos_even_mem h0 h1 h).2
  · exact (splitPos_odd_mem h0 h1 h).2.2

/-- The coordinate whose sample lies at a place of the interval. -/
def coordAt (i0 i1 c : Nat) : Nat :=
  if c < lowCount i0 i1 then 2 * (c + (i0 + 1) / 2) else 2 * (c - lowCount i0 i1 + i0 / 2) + 1

theorem coordAt_splitPos {i0 i1 i : Nat} (h0 : i0 ≤ i) (h1 : i < i1) : coordAt i0 i1 (splitPos i0 i1 i) = i := by
  rcases Nat.mod_two_eq_zero_or_one i with h | h
  · obtain ⟨hpos, hlow⟩ := splitPos_even_mem h0 h1 h
    rw [coordAt, if_pos hlow]
    omega
  · obtain ⟨hpos, hhigh, -⟩ := splitPos_odd_mem h0 h1 h
    rw [coordAt, if_neg (Nat.not_lt.mpr hhigh)]
    omega

/-- Settles O50: each half keeps the order of its coordinates, so a place gives its coordinate back. -/
theorem subbandSplitFillsTheInterval : Obligations.SubbandSplitFillsTheInterval := by
  refine fun i0 i1 hle => ⟨lowCount_add_highCount hle, lowCount_eq i0 i1, fun i h0 h1 => ⟨splitPos_lt h0 h1,
    splitPos_even_mem h0 h1, fun hodd => ?_⟩, fun i j hi hi' hj hj' heq => ?_⟩
  · obtain ⟨hpos, hhigh, -⟩ := splitPos_odd_mem h0 h1 hodd
    exact ⟨hpos, hhigh⟩
  · rw [← coordAt_splitPos hi hi', heq, coordAt_splitPos hj hj']

end Sys2Proof.Machine
end

section
/-! One-dimensional signals (R213, R214, R223, R224): the extension of a signal is mirrored about both ends and
periodic, and so is what the forward transform makes of it, which the reversible kernel undoes coordinate by coordinate. -/

namespace Sys2Proof.Machine

/-! ## Signals on every integer -/

/-- The signal is mirrored about the coordinate `c` and has period `p`, so it is mirrored about `c + p/2` too (R213). -/
structure Mirrored (c p : Int) (f : Int → Word) : Prop where
  reflect : ∀ i, f (2 * c - i) = f i
  period  : Function.Periodic f p

/-- A mirrored signal takes the same value at a coordinate and at the coordinate the extension reads for it. -/
theorem Mirrored.apply_pse {i0 n : Nat} {f : Int → Word} (h : Mirrored i0 (2 * ((n : Int) - 1)) f) (i : Int) :
    f (pse i0 n i) = f i := by
  have hdiv := Int.mul_ediv_add_emod (i - i0) (2 * ((n : Int) - 1))
  simp only [pse]
  generalize 2 * ((n : Int) - 1) = p at *
  rcases min_choice ((i - i0) % p) (p - (i - i0) % p) with hm | hm <;> rw [hm]
  · rw [show (i0 : Int) + (i - i0) % p = i - (i - i0) / p * p by linarith [mul_comm p ((i - i0) / p)]]
    exact h.period.sub_int_mul_eq _
  · rw [show (i0 : Int) + (p - (i - i0) % p) = 2 * i0 - (i - ((i - i0) / p + 1) * p) by
      linarith [mul_comm p ((i - i0) / p)], h.reflect]
    exact h.period.sub_int_mul_eq _

/-- The extension reads inside the interval. -/
theorem pse_mem (i0 : Nat) {n : Nat} (hn : 2 ≤ n) (i : Int) : ∃ k : Nat, k < n ∧ pse i0 n i = i0 + k := by
  have hlo := Int.emod_nonneg (i - i0) (by omega : 2 * ((n : Int) - 1) ≠ 0)
  have hhi := Int.emod_lt_of_pos (i - i0) (by omega : 0 < 2 * ((n : Int) - 1))
  refine ⟨(pse i0 n i - i0).toNat, ?_, ?_⟩ <;> simp only [pse] <;> omega

theorem pse_inside (i0 : Nat) {n k : Nat} (hn : 2 ≤ n) (hk : k < n) : pse i0 n (i0 + k) = i0 + k := by
  simp only [pse]
  rw [add_sub_cancel_left, Int.emod_eq_of_lt (by omega) (by omega), min_eq_left (by omega)]

theorem pse_reflect (i0 : Nat) {n : Nat} (hn : 2 ≤ n) (i : Int) : pse i0 n (2 * i0 - i) = pse i0 n i := by
  simp only [pse]
  rw [show (2 * i0 - i - i0 : Int) = -(i - i0) by omega, Int.neg_emod]
  split
  · rw [Int.emod_eq_zero_of_dvd ‹_›]
  · rw [Int.natAbs_of_nonneg (by omega), sub_sub_cancel, min_comm]

theorem pse_periodic (i0 n : Nat) : Function.Periodic (pse i0 n) (2 * ((n : Int) - 1)) := by
  intro i
  simp only [pse]
  rw [add_sub_right_comm, Int.add_emod_right]

/-- The extension of a signal is mirrored about its first sample, and periodic. -/
theorem mirrored_yext (i0 : Nat) {ys : List Word} (h : 2 ≤ ys.length) :
    Mirrored i0 (2 * ((ys.length : Int) - 1)) (yext i0 ys) where
  reflect i := congrArg (sampleAt i0 ys) (pse_reflect i0 h i)
  period i := congrArg (sampleAt i0 ys) (pse_periodic i0 ys.length i)

theorem yext_inside (i0 : Nat) {ys : List Word} (h : 2 ≤ ys.length) {k : Nat} (hk : k < ys.length) :
    yext i0 ys (i0 + k) = ys[k] := by
  rw [yext, pse_inside i0 h hk, sampleAt, add_sub_cancel_left, Int.toNat_natCast, List.getElem?_eq_getElem hk,
    Option.getD_some]

/-- A mirrored signal is the extension of its samples on one interval of half a period. -/
theorem Mirrored.yext_samples {i0 n : Nat} {f : Int → Word} (h : Mirrored i0 (2 * ((n : Int) - 1)) f) (hn : 2 ≤ n) :
    yext i0 ((List.range n).map fun (j : Nat) => f (i0 + j)) = f := by
  funext i
  obtain ⟨k, hk, hpse⟩ := pse_mem i0 hn i
  rw [yext, List.length_map, List.length_range, ← h.apply_pse i, hpse, sampleAt, add_sub_cancel_left, Int.toNat_natCast,
    List.getElem?_map, List.getElem?_range hk, Option.map_some, Option.getD_some]

/-- A mirrored signal is mirrored about the end of half a period too. -/
theorem Mirrored.reflect_end {c p : Int} {f : Int → Word} (h : Mirrored c p f) (i : Int) :
    f (2 * c + p - i) = f i := by
  rw [show 2 * c + p - i = 2 * c - i + p by omega, h.period, h.reflect]

/-- Settles O51: the extension is mirrored about the first sample and periodic, so about the last sample too. -/
theorem extensionReflectsAboutTheEnds : Obligations.ExtensionReflectsAboutTheEnds := by
  intro i0 ys hlen i1
  have hmir := mirrored_yext i0 hlen
  refine ⟨fun k hk => by rw [yext_inside i0 hlen hk, List.getElem?_eq_getElem hk], fun k => ⟨?_, ?_⟩, hmir.period⟩
  · rw [← hmir.reflect]
    congr 1
    omega
  · rw [← hmir.reflect_end]
    congr 1
    omega

/-! ## The forward transform (R224) -/

/-- The high-pass sample at an odd coordinate `i`, by the coordinate. -/
def fwdHigh (x : Int → Word) (i : Int) : Word := x i - (x (i - 1) + x (i + 1)).sshiftRight 1

/-- The sample of the forward transform at any coordinate, on a signal given at every coordinate. -/
def fwdAt (x : Int → Word) (i : Int) : Word :=
  if i % 2 = 0 then x i + (fwdHigh x (i - 1) + fwdHigh x (i + 1) + 2).sshiftRight 2 else fwdHigh x i

theorem fwdOd_eq (x : Int → Word) (k : Int) : fwdOd x k = fwdHigh x (2 * k + 1) := by
  rw [fwdOd, fwdHigh, add_sub_cancel_right, add_assoc, one_add_one_eq_two]

theorem fwdEv_eq (x : Int → Word) (k : Int) :
    fwdEv x k = x (2 * k) + (fwdHigh x (2 * k - 1) + fwdHigh x (2 * k + 1) + 2).sshiftRight 2 := by
  rw [fwdEv, fwdOd_eq, fwdOd_eq, show 2 * (k - 1) + 1 = 2 * k - 1 by omega]

theorem fwd53_eq (i0 : Nat) (xs : List Word) :
    fwd53 i0 xs = (List.range xs.length).map fun (j : Nat) => fwdAt (yext i0 xs) (i0 + j) := by
  refine List.map_congr_left fun j _ => ?_
  simp only [fwdAt]
  split
  · rw [fwdEv_eq, show 2 * (((i0 : Int) + j) / 2) = i0 + j by omega]
  · rw [fwdOd_eq, show 2 * (((i0 : Int) + j - 1) / 2) + 1 = i0 + j by omega]

/-- A reflection swaps the two neighbours of a coordinate. -/
theorem mirrored_fwdHigh {c p : Int} {x : Int → Word} (h : Mirrored c p x) : Mirrored c p (fwdHigh x) where
  reflect i := by
    rw [fwdHigh, fwdHigh, h.reflect, show 2 * c - i - 1 = 2 * c - (i + 1) by omega,
      show 2 * c - i + 1 = 2 * c - (i - 1) by omega, h.reflect, h.reflect, add_comm (x (i + 1))]
  period i := by
    rw [fwdHigh, fwdHigh, h.period, add_sub_right_comm, add_right_comm, h.period, h.period]

/-- The forward transform of a mirrored signal is mirrored: a reflection about an integer and an even period keep the
parity of a coordinate. -/
theorem mirrored_fwdAt {c p : Int} {x : Int → Word} (h : Mirrored c (2 * p) x) : Mirrored c (2 * p) (fwdAt x) where
  reflect i := by
    have hhigh := (mirrored_fwdHigh h).reflect
    rw [fwdAt, fwdAt, show (2 * c - i) % 2 = i % 2 by omega, h.reflect, hhigh,
      show 2 * c - i - 1 = 2 * c - (i + 1) by omega, show 2 * c - i + 1 = 2 * c - (i - 1) by omega, hhigh, hhigh,
      add_comm (fwdHigh x (i + 1))]
  period i := by
    have hhigh := (mirrored_fwdHigh h).period
    rw [fwdAt, fwdAt, show (i + 2 * p) % 2 = i % 2 by omega, h.period, hhigh, add_sub_right_comm, add_right_comm i,
      hhigh, hhigh]

/-! ## The reversible kernel -/

theorem fwdAt_even (x : Int → Word) (k : Int) :
    fwdAt x (2 * k) = x (2 * k) + (fwdHigh x (2 * k - 1) + fwdHigh x (2 * k + 1) + 2).sshiftRight 2 :=
  if_pos (by omega)

theorem fwdAt_odd (x : Int → Word) {i : Int} (h : i % 2 = 1) : fwdAt x i = fwdHigh x i := if_neg (by omega)

/-- Step 1 of the kernel subtracts what the forward transform added (R224). -/
theorem ev53_fwdAt (x : Int → Word) (k : Int) : ev53 (fwdAt x) k = x (2 * k) := by
  rw [ev53, fwdAt_even, fwdAt_odd x (by omega), fwdAt_odd x (by omega), add_sub_cancel_right]

/-- Step 2 of the kernel adds what the forward transform subtracted (R224). -/
theorem od53_fwdAt (x : Int → Word) (k : Int) : od53 (fwdAt x) k = x (2 * k + 1) := by
  rw [od53, ev53_fwdAt, ev53_fwdAt, fwdAt_odd x (by omega), fwdHigh, add_sub_cancel_right,
    show 2 * k + 1 + 1 = 2 * (k + 1) by omega, sub_add_cancel]

theorem out53_fwdAt (x : Int → Word) (i : Int) : out53 (fwdAt x) i = x i := by
  rw [out53]
  split
  · rw [ev53_fwdAt, show 2 * (i / 2) = i by omega]
  · rw [od53_fwdAt, show 2 * ((i - 1) / 2) + 1 = i by omega]

theorem sr1d53_of_two_le (i0 : Nat) {ys : List Word} (h : 2 ≤ ys.length) :
    sr1d53 i0 ys = (List.range ys.length).map fun (j : Nat) => out53 (yext i0 ys) (i0 + j) := by
  match ys, h with
  | _ :: _ :: _, _ => rfl

theorem sr1d53_fwd53 (i0 : Nat) {xs : List Word} (h : 2 ≤ xs.length) : sr1d53 i0 (fwd53 i0 xs) = xs := by
  have hlen : (fwd53 i0 xs).length = xs.length := by rw [fwd53_eq, List.length_map, List.length_range]
  have hext : yext i0 (fwd53 i0 xs) = fwdAt (yext i0 xs) := by
    rw [fwd53_eq]
    exact (mirrored_fwdAt (mirrored_yext i0 h)).yext_samples h
  rw [sr1d53_of_two_le i0 (hlen.symm ▸ h), hlen, hext]
  refine List.ext_getElem (by rw [List.length_map, List.length_range]) fun j _ hj => ?_
  rw [List.getElem_map, List.getElem_range, out53_fwdAt, yext_inside i0 h hj]

/-! ## Signals of length one (R223) -/

theorem sr1d53_one_even {i0 : Nat} (h : i0 % 2 = 0) (y : Word) : sr1d53 i0 [y] = [y] := if_pos h

theorem sr1d53_one_odd {i0 : Nat} (h : i0 % 2 = 1) (y : Word) : sr1d53 i0 [y] = [y.sshiftRight 1] :=
  if_neg (by omega)

/-- The arithmetic shift by one halves with floor. -/
theorem toInt_sshiftRight_one (y : Word) : (y.sshiftRight 1).toInt = y.toInt / 2 := by
  rw [BitVec.toInt_sshiftRight, Int.shiftRight_eq_div_pow]
  rfl

/-- Halving undoes doubling where the double is in range. -/
theorem sshiftRight_double {x : Word} (hlo : -(2 ^ 30) ≤ x.toInt) (hhi : x.toInt < 2 ^ 30) :
    (2 * x).sshiftRight 1 = x := by
  have hdouble : (2 * x).toInt = 2 * x.toInt := by
    rw [BitVec.toInt_mul]
    exact Int.bmod_eq_of_le (by simp; omega) (by simp; omega)
  refine BitVec.eq_of_toInt_eq ?_
  rw [toInt_sshiftRight_one, hdouble]
  omega

/-- Settles O52: the kernel undoes the forward transform of the extension at every coordinate; one sample is copied, or
halved where it was doubled. -/
theorem reversibleKernelIsLossless : Obligations.ReversibleKernelIsLossless :=
  ⟨fun i0 _ h => sr1d53_fwd53 i0 h, fun _ _ => ⟨fun h => sr1d53_one_even h _,
    fun h hlo hhi => by rw [sr1d53_one_odd h, sshiftRight_double hlo hhi]⟩⟩

/-- Settles O53: each kernel has a branch of its own for one sample, and the arithmetic shift halves with floor. -/
theorem lengthOneSignals : Obligations.LengthOneSignals := by
  refine fun i0 y t => ⟨fun h => ⟨sr1d53_one_even h y, if_pos h⟩, fun h => ⟨?_, if_neg (by omega)⟩⟩
  exact ⟨_, sr1d53_one_odd h y, toInt_sshiftRight_one y⟩

end Sys2Proof.Machine
end

section
/-! One level of the transform (R211, R218 to R220): a pass over lines that share no word, each read through the places
of its coordinates, and a level as a pass over its rows and a pass over its columns. -/

namespace Sys2Proof.Machine

/-! ## A pass over lines -/

/-- A pass over `lines` lines of `len` words (R218): place `c` of line `r` is the word at `addr r c`, and the kernel of
the line reads its samples at the places `place 0`, `place 1`, and so on. -/
structure LinePass where
  lines : Nat
  len   : Nat
  addr  : Nat → Nat → Nat
  place : Nat → Nat
  ker   : Nat → List Word → List Word

/-- One line of the pass. -/
def LinePass.line (p : LinePass) (r : Nat) : Eng Unit :=
  synthLine ((List.range p.len).map fun c => p.addr r (p.place c)) ((List.range p.len).map (p.addr r)) (p.ker r)

/-- The whole pass, line by line. -/
def LinePass.run (p : LinePass) : Eng Unit := forEach (List.range p.lines) p.line

/-- The samples the kernel of a line is given. -/
def LinePass.samples (p : LinePass) (s : State) (r : Nat) : List Word :=
  (List.range p.len).map fun c => sampWord s (p.addr r (p.place c))

/-- No two words of the lines are one, a line is read inside itself, and its kernel answers as many samples as it is
given. -/
structure LinePass.Sound (p : LinePass) : Prop where
  addr_inj   : ∀ {r r' c c'}, r < p.lines → r' < p.lines → c < p.len → c' < p.len →
    p.addr r c = p.addr r' c' → r = r' ∧ c = c'
  place_lt   : ∀ {c}, c < p.len → p.place c < p.len
  ker_length : ∀ r ys, (p.ker r ys).length = ys.length

/-- What the first `n` lines of the pass make of SAMP: every line what its kernel makes of it, and nothing else. -/
structure LinePass.Done (p : LinePass) (n : Nat) (s t : State) : Prop where
  only    : SampOnly s t
  inside  : ∀ r c, r < n → c < p.len → Memory.read t.samp (p.addr r c) = (p.ker r (p.samples s r))[c]?
  outside : ∀ k, (∀ r c, r < n → c < p.len → k ≠ p.addr r c) → Memory.read t.samp k = Memory.read s.samp k

theorem LinePass.Sound.answer_length {p : LinePass} (hp : p.Sound) (s : State) (r : Nat) :
    (p.ker r (p.samples s r)).length = p.len := by
  rw [hp.ker_length, LinePass.samples, List.length_map, List.length_range]

theorem sampWord_congr {s t : State} {k : Nat} (h : Memory.read t.samp k = Memory.read s.samp k) :
    sampWord t k = sampWord s k := congrArg (Option.getD · 0) h

/-- A line whose words are written is read, and what its kernel makes of it is written. -/
theorem LinePass.line_eq {p : LinePass} (hp : p.Sound) {s : State} {r : Nat}
    (h : ∀ c, c < p.len → Memory.has s.samp (p.addr r c) = true) :
    p.line r s = .ok () (writeSamps (((List.range p.len).map (p.addr r)).zip (p.ker r (p.samples s r))) s) := by
  rw [LinePass.line, synthLine_ok, List.map_map]
  · rfl
  · intro i hi
    obtain ⟨c, hc, rfl⟩ := List.mem_map.mp hi
    exact h _ (hp.place_lt (List.mem_range.mp hc))

/-- The words of a line after it is written, and every other word. -/
theorem LinePass.line_ok {p : LinePass} (hp : p.Sound) {s : State} {r : Nat} (hr : r < p.lines)
    (h : ∀ c, c < p.len → Memory.has s.samp (p.addr r c) = true) :
    ∃ t, p.line r s = .ok () t ∧ SampOnly s t ∧
      (∀ c, c < p.len → Memory.read t.samp (p.addr r c) = (p.ker r (p.samples s r))[c]?) ∧
      ∀ k, (∀ c, c < p.len → k ≠ p.addr r c) → Memory.read t.samp k = Memory.read s.samp k := by
  have hlen := hp.answer_length s r
  refine ⟨_, LinePass.line_eq hp h, SampOnly.writeSamps _ s, fun c hc => ?_, fun k hk => ?_⟩
  · rw [List.getElem?_eq_getElem (hlen.symm ▸ hc)]
    refine writeSamps_read _ s _ _ ?_ ?_
    · rw [List.map_fst_zip (by rw [hlen, List.length_map, List.length_range])]
      refine List.nodup_range.map_on fun c hc c' hc' he => ?_
      exact (hp.addr_inj hr hr (List.mem_range.mp hc) (List.mem_range.mp hc') he).2
    · refine List.mem_iff_getElem.mpr ⟨c, by simpa [hlen] using hc, ?_⟩
      rw [List.getElem_zip, List.getElem_map, List.getElem_range]
  · refine writeSamps_read_other _ s k fun q hq he => ?_
    obtain ⟨c, hc, ha⟩ := List.mem_map.mp (List.of_mem_zip (show (q.1, q.2) ∈ _ from hq)).1
    exact hk c (List.mem_range.mp hc) (he.symm.trans ha.symm)

/-- The lines of a pass are made one by one, each of words no line before it has written. -/
theorem LinePass.lines_ok {p : LinePass} (hp : p.Sound) {s : State} {n : Nat} (hn : n ≤ p.lines)
    (h : ∀ r c, r < n → c < p.len → Memory.has s.samp (p.addr r c) = true) :
    ∃ t, forEach (List.range n) p.line s = .ok () t ∧ p.Done n s t := by
  induction n with
  | zero => exact ⟨s, rfl, SampOnly.refl s, fun _ _ hr => absurd hr (Nat.not_lt_zero _), fun _ _ => rfl⟩
  | succ n ih =>
    obtain ⟨t, hrun, honly, hin, hout⟩ := ih (Nat.le_of_succ_le hn) fun r c hr hc => h r c (Nat.lt_succ_of_lt hr) hc
    have hkept : ∀ c, c < p.len → Memory.read t.samp (p.addr n c) = Memory.read s.samp (p.addr n c) := fun c hc =>
      hout _ fun r c' hr hc' he => absurd (hp.addr_inj hn (Nat.lt_trans hr hn) hc hc' he).1 (Nat.ne_of_gt hr)
    have hsamples : p.samples t n = p.samples s n := List.map_congr_left fun c hc =>
      sampWord_congr (hkept _ (hp.place_lt (List.mem_range.mp hc)))
    obtain ⟨u, hline, konly, kin, kout⟩ := p.line_ok hp (s := t) hn fun c hc => by
      rw [Memory.has, hkept c hc]
      exact h n c n.lt_succ_self hc
    refine ⟨u, ?_, honly.trans konly, fun r c hr hc => ?_, fun k hk => ?_⟩
    · rw [List.range_succ, forEach_append, eng_bind_ok hrun, forEach_cons, eng_bind_ok hline]
      rfl
    · rcases Nat.lt_succ_iff_lt_or_eq.mp hr with hlt | rfl
      · rw [kout _ fun c' hc' he => absurd (hp.addr_inj (Nat.lt_trans hlt hn) hn hc hc' he).1 (Nat.ne_of_lt hlt),
          hin r c hlt hc]
      · rw [kin c hc, hsamples]
    · rw [kout k fun c hc => hk n c n.lt_succ_self hc, hout k fun r c hr hc => hk r c (Nat.lt_succ_of_lt hr) hc]

theorem LinePass.run_ok {p : LinePass} (hp : p.Sound) {s : State}
    (h : ∀ r c, r < p.lines → c < p.len → Memory.has s.samp (p.addr r c) = true) :
    ∃ t, p.run s = .ok () t ∧ p.Done p.lines s t := p.lines_ok hp (le_refl _) h

/-- Every word of the lines is written once the pass is done. -/
theorem LinePass.Done.has {p : LinePass} {n : Nat} {s t : State} (h : p.Done n s t) (hp : p.Sound) {r c : Nat}
    (hr : r < n) (hc : c < p.len) : Memory.has t.samp (p.addr r c) = true := by
  rw [Memory.has, h.inside r c hr hc, List.getElem?_eq_getElem (by rwa [hp.answer_length])]
  rfl

/-! ## A level as two passes -/

/-- The kernel answers as many samples as it is given. -/
def KeepsLength (ker : Kernel) : Prop := ∀ axis line i0 ys, (ker axis line i0 ys).length = ys.length

theorem keepsLength_kernel53 : KeepsLength kernel53 := fun _ _ => sr1d53_length

theorem keepsLength_kernel97 (fp : FpOps) (seed lev : Nat) : KeepsLength (kernel97 fp seed lev) :=
  fun _ _ => sr1d97_length fp _

/-- The horizontal pass of a level. -/
def rowPass (g : Region) (ker : Kernel) : LinePass where
  lines := regionH g
  len   := regionW g
  addr  := fun r c => r * g.pw + c
  place := fun c => splitPos g.x0 g.x1 (g.x0 + c)
  ker   := fun r => ker 0 r g.x0

/-- The vertical pass of a level. -/
def colPass (g : Region) (ker : Kernel) : LinePass where
  lines := regionW g
  len   := regionH g
  addr  := fun c r => r * g.pw + c
  place := fun r => splitPos g.y0 g.y1 (g.y0 + r)
  ker   := fun c => ker 1 c g.y0

/-- An address gives its row and its column back. -/
theorem region_coords {w r c : Nat} (hc : c < w) : (r * w + c) / w = r ∧ (r * w + c) % w = c := by
  rw [Nat.mul_comm, Nat.mul_add_div (Nat.zero_lt_of_lt hc), Nat.div_eq_of_lt hc, Nat.mul_add_mod, Nat.mod_eq_of_lt hc]
  exact ⟨rfl, rfl⟩

theorem region_addr_inj {w r r' c c' : Nat} (hc : c < w) (hc' : c' < w) (h : r * w + c = r' * w + c') :
    r = r' ∧ c = c' := by
  obtain ⟨hr, hm⟩ := region_coords (r := r) hc
  rw [h] at hr hm
  exact ⟨hr.symm.trans (region_coords hc').1, hm.symm.trans (region_coords hc').2⟩

theorem rowPass_sound {g : Region} {ker : Kernel} (hw : regionW g ≤ g.pw) (hker : KeepsLength ker) :
    (rowPass g ker).Sound where
  addr_inj _ _ hc hc' h := region_addr_inj (Nat.lt_of_lt_of_le hc hw) (Nat.lt_of_lt_of_le hc' hw) h
  place_lt {c} (hc : c < g.x1 - g.x0) := (splitPos_lt (by omega) (by omega) : _ < g.x1 - g.x0)
  ker_length r ys := hker 0 r g.x0 ys

theorem colPass_sound {g : Region} {ker : Kernel} (hw : regionW g ≤ g.pw) (hker : KeepsLength ker) :
    (colPass g ker).Sound where
  addr_inj hc hc' _ _ h := (region_addr_inj (Nat.lt_of_lt_of_le hc hw) (Nat.lt_of_lt_of_le hc' hw) h).symm
  place_lt {r} (hr : r < g.y1 - g.y0) := (splitPos_lt (by omega) (by omega) : _ < g.y1 - g.y0)
  ker_length c ys := hker 1 c g.y0 ys

/-- What a level makes of SAMP (R218): in its region the columns of the rows of the words before, and nothing else. -/
structure Synthesised (g : Region) (ker : Kernel) (s t : State) : Prop where
  only    : SampOnly s t
  inside  : ∀ r c, r < regionH g → c < regionW g →
    Memory.read t.samp (r * g.pw + c) = (refCol (sampWord s) g ker c)[r]?
  outside : ∀ k, ¬ inRegion g k → Memory.read t.samp k = Memory.read s.samp k

theorem sr2d_eq {g : Region} (ker : Kernel) (h : ¬ (regionW g = 0 ∨ regionH g = 0)) :
    sr2d g ker = ((rowPass g ker).run >>= fun _ => (colPass g ker).run) := if_neg h

/-- A column of the vertical pass after the horizontal pass is given the words of the rows. -/
theorem colPass_samples {g : Region} {ker : Kernel} {s t : State} (h : (rowPass g ker).Done (regionH g) s t) {c : Nat}
    (hc : c < regionW g) :
    (colPass g ker).samples t c =
      (List.range (regionH g)).map fun r =>
        (refRow (sampWord s) g ker (splitPos g.y0 g.y1 (g.y0 + r)))[c]?.getD 0 := by
  refine List.map_congr_left fun r hr => ?_
  replace hr : r < g.y1 - g.y0 := List.mem_range.mp hr
  exact congrArg (Option.getD · 0) (h.inside _ c (splitPos_lt (by omega) (by omega)) hc)

/-- A level whose region is written completes. -/
theorem sr2d_ok {g : Region} {ker : Kernel} (hw : regionW g ≤ g.pw) (hker : KeepsLength ker) {s : State}
    (h : RegionWritten s g) : ∃ t, sr2d g ker s = .ok () t ∧ Synthesised g ker s t := by
  by_cases hempty : regionW g = 0 ∨ regionH g = 0
  · exact ⟨s, by rw [sr2d, if_pos hempty]; rfl, SampOnly.refl s, fun r c hr hc => by omega, fun _ _ => rfl⟩
  · have hrow := rowPass_sound hw hker
    have hcol := colPass_sound hw hker
    obtain ⟨t, hrows, hdone⟩ := LinePass.run_ok hrow h
    obtain ⟨u, hcols, konly, kin, kout⟩ := LinePass.run_ok hcol (s := t) fun c r hc hr => hdone.has hrow hr hc
    refine ⟨u, by rw [sr2d_eq ker hempty, eng_bind_ok hrows]; exact hcols, hdone.only.trans konly, fun r c hr hc => ?_,
      fun k hk => ?_⟩
    · rw [refCol, ← colPass_samples hdone hc]
      exact kin c r hc hr
    · rw [kout k fun c r hc hr he => hk ⟨r, c, hr, hc, he⟩, hdone.outside k fun r c hr hc he => hk ⟨r, c, hr, hc, he⟩]

/-! ## The commands of one level -/

/-- A command whose checks hold runs what follows them. -/
theorem runCommand_checked {closes : Bool} {l : State → List Check} {body : State → Eng Unit} {s : State}
    (h : firstFailure (l s) = none) :
    runCommand closes ((get : Eng State) >>= fun s => requireGeometry (l s) >>= fun _ => body s) s =
      runCommand closes (body s) s :=
  runCommand_congr (by rw [eng_bind_ok (eng_get s), eng_bind_ok (requireGeometry_ok h s)])

theorem exec_levelR53 {s : State} {lev : BitVec 8} (hlev : legalLevel lev = true)
    (h : firstFailure (planeChecks s.cap s.par) = none) :
    exec (.idwtLevelR53 lev) s = runCommand false (sr2d (regionOf s.par lev.toNat) kernel53) s :=
  (exec_wellFormed (i := .idwtLevelR53 lev) hlev s).trans (runCommand_checked (l := fun s => planeChecks s.cap s.par) h)

theorem exec_levelI97 {s : State} {lev : BitVec 8} (hlev : legalLevel lev = true)
    (h : firstFailure (planeChecks s.cap s.par) = none) :
    exec (.idwtLevelI97 lev) s =
      runCommand false (sr2d (regionOf s.par lev.toNat) (kernel97 binary32 s.freeCount lev.toNat)) (drawFree s) :=
  (exec_wellFormed (i := .idwtLevelI97 lev) hlev s).trans <|
    (runCommand_checked (l := fun s => planeChecks s.cap s.par) h).trans <|
      runCommand_congr (eng_bind_ok (eng_modify drawFree s))

/-- A level's region is no wider than the plane (R211). -/
theorem regionW_le (p : ParamRegs) (lev : Nat) : regionW (regionOf p lev) ≤ (regionOf p lev).pw :=
  ceilShift_sub_le _ _ _

/-- Settles O54: each pass makes its lines one by one, and no two lines share a word. -/
theorem reversibleLevelSynthesisesItsRegion : Obligations.ReversibleLevelSynthesisesItsRegion := by
  intro s lev hlev hchecks hwritten g
  obtain ⟨t, hrun, honly, hin, hout⟩ := sr2d_ok (regionW_le _ _) keepsLength_kernel53 hwritten
  exact ⟨complete t, (exec_levelR53 hlev hchecks).trans (runCommand_ok hrun), honly.completed, honly.kept_complete,
    honly.free, hin, hout⟩

/-- Completing after one free value drawn and writes of SAMP alone. -/
theorem SampOnly.completed_drawFree {s t : State} (h : SampOnly (drawFree s) t) :
    Completed s (complete t) ∧ SampleSideKept s (complete t) ∧ (complete t).freeCount = s.freeCount + 1 := by
  rw [h]
  exact ⟨⟨rfl, rfl⟩, ⟨⟨rfl, rfl, rfl, rfl⟩, rfl, rfl, rfl, rfl, rfl, rfl, rfl⟩, rfl⟩

/-- Settles O55: the number of the free values is no word of SAMP, so the level runs as the reversible one does. -/
theorem irreversibleLevelSynthesisesItsRegion : Obligations.IrreversibleLevelSynthesisesItsRegion := by
  intro s lev hlev hchecks hwritten g ker
  obtain ⟨t, hrun, honly, hin, hout⟩ := sr2d_ok (s := drawFree s) (regionW_le s.par lev.toNat)
    (keepsLength_kernel97 binary32 s.freeCount lev.toNat) hwritten
  obtain ⟨hdone, hkept, hfree⟩ := honly.completed_drawFree
  exact ⟨complete t, (exec_levelI97 hlev hchecks).trans (runCommand_ok hrun), hdone, hkept, hfree, hin, hout⟩

end Sys2Proof.Machine
end

section
/-! The whole transform (R221, R222): its levels from the coarsest to the finest, as commands one after another and as
what they make of the plane. -/

namespace Sys2Proof.Machine

/-! ## Levels one after another -/

theorem levelsDown_succ (n : Nat) : levelsDown (n + 1) = (n + 1) :: levelsDown n := by
  rw [levelsDown, List.range_succ_eq_map, List.map_cons, List.map_map]
  refine congrArg _ (List.map_congr_left fun j _ => ?_)
  exact Nat.add_sub_add_right n 1 j

theorem runCommand_forEach_fault {α : Type} {closes : Bool} {x : α} {r : List α} {body : α → Eng Unit} {s t : State}
    {f : Fault} (h : body x s = .error (.fault f) t) : runCommand closes (forEach (x :: r) body) s = .fault f := by
  rw [forEach_cons]
  exact runCommand_fault (eng_bind_error h)

theorem runCommand_forEach_ok {α : Type} {closes : Bool} {x : α} {r : List α} {body : α → Eng Unit} {s t : State}
    (h : body x s = .ok () t) :
    runCommand closes (forEach (x :: r) body) s = runCommand closes (forEach r body) t := by
  rw [forEach_cons]
  exact runCommand_congr (eng_bind_ok h)

theorem forEach_singleton {α : Type} (x : α) (body : α → Eng Unit) (s : State) : forEach [x] body s = body x s := by
  rw [forEach_cons, eng_bind]
  cases body x s <;> rfl

/-! ## The levels by hand -/

theorem ignores_readSamp (i : Nat) : IgnoresStatus (readSamp i) := fun f s => by
  cases h : Memory.read s.samp i with
  | none => rw [readSamp_unwritten h, readSamp_unwritten (s := setStatus f s) h]; rfl
  | some v => rw [readSamp_ok h, readSamp_ok (s := setStatus f s) h]; rfl

theorem ignores_readSamps (l : List Nat) : IgnoresStatus (readSamps l) := by
  induction l with
  | nil => exact ignores_pure []
  | cons i r ih => exact ignores_bind (ignores_readSamp i) fun _ => ignores_bind ih fun _ => ignores_pure _

theorem ignores_synthLine (sources targets : List Nat) (ker : List Word → List Word) :
    IgnoresStatus (synthLine sources targets ker) :=
  ignores_bind (ignores_readSamps _) fun _ => ignores_modify fun _ _ => by rw [writeSamps_eq, writeSamps_eq]; rfl

theorem ignores_sr2d (g : Region) (ker : Kernel) : IgnoresStatus (sr2d g ker) := by
  rw [sr2d]
  split
  · exact ignores_pure ()
  · exact ignores_bind (ignores_forEach fun _ _ => ignores_synthLine _ _ _) fun _ =>
      ignores_forEach fun _ _ => ignores_synthLine _ _ _

/-- A part that ignores `STATUS` ends as a command alike from a state and from the state with a command just completed:
each end writes `DONE` and `BUSY`. -/
theorem runCommand_complete {closes : Bool} {m : Eng Unit} (hm : IgnoresStatus m) (s : State) :
    runCommand closes m (complete s) = runCommand closes m s := by
  have hkept := hm.kept s
  have hrun : m (complete s) = onEnd (setStatus s.status.completed) (m s) := hm s.status.completed s
  rw [runCommand, runCommand, hrun]
  cases hms : m s with
  | ok a t =>
    rw [hms, endState_ok] at hkept
    rw [← hkept]
    rfl
  | error e t =>
    rw [hms, endState_error] at hkept
    rw [← hkept]
    cases e <;> rfl

/-- A level completes, with only SAMP changed, or stops at an unwritten word: it raises no error. -/
theorem sr2d_ends (g : Region) (ker : Kernel) (s : State) :
    (∃ t, sr2d g ker s = .ok () t ∧ SampOnly s t) ∨ ∃ f t, sr2d g ker s = .error (.fault f) t := by
  rcases sr2d_completesOrFaults s.samp g ker s (fun _ => Iff.rfl) with ⟨t, hrun, -⟩ | ⟨f, t, hrun, -⟩
  · have honly := keeps_sr2d s g ker s (SampOnly.refl s)
    rw [hrun] at honly
    exact .inl ⟨t, hrun, honly⟩
  · exact .inr ⟨f, t, hrun⟩

/-- The level command of a legal level number runs its level. -/
theorem exec_levelR53_ofNat {s : State} {lev : Nat} (hlow : 1 ≤ lev) (hhigh : lev ≤ 32)
    (h : firstFailure (planeChecks s.cap s.par) = none) :
    exec (.idwtLevelR53 (BitVec.ofNat 8 lev)) s = runCommand false (sr2d (regionOf s.par lev) kernel53) s := by
  have hnat : (BitVec.ofNat 8 lev).toNat = lev := by rw [BitVec.toNat_ofNat]; omega
  have hlegal : legalLevel (BitVec.ofNat 8 lev) = true := by
    rw [legalLevel, hnat, Bool.and_eq_true, decide_eq_true_eq, decide_eq_true_eq]
    exact ⟨hlow, hhigh⟩
  rw [exec_levelR53 hlegal h, hnat]

theorem handLevels53_succ (n : Nat) :
    handLevels53 (n + 1) = .idwtLevelR53 (BitVec.ofNat 8 (n + 1)) :: handLevels53 n := by
  rw [handLevels53, levelsDown_succ, List.map_cons, handLevels53]

/-- The levels as one command, and as commands that begin where a command has completed. -/
theorem execAll_handLevels53 {p : ParamRegs} {n : Nat} (hn : n ≤ 32) {s : State} (hp : s.par = p)
    (h : firstFailure (planeChecks s.cap p) = none) :
    execAll (handLevels53 n) (complete s) =
      runCommand false (forEach (levelsDown n) fun lev => sr2d (regionOf p lev) kernel53) s := by
  induction n generalizing s with
  | zero => rfl
  | succ n ih =>
    have hfirst : exec (.idwtLevelR53 (BitVec.ofNat 8 (n + 1))) (complete s) =
        runCommand false (sr2d (regionOf p (n + 1)) kernel53) s := by
      rw [← runCommand_complete (ignores_sr2d _ _) s, ← hp]
      exact exec_levelR53_ofNat (s := complete s) (Nat.le_add_left 1 n) hn (hp ▸ h)
    rw [handLevels53_succ, levelsDown_succ, execAll, hfirst]
    rcases sr2d_ends (regionOf p (n + 1)) kernel53 s with ⟨t, hrun, honly⟩ | ⟨f, t, hrun⟩
    · rw [runCommand_ok hrun, runCommand_forEach_ok (body := fun lev => sr2d (regionOf p lev) kernel53) hrun]
      exact ih (Nat.le_of_succ_le hn) (honly.par.trans hp) (honly.kept.host.cap ▸ h)
    · rw [runCommand_fault hrun, runCommand_forEach_fault (body := fun lev => sr2d (regionOf p lev) kernel53) hrun]

theorem execAll_congr {i : Instr} {r : List Instr} {s t : State} (h : exec i s = exec i t) :
    execAll (i :: r) s = execAll (i :: r) t := by
  rw [execAll, execAll, h]

/-- A nonempty sequence of level commands begins alike where a command has just completed. -/
theorem execAll_handLevels53_complete {n : Nat} (hpos : 0 < n) (hn : n ≤ 32) {s : State}
    (h : firstFailure (planeChecks s.cap s.par) = none) :
    execAll (handLevels53 n) s = execAll (handLevels53 n) (complete s) := by
  obtain ⟨m, rfl⟩ := Nat.exists_eq_add_one_of_ne_zero hpos.ne'
  rw [handLevels53_succ]
  refine execAll_congr ?_
  rw [exec_levelR53_ofNat hpos hn h, exec_levelR53_ofNat (s := complete s) hpos hn h]
  exact (runCommand_complete (ignores_sr2d _ _) s).symm

/-- What the checks of a whole transform say: those of a level, and that `DW_NL` is a level number or 0 (R210). -/
theorem fullChecks_hold {cap : Capacity} {p : ParamRegs} (h : firstFailure (fullChecks cap p) = none) :
    firstFailure (planeChecks cap p) = none ∧ p.dwNl.toNat ≤ 32 := by
  obtain ⟨hplane, hlev⟩ := firstFailure_append.mp h
  exact ⟨hplane, of_decide_eq_true (firstFailure_none.mp hlev _ List.mem_cons_self)⟩

theorem exec_fullR53 {s : State} (h : firstFailure (fullChecks s.cap s.par) = none) :
    exec .idwtFullR53 s =
      runCommand false (forEach (levelsDown s.par.dwNl.toNat) fun lev => sr2d (regionOf s.par lev) kernel53) s :=
  runCommand_checked (l := fun s => fullChecks s.cap s.par) h

/-- Settles O56: level by level, the command and the commands by hand end alike, or differ in `STATUS` alone until the
next completes. -/
theorem reversibleFullTransformIsItsLevels : Obligations.ReversibleFullTransformIsItsLevels := by
  intro s h
  obtain ⟨hplane, hlev⟩ := fullChecks_hold h
  refine ⟨fun hzero => ?_, fun hpos => ?_⟩
  · rw [exec_fullR53 h, hzero]
    rfl
  · rw [exec_fullR53 h, execAll_handLevels53_complete hpos hlev hplane, execAll_handLevels53 hlev rfl hplane]

/-! ## What the levels make of the plane -/

/-- The plane is written whole. -/
def PlaneWhole (p : ParamRegs) (s : State) : Prop := ∀ k, k < planeW p * planeH p → Memory.has s.samp k = true

/-- Only words of the plane have changed, all are written, and the words are now `f`. -/
structure PlaneMade (p : ParamRegs) (f : Nat → Word) (s t : State) : Prop where
  only    : SampOnly s t
  words   : sampWord t = f
  whole   : PlaneWhole p t
  outside : ∀ k, planeW p * planeH p ≤ k → Memory.read t.samp k = Memory.read s.samp k

theorem inRegion_iff {g : Region} (hw : regionW g ≤ g.pw) {k : Nat} :
    inRegion g k ↔ k % g.pw < regionW g ∧ k / g.pw < regionH g := by
  constructor
  · rintro ⟨r, c, hr, hc, rfl⟩
    obtain ⟨hdiv, hmod⟩ := region_coords (r := r) (Nat.lt_of_lt_of_le hc hw)
    rw [hdiv, hmod]
    exact ⟨hc, hr⟩
  · rintro ⟨hc, hr⟩
    exact ⟨_, _, hr, hc, (Nat.div_add_mod' k g.pw).symm⟩

theorem refCol_length {f : Nat → Word} {g : Region} {ker : Kernel} (hker : KeepsLength ker) (c : Nat) :
    (refCol f g ker c).length = regionH g := by
  rw [refCol, hker, List.length_map, List.length_range]

/-- The words of the plane after a level are those of the reference level. -/
theorem Synthesised.words {g : Region} {ker : Kernel} {s t : State} (hw : regionW g ≤ g.pw)
    (h : Synthesised g ker s t) : sampWord t = refPlane (sampWord s) g ker := by
  funext k
  rw [refPlane]
  split
  · rename_i hk
    have hread := h.inside _ _ hk.2 hk.1
    rw [Nat.div_add_mod'] at hread
    exact congrArg (Option.getD · 0) hread
  · exact sampWord_congr (h.outside k ((inRegion_iff hw).not.mpr ‹_›))

/-- A level of a plane written whole completes, and makes of it what the reference level does. -/
theorem sr2d_plane {p : ParamRegs} {ker : Kernel} (hker : KeepsLength ker) (lev : Nat) {s : State}
    (h : PlaneWhole p s) :
    ∃ t, sr2d (regionOf p lev) ker s = .ok () t ∧
      PlaneMade p (refPlane (sampWord s) (regionOf p lev) ker) s t := by
  obtain ⟨t, hrun, hsyn⟩ := sr2d_ok (regionW_le p lev) hker fun r c hr hc => h _ (region_index_lt hr hc)
  refine ⟨t, hrun, hsyn.only, hsyn.words (regionW_le p lev), fun k hk => ?_, fun k hk => ?_⟩
  · by_cases hin : inRegion (regionOf p lev) k
    · obtain ⟨r, c, hr, hc, rfl⟩ := hin
      rw [Memory.has, hsyn.inside r c hr hc, List.getElem?_eq_getElem (by rwa [refCol_length hker])]
      rfl
    · rw [Memory.has, hsyn.outside k hin]
      exact h k hk
  · refine hsyn.outside k fun ⟨r, c, hr, hc, he⟩ => ?_
    have := region_index_lt hr hc
    omega

/-- The levels from `n` down to 1 complete on a plane written whole, and make of it what the reference levels do. -/
theorem levels_plane {p : ParamRegs} {ker : Nat → Kernel} (hker : ∀ lev, KeepsLength (ker lev)) (n : Nat) {s : State}
    (h : PlaneWhole p s) :
    ∃ t, forEach (levelsDown n) (fun lev => sr2d (regionOf p lev) (ker lev)) s = .ok () t ∧
      PlaneMade p (refLevels p ker n (sampWord s)) s t := by
  induction n generalizing s with
  | zero => exact ⟨s, rfl, SampOnly.refl s, rfl, h, fun _ _ => rfl⟩
  | succ n ih =>
    obtain ⟨t, hrun, hmade⟩ := sr2d_plane (hker (n + 1)) (n + 1) h
    obtain ⟨u, hrest, honly, hwords, hwhole, hout⟩ := ih hmade.whole
    refine ⟨u, ?_, hmade.only.trans honly, ?_, hwhole, fun k hk => (hout k hk).trans (hmade.outside k hk)⟩
    · rw [levelsDown_succ, forEach_cons, eng_bind_ok hrun, hrest]
    · rw [hwords, hmade.words, refLevels]

/-! ## The commands -/

/-- Settles O57: every level keeps the plane written whole. -/
theorem reversibleFullTransformCompletes : Obligations.ReversibleFullTransformCompletes := by
  intro s h hwhole
  obtain ⟨t, hrun, honly, -, hwritten, hout⟩ :=
    levels_plane (ker := fun _ => kernel53) (fun _ => keepsLength_kernel53) s.par.dwNl.toNat hwhole
  exact ⟨complete t, (exec_fullR53 h).trans (runCommand_ok hrun), honly.completed, honly.kept_complete, honly.free,
    hwritten, hout⟩

theorem exec_fullI97 {s : State} (h : firstFailure (fullChecks s.cap s.par) = none) :
    exec .idwtFullI97 s =
      runCommand false
        (forEach (levelsDown s.par.dwNl.toNat) fun lev => sr2d (regionOf s.par lev) (kernel97 binary32 s.freeCount lev))
        (drawFree s) :=
  (runCommand_checked (l := fun s => fullChecks s.cap s.par) h).trans
    (runCommand_congr (eng_bind_ok (eng_modify drawFree s)))

theorem read_eq_sampWord {s : State} {k : Nat} (h : Memory.has s.samp k = true) :
    Memory.read s.samp k = some (sampWord s k) := by
  obtain ⟨v, hv⟩ := Option.isSome_iff_exists.mp h
  rw [sampWord, hv, Option.getD_some]

/-- With one level the whole transform is that level. -/
theorem exec_levelI97_one {s : State} (h : firstFailure (fullChecks s.cap s.par) = none) (hone : s.par.dwNl = 1) :
    exec (.idwtLevelI97 1) s = exec .idwtFullI97 s := by
  rw [exec_levelI97 rfl (fullChecks_hold h).1, exec_fullI97 h, hone]
  exact runCommand_congr
    (forEach_singleton 1 (fun lev => sr2d (regionOf s.par lev) (kernel97 binary32 s.freeCount lev)) _).symm

/-- Settles O58: the levels are those of the reference, one after another, after one free value is drawn. -/
theorem irreversibleFullTransformCompletes : Obligations.IrreversibleFullTransformCompletes := by
  intro s h hwhole
  obtain ⟨t, hrun, honly, hwords, hwritten, hout⟩ :=
    levels_plane (ker := kernel97 binary32 s.freeCount) (fun _ => keepsLength_kernel97 _ _ _) s.par.dwNl.toNat
      (s := drawFree s) hwhole
  obtain ⟨hdone, hkept, hfree⟩ := honly.completed_drawFree
  have hexec : exec .idwtFullI97 s = .next (complete t) := (exec_fullI97 h).trans (runCommand_ok hrun)
  refine ⟨complete t, hexec, hdone, hkept, hfree, fun k hk => ?_, hwritten, hout, fun hzero => ?_, fun hone => ?_⟩
  · rw [complete_samp, read_eq_sampWord (hwritten k hk), hwords]
    rfl
  · rw [hzero] at hrun
    cases hrun
    rfl
  · rw [exec_levelI97_one h hone, hexec]

end Sys2Proof.Machine
end

section
/-! Rounding and the float operations (R217): the rounded significand is the nearest, the pattern of a rounded magnitude
stands for it or for an infinity, every operation on finite operands rounds its exact result once, and what the signs and
the NaNs of the results are. -/

namespace Sys2Proof.Machine

/-! ## The nearest significand -/

/-- `roundShift` is off by half a unit at most, and where by half a unit, even. -/
theorem roundShift_nearest (m k : Nat) :
    2 * ((roundShift m k : Int) * 2 ^ k - m).natAbs ≤ 2 ^ k ∧
      (2 * ((roundShift m k : Int) * 2 ^ k - m).natAbs = 2 ^ k → roundShift m k % 2 = 0) := by
  have hm := Nat.div_add_mod' m (2 ^ k)
  have hr := Nat.mod_lt m (Nat.two_pow_pos k)
  rw [← Nat.cast_ofNat (R := Int) (n := 2), ← Nat.cast_pow, ← Nat.cast_mul]
  simp only [roundShift]
  generalize 2 ^ k = p at *
  split_ifs
  · rw [Nat.add_mul, Nat.one_mul]
    omega
  · rw [Nat.add_mul, Nat.one_mul]
    omega
  · omega

theorem div_le_roundShift (m k : Nat) : m / 2 ^ k ≤ roundShift m k := by
  simp only [roundShift]
  split_ifs <;> omega

/-- Rounding reaches an even `n` exactly from half a unit below it, the tie included. -/
theorem le_roundShift_iff {n : Nat} (hn : n % 2 = 0) (hpos : 0 < n) (m k : Nat) :
    n ≤ roundShift m k ↔ (2 * n - 1) * 2 ^ k ≤ 2 * m := by
  obtain ⟨hnear, htie⟩ := roundShift_nearest m k
  have hp : 0 < 2 ^ k := Nat.two_pow_pos k
  rw [← Nat.cast_ofNat (R := Int) (n := 2), ← Nat.cast_pow, ← Nat.cast_mul] at hnear htie
  generalize roundShift m k = r, 2 ^ k = p at *
  have hhalf : (2 * n - 1) * p + p = 2 * (n * p) := by
    rw [← Nat.succ_mul, Nat.succ_eq_add_one, show 2 * n - 1 + 1 = 2 * n by omega, Nat.mul_assoc]
  constructor
  · intro hle
    have := Nat.mul_le_mul_right p hle
    omega
  · intro hle
    by_contra hlt
    have hbelow : r * p + p ≤ n * p := by
      rw [← Nat.succ_mul]
      exact Nat.mul_le_mul_right p (Nat.lt_of_not_le hlt)
    have heq : r * p + p = n * p := by omega
    have hsucc : r + 1 = n := Nat.eq_of_mul_eq_mul_right hp ((Nat.succ_mul r p).trans heq)
    have := htie (by omega)
    omega

/-- The significand in units of a place is exact at a place that drops nothing, and else the nearest. -/
theorem scaleTo_nearest (m : Nat) (e q : Int) :
    (q ≤ e → scaleTo m e q = m * 2 ^ (e - q).toNat) ∧
      (e < q → 2 * ((scaleTo m e q : Int) * 2 ^ (q - e).toNat - m).natAbs ≤ 2 ^ (q - e).toNat ∧
        (2 * ((scaleTo m e q : Int) * 2 ^ (q - e).toNat - m).natAbs = 2 ^ (q - e).toNat → scaleTo m e q % 2 = 0)) := by
  refine ⟨fun h => ?_, fun h => ?_⟩
  · rw [scaleTo]
    split
    · obtain rfl : q = e := by omega
      simp [roundShift, Nat.mod_one]
    · rfl
  · rw [scaleTo, if_pos h.le]
    exact roundShift_nearest m _

/-- Above the place of a subnormal the significand has 24 bits. -/
theorem le_scaleTo_lastPlace {m : Nat} {e : Int} (hm : m ≠ 0) (h : -149 < lastPlace m e) :
    2 ^ 23 ≤ scaleTo m e (lastPlace m e) := by
  have hplace : lastPlace m e = e + (Nat.log2 m : Int) - 23 := by rw [lastPlace] at h ⊢; omega
  have hlog : 2 ^ Nat.log2 m ≤ m := Nat.log2_self_le hm
  rw [scaleTo]
  split
  · refine le_trans ?_ (div_le_roundShift m _)
    rw [Nat.le_div_iff_mul_le (Nat.two_pow_pos _), ← Nat.pow_add]
    refine le_trans (Nat.pow_le_pow_right Nat.two_pos ?_) hlog
    omega
  · refine le_trans ?_ (Nat.mul_le_mul_right _ hlog)
    rw [← Nat.pow_add]
    exact Nat.pow_le_pow_right Nat.two_pos (by omega)

/-! ## The pattern of a rounded magnitude -/

/-- The pattern of `n` units of the place `q`, below that of infinity, stands for `n * 2^q`: a significand of 25 bits
carries into the exponent. -/
theorem fpVal_pattern (neg : Bool) {q : Int} {n : Nat} (hq : -149 ≤ q) (hn : n ≤ 2 ^ 24) (hnorm : -149 < q → 2 ^ 23 ≤ n)
    (hlt : (q + 149).toNat * 0x800000 + n < fpInf) :
    ∃ (n' : Nat) (q' : Int), q ≤ q' ∧ fpVal (fpWord neg ((q + 149).toNat * 0x800000 + n)) = .fin neg n' q' ∧
      n' * 2 ^ (q' - q).toNat = n := by
  replace hlt : (q + 149).toNat * 0x800000 + n < 0x7F800000 := hlt
  have hv := fpVal_fpWord neg (rest := (q + 149).toNat * 0x800000 + n) (by omega)
  rw [if_neg (by omega)] at hv
  by_cases hsub : n < 2 ^ 23
  · obtain rfl : q = -149 := by omega
    rw [if_pos (by omega)] at hv
    exact ⟨_, _, le_refl _, hv, by rw [sub_self, Int.toNat_zero]; omega⟩
  · rw [if_neg (by omega)] at hv
    by_cases hcarry : n = 2 ^ 24
    · refine ⟨_, _, ?_, hv, ?_⟩
      · omega
      · rw [show ((((q + 149).toNat * 0x800000 + n) / 2 ^ 23 : Nat) - 150 - q : Int).toNat = 1 by omega]
        omega
    · refine ⟨_, _, ?_, hv, ?_⟩
      · omega
      · rw [show ((((q + 149).toNat * 0x800000 + n) / 2 ^ 23 : Nat) - 150 - q : Int).toNat = 0 by omega]
        omega

theorem fpVal_fpRound_of_lt (neg : Bool) {m : Nat} {e : Int} (hm : m ≠ 0)
    (h : (lastPlace m e + 149).toNat * 0x800000 + scaleTo m e (lastPlace m e) < fpInf) :
    ∃ (n' : Nat) (q' : Int), lastPlace m e ≤ q' ∧ fpVal (fpRound neg m e) = .fin neg n' q' ∧
      n' * 2 ^ (q' - lastPlace m e).toNat = scaleTo m e (lastPlace m e) := by
  rw [fpRound_of_lt neg hm h]
  exact fpVal_pattern neg (lastPlace_ge m e) (scaleTo_lastPlace_le m e) (le_scaleTo_lastPlace hm) h

theorem fpVal_fpRound_of_le (neg : Bool) {m : Nat} {e : Int} (hm : m ≠ 0)
    (h : fpInf ≤ (lastPlace m e + 149).toNat * 0x800000 + scaleTo m e (lastPlace m e)) :
    fpVal (fpRound neg m e) = .inf neg := by
  simp only [fpRound, if_neg hm, if_pos h]
  rw [fpVal_fpWord neg (by decide)]
  rfl

/-! ## The threshold of overflow -/

/-- `a * 2^j ≤ m * 2^e`, as a comparison of integers in two ways. -/
theorem scaled_le_iff (a j m : Nat) (e : Int) :
    a * 2 ^ j * 2 ^ (-e).toNat ≤ m * 2 ^ e.toNat ↔ a * 2 ^ ((j : Int) - e).toNat ≤ m * 2 ^ (e - j).toNat := by
  rw [Nat.mul_assoc, ← Nat.pow_add]
  rcases le_total (j : Int) e with h | h
  · rw [show j + (-e).toNat = ((j : Int) - e).toNat + j by omega, show e.toNat = (e - j).toNat + j by omega,
      Nat.pow_add, Nat.pow_add, ← Nat.mul_assoc, ← Nat.mul_assoc]
    exact Nat.mul_le_mul_right_iff (Nat.two_pow_pos j)
  · rw [show j + (-e).toNat = ((j : Int) - e).toNat + e.toNat by omega, show (e - j).toNat = 0 by omega, Nat.pow_add,
      ← Nat.mul_assoc, Nat.pow_zero, Nat.mul_one]
    exact Nat.mul_le_mul_right_iff (Nat.two_pow_pos _)

/-- A last place above that of the largest finite value: the magnitude is at least `2^128`. -/
theorem overflow_of_place_gt {m : Nat} {e : Int} (hm : m ≠ 0) (h : 105 ≤ lastPlace m e) :
    (2 ^ 25 - 1) * 2 ^ (103 - e).toNat ≤ m * 2 ^ (e - 103).toNat := by
  have hlog : 128 ≤ e + (Nat.log2 m : Int) := by rw [lastPlace] at h; omega
  calc (2 ^ 25 - 1) * 2 ^ (103 - e).toNat
    _ ≤ 2 ^ 25 * 2 ^ (103 - e).toNat := Nat.mul_le_mul_right _ (Nat.sub_le _ _)
    _ = 2 ^ (25 + (103 - e).toNat) := (Nat.pow_add 2 25 _).symm
    _ ≤ 2 ^ (Nat.log2 m + (e - 103).toNat) := Nat.pow_le_pow_right Nat.two_pos (by omega)
    _ = 2 ^ Nat.log2 m * 2 ^ (e - 103).toNat := Nat.pow_add 2 _ _
    _ ≤ m * 2 ^ (e - 103).toNat := Nat.mul_le_mul_right _ (Nat.log2_self_le hm)

/-- A last place below that of the largest finite value: the magnitude is below `2^127`. -/
theorem no_overflow_of_place_lt {m : Nat} {e : Int} (h : lastPlace m e ≤ 103) :
    m * 2 ^ (e - 103).toNat < (2 ^ 25 - 1) * 2 ^ (103 - e).toNat := by
  have hlog : e + (Nat.log2 m : Int) ≤ 126 := by rw [lastPlace] at h; omega
  calc m * 2 ^ (e - 103).toNat
    _ < 2 ^ (Nat.log2 m + 1) * 2 ^ (e - 103).toNat := Nat.mul_lt_mul_of_pos_right Nat.lt_log2_self (Nat.two_pow_pos _)
    _ = 2 ^ (Nat.log2 m + 1 + (e - 103).toNat) := (Nat.pow_add 2 _ _).symm
    _ ≤ 2 ^ (24 + (103 - e).toNat) := Nat.pow_le_pow_right Nat.two_pos (by omega)
    _ = 2 ^ 24 * 2 ^ (103 - e).toNat := Nat.pow_add 2 24 _
    _ ≤ (2 ^ 25 - 1) * 2 ^ (103 - e).toNat := Nat.mul_le_mul_right _ (by decide)

/-- At the last place of the largest finite value the significand carries out of 24 bits exactly from half a unit above
the largest, the tie going to the even one. -/
theorem overflow_iff_carry (m : Nat) (e : Int) :
    2 ^ 24 ≤ scaleTo m e 104 ↔ (2 ^ 25 - 1) * 2 ^ (103 - e).toNat ≤ m * 2 ^ (e - 103).toNat := by
  rw [scaleTo]
  split
  · rename_i he
    rw [le_roundShift_iff (by decide) (by decide)]
    rcases eq_or_lt_of_le he with rfl | hlt
    · rw [show ((104 : Int) - 104).toNat = 0 from rfl, show ((103 : Int) - 104).toNat = 0 from rfl,
        show ((104 : Int) - 103).toNat = 1 from rfl]
      omega
    · rw [show (104 - e).toNat = (103 - e).toNat + 1 by omega, show (e - 103).toNat = 0 by omega]
      omega
  · rw [show (e - 103).toNat = (e - 104).toNat + 1 by omega, show (103 - e).toNat = 0 by omega,
      pow_succ 2 (e - 104).toNat, ← Nat.mul_assoc]
    omega

/-- The pattern reaches that of infinity exactly where the magnitude is at least half a unit above the largest finite
value. -/
theorem fpInf_le_iff {m : Nat} {e : Int} (hm : m ≠ 0) :
    fpInf ≤ (lastPlace m e + 149).toNat * 0x800000 + scaleTo m e (lastPlace m e) ↔
      (2 ^ 25 - 1) * 2 ^ 103 * 2 ^ (-e).toNat ≤ m * 2 ^ e.toNat := by
  rw [scaled_le_iff, show fpInf = 0x7F800000 from rfl, Nat.cast_ofNat]
  have hle := scaleTo_lastPlace_le m e
  have hge := le_scaleTo_lastPlace (e := e) hm
  rcases lt_trichotomy (lastPlace m e) 104 with h | h | h
  · have hsmall := no_overflow_of_place_lt (m := m) (e := e) (by omega)
    exact iff_of_false (by omega) (Nat.not_le.mpr hsmall)
  · rw [← overflow_iff_carry, h]
    omega
  · exact iff_of_true (by have := hge (by omega); omega) (overflow_of_place_gt hm (by omega))

/-! ## Operations on finite operands -/

theorem signedNat_eq (neg : Bool) (m : Nat) : signedNat neg m = (if neg then -1 else 1) * (m : Int) := by
  cases neg <;> simp [signedNat]

/-- An exact zero has the sign of its terms where they are both negative, which makes both zero; else it is +0. -/
theorem fpWord_zero_sum {n₁ n₂ : Bool} {m₁ k₁ k₂ : Nat} (h : signedNat n₁ (m₁ * 2 ^ k₁) + signedNat n₂ k₂ = 0) :
    fpWord (n₁ && n₂ && decide (m₁ = 0)) 0 = if n₁ = true ∧ n₂ = true then 0x80000000 else 0x00000000 := by
  cases n₁
  · rfl
  · cases n₂
    · rfl
    · have hzero : m₁ * 2 ^ k₁ = 0 := by simp only [signedNat, if_true] at h; omega
      obtain rfl : m₁ = 0 := (Nat.mul_eq_zero.mp hzero).resolve_right (Nat.two_pow_pos k₁).ne'
      rfl

/-- A sum of finite values rounds its exact result once (R217). -/
theorem fpAddFin_eq (n₁ n₂ : Bool) (m₁ m₂ : Nat) (e₁ e₂ : Int) {x : Int}
    (hx : (if n₁ then -1 else 1) * (m₁ * 2 ^ (e₁ - min e₁ e₂).toNat : Int) +
      (if n₂ then -1 else 1) * (m₂ * 2 ^ (e₂ - min e₁ e₂).toNat : Int) = x) :
    fpAddFin n₁ m₁ e₁ n₂ m₂ e₂ =
      if x = 0 then (if n₁ = true ∧ n₂ = true then 0x80000000 else 0x00000000)
      else fpRound (decide (x < 0)) x.natAbs (min e₁ e₂) := by
  have hsum : signedNat n₁ (m₁ * 2 ^ (e₁ - min e₁ e₂).toNat) + signedNat n₂ (m₂ * 2 ^ (e₂ - min e₁ e₂).toNat) = x := by
    rw [signedNat_eq, signedNat_eq, ← hx]
    push_cast
    rfl
  simp only [fpAddFin, hsum]
  split
  · exact fpWord_zero_sum (hsum.trans ‹_›)
  · rfl

/-- Settles O59: the pattern of a rounded magnitude is read back, and each operation is one rounding by definition. -/
theorem roundingIsToNearestEven : Obligations.RoundingIsToNearestEven := by
  refine ⟨fun neg m e hm => ⟨⟨fun hinf => ?_, fun hle => ?_⟩, fun hlt => ?_⟩, fun t a b n₁ n₂ m₁ m₂ e₁ e₂ ha hb => ?_,
    fun _ => rfl⟩
  · by_contra hover
    obtain ⟨n', q', -, hfin, -⟩ := fpVal_fpRound_of_lt neg hm (Nat.lt_of_not_le ((fpInf_le_iff hm).not.mpr hover))
    rw [hinf] at hfin
    cases hfin
  · exact fpVal_fpRound_of_le neg hm ((fpInf_le_iff hm).mpr hle)
  · obtain ⟨n', q', hq, hfin, hn⟩ :=
      fpVal_fpRound_of_lt neg hm (Nat.lt_of_not_le ((fpInf_le_iff hm).not.mpr (Nat.not_le.mpr hlt)))
    obtain ⟨hexact, hnear⟩ := scaleTo_nearest m e (lastPlace m e)
    exact ⟨_, n', q', hq, hfin, hn, hexact, hnear⟩
  · refine ⟨?_, ?_, ?_⟩
    · rw [fpMul, ha, hb, fpProduct]
    · rw [fpAdd, ha, hb, fpSum]
      exact fpAddFin_eq n₁ n₂ m₁ m₂ e₁ e₂ rfl
    · rw [fpSub, ha, hb, fpValNeg, fpSum]
      exact fpAddFin_eq n₁ (!n₂) m₁ m₂ e₁ e₂ rfl

/-! ## Signs -/

/-- The sign of a value, where it is no NaN. -/
def FpVal.sign : FpVal → Option Bool
  | .nan => none
  | .inf n => some n
  | .fin n _ _ => some n

/-- The sign of a value is bit 31 of its pattern. -/
theorem sign_fpVal {w : Word} (h : fpVal w ≠ .nan) : (fpVal w).sign = some w.msb := by
  simp only [fpVal] at h ⊢
  split_ifs at h ⊢
  · rfl
  · exact absurd rfl h
  · rfl
  · rfl

theorem msb_eq_of_sign {w : Word} {n : Bool} (h : (fpVal w).sign = some n) : w.msb = n := by
  have hnan : fpVal w ≠ .nan := fun hn => by rw [hn] at h; cases h
  exact Option.some.inj ((sign_fpVal hnan).symm.trans h)

/-- A pattern up to that of infinity has the sign it is given. -/
theorem sign_fpWord (neg : Bool) {rest : Nat} (h : rest ≤ fpInf) : (fpVal (fpWord neg rest)).sign = some neg := by
  replace h : rest ≤ 0x7F800000 := h
  rw [fpVal_fpWord neg (by omega)]
  split
  · rw [if_pos (by omega)]
    rfl
  · split <;> rfl

theorem sign_fpRound (neg : Bool) (m : Nat) (e : Int) : (fpVal (fpRound neg m e)).sign = some neg := by
  simp only [fpRound]
  split
  · exact sign_fpWord neg (Nat.zero_le _)
  · refine sign_fpWord neg ?_
    split
    · exact le_refl _
    · omega

theorem fpVal_quietNan (t : FpTag) (op : FpOp) : fpVal (quietNan t op) = .nan := by
  have hpay := ((Config.nanBits t op).extractLsb' 0 22).isLt
  rw [quietNan, fpVal_fpWord _ (by omega), if_pos (by omega), if_neg (by omega)]

/-- A product that is no NaN has the exclusive-or of the signs of its operands (R217). -/
theorem sign_fpProduct {nan : Word} (hnan : fpVal nan = .nan) {a b : FpVal} (h : fpVal (fpProduct nan a b) ≠ .nan) :
    ∃ n₁ n₂, a.sign = some n₁ ∧ b.sign = some n₂ ∧ (fpVal (fpProduct nan a b)).sign = some (xor n₁ n₂) := by
  cases a with
  | nan => exact absurd hnan h
  | inf n₁ =>
    cases b with
    | nan => exact absurd hnan h
    | inf n₂ => exact ⟨n₁, n₂, rfl, rfl, sign_fpWord _ (le_refl _)⟩
    | fin n₂ m₂ e₂ =>
      simp only [fpProduct] at h ⊢
      split_ifs at h ⊢
      · exact absurd hnan h
      · exact ⟨n₁, n₂, rfl, rfl, sign_fpWord _ (le_refl _)⟩
  | fin n₁ m₁ e₁ =>
    cases b with
    | nan => exact absurd hnan h
    | inf n₂ =>
      simp only [fpProduct] at h ⊢
      split_ifs at h ⊢
      · exact absurd hnan h
      · exact ⟨n₁, n₂, rfl, rfl, sign_fpWord _ (le_refl _)⟩
    | fin n₂ m₂ e₂ => exact ⟨n₁, n₂, rfl, rfl, sign_fpRound _ _ _⟩

theorem msb_fpMul {t : FpTag} {a b : Word} (h : fpVal (fpMul t a b) ≠ .nan) : (fpMul t a b).msb = xor a.msb b.msb := by
  obtain ⟨n₁, n₂, ha, hb, hsign⟩ := sign_fpProduct (fpVal_quietNan t .fmul) h
  rw [msb_eq_of_sign ha, msb_eq_of_sign hb]
  exact msb_eq_of_sign hsign

/-! ## NaN operands -/

theorem fpSum_nan {a b : FpVal} (nan : Word) (h : a = .nan ∨ b = .nan) : fpSum nan a b = nan := by
  rcases h with rfl | rfl
  · rfl
  · cases a <;> rfl

theorem fpProduct_nan {a b : FpVal} (nan : Word) (h : a = .nan ∨ b = .nan) : fpProduct nan a b = nan := by
  rcases h with rfl | rfl
  · rfl
  · cases a <;> rfl

/-- A value less itself is exactly zero, with terms of two signs (R217). -/
theorem fpSub_self {t : FpTag} {a : Word} {n : Bool} {m : Nat} {e : Int} (h : fpVal a = .fin n m e) :
    fpSub t a a = 0 := by
  rw [fpSub, h, fpValNeg, fpSum, fpAddFin_eq n (!n) m m e e (x := 0) (by cases n <;> simp), if_pos rfl]
  cases n <;> rfl

/-- Settles O60: signs are read back from the pattern, and a NaN operand makes the result the free quiet NaN. -/
theorem floatSignsAndNans : Obligations.FloatSignsAndNans := by
  refine ⟨fun _ _ _ _ _ => fpSub_self, fun t => ?_, fun _ _ _ => msb_fpMul, fun t a b h => ⟨?_, ?_, ?_⟩⟩
  · have hpos : fpVal 0x00000000 = .fin false 0 (-149) := rfl
    have hneg : fpVal 0x80000000 = .fin true 0 (-149) := rfl
    rw [fpAdd, hpos, hneg]
    rfl
  · rw [fpAdd, fpSum_nan _ h, fpVal_quietNan]
  · rw [fpSub, fpSum_nan _ (h.imp_right fun hb => by rw [hb]; rfl), fpVal_quietNan]
  · rw [fpMul, fpProduct_nan _ h, fpVal_quietNan]

end Sys2Proof.Machine
end

section
/-! The system commands and the host's memory accesses (R250 to R255): when a command word runs and when it is dropped,
how every command ends, what `NOP`, `RESET` and `CLRERR` do, and one element written or read by the host. -/

namespace Sys2Proof.Machine

/-! ## The issue of a command by one step -/

theorem acceptedInError_iff {w : Word} : acceptedInError w = true ↔ w = 0x00000001 ∨ w = 0x00000002 := by
  rw [acceptedInError, Bool.or_eq_true, decide_eq_true_iff, decide_eq_true_iff]

/-- An accepted command word runs as the command it decodes to (R250). -/
theorem step_accepted {s : State} {w : Word} {rest : List HostOp} {i : Instr} (hp : s.pending = issueOp w :: rest)
    (hb : s.status.busy = false) (he : s.status.err = true → acceptedInError w = true) (hd : decode w = .ok i) :
    step s = exec i (accept (setPending rest s)) :=
  (step_issue hp).trans (issue_accepted hb he hd)

/-- A command word that is not one of the two accepted in error is dropped while an error is pending (R250). -/
theorem step_dropped {s : State} {w : Word} {rest : List HostOp} (hp : s.pending = issueOp w :: rest)
    (he : s.status.err = true) (hw : acceptedInError w = false) : step s = .next (setPending rest s) :=
  (step_issue hp).trans (issue_dropped he hw)

/-- Settles O5: `step_accepted`, with the words accepted in error named. -/
theorem stepRunsDecodedCommand : Obligations.StepRunsDecodedCommand :=
  fun _ _ _ _ hp hb he hd => step_accepted hp hb (fun h => acceptedInError_iff.mpr (he h)) hd

/-- Settles O6: `issue` drops the word in either of its first two branches. -/
theorem commandsDroppedWhileBusyOrInError : Obligations.CommandsDroppedWhileBusyOrInError := by
  refine fun s w rest hp => ⟨fun hb => (step_issue hp).trans (issue_busy hb), fun he hreset hclrerr => ?_⟩
  have hw : acceptedInError w = false := eq_false_of_ne_true fun h => (acceptedInError_iff.mp h).elim hreset hclrerr
  exact step_dropped hp he hw

/-! ## How a command ends -/

/-- A command that answers a next state completed where its body ended, or took an error. -/
theorem exec_next {i : Instr} {s t : State} (h : exec i s = .next t) :
    (∃ u, commandBody i s = .ok () u ∧ t = complete u) ∨ ∃ closes k info u, t = takeError closes k info u := by
  cases hw : i.wellFormed with
  | false =>
    rw [exec_illFormed hw] at h
    cases h
    exact .inr ⟨false, .unsupported, encode i, s, rfl⟩
  | true =>
    rw [exec_wellFormed hw] at h
    exact (runCommand_next h).imp_right fun ⟨k, info, u, _, hu⟩ => ⟨closesSession i, k, info, u, hu⟩

/-- No command that completes leaves an error pending that was not. -/
theorem commandBody_keeps_no_error {i : Instr} {s u : State} (h : commandBody i s = .ok () u)
    (he : s.status.err = false) : u.status.err = false := by
  by_cases hr : i = .reset
  · subst hr; cases h; rfl
  by_cases hc : i = .clrerr
  · subst hc; cases h; rfl
  have hsame := (leaves_commandBody i hr hc s).1
  rw [h] at hsame
  exact hsame.err.trans he

/-- Settles O7: a command that completes sets `DONE` and leaves `ERR` at 0; one that takes an error sets `ERR` and
clears `DONE`. -/
theorem commandsEndIdleInDoneOrError : Obligations.CommandsEndIdleInDoneOrError := by
  intro i s t h
  rcases exec_next h with ⟨u, hbody, rfl⟩ | ⟨closes, k, info, u, rfl⟩
  · refine ⟨rfl, fun he => iff_of_true rfl ?_⟩
    exact commandBody_keeps_no_error (u := u) hbody he
  · exact ⟨rfl, fun _ => iff_of_false nofun nofun⟩

/-! ## `NOP`, `RESET`, `CLRERR` -/

/-- Where the block was idle, completing sets `DONE` alone. -/
theorem StatusFlags.completed_of_idle {f : StatusFlags} (h : f.busy = false) : f.completed = { f with done := true } := by
  rw [completed, ← h]

theorem exec_nop (s : State) : exec .nop s = .next (complete s) := rfl

theorem exec_reset (s : State) : exec .reset s = .next (complete (softReset s)) := rfl

theorem exec_clrerr (s : State) : exec .clrerr s = .next (complete (acknowledgeError s)) := rfl

/-- Settles O8: the body of `NOP` is empty, and its word is not accepted in error. -/
theorem nopOnlySetsDone : Obligations.NopOnlySetsDone := by
  refine ⟨exec_nop, fun s rest hp hb => ⟨fun he => ?_, fun he => step_dropped hp he rfl⟩⟩
  have hstep := step_accepted (i := .nop) hp hb (fun h => absurd (he.symm.trans h) nofun) rfl
  rw [hstep, exec_nop, ← StatusFlags.completed_of_idle hb]
  rfl

/-- Settles O9: `softReset` writes every register, latch, flag and context and no memory, and the acceptance of the
command shows in nothing it keeps. -/
theorem resetCommandPutsRegistersBack : Obligations.ResetCommandPutsRegistersBack := by
  refine fun s => ⟨complete (softReset s), exec_reset s, fun rest hp hb => ?_, rfl, rfl, rfl, readParam_zero, rfl, rfl,
    initialContexts_get, rfl, rfl, rfl, rfl, rfl, rfl, rfl, rfl⟩
  rw [step_accepted (i := .reset) hp hb (fun _ => rfl) rfl, exec_reset]
  rfl

/-- Settles O10: the body of `CLRERR` is the acknowledgement, and its word is accepted in error. -/
theorem clrerrOnlyClearsTheError : Obligations.ClrerrOnlyClearsTheError := by
  refine ⟨exec_clrerr, fun s rest hp hb => ?_⟩
  have hidle : s.status.acknowledged.busy = false := hb
  have hdone : s.status.acknowledged.completed = { s.status with err := false, errcode := 0, done := true } :=
    StatusFlags.completed_of_idle hidle
  rw [step_accepted (i := .clrerr) hp hb (fun _ => rfl) rfl, exec_clrerr, ← hdone]
  rfl

/-! ## Memory accesses of an idle block -/

/-- A memory of `n` elements after a host write at index `i`: outside the space the write is ignored (R254). -/
def Memory.hostWrite {α : Type} (m : Memory α) (n i : Nat) (v : α) : Memory α :=
  if i < n then Memory.write m i v else m

theorem Memory.read_hostWrite {α : Type} (m : Memory α) (n i k : Nat) (v : α) :
    Memory.read (Memory.hostWrite m n i v) k = if k = i ∧ i < n then some v else Memory.read m k := by
  rw [hostWrite]
  split
  · rename_i hi
    simp only [Memory.read_write, hi, and_true]
  · rename_i hi
    rw [if_neg fun h => hi h.2]

theorem step_writeBs {s : State} {i : Nat} {b : Byte} {rest : List HostOp} (hb : s.status.busy = false)
    (hp : s.pending = .writeBs i b :: rest) :
    step s = .next { s with pending := rest, bs := Memory.hostWrite s.bs s.cap.bsBytes i b } := by
  rw [step_accessIdle hb hp, accessIdle, Memory.hostWrite, setPending_cap]
  split <;> rfl

theorem step_writeCoef {s : State} {i : Nat} {v : Word} {rest : List HostOp} (hb : s.status.busy = false)
    (hp : s.pending = .writeCoef i v :: rest) :
    step s = .next { s with pending := rest, coef := Memory.hostWrite s.coef Config.cbMaxArea i v } := by
  rw [step_accessIdle hb hp, accessIdle, Memory.hostWrite]
  split <;> rfl

theorem step_writeSamp {s : State} {i : Nat} {v : Word} {rest : List HostOp} (hb : s.status.busy = false)
    (hp : s.pending = .writeSamp i v :: rest) :
    step s = .next { s with pending := rest, samp := Memory.hostWrite s.samp s.cap.sampWords i v } := by
  rw [step_accessIdle hb hp, accessIdle, Memory.hostWrite, setPending_cap]
  split <;> rfl

/-- Settles O22: each write leaves its memory as `Memory.hostWrite` does, which is read back by `Memory.read_hostWrite`. -/
theorem hostWritesStoreOneElement : Obligations.HostWritesStoreOneElement := fun _ _ _ _ _ hb =>
  ⟨fun hp => ⟨_, step_writeBs hb hp, fun _ => Memory.read_hostWrite ..⟩,
    fun hp => ⟨_, step_writeCoef hb hp, fun _ => Memory.read_hostWrite ..⟩,
    fun hp => ⟨_, step_writeSamp hb hp, fun _ => Memory.read_hostWrite ..⟩⟩

/-- A host read of a memory of `n` elements whose element is `v?`: the element, 0 outside the space, and a stop where
nothing was written (R255, R70). -/
theorem loadElement_cases (n i : Nat) (v? : Option Word) (f : Fault) (s : State) :
    (∀ v, i < n → v? = some v → loadElement (decide (i < n)) v? f s = .next (setHostData v s)) ∧
    (n ≤ i → loadElement (decide (i < n)) v? f s = .next (setHostData 0 s)) ∧
    (i < n → v? = none → loadElement (decide (i < n)) v? f s = .fault f) := by
  refine ⟨?_, fun hi => ?_, ?_⟩
  · rintro v hi rfl
    rw [decide_eq_true hi]; rfl
  · rw [decide_eq_false (Nat.not_lt.mpr hi)]; rfl
  · rintro hi rfl
    rw [decide_eq_true hi]; rfl

/-- Settles O23: each read is a `loadElement`, of a byte zero-extended in BS and of a word as it stands in COEF and
SAMP. -/
theorem hostReadsReturnOneElement : Obligations.HostReadsReturnOneElement := by
  intro s i rest hb
  refine ⟨fun hp => ?_, fun hp => ?_, fun hp => ?_⟩
  · rw [step_accessIdle hb hp]
    obtain ⟨hread, hout, hfault⟩ := loadElement_cases s.cap.bsBytes i ((Memory.read s.bs i).map (·.setWidth 32))
      (.unwrittenBs i) (setPending rest s)
    exact ⟨fun b hi h => hread _ hi (h ▸ rfl), hout, fun hi h => hfault hi (h ▸ rfl)⟩
  · rw [step_accessIdle hb hp]
    exact loadElement_cases Config.cbMaxArea i (Memory.read s.coef i) (.unwrittenCoef i) (setPending rest s)
  · rw [step_accessIdle hb hp]
    exact loadElement_cases s.cap.sampWords i (Memory.read s.samp i) (.unwrittenSamp i) (setPending rest s)

end Sys2Proof.Machine
end

section
/-! What an error leaves (R272, R275, R276): the kinds of error a command can raise, where it raises each, and that every
kind but `CorruptBitstream` is raised before anything is written. -/

namespace Sys2Proof.Machine

variable {α β : Type}

/-! ## Where a computation raises -/

/-- Every error the computation raises, from any state, is of a kind, with an `ERRINFO` and in a state that `E` allows. -/
def RaisesOnly (E : ErrKind → Word → State → Prop) (m : Eng α) : Prop :=
  ∀ s k info t, m s = .error (.raise k info) t → E k info t

section
variable {E : ErrKind → Word → State → Prop}

theorem raisesOnly_pure (a : α) : RaisesOnly E (pure a : Eng α) := fun _ _ _ _ h => nomatch h

theorem raisesOnly_get : RaisesOnly E (get : Eng State) := fun _ _ _ _ h => nomatch h

theorem raisesOnly_set (t : State) : RaisesOnly E (set t : Eng PUnit) := fun _ _ _ _ h => nomatch h

theorem raisesOnly_modify {f : State → State} : RaisesOnly E (modify f : Eng PUnit) :=
  fun _ _ _ _ h => nomatch h

theorem raisesOnly_bind {m : Eng α} {f : α → Eng β} (hm : RaisesOnly E m) (hf : ∀ a, RaisesOnly E (f a)) :
    RaisesOnly E (m >>= f) := fun s k info t h =>
  (eng_bind_eq_error.mp h).elim (hm s k info t) fun ⟨a, u, _, hu⟩ => hf a u k info t hu

theorem raisesOnly_ite {c : Prop} [Decidable c] {m n : Eng α} (hm : RaisesOnly E m) (hn : RaisesOnly E n) :
    RaisesOnly E (if c then m else n) := by
  split <;> assumption

theorem raisesOnly_onlyIf {c : Bool} {m : Eng Unit} (hm : RaisesOnly E m) : RaisesOnly E (onlyIf c m) :=
  raisesOnly_ite hm (raisesOnly_pure ())

theorem raisesOnly_forEach {l : List α} {body : α → Eng Unit} (h : ∀ x, RaisesOnly E (body x)) :
    RaisesOnly E (forEach l body) := by
  induction l with
  | nil => exact raisesOnly_pure ()
  | cons x r ih => exact raisesOnly_bind (h x) fun _ => ih

/-! ## Parts that never raise -/

theorem raisesOnly_readCoef (i : Nat) : RaisesOnly E (readCoef i) := by
  intro s k info t h
  cases hr : Memory.read s.coef i with
  | some v => rw [readCoef_ok hr] at h; cases h
  | none => rw [readCoef_unwritten hr] at h; cases h

theorem raisesOnly_readSamp (i : Nat) : RaisesOnly E (readSamp i) := by
  intro s k info t h
  cases hr : Memory.read s.samp i with
  | some v => rw [readSamp_ok hr] at h; cases h
  | none => rw [readSamp_unwritten hr] at h; cases h

theorem raisesOnly_readSamps (l : List Nat) : RaisesOnly E (readSamps l) := by
  induction l with
  | nil => exact raisesOnly_pure _
  | cons i r ih =>
    exact raisesOnly_bind (raisesOnly_readSamp i) fun _ => raisesOnly_bind ih fun _ => raisesOnly_pure _

theorem raisesOnly_chi (y x : Int) : RaisesOnly E (chi y x) :=
  raisesOnly_bind raisesOnly_get fun _ => raisesOnly_ite
    (raisesOnly_bind (raisesOnly_readCoef _) fun _ => raisesOnly_pure _) (raisesOnly_pure _)

theorem raisesOnly_clearGrid (n : Nat) : RaisesOnly E (clearGrid n) := raisesOnly_forEach fun _ => raisesOnly_modify

theorem raisesOnly_deqBlock (p : ParamRegs) (f : Word → Word) : RaisesOnly E (deqBlock p f) :=
  raisesOnly_forEach fun _ => raisesOnly_bind (raisesOnly_readCoef _) fun _ => raisesOnly_modify

theorem raisesOnly_synthLine (sources targets : List Nat) (ker : List Word → List Word) :
    RaisesOnly E (synthLine sources targets ker) :=
  raisesOnly_bind (raisesOnly_readSamps _) fun _ => raisesOnly_modify

theorem raisesOnly_sr2d (g : Region) (ker : Kernel) : RaisesOnly E (sr2d g ker) :=
  raisesOnly_ite (raisesOnly_pure _) (raisesOnly_bind (raisesOnly_forEach fun _ => raisesOnly_synthLine _ _ _) fun _ =>
    raisesOnly_forEach fun _ => raisesOnly_synthLine _ _ _)

/-! ## The passes, which raise where a decision does -/

variable (hD : ∀ c, RaisesOnly E (decodeBit c))
include hD

theorem raisesOnly_becomeSignificant (y x b : Nat) : RaisesOnly E (becomeSignificant y x b) :=
  raisesOnly_bind (raisesOnly_bind (raisesOnly_chi _ _) fun _ => raisesOnly_bind (raisesOnly_chi _ _) fun _ =>
    raisesOnly_bind (raisesOnly_chi _ _) fun _ => raisesOnly_bind (raisesOnly_chi _ _) fun _ =>
      raisesOnly_bind (hD _) fun _ => raisesOnly_pure _) fun _ => raisesOnly_modify

theorem raisesOnly_spVisit (b : Nat) (p : Nat × Nat) : RaisesOnly E (spVisit b p) :=
  raisesOnly_bind raisesOnly_get fun _ => raisesOnly_ite
    (raisesOnly_bind (hD _) fun _ =>
      raisesOnly_bind (raisesOnly_onlyIf (raisesOnly_becomeSignificant hD _ _ _)) fun _ => raisesOnly_modify)
    (raisesOnly_pure _)

theorem raisesOnly_mrVisit (b : Nat) (p : Nat × Nat) : RaisesOnly E (mrVisit b p) :=
  raisesOnly_bind raisesOnly_get fun _ => raisesOnly_ite
    (raisesOnly_bind (hD _) fun _ => raisesOnly_bind (raisesOnly_readCoef _) fun _ =>
      raisesOnly_bind raisesOnly_modify fun _ => raisesOnly_modify)
    (raisesOnly_pure _)

theorem raisesOnly_cuVisit (b x y : Nat) : RaisesOnly E (cuVisit b x y) :=
  raisesOnly_bind raisesOnly_get fun _ => raisesOnly_ite
    (raisesOnly_bind (hD _) fun _ => raisesOnly_onlyIf (raisesOnly_becomeSignificant hD _ _ _))
    (raisesOnly_pure _)

theorem raisesOnly_runLength (b y0 x : Nat) : RaisesOnly E (runLength b y0 x) :=
  raisesOnly_bind (hD _) fun _ => raisesOnly_ite
    (raisesOnly_bind (hD _) fun _ => raisesOnly_bind (hD _) fun _ =>
      raisesOnly_bind (raisesOnly_becomeSignificant hD _ _ _) fun _ => raisesOnly_pure _)
    (raisesOnly_pure _)

theorem raisesOnly_cuColumn (b : Nat) (p : Nat × Nat) : RaisesOnly E (cuColumn b p) := by
  refine raisesOnly_bind raisesOnly_get fun _ => raisesOnly_ite
    (raisesOnly_bind (raisesOnly_runLength hD b _ _) fun start => ?_)
    (raisesOnly_forEach fun _ => raisesOnly_cuVisit hD _ _ _)
  cases start with
  | none => exact raisesOnly_pure _
  | some k => exact raisesOnly_forEach fun _ => raisesOnly_cuVisit hD _ _ _

theorem raisesOnly_runPass (t : PassType) (b : Nat) : RaisesOnly E (runPass t b) := by
  cases t with
  | sp =>
    exact raisesOnly_bind raisesOnly_get fun _ => raisesOnly_bind (raisesOnly_forEach (raisesOnly_spVisit hD b))
      fun _ => raisesOnly_modify
  | mr =>
    exact raisesOnly_bind raisesOnly_get fun _ => raisesOnly_bind (raisesOnly_forEach (raisesOnly_mrVisit hD b))
      fun _ => raisesOnly_modify
  | cu =>
    exact raisesOnly_bind raisesOnly_get fun _ => raisesOnly_bind (raisesOnly_forEach (raisesOnly_cuColumn hD b))
      fun _ => raisesOnly_bind (raisesOnly_forEach fun _ => raisesOnly_modify) fun _ => raisesOnly_modify

end

/-! ## What the arithmetic decoder raises -/

/-- `CorruptBitstream` with the index of a byte that is not below `L`: the byte at the pointer, or the one after it
(R123, R272). -/
structure AskedPastEnd (k : ErrKind) (info : Word) (t : State) : Prop where
  kind  : k = .corruptBitstream
  past  : t.lat.len.toNat ≤ info.toNat
  asked : info.toNat = t.mq.bp.toNat ∨ info.toNat = t.mq.bp.toNat + 1

theorem askedPastEnd_of_byteIn {s t : State} {k : ErrKind} {info : Word} (h : byteIn s = .error (.raise k info) t) :
    AskedPastEnd k info s :=
  have ⟨hkind, hasked, hpast⟩ := byteIn_eq_raise h
  ⟨hkind, hpast, hasked.imp_left (congrArg BitVec.toNat)⟩

theorem raisesOnly_byteIn : RaisesOnly AskedPastEnd byteIn := fun _ _ _ _ h =>
  byteIn_eq_error h ▸ askedPastEnd_of_byteIn h

theorem raisesOnly_renormd (n : Nat) : RaisesOnly AskedPastEnd (renormd n) := fun _ _ _ _ h =>
  askedPastEnd_of_byteIn (renormd_eq_raise h).2

theorem raisesOnly_decodeBit (c : Fin 19) : RaisesOnly AskedPastEnd (decodeBit c) :=
  raisesOnly_bind raisesOnly_get fun _ => raisesOnly_bind (raisesOnly_set _) fun _ =>
    raisesOnly_bind (raisesOnly_onlyIf (raisesOnly_renormd _)) fun _ =>
      raisesOnly_bind raisesOnly_modify fun _ => raisesOnly_pure _

/-- The initialisation asks for byte 0 with the pointer there, then for the bytes of one refill (R125). -/
theorem raisesOnly_initDecoder : RaisesOnly AskedPastEnd initDecoder := by
  intro s k info t h
  rw [initDecoder_start] at h
  rcases eng_bind_eq_error.mp h with h | ⟨b0, u, -, h⟩
  · obtain ⟨rfl, rfl, hpast⟩ := bsRead_eq_raise h
    have ht : t = setMq { s.mq with bp := 0 } s := (congrArg endState h).symm.trans (bsRead_state 0 _)
    exact ht ▸ ⟨rfl, hpast, .inl rfl⟩
  · exact raisesOnly_bind raisesOnly_modify (fun _ => raisesOnly_bind raisesOnly_byteIn fun _ => raisesOnly_modify)
      u k info t h

theorem raisesOnly_decodePasses (npass zbp : Nat) : RaisesOnly AskedPastEnd (decodePasses npass zbp) :=
  raisesOnly_bind raisesOnly_initDecoder fun _ =>
    raisesOnly_forEach fun _ => raisesOnly_runPass raisesOnly_decodeBit _ _

/-! ## The errors of a command -/

/-- The commands of the sample plane, `DEQ.*` and `IDWT.*`. -/
def onPlane : Instr → Bool
  | .deqRev | .deqIrr | .idwtLevelR53 _ | .idwtLevelI97 _ | .idwtFullR53 | .idwtFullI97 => true
  | _ => false

/-- The errors command `i`, run in `s`, can end in (R270, R275): whether the error closes the session, its kind, its
`ERRINFO`, and the state it is raised in. All but `CorruptBitstream` are raised in the state the command began in. -/
inductive ErrorOf (i : Instr) (s : State) : Bool → ErrKind → Word → State → Prop
  | illegal : ErrorOf i s false .unsupported (encode i) s
  | geometry (n : ParamName) (hi : closesSession i = true ∨ onPlane i = true) :
      ErrorOf i s (closesSession i) .geometry (BitVec.ofNat 32 n.offset) s
  | sequence (hi : closesSession i = true) : ErrorOf i s true .sequence (encode i) s
  | corrupt {info : Word} {u : State} (hi : closesSession i = true) (h : AskedPastEnd .corruptBitstream info u) :
      ErrorOf i s true .corruptBitstream info u

/-- What is raised past the end is an error of any command that closes the session. -/
theorem ErrorOf.of_pastEnd {i : Instr} {s u : State} {k : ErrKind} {info : Word} (hi : closesSession i = true)
    (h : AskedPastEnd k info u) : ErrorOf i s (closesSession i) k info u := by
  obtain rfl := h.kind
  rw [hi]
  exact .corrupt hi h

/-- The error of a command that can answer `Sequence` (R129, R158). -/
theorem ErrorOf.of_sequence {i : Instr} {s : State} (hi : closesSession i = true) :
    ErrorOf i s (closesSession i) .sequence (encode i) s := by
  rw [hi]
  exact .sequence hi

/-- A body that checks its geometry first raises the first check that fails, or what the rest raises. -/
theorem checked_eq_raise {l : State → List Check} {body : State → Eng Unit} {s u : State} {k : ErrKind} {info : Word}
    (h : ((get : Eng State) >>= fun s => requireGeometry (l s) >>= fun _ => body s) s = .error (.raise k info) u) :
    (∃ n : ParamName, k = .geometry ∧ info = BitVec.ofNat 32 n.offset ∧ u = s) ∨
      body s s = .error (.raise k info) u := by
  rw [eng_bind_ok (eng_get s)] at h
  cases hf : firstFailure (l s) with
  | some n => rw [eng_bind_error (requireGeometry_fails hf s)] at h; cases h; exact .inl ⟨n, rfl, rfl, rfl⟩
  | none => rw [eng_bind_ok (requireGeometry_ok hf s)] at h; exact .inr h

/-- A command of the decoder that checks its geometry raises that, or past the end. -/
theorem ErrorOf.of_checked_decoder {i : Instr} {l : State → List Check} {body : State → Eng Unit} {s u : State}
    {k : ErrKind} {info : Word} (hi : closesSession i = true) (hb : ∀ s, RaisesOnly AskedPastEnd (body s))
    (h : ((get : Eng State) >>= fun s => requireGeometry (l s) >>= fun _ => body s) s = .error (.raise k info) u) :
    ErrorOf i s (closesSession i) k info u := by
  rcases checked_eq_raise h with ⟨n, rfl, rfl, rfl⟩ | hbody
  · exact .geometry n (.inl hi)
  · exact .of_pastEnd hi (hb s s k info u hbody)

/-- A command of the sample plane raises only where its geometry is checked. -/
theorem ErrorOf.of_checked_plane {i : Instr} {l : State → List Check} {body : State → Eng Unit} {s u : State}
    {k : ErrKind} {info : Word} (hi : onPlane i = true) (hb : ∀ s, RaisesOnly (fun _ _ _ => False) (body s))
    (h : ((get : Eng State) >>= fun s => requireGeometry (l s) >>= fun _ => body s) s = .error (.raise k info) u) :
    ErrorOf i s (closesSession i) k info u := by
  rcases checked_eq_raise h with ⟨n, rfl, rfl, rfl⟩ | hbody
  · exact .geometry n (.inr hi)
  · exact (hb s s k info u hbody).elim

theorem ErrorOf.of_passBody {i : Instr} {p : PassType} {b : Nat} {s u : State} {k : ErrKind} {info : Word}
    (hi : closesSession i = true) (h : passBody (encode i) (runPass p b) s = .error (.raise k info) u) :
    ErrorOf i s (closesSession i) k info u := by
  rw [passBody, requireSession, bind_assoc, eng_bind_ok (eng_get s)] at h
  split at h
  · exact .of_pastEnd hi (raisesOnly_runPass raisesOnly_decodeBit p b s k info u h)
  · cases h
    exact .of_sequence hi

theorem ErrorOf.of_mqDecode {c : BitVec 8} {s u : State} {k : ErrKind} {info : Word}
    (h : commandBody (.mqDecode c) s = .error (.raise k info) u) : ErrorOf (.mqDecode c) s true k info u := by
  rw [commandBody, mqDecodeBody, eng_bind_ok (eng_get s)] at h
  split at h
  · exact .of_pastEnd rfl (raisesOnly_bind (raisesOnly_decodeBit _) (fun _ => raisesOnly_pure ()) s k info u h)
  · cases h
    exact .sequence rfl

/-- What the body of a command raises, and where. -/
theorem commandBody_eq_raise {i : Instr} {s u : State} {k : ErrKind} {info : Word}
    (h : commandBody i s = .error (.raise k info) u) : ErrorOf i s (closesSession i) k info u := by
  cases i with
  | nop | reset | clrerr | mqResetcx => cases h
  | mqInit =>
    exact .of_checked_decoder rfl (fun _ => raisesOnly_bind raisesOnly_modify fun _ =>
      raisesOnly_bind raisesOnly_modify fun _ => raisesOnly_bind raisesOnly_initDecoder fun _ => raisesOnly_modify) h
  | mqDecode c => exact .of_mqDecode h
  | t1Start =>
    exact .of_checked_decoder rfl (fun _ => raisesOnly_bind raisesOnly_modify fun _ =>
      raisesOnly_bind raisesOnly_modify fun _ => raisesOnly_bind raisesOnly_modify fun _ =>
        raisesOnly_bind (raisesOnly_clearGrid _) fun _ => raisesOnly_bind raisesOnly_modify fun _ =>
          raisesOnly_modify) h
  | t1Sp b => exact .of_passBody (p := .sp) rfl h
  | t1Mr b => exact .of_passBody (p := .mr) rfl h
  | t1Cu b => exact .of_passBody (p := .cu) rfl h
  | t1Decode =>
    exact .of_checked_decoder rfl (fun _ => raisesOnly_bind raisesOnly_modify fun _ =>
      raisesOnly_bind raisesOnly_modify fun _ => raisesOnly_bind raisesOnly_modify fun _ =>
        raisesOnly_bind raisesOnly_modify fun _ => raisesOnly_bind (raisesOnly_clearGrid _) fun _ =>
          raisesOnly_bind raisesOnly_modify fun _ =>
            raisesOnly_bind (raisesOnly_onlyIf (raisesOnly_decodePasses _ _)) fun _ => raisesOnly_modify) h
  | deqRev | deqIrr => exact .of_checked_plane rfl (fun _ => raisesOnly_deqBlock _ _) h
  | idwtLevelR53 lev => exact .of_checked_plane rfl (fun _ => raisesOnly_sr2d _ _) h
  | idwtLevelI97 lev =>
    exact .of_checked_plane rfl (fun _ => raisesOnly_bind raisesOnly_modify fun _ => raisesOnly_sr2d _ _) h
  | idwtFullR53 => exact .of_checked_plane rfl (fun _ => raisesOnly_forEach fun _ => raisesOnly_sr2d _ _) h
  | idwtFullI97 =>
    exact .of_checked_plane rfl (fun _ => raisesOnly_bind raisesOnly_modify fun _ =>
      raisesOnly_forEach fun _ => raisesOnly_sr2d _ _) h

/-- A command that was issued with no error pending and ends in one took that error. -/
theorem exec_errorOf {i : Instr} {s t : State} (hs : s.status.err = false) (h : exec i s = .next t)
    (ht : t.status.err = true) : ∃ closes k info u, ErrorOf i s closes k info u ∧ t = takeError closes k info u := by
  cases hw : i.wellFormed with
  | false =>
    rw [exec_illFormed hw] at h
    cases h
    exact ⟨false, .unsupported, encode i, s, .illegal, rfl⟩
  | true =>
    rw [exec_wellFormed hw] at h
    rcases runCommand_next h with ⟨u, hbody, rfl⟩ | ⟨k, info, u, hbody, rfl⟩
    · exact absurd ((commandBody_keeps_no_error hbody hs).symm.trans ht) Bool.false_ne_true
    · exact ⟨closesSession i, k, info, u, commandBody_eq_raise hbody, rfl⟩

/-! ## What an error leaves -/

/-- The commands that close the session write no more than the decoder's side. -/
theorem exec_decoderSideKept {i : Instr} {s t : State} (hi : closesSession i = true) (h : exec i s = .next t) :
    DecoderSideKept s t := by
  have hw := exec_writtenBy (by rintro rfl; cases hi) h
  cases i with
  | mqInit | mqDecode | t1Start | t1Sp | t1Mr | t1Cu | t1Decode => exact hw.side
  | _ => cases hi

/-- `SESSION` and `MQRDY` are the same. -/
def SessionKept (s t : State) : Prop := t.status.session = s.status.session ∧ t.status.mqrdy = s.status.mqrdy

/-- `SESSION` and `MQRDY` are clear. -/
def SessionClosed (t : State) : Prop := t.status.session = false ∧ t.status.mqrdy = false

theorem sessionKept_takeError (k : ErrKind) (info : Word) (s : State) : SessionKept s (takeError false k info s) :=
  ⟨Bool.and_true _, Bool.and_true _⟩

theorem sessionClosed_takeError (k : ErrKind) (info : Word) (s : State) : SessionClosed (takeError true k info s) :=
  ⟨Bool.and_false _, Bool.and_false _⟩

section
variable {i : Instr} {s u : State} {closes : Bool} {k : ErrKind} {info : Word} (h : ErrorOf i s closes k info u)
include h

theorem ErrorOf.code : k.code = 3 ∨ k.code = 4 ∨ k.code = 5 ∨ k.code = 6 := by
  cases h <;> simp [ErrKind.code]

theorem ErrorOf.at_once (hk : k ≠ .corruptBitstream) : u = s := by
  cases h with
  | corrupt => exact absurd rfl hk
  | _ => rfl

theorem ErrorOf.word (hk : k = .unsupported ∨ k = .sequence) : info = encode i := by
  cases h with
  | illegal | sequence => rfl
  | geometry | corrupt => simp at hk

theorem ErrorOf.pastEnd (hk : k = .corruptBitstream) : AskedPastEnd k info u := by
  cases h with
  | corrupt _ hasked => exact hasked
  | _ => cases hk

theorem ErrorOf.register (hk : k = .geometry) : ∃ n : ParamName, info.toNat = n.offset := by
  cases h with
  | geometry n => exact ⟨n, by cases n <;> rfl⟩
  | _ => cases hk

/-- An error that is raised after something was written is that of a command of the decoder. -/
theorem ErrorOf.sideKept (hx : exec i s = .next (takeError closes k info u)) :
    DecoderSideKept s (takeError closes k info u) := by
  cases h with
  | corrupt hi => exact exec_decoderSideKept hi hx
  | _ => exact (DecoderSideKept.refl s).takeError _ _ _

/-- An illegal word and an error on the sample plane keep the session; any other error closes it (R275). -/
theorem ErrorOf.session :
    (onPlane i = true ∨ k = .unsupported) ∧ SessionKept s (takeError closes k info u) ∨
      closesSession i = true ∧ k ≠ .unsupported ∧ SessionClosed (takeError closes k info u) := by
  cases h with
  | illegal => exact .inl ⟨.inr rfl, sessionKept_takeError _ _ _⟩
  | geometry n hi =>
    cases hc : closesSession i with
    | true => exact .inr ⟨rfl, nofun, sessionClosed_takeError _ _ _⟩
    | false => exact .inl ⟨.inl (hi.resolve_left (by simp [hc])), sessionKept_takeError _ _ _⟩
  | sequence hi => exact .inr ⟨hi, nofun, sessionClosed_takeError _ _ _⟩
  | corrupt hi => exact .inr ⟨hi, nofun, sessionClosed_takeError _ _ _⟩

end

theorem ErrKind.code_injective : Function.Injective ErrKind.code := by
  intro j k h
  cases j <;> cases k <;> cases h <;> rfl

/-- Settles O12: `ErrorOf` lists the errors of a command, and each part of the statement is read off the list. -/
theorem errorsLeaveAPreciseState : Obligations.ErrorsLeaveAPreciseState := by
  intro i s t hs h ht
  obtain ⟨closes, k, info, u, he, rfl⟩ := exec_errorOf hs h ht
  obtain ⟨hhost, hbs, hsamp, hfree⟩ := he.sideKept h
  have kind {j : ErrKind} (hj : k.code = j.code) : k = j := ErrKind.code_injective hj
  refine ⟨rfl, rfl, he.code, hhost, hbs, hsamp, hfree, fun hne => ?_,
    fun hc => he.word (hc.imp (kind (j := .unsupported)) (kind (j := .sequence))), fun hc => ?_,
    fun hc => he.register (kind hc), ?_⟩
  · obtain rfl := he.at_once fun hk => hne (congrArg ErrKind.code hk)
    rfl
  · obtain ⟨-, hpast, hasked⟩ := he.pastEnd (kind hc)
    exact ⟨hpast, hasked⟩
  · cases i with
    | deqRev | deqIrr | idwtLevelR53 | idwtLevelI97 | idwtFullR53 | idwtFullI97 =>
      rcases he.session with ⟨-, hkept⟩ | ⟨hi, -⟩
      · exact hkept
      · cases hi
    | _ =>
      rcases he.session with ⟨hk, hkept⟩ | ⟨-, hk, hclosed⟩
      · obtain rfl := hk.resolve_left nofun
        exact (if_pos rfl).mpr hkept
      · exact (if_neg fun hc => hk (kind hc)).mpr hclosed

end Sys2Proof.Machine
end
